-- ==== Sys2Proof/Word.lean ====
section
/-! DEFINITION. The word types of SCBZ2E and the slices of rule R10 (00_scope.md): bit `w-1` of a value of width `w` is
the most significant, `v[hi:lo]` is the field from bit `hi` down to bit `lo`. -/

namespace Sys2Proof

/-- A byte of the block buffer, of the raw input or of the output (R73: always unsigned). -/
abbrev Byte := BitVec 8

/-- A 32-bit register or the `value` field of a BitOperation word. -/
abbrev Word32 := BitVec 32

/-- An indexed memory or table (R33 to R45): pairs of element index and element, indices strictly rising.
An index that is not listed holds no value (10_state.md preamble: "unspecified"), so reading it is the model fault of
93_implementation_defined.md U5. -/
abbrev Store (w : Nat) := List (Nat × BitVec w)

/-- The one canonical form of a store: its indices strictly rise (so equal contents are equal data). No listed entry can
equal what an unlisted index reads as, because an unlisted index reads as no value. -/
abbrev Store.wf {w : Nat} (m : Store w) : Prop := (m.map Prod.fst).Pairwise (· < ·)

end Sys2Proof
end

