-- ==== Sys2Proof/Config.lean ====
section
/-! DEFINITION. The parameters of SCBZ2E: the constants D0 fixes (R6), the decided parameters (R7), the read-only table
`RNUMS` (R42, R176), and the parameters the spec leaves OPEN (R7, R47, 93 U1, U2, U13), which are opaque constants here:
nothing in Lean can evaluate them, so every claim holds for every value of them. -/

namespace Sys2Proof.Config

/-! ## Constants of R6 -/

/-- R6 `BASE_BLOCK`: block capacity per level. -/
def baseBlock : Nat := 100000
/-- R6 `LEVEL_MIN`. -/
def levelMin : Nat := 1
/-- R6 `LEVEL_MAX`. -/
def levelMax : Nat := 9
/-- R6 `RUN_MAX`: longest RLE1 run. -/
def runMax : Nat := 255
/-- R6 `RUN_LITERALS`: literal copies written for a run of 4 or more. -/
def runLiterals : Nat := 4
/-- R6 `WORK_FACTOR`. -/
def workFactor : Nat := 50
/-- R6 `RAND_TABLE_LEN`. -/
def randTableLen : Nat := 512
/-- R6 `G_SIZE`: symbols per coding group. -/
def gSize : Nat := 50
/-- R6 `N_GROUPS_MAX`: coding tables the table memories hold (R37 to R39: `t` in 0..5). -/
def nGroupsMax : Nat := 6
/-- R6 `N_ITERS`. -/
def nIters : Nat := 4
/-- R6 `LEN_MIN`. -/
def lenMin : Nat := 1
/-- R6 `LEN_MAX`. -/
def lenMax : Nat := 20
/-- R6 `BLOCK_MAGIC`. -/
def blockMagic : BitVec 48 := 0x314159265359#48
/-- R6 `EOS_MAGIC`. -/
def eosMagic : BitVec 48 := 0x177245385090#48
/-- R6 `THREADS_MIN`. -/
def threadsMin : Nat := 1
/-- R6 `THREADS_MAX`. -/
def threadsMax : Nat := 128

/-! ## Sizes of the table memories (R33 to R44) -/

/-- Symbols of the MTF/RLE2 alphabet a table row holds (R36 to R39: `v` in 0..257). -/
def alphaMax : Nat := 258
/-- R40: elements of `selector` and `selectorMtf`. -/
def selectorMax : Nat := 18002

/-! ## Decided parameters of R7 -/

/-- R7 `NGROUP_THRESH`, R221: the default of the parameter (92 D12), which `Params.simulator` takes. -/
def ngroupDefault : Vector Nat 4 := #v[200, 600, 1200, 2400]
/-- R7 `ICOST_IN`, R222 (92 D13). -/
def icostIn : Nat := 0
/-- R7 `ICOST_OUT`, R222 (92 D13). -/
def icostOut : Nat := 15
/-- R7 `CRC_POLY`, R153 (92 D9). -/
def crcPoly : Word32 := 0x04C11DB7#32
/-- R7 `CRC_INIT`, R21, R150 (92 D9). -/
def crcInit : Word32 := 0xFFFFFFFF#32
/-! ## R176: the table `RNUMS[0..511]`, in row order -/

def rnumsA : List Nat :=
  [619, 720, 127, 481, 931, 816, 813, 233, 566, 247, 985, 724, 205, 454, 863, 491,
   741, 242, 949, 214, 733, 859, 335, 708, 621, 574,  73, 654, 730, 472, 419, 436,
   278, 496, 867, 210, 399, 680, 480,  51, 878, 465, 811, 169, 869, 675, 611, 697,
   867, 561, 862, 687, 507, 283, 482, 129, 807, 591, 733, 623, 150, 238,  59, 379]
def rnumsB : List Nat :=
  [684, 877, 625, 169, 643, 105, 170, 607, 520, 932, 727, 476, 693, 425, 174, 647,
    73, 122, 335, 530, 442, 853, 695, 249, 445, 515, 909, 545, 703, 919, 874, 474,
   882, 500, 594, 612, 641, 801, 220, 162, 819, 984, 589, 513, 495, 799, 161, 604,
   958, 533, 221, 400, 386, 867, 600, 782, 382, 596, 414, 171, 516, 375, 682, 485]
def rnumsC : List Nat :=
  [911, 276,  98, 553, 163, 354, 666, 933, 424, 341, 533, 870, 227, 730, 475, 186,
   263, 647, 537, 686, 600, 224, 469,  68, 770, 919, 190, 373, 294, 822, 808, 206,
   184, 943, 795, 384, 383, 461, 404, 758, 839, 887, 715,  67, 618, 276, 204, 918,
   873, 777, 604, 560, 951, 160, 578, 722,  79, 804,  96, 409, 713, 940, 652, 934]
def rnumsD : List Nat :=
  [970, 447, 318, 353, 859, 672, 112, 785, 645, 863, 803, 350, 139,  93, 354,  99,
   820, 908, 609, 772, 154, 274, 580, 184,  79, 626, 630, 742, 653, 282, 762, 623,
   680,  81, 927, 626, 789, 125, 411, 521, 938, 300, 821,  78, 343, 175, 128, 250,
   170, 774, 972, 275, 999, 639, 495,  78, 352, 126, 857, 956, 358, 619, 580, 124]
def rnumsE : List Nat :=
  [737, 594, 701, 612, 669, 112, 134, 694, 363, 992, 809, 743, 168, 974, 944, 375,
   748,  52, 600, 747, 642, 182, 862,  81, 344, 805, 988, 739, 511, 655, 814, 334,
   249, 515, 897, 955, 664, 981, 649, 113, 974, 459, 893, 228, 433, 837, 553, 268,
   926, 240, 102, 654, 459,  51, 686, 754, 806, 760, 493, 403, 415, 394, 687, 700]
def rnumsF : List Nat :=
  [946, 670, 656, 610, 738, 392, 760, 799, 887, 653, 978, 321, 576, 617, 626, 502,
   894, 679, 243, 440, 680, 879, 194, 572, 640, 724, 926,  56, 204, 700, 707, 151,
   457, 449, 797, 195, 791, 558, 945, 679, 297,  59,  87, 824, 713, 663, 412, 693,
   342, 606, 134, 108, 571, 364, 631, 212, 174, 643, 304, 329, 343,  97, 430, 751]
def rnumsG : List Nat :=
  [497, 314, 983, 374, 822, 928, 140, 206,  73, 263, 980, 736, 876, 478, 430, 305,
   170, 514, 364, 692, 829,  82, 855, 953, 676, 246, 369, 970, 294, 750, 807, 827,
   150, 790, 288, 923, 804, 378, 215, 828, 592, 281, 565, 555, 710,  82, 896, 831,
   547, 261, 524, 462, 293, 465, 502,  56, 661, 821, 976, 991, 658, 869, 905, 758]
def rnumsH : List Nat :=
  [745, 193, 768, 550, 608, 933, 378, 286, 215, 979, 792, 961,  61, 688, 793, 644,
   986, 403, 106, 366, 905, 644, 372, 567, 466, 434, 645, 210, 389, 550, 919, 135,
   780, 773, 635, 389, 707, 100, 626, 958, 165, 504, 920, 176, 193, 713, 857, 265,
   203,  50, 668, 108, 645, 990, 626, 197, 510, 357, 358, 850, 858, 364, 936, 638]
/-- R176, R42: the 512 gap lengths of the randomisation. -/
def rnums : List Nat := rnumsA ++ (rnumsB ++ (rnumsC ++ (rnumsD ++ (rnumsE ++ (rnumsF ++ (rnumsG ++ rnumsH))))))

/-! ## Open parameters: free values -/

/-- R173, R46 (93 U1): the comparison work of a sort attempt on a buffer, where it ended or was abandoned (`true`: the
first attempt, `false`: the retry). FREE VALUE: "`work_done` cannot be computed from D0" (R173); a function of the
buffer alone. Log entry 1. -/
opaque sortWork : Bool → List Byte → BitVec 64

/-- R171 (93 U2) `TieOrder`: the place, among equal rotations, the sort of a buffer gives an offset. FREE VALUE: "The
contract therefore admits any order among equal rotations"; offsets to which it gives one place follow in ascending
order. Log entry 2. -/
opaque tieOrder : List Byte → Nat → Nat

/-- R312 (93 U13) `SortStackExceeded`. FREE VALUE. Log entry 3. -/
opaque sortStackExceeded : List Byte → Bool

/-- R7, R221 (93 U3) `NGROUP_THRESH`: the four lengths at which one coding table more is taken. "a model should take
`NGROUP_THRESH` as a parameter": FREE VALUE. Log entry 21. -/
opaque ngroupThresh : Vector Nat 4

/-- R8 `compressorThreadCount` as it is asked for: "OPEN as an instantiation parameter" (92 D23). FREE VALUE. Log entry 4. -/
opaque compressorThreadCount : Nat

/-- R8, R30: "clamped like `CFG.level`", to 1..128. -/
def clampLanes (requested : Nat) : Nat := min threadsMax (max threadsMin requested)

/-- R7, R30 `LANES`, which no rule of the single-lane core reads. -/
def lanes : Nat := clampLanes compressorThreadCount

/-- R49, R21 to R23: what a per-Block scalar register holds after block init where the spec calls it unspecified; the
second argument is drawn from the counter `freeCtr` of State. FREE VALUE. Log entry 6. -/
opaque unspecified (w : Nat) : Nat → BitVec w

/-- 93 U15: how many of the messages a command would push on `BYTES` are out when reset cuts it; the argument is drawn from
`freeCtr`. FREE VALUE: "any prefix of what the command would have pushed". Log entry 18. -/
opaque resetCut : Nat → Nat

end Sys2Proof.Config

namespace Sys2Proof

/-- The parameters, as the arguments R47 makes them ("They are arguments of the model's step function, fixed for a run").
`exec`, `step` and `State.reset` take `Config.params`, whose fields have no value in Lean. -/
structure Params where
  /-- R173: comparison work of an attempt (`true`: the first). -/
  sortWork : Bool → List Byte → BitVec 64
  /-- R171: order of equal rotations. -/
  tieOrder : List Byte → Nat → Nat
  /-- R312: a bounded-stack sort overflows on this buffer. -/
  sortStackExceeded : List Byte → Bool
  /-- R221: `NGROUP_THRESH`. -/
  ngroupThresh : Vector Nat 4
  /-- R30: `LANES`. -/
  lanes : Nat

/-- The parameters of the hardware: all free. -/
def Config.params : Params :=
  { sortWork := Config.sortWork, tieOrder := Config.tieOrder, sortStackExceeded := Config.sortStackExceeded
    ngroupThresh := Config.ngroupThresh, lanes := Config.lanes }

/-- R7: the defaults the test vectors use (`WorkExceeded` constant false, ascending offset, no stack bound, the default
thresholds, one lane).
Used by tests only: "Fixing `WorkExceeded` to constant `false` ... is allowed only in a simulator" (R173). -/
def Params.simulator : Params :=
  { sortWork := fun _ _ => 0, tieOrder := fun _ _ => 0, sortStackExceeded := fun _ => false
    ngroupThresh := Config.ngroupDefault, lanes := 1 }

end Sys2Proof
end

