-- ==== Sys2Proof/Syntax.lean ====
section
/-! DEFINITION. The instructions of SCBZ2E (00_scope.md section 6: "a command on `CMD`; a BitOperation on `BOP`; a phase
operation of the sequencer"), one constructor per row of the opcode table, and the words they arrive in. -/

namespace Sys2Proof

/-- One constructor per row of the opcode table. -/
inductive Instr where
  -- host commands, R106
  /-- R286 `OPEN level [, owns]`. -/
  | openStream (owns : Bool) (level : BitVec 8)
  /-- R287 `WRB byte`. -/
  | wrb (byte : BitVec 8)
  /-- R288 `CLOSEBLK`. -/
  | closeblk
  /-- R289 `FINISH`. -/
  | finish
  /-- R296 `SEEK`; bits 11:0 are ignored. -/
  | seek (ignored : BitVec 12)
  /-- R296 `READ`; bits 11:0 are ignored. -/
  | read (ignored : BitVec 12)
  /-- R296 `SETLEN`; bits 11:0 are ignored. -/
  | setlen (ignored : BitVec 12)
  /-- R110 reserved `hop` 0x0. -/
  | hcReserved0 (ignored : BitVec 12)
  /-- R110 reserved `hop` 0x8..0xF, and a word of `hop` 0x1..0x4 that violates its row ("a word of hop 0x1..0x4 that
  matches no row above is RESERVED_OP as well", the row's note). -/
  | hcReserved8F (word : BitVec 16)
  -- BitOperations, R107: decoded by `kind`; `count` and `value` are checked when the operation runs (R109)
  /-- R132 `BITS c, v`. -/
  | bits (count : BitVec 8) (value : BitVec 32)
  /-- R133 `BOOL b`. -/
  | boolean (count : BitVec 8) (value : BitVec 32)
  /-- R134 `UNARY n`. -/
  | unary (count : BitVec 8) (value : BitVec 32)
  /-- R135 `INT32 v`. -/
  | int32 (count : BitVec 8) (value : BitVec 32)
  /-- R136 `FLUSH`. -/
  | flush (count : BitVec 8) (value : BitVec 32)
  /-- R112 reserved kind 0x00. -/
  | boReserved00 (ignored : BitVec 40)
  /-- R112 reserved kinds 0x06..0x07. -/
  | boReserved0607 (ignored : BitVec 41)
  /-- R112 reserved kinds 0x08..0x0F. -/
  | boReserved080F (ignored : BitVec 43)
  /-- R112 reserved kinds 0x10..0x1F. -/
  | boReserved101F (ignored : BitVec 44)
  /-- R112 reserved kinds 0x20..0x3F. -/
  | boReserved203F (ignored : BitVec 45)
  /-- R112 reserved kinds 0x40..0x7F. -/
  | boReserved407F (ignored : BitVec 46)
  /-- R112 reserved kinds 0x80..0xFF. -/
  | boReserved80FF (ignored : BitVec 47)
  -- phase operations, R24
  /-- R150 `BLK.INIT`. -/
  | blkInit
  /-- R151 `BLK.WRITE v`. -/
  | blkWrite (byte : BitVec 8)
  /-- R152 `RLE1.FLUSHRUN`. -/
  | rle1Flushrun
  /-- R156 `BLK.CLOSE`. -/
  | blkClose
  /-- R294 `COMPRESS`. -/
  | compress
  /-- R172 `BWT.SORT`, first attempt. -/
  | bwtSort
  /-- R175 `BWT.RANDOMISE`. -/
  | bwtRandomise
  /-- R177 `BWT.SORT` retry. -/
  | bwtSortRetry
  /-- R178 `BWT.ORIGIN`. -/
  | bwtOrigin
  /-- R208 `MTF.GEN`. -/
  | mtfGen
  /-- R204 `RLE2.FLUSH`. -/
  | rle2Flush
  /-- R221 `HUF.NGROUPS`. -/
  | hufNgroups
  /-- R222 `HUF.INIT`. -/
  | hufInit
  /-- R224 `HUF.ITER`, the assignment part of one pass. -/
  | hufIter
  /-- R226 `HUF.MKLEN t`. -/
  | hufMklen (table : BitVec 3)
  /-- R229 `HUF.RANGECHK`. -/
  | hufRangechk
  /-- R230 `HUF.ASSIGN t`. -/
  | hufAssign (table : BitVec 3)
  /-- R231 `HUF.SELMTF`. -/
  | hufSelmtf
  /-- R270 `FRM.BLOCKHDR`. -/
  | frmBlockhdr
  /-- R250 `EMIT.INUSE`. -/
  | emitInuse
  /-- R251 `EMIT.COUNTS`. -/
  | emitCounts
  /-- R252 `EMIT.SELECTORS`. -/
  | emitSelectors
  /-- R253 `EMIT.LENGTHS`. -/
  | emitLengths
  /-- R254 `EMIT.SYMBOLS`. -/
  | emitSymbols
  /-- R291 `REPLAY`. -/
  | replay
  deriving DecidableEq, Repr

/-- A message that names an instruction, by the channel it arrives on (R9: each channel carries whole messages, so a
word has no byte order). -/
inductive CmdWord where
  /-- A host command word on `CMD`, R106. -/
  | hc (word : BitVec 16)
  /-- A BitOperation word on `BOP`, R107, from "a harness that drives `BOP` directly" (R112). -/
  | bo (word : BitVec 48)
  /-- A phase operation invoked directly by a harness (R273, 95 V11.18 to V11.19): bits 3:0 the `phase` that selects it
  (R24), bits 7:4 its place within the phase (field `step` of the opcode table, R109), bits 15:8 its operand. The spec
  gives phase operations no word (R109): this layout is the model's own. DESIGN CHOICE (log entry 5). -/
  | po (word : BitVec 16)
  deriving DecidableEq, Repr

end Sys2Proof
end

