-- ==== Sys2Proof/Machine/State.lean ====
section
/-! DEFINITION. The state of SCBZ2E (10_state.md), its reasons to stop, and the machine after reset (R48, R350). -/

namespace Sys2Proof.Machine

/-- R24: the sequencer register `phase`; its reserved encoding 14 is "never taken" and is no value of the type. -/
inductive Phase where
  | idle | filling | queued | sort1 | randomise | sort2 | origin | mtf | hufInit | hufIter | hufAssign | emit
  | compressed | flushed | fatal
  deriving DecidableEq, Repr

/-- R310: the faults of the hardware. `code`, in Ops.lean, gives their numbers. -/
inductive HwFault where
  | originNotFound | sortStack | codelenRange | doubleClose | config | workerFail
  | unsupported | sinkClosed | badBitop | badState | reservedOp
  deriving DecidableEq, Repr

/-- D0 §3 BitOperation in its recorded forms (R107: "`BOPQ` (the recorder) stores only kinds `0x01`..`0x03`"). -/
inductive BitOp where
  /-- `BITS count, value`. -/
  | bits (count : BitVec 8) (value : Word32)
  /-- `BOOL b`. -/
  | bool (b : Bool)
  /-- `UNARY n`. -/
  | unary (n : Word32)
  deriving DecidableEq, Repr

/-- R9: a message on the `BYTES` channel. -/
inductive SinkMsg where
  /-- One output byte. -/
  | byte (b : Byte)
  /-- R289: the `close` indication. -/
  | close
  deriving DecidableEq, Repr

/-- What the outside world presents to the core, in order of arrival (R9, R295, R350, R315). -/
inductive Input where
  /-- A message on `CMD`, on `BOP`, or a harness's direct invocation of a phase operation. -/
  | message (w : CmdWord)
  /-- The level input `SINK_WRITABLE` takes this value (R9, R286). -/
  | sinkWritable (b : Bool)
  /-- R315: a harness injects a lane failure for this block id (`LaneFails`, 93 U14). -/
  | laneFail (blk : Word32)
  /-- R350: the reset input, between two commands. -/
  | reset
  /-- R350: the reset input while this message is in flight (93 U15). -/
  | resetDuring (w : CmdWord)
  deriving DecidableEq, Repr

/-- The BitSink: R20, `sink_closed` of R26, and the channel `BYTES` of R45. -/
structure BitSink where
  /-- R20 `acc`. -/
  acc : BitVec 8
  /-- R20 `nacc`. -/
  nacc : BitVec 3
  /-- R26 `sink_closed`. -/
  closed : Bool
  /-- R45 `BYTES`: what has been pushed, oldest first. -/
  bytes : List SinkMsg
  deriving DecidableEq, Repr

/-- Every piece of state the spec gives the machine (10_state.md), and five fields that are the model's own or the
platform's: `inbox`, `rsp`, `sinkWritable`, `laneFails`, `freeCtr`. Two-dimensional tables (R37 to R39) hold element
`[t][v]` at index `258 t + v`. -/
structure State where
  -- R24
  phase : Phase
  -- R20, R26 `sink_closed`, `BYTES`
  sink : BitSink
  -- R21, R26 (`full`, `closed`)
  blkId : BitVec 32
  cap : BitVec 20
  len : BitVec 20
  rawCount : BitVec 32
  runByte : BitVec 8
  runLen : BitVec 8
  crc : BitVec 32
  blockCrc : BitVec 32
  full : Bool
  closed : Bool
  -- R22, R26 (`first_attempt`, `randomised`)
  origPtr : BitVec 24
  workDone : BitVec 64
  workLimit : Option (BitVec 32)
  firstAttempt : Bool
  randomised : Bool
  -- R23
  nInUse : BitVec 9
  alphaSize : BitVec 9
  zpend : BitVec 20
  nMTF : BitVec 20
  nGroups : BitVec 3
  nSelectors : BitVec 15
  iter : BitVec 3
  -- R27
  streamCrc : BitVec 32
  nextId : BitVec 32
  blocksEmitted : BitVec 32
  -- R26 (`stream_open`, `fatal`), R28 to R31
  streamOpen : Bool
  fatal : Bool
  cfgLevel : BitVec 4
  cfgOwnsSink : Bool
  cfgLanes : BitVec 8
  faultCode : BitVec 8
  faultBlk : BitVec 32
  -- R45: memories
  b : Store 8
  zptr : Store 20
  szptr : Store 9
  quadrant : Store 16
  ftab : Store 20
  bopq : List BitOp
  -- R33 to R44: table memories
  inUse : Store 1
  seqToUnseq : Store 8
  unseqToSeq : Store 8
  yy : Store 8
  mtfFreq : Store 20
  lens : Store 5
  code : Store 20
  rfreq : Store 20
  fave : Store 15
  cost : Store 11
  selector : Store 3
  selectorMtf : Store 3
  heap : Store 10
  weight : Store 32
  parent : Store 11
  pos : Store 3
  -- channels and inputs
  inbox : List Input
  rsp : List (BitVec 16)
  sinkWritable : Bool
  laneFails : List Word32
  -- the model's own counter for free values
  freeCtr : Nat
  deriving DecidableEq, Repr

/-- The memories and tables, as the model faults name them. -/
inductive Space where
  | b | zptr | szptr | inUse | mtfFreq | lens | code | rfreq | selector | selectorMtf | heap
  deriving DecidableEq, Repr

/-- Reasons the MODEL stops with a fault, "distinct from the hardware faults of rule R310" (93_implementation_defined.md
Part 1). The hardware faults are next states (R316, R317). -/
inductive Fault where
  /-- 93 U5: an element that no rule has written since reset or block init was read. Raised by the phase operations that
  read a memory or table. Safe: the spec says no rule performs such a read. -/
  | unspecifiedRead (where_ : Space)
  /-- 93 U6, R11: an index outside the declared range of a memory or table. Raised by the phase operations. Safe: "Never
  occurs under the rules". -/
  | indexOutOfRange (where_ : Space)
  /-- R224 asks for the least table when `nGroups = 0` (the register's range is 2..6, R23). Raised by `HUF.ITER`, for a
  harness that runs it before `HUF.NGROUPS`. Safe: it is reached under no rule. -/
  | noTable
  deriving DecidableEq, Repr

/-- The counters whose wrap 93 U7 refuses. -/
inductive Counter where
  | nextId | blocksEmitted | rawCount
  deriving DecidableEq, Repr

/-- Reasons the model gives a step no meaning. -/
inductive Refusal where
  /-- Raised by no arm of `exec` any more: an instruction without a meaning. Safe. -/
  | notModelled (mnemonic : String)
  /-- 93 U7, R27: "If `next_id` would pass `2^32 - 1` the model refuses". Raised by `BLK.INIT` (`nextId`), `REPLAY`
  (`blocksEmitted`), `BLK.WRITE` (`rawCount`) and the commands that run them. Safe. -/
  | counterWrap (c : Counter)
  /-- A harness word names no phase operation (the model's own port, `CmdWord.po`). Raised by `step`. Safe. -/
  | noSuchOperation (why : String)
  deriving DecidableEq, Repr

/-- R20, R48: the BitSink after reset; nothing has been pushed. -/
def BitSink.reset : BitSink := { acc := 0, nacc := 0, closed := false, bytes := [] }

/-- R48, R350: the machine after reset. The values R48 gives stand as it gives them; every other scalar register is zero
(DESIGN CHOICE, log entry 7), every memory and table holds no value. The platform presents `SINK_WRITABLE = 1`
(DESIGN CHOICE, log entry 8). `CFG.lanes` shows the parameter `LANES` (R30). -/
def State.resetFor (p : Params) : State where
  phase := .idle
  sink := BitSink.reset
  blkId := 0
  cap := 0
  len := 0
  rawCount := 0
  runByte := 0
  runLen := 0
  crc := 0
  blockCrc := 0
  full := false
  closed := false
  origPtr := 0
  workDone := 0
  workLimit := some 0
  firstAttempt := false
  randomised := false
  nInUse := 0
  alphaSize := 0
  zpend := 0
  nMTF := 0
  nGroups := 0
  nSelectors := 0
  iter := 0
  streamCrc := 0
  nextId := 0
  blocksEmitted := 0
  streamOpen := false
  fatal := false
  cfgLevel := 0
  cfgOwnsSink := false
  cfgLanes := BitVec.ofNat 8 p.lanes
  faultCode := 0
  faultBlk := 0
  b := []
  zptr := []
  szptr := []
  quadrant := []
  ftab := []
  bopq := []
  inUse := []
  seqToUnseq := []
  unseqToSeq := []
  yy := []
  mtfFreq := []
  lens := []
  code := []
  rfreq := []
  fave := []
  cost := []
  selector := []
  selectorMtf := []
  heap := []
  weight := []
  parent := []
  pos := []
  inbox := []
  rsp := []
  sinkWritable := true
  laneFails := []
  freeCtr := 0

/-- The machine after reset, with the parameters of the hardware. -/
def State.reset : State := State.resetFor Config.params

end Sys2Proof.Machine
end

