-- ==== Sys2Proof/Machine/Ops.lean ====
section
/-! DEFINITION. The named operations over memories and registers: stores, the outcome of an operation, fatal entry (R316),
the reset input (R350, the only way out of `FATAL`), responses (R108), the bit packer (R131). -/

namespace Sys2Proof

/-! ## Stores: R11 `MemRead`, `MemWrite`; R66 (whole elements only) -/

/-- Element `i`, or nothing where no rule has written it. -/
def Store.read {w : Nat} : Store w → Nat → Option (BitVec w)
  | [], _ => none
  | (k, v) :: m, i => if k = i then some v else Store.read m i

/-- Write `vs` to consecutive elements from `i` on. -/
def Store.writeRange {w : Nat} (m : Store w) (i : Nat) (vs : List (BitVec w)) : Store w :=
  m.filter (fun c => c.1 < i) ++ ((List.range' i vs.length).zip vs ++ m.filter (fun c => i + vs.length ≤ c.1))

/-- Write one element. -/
def Store.write {w : Nat} (m : Store w) (i : Nat) (v : BitVec w) : Store w := m.writeRange i [v]

/-- The listed elements with an index from `i` on, below `i + n`. -/
def Store.between {w : Nat} (m : Store w) (i n : Nat) : Store w := m.filter (fun c => i ≤ c.1 && c.1 < i + n)

/-- The `n` elements from `i` on, if every one of them has a value. -/
def Store.readRange {w : Nat} (m : Store w) (i n : Nat) : Option (List (BitVec w)) :=
  if (m.between i n).map Prod.fst = List.range' i n then some ((m.between i n).map Prod.snd) else none

/-- A table that a rule regenerates from element 0; elements past the end become unspecified. -/
def Store.ofList {w : Nat} (vs : List (BitVec w)) : Store w := (List.range' 0 vs.length).zip vs

/-- Numbers as `w`-bit elements. -/
def Store.ofNats (w : Nat) (ns : List Nat) : Store w := Store.ofList (ns.map (BitVec.ofNat w))

/-- Index of element `[t][v]` of a two-dimensional table (R37 to R39). -/
def tableIndex (t v : Nat) : Nat := Config.alphaMax * t + v

/-- The first `n` elements of row `t`. -/
def Store.readRow {w : Nat} (m : Store w) (t n : Nat) : Option (List (BitVec w)) := m.readRange (tableIndex t 0) n

/-- Write the first elements of row `t`. -/
def Store.writeRow {w : Nat} (m : Store w) (t : Nat) (vs : List (BitVec w)) : Store w :=
  m.writeRange (tableIndex t 0) vs

/-- A table whose rows from 0 on are regenerated; every other element becomes unspecified. -/
def Store.ofRows (w : Nat) (rows : List (List Nat)) : Store w :=
  (rows.zipIdx.map (fun r => (List.range' (tableIndex r.2 0) r.1.length).zip (r.1.map (BitVec.ofNat w)))).flatten

/-- Elements as numbers. -/
def natsOf {w : Nat} (vs : List (BitVec w)) : List Nat := vs.map BitVec.toNat

end Sys2Proof

namespace Sys2Proof.Machine

/-- How an operation of the core ends. `raised`: a fatal fault was taken (R316), "no later line of it, and no later phase,
executes". `stop` and `refuse` are the model's own stops (93 U5 to U7). -/
inductive Res where
  | done (s : State)
  | raised (s : State)
  | stop (f : Fault)
  | refuse (r : Refusal)
  deriving DecidableEq, Repr

/-- Run `k` after an operation that completed. -/
def Res.andThen (r : Res) (k : State → Res) : Res :=
  match r with
  | .done s => k s
  | .raised s => .raised s
  | .stop f => .stop f
  | .refuse r => .refuse r

/-- Use elements read from `space`, or stop (93 U5). -/
def readOr {α : Type} (space : Space) (o : Option α) (k : α → Res) : Res :=
  match o with
  | some x => k x
  | none => .stop (.unspecifiedRead space)

/-- Check an index range of `space`, or stop (93 U6). -/
def inRange (space : Space) (ok : Bool) (k : Res) : Res := if ok then k else .stop (.indexOutOfRange space)

/-! ## Faults: entry (R310, R316), and the way out (R321, R350) -/

/-- R310: the code of a fault. -/
def HwFault.code : HwFault → BitVec 8
  | .originNotFound => 0x01#8
  | .sortStack => 0x02#8
  | .codelenRange => 0x03#8
  | .doubleClose => 0x04#8
  | .config => 0x10#8
  | .workerFail => 0x20#8
  | .unsupported => 0x30#8
  | .sinkClosed => 0x40#8
  | .badBitop => 0x41#8
  | .badState => 0x42#8
  | .reservedOp => 0x43#8

/-- R316: fatal entry. The first fault's code and block id are latched, `fatal` is set, `phase` is `FATAL`; "everything
else keeps the value it had". -/
def State.fatalEntry (s : State) (f : HwFault) : State :=
  { s with
    faultCode := if s.fatal then s.faultCode else f.code
    faultBlk := if s.fatal then s.faultBlk else s.blkId
    fatal := true
    phase := .fatal }

/-- R11 `raise`. -/
def raise (f : HwFault) (s : State) : Res := .raised (s.fatalEntry f)

/-- R350: the reset input; there is no other return from a fault (R321). `BYTES` is not touched; the messages still to
come, the responses already given and the platform's inputs are the outside world's and stay. The counter of free values
stays, so that no free value is drawn twice. -/
def State.hardReset (s : State) : State :=
  { State.reset with
    sink := { BitSink.reset with bytes := s.sink.bytes }
    inbox := s.inbox
    rsp := s.rsp
    sinkWritable := s.sinkWritable
    laneFails := s.laneFails
    freeCtr := s.freeCtr }

/-! ## Responses: R108, R295 -/

/-- R108: the response word `{rkind, rcode}`. -/
def responseWord (rkind rcode : BitVec 8) : BitVec 16 := rkind ++ rcode

/-- R11 `respond`. -/
def State.respond (s : State) (rkind rcode : BitVec 8) : State := { s with rsp := s.rsp ++ [responseWord rkind rcode] }

/-- R108 OK. -/
def State.respondOk (s : State) : State := s.respond 0x00#8 0x00#8

/-- R108 REJECT. -/
def State.respondReject (s : State) : State := s.respond 0x01#8 0x00#8

/-- R317: a local fault "answers the command with `{0x02, code}` and changes nothing". -/
def State.respondLocal (s : State) (f : HwFault) : State := s.respond 0x02#8 f.code

/-- R297, R316: answer `{0x03, STATUS.fault_code}`. -/
def State.respondFatal (s : State) : State := s.respond 0x03#8 s.faultCode

/-- What a command leaves when the operation it runs ends: a completed one has given its own response. -/
def Res.command (r : Res) : Host.Outcome State Fault Refusal :=
  match r with
  | .done s => .next s
  | .raised s => .next s.respondFatal
  | .stop f => .fault f
  | .refuse r => .refused r

/-- What an operation invoked by the sequencer or a harness leaves: "no response word is produced because no command is
executing" (95 section 2.1). -/
def Res.direct (r : Res) : Host.Outcome State Fault Refusal :=
  match r with
  | .done s => .next s
  | .raised s => .next s
  | .stop f => .fault f
  | .refuse r => .refused r

/-- R285 steps 3 to 5, for a command that is spelled right and that the hardware supports. -/
def hostCommand (stateOk : Bool) (op : State → Res) (s : State) : Host.Outcome State Fault Refusal :=
  if s.fatal then .next s.respondFatal
  else if stateOk then (op s).command
  else .next (s.respondLocal .badState)

/-- R322: "nothing executes in `FATAL`": a BitOperation or a phase operation is run only while `fatal = 0`
(log entry 9). -/
def unlessFatal (op : State → Res) (s : State) : Host.Outcome State Fault Refusal :=
  if s.fatal then .next s else (op s).direct

/-! ## The bit packer: R60, R131 -/

/-- R11 `push_byte`. -/
def BitSink.push (k : BitSink) (b : Byte) : BitSink := { k with bytes := k.bytes ++ [.byte b] }

/-- R131: `{acc[6:0], b}`. -/
def shiftIn (acc : BitVec 8) (b : Bool) : BitVec 8 := (acc <<< 1) ||| (if b then 1#8 else 0#8)

/-- R131 `putbit`. -/
def BitSink.putBit (k : BitSink) (b : Bool) : BitSink :=
  if k.nacc = 7#3 then { k with acc := 0, nacc := 0, bytes := k.bytes ++ [.byte (shiftIn k.acc b)] }
  else { k with acc := shiftIn k.acc b, nacc := k.nacc + 1 }

/-- Bits in stream order. -/
def BitSink.putBits (k : BitSink) (bs : List Bool) : BitSink := bs.foldl BitSink.putBit k

/-! ## Per-Block unspecified values: R49 -/

/-- R49, 10_state.md preamble: what block init leaves unspecified. Scalar registers take free values (log entry 6); the
memories and tables hold no value until their rule writes them (93 U5). `quadrant` and `ftab` are written by no rule of
the contract (R180 to R186). -/
def State.blockUnspecified (s : State) : State :=
  let k := 16 * s.freeCtr
  { s with
    runByte := Config.unspecified 8 k
    blockCrc := Config.unspecified 32 (k + 1)
    origPtr := Config.unspecified 24 (k + 2)
    workDone := Config.unspecified 64 (k + 3)
    workLimit := some (Config.unspecified 32 (k + 4))
    firstAttempt := Config.unspecified 1 (k + 5) == 1#1
    randomised := Config.unspecified 1 (k + 6) == 1#1
    nInUse := Config.unspecified 9 (k + 7)
    alphaSize := Config.unspecified 9 (k + 8)
    zpend := Config.unspecified 20 (k + 9)
    nMTF := Config.unspecified 20 (k + 10)
    nGroups := Config.unspecified 3 (k + 11)
    nSelectors := Config.unspecified 15 (k + 12)
    iter := Config.unspecified 3 (k + 13)
    b := [], zptr := [], szptr := [], quadrant := [], ftab := []
    inUse := [], seqToUnseq := [], unseqToSeq := [], yy := [], mtfFreq := []
    lens := [], code := [], rfreq := [], fave := [], cost := []
    selector := [], selectorMtf := [], heap := [], weight := [], parent := [], pos := []
    freeCtr := s.freeCtr + 1 }

end Sys2Proof.Machine
end

