-- ==== Sys2Proof/Machine/Operands.lean ====
section
/-! DEFINITION. Operand forms: bit strings (R12, R61, R100), the operand checks of the BitOperations (R112, R139), the
clamp of the configuration (R28, R113), the run coding (R102) and zero-run coding (R103) operands, wrap-around reads
(R70, R71). -/

namespace Sys2Proof.Machine

/-- R12 `bitsof(n, v)`: the low `n` bits of `v`, most significant first; excess bits of `v` are ignored (R100). -/
def bitsOf {w : Nat} (n : Nat) (v : BitVec w) : List Bool := (List.range n).map (fun k => v.getLsbD (n - 1 - k))

/-- R101, R134: `n` ones then one zero. -/
def unaryBits (n : Nat) : List Bool := List.replicate n true ++ [false]

/-- R135, R62: the high half then the low half, each most significant bit first. -/
def int32Bits (v : Word32) : List Bool := bitsOf 16 (v.extractLsb' 16 16) ++ bitsOf 16 (v.extractLsb' 0 16)

/-- R112: `BITS` is legal with `count <= 32`. -/
def bitsLegal (count : BitVec 8) : Bool := count.toNat ≤ 32

/-- R112: `BOOL` is legal with `count = 1` and `value[31:1] = 0`. -/
def boolLegal (count : BitVec 8) (value : Word32) : Bool := count == 1#8 && value.extractLsb' 1 31 == 0#31

/-- R112, R139: `UNARY` is legal with `count = 0` and a value whose bit 31 is clear (non-negative as signed). -/
def unaryLegal (count : BitVec 8) (value : Word32) : Bool := count == 0#8 && !value.getLsbD 31

/-- R112: `INT32` is legal with `count = 32`. -/
def int32Legal (count : BitVec 8) : Bool := count == 32#8

/-- R112: `FLUSH` is legal with `count = 0` and `value = 0`. -/
def flushLegal (count : BitVec 8) (value : Word32) : Bool := count == 0#8 && value == 0#32

/-- R8, R28: a requested level clamped to 1..9. -/
def clampLevel (requested : BitVec 8) : BitVec 4 :=
  BitVec.ofNat 4 (min Config.levelMax (max Config.levelMin requested.toNat))

/-- R150: the capacity of a Block, in bytes of the buffer. -/
def capacity (level : BitVec 4) : BitVec 20 := BitVec.ofNat 20 (Config.baseBlock * level.toNat)

/-- R155 `cost(L)`: bytes a run of length `L` takes in the buffer. -/
def runCost (l : Nat) : Nat := if l ≤ 3 then l else 5

/-- R102: the bytes of a run of `l` bytes `v`: 1 to 3 literal copies, or 4 copies and the count byte `l - 4`. -/
def runBytes (v : Byte) (l : Nat) : List Byte :=
  if l ≤ 3 then List.replicate l v else List.replicate Config.runLiterals v ++ [BitVec.ofNat 8 (l - Config.runLiterals)]

/-- R103, R204, on a bound `fuel >= r`: the bijective base-2 digits of `r`, least significant first; RUNA is 0 (digit 1),
RUNB is 1 (digit 2). -/
def zeroRunAux : Nat → Nat → List Nat
  | 0, _ => []
  | fuel + 1, r =>
    if r = 0 then []
    else if r % 2 = 1 then 0 :: zeroRunAux fuel ((r - 1) / 2)
    else 1 :: zeroRunAux fuel ((r - 2) / 2)

/-- R103: the run symbols of a zero run of length `r`. -/
def zeroRun (r : Nat) : List Nat := zeroRunAux r r

/-- R103: the length a list of run symbols stands for, `sum_i d_i 2^i` with digit 1 for RUNA and 2 for RUNB. -/
def zeroRunValue : List Nat → Nat
  | [] => 0
  | d :: ds => (d + 1) + 2 * zeroRunValue ds

/-- R70 `Bwrap(i)`, on the bytes of the buffer. -/
def bwrap (bs : List Byte) (i : Nat) : Byte := bs.getD (i % bs.length) 0

/-- R71: the last byte of the rotation that starts at `z`. -/
def lastOfRotation (bs : List Byte) (z : Nat) : Byte := bwrap bs (z + bs.length - 1)

/-- R290: left rotation by one. -/
def rotl1 (v : Word32) : Word32 := (v <<< 1) ||| (v >>> 31)

/-- R105, R117 `MAGIC48`: two `BITS 24`, high half first. -/
def magicOps (m : BitVec 48) : List BitOp :=
  [.bits 24#8 ((m.extractLsb' 24 24).setWidth 32), .bits 24#8 ((m.extractLsb' 0 24).setWidth 32)]

/-- R107, R117: `INT32 v` as it is recorded, two `BITS 16`. -/
def int32Ops (v : Word32) : List BitOp :=
  [.bits 16#8 ((v.extractLsb' 16 16).setWidth 32), .bits 16#8 ((v.extractLsb' 0 16).setWidth 32)]

/-- R107: the word a recorded BitOperation stands for. -/
def BitOp.word : BitOp → BitVec 48
  | .bits c v => 0x01#8 ++ c ++ v
  | .bool b => 0x02#8 ++ 1#8 ++ (BitVec.ofBool b).setWidth 32
  | .unary n => 0x03#8 ++ 0#8 ++ n

/-- R132 to R134: the bits a recorded BitOperation writes. -/
def BitOp.stream : BitOp → List Bool
  | .bits c v => bitsOf c.toNat v
  | .bool b => [b]
  | .unary n => unaryBits n.toNat

/-- R112: a recorded BitOperation is legal. -/
def BitOp.legal : BitOp → Bool
  | .bits c _ => bitsLegal c
  | .bool _ => true
  | .unary n => unaryLegal 0#8 n

/-- Read every operand, in order, or stop at the first that has none. -/
def readAll {α β : Type} (f : α → Option β) : List α → Option (List β)
  | [] => some []
  | a :: as =>
    match f a, readAll f as with
    | some b, some bs => some (b :: bs)
    | _, _ => none

/-- The rows `0..n-1` of a two-dimensional table, `m` elements each. -/
def readRows {w : Nat} (t : Store w) (n m : Nat) : Option (List (List (BitVec w))) :=
  readAll (fun r => t.readRow r m) (List.range n)

end Sys2Proof.Machine
end

