-- ==== Sys2Proof/Machine/Flags.lean ====
section
/-! DEFINITION. The numbers of `phase` (R24), the status outputs (R31) and the conditions the flags are set from. "There are
no arithmetic condition codes" (R26): each flag is set and cleared only by the rules its row names, in the files of those
rules. -/

namespace Sys2Proof.Machine

/-- R24: the value of the 4-bit register. -/
def Phase.number : Phase → BitVec 4
  | .idle => 0
  | .filling => 1
  | .queued => 2
  | .sort1 => 3
  | .randomise => 4
  | .sort2 => 5
  | .origin => 6
  | .mtf => 7
  | .hufInit => 8
  | .hufIter => 9
  | .hufAssign => 10
  | .emit => 11
  | .compressed => 12
  | .flushed => 13
  | .fatal => 15

/-- R31: the status outputs, "read-only to the host, always valid". -/
structure Status where
  phase : BitVec 4
  full : Bool
  fatal : Bool
  faultCode : BitVec 8
  faultBlk : BitVec 32
  blkId : BitVec 32
  deriving DecidableEq, Repr

/-- R31. -/
def State.status (s : State) : Status :=
  { phase := s.phase.number, full := s.full, fatal := s.fatal, faultCode := s.faultCode, faultBlk := s.faultBlk,
    blkId := s.blkId }

/-- R151: the buffer bytes needed if `v` is accepted. -/
def writeNeed (s : State) (v : Byte) : Nat :=
  if s.runLen.toNat = 0 then s.len.toNat + 1
  else if v = s.runByte then s.len.toNat + runCost (s.runLen.toNat + 1)
  else s.len.toNat + runCost s.runLen.toNat + 1

/-- R151: `BLK.WRITE v` answers ACCEPT. -/
def accepts (s : State) (v : Byte) : Bool := !s.full && writeNeed s v ≤ s.cap.toNat

/-- R173: `WorkExceeded`, the comparison of the work counter with the limit of the first attempt. -/
def workExceeded (p : Params) (bs : List Byte) : Bool :=
  Config.workFactor * bs.length < (p.sortWork true bs).toNat

/-- R312: the explicit stack overflows; an empty buffer has nothing to push. -/
def stackExceeded (p : Params) (bs : List Byte) : Bool := !bs.isEmpty && p.sortStackExceeded bs

end Sys2Proof.Machine
end

