-- ==== Sys2Proof/Machine/Sort.lean ====
section
/-! DEFINITION. The sort of the rotations (42_bwt_sort.md): `BWT.SORT`, `BWT.RANDOMISE`, the retry, `BWT.ORIGIN`, by the
contract R170 to R179. The organisation of the sort (R180 to R186) is "not observable" and is not modelled. -/

namespace Sys2Proof.Machine

/-- R170 `rot(s)`. -/
def rotation (bs : List Byte) (i : Nat) : List Byte := bs.drop i ++ bs.take i

/-- R13: lexicographic order of unsigned bytes. -/
def lexCompare : List Byte → List Byte → Ordering
  | [], [] => .eq
  | [], _ :: _ => .lt
  | _ :: _, [] => .gt
  | a :: as, b :: bs => if a.toNat < b.toNat then .lt else if b.toNat < a.toNat then .gt else lexCompare as bs

/-- The order a sort puts two offsets in: rotations first (R171), equal rotations by `TieOrder` (R7, 93 U2), ascending
offset within one place. -/
def offsetLe (p : Params) (bs : List Byte) (i j : Nat) : Bool :=
  match lexCompare (rotation bs i) (rotation bs j) with
  | .lt => true
  | .gt => false
  | .eq =>
    if p.tieOrder bs i < p.tieOrder bs j then true
    else if p.tieOrder bs j < p.tieOrder bs i then false
    else i ≤ j

/-- R171: the offsets of the rotations in sorted order. -/
def sortOffsets (p : Params) (bs : List Byte) : List Nat :=
  (List.range bs.length).insertionSort (fun i j => offsetLe p bs i j = true)

/-- The bytes `B[0..n-1]`, `n = len`: an index of `cap` or more is 93 U6, an element never written 93 U5. -/
def withBuffer (s : State) (k : List Byte → Res) : Res :=
  inRange .b (s.len.toNat ≤ s.cap.toNat) (readOr .b (s.b.readRange 0 s.len.toNat) k)

/-- The elements `zptr[0..n-1]`. -/
def withZptr (s : State) (k : List Nat → Res) : Res :=
  inRange .zptr (s.len.toNat ≤ s.cap.toNat) (readOr .zptr (s.zptr.readRange 0 s.len.toNat) fun zs => k (natsOf zs))

/-- R172 `BWT.SORT`, first attempt. -/
def bwtSort (p : Params) (s : State) : Res :=
  withBuffer s fun bs =>
    let s :=
      { s with
        firstAttempt := true
        randomised := false
        workDone := p.sortWork true bs
        workLimit := some (BitVec.ofNat 32 (Config.workFactor * s.len.toNat)) }
    if stackExceeded p bs then raise .sortStack { s with zptr := [] }
    else if !bs.isEmpty && workExceeded p bs then .done { s with zptr := [], phase := .randomise }
    else .done { s with zptr := Store.ofNats 20 (sortOffsets p bs), phase := .origin }

/-- R175: the gap countdown; the byte at which it reads 1 has bit 0 inverted. -/
def randomiseBytes : Nat → Nat → List Byte → List Byte
  | _, _, [] => []
  | toGo, tPos, b :: bs =>
    let reload := toGo = 0
    let toGo := (if reload then Config.rnums.getD tPos 0 else toGo) - 1
    let tPos := if reload then (tPos + 1) % Config.randTableLen else tPos
    (if toGo = 1 then b ^^^ 1#8 else b) :: randomiseBytes toGo tPos bs

/-- R175 `BWT.RANDOMISE`. -/
def bwtRandomise (s : State) : Res :=
  withBuffer s fun bs =>
    .done
      { s with
        b := s.b.writeRange 0 (randomiseBytes 0 0 bs)
        randomised := true
        firstAttempt := false
        workDone := 0
        workLimit := none
        phase := .sort2 }

/-- R177 `BWT.SORT`, retry: the limit is disabled. -/
def bwtSortRetry (p : Params) (s : State) : Res :=
  withBuffer s fun bs =>
    let s := { s with workDone := p.sortWork false bs }
    if stackExceeded p bs then raise .sortStack { s with zptr := [] }
    else .done { s with zptr := Store.ofNats 20 (sortOffsets p bs), phase := .origin }

/-- R178: the first position that holds offset 0. -/
def originPosition : List Nat → Option Nat
  | [] => none
  | z :: zs => if z = 0 then some 0 else (originPosition zs).map (· + 1)

/-- R178 `BWT.ORIGIN`. -/
def bwtOrigin (s : State) : Res :=
  withZptr s fun zs =>
    match originPosition zs with
    | some i => .done { s with origPtr := BitVec.ofNat 24 i, phase := .mtf }
    | none => raise .originNotFound s

/-! ## Meanings -/

/-- R172. -/
def execBwtSort (s : State) : Host.Outcome State Fault Refusal := unlessFatal (bwtSort Config.params) s

/-- R175. -/
def execBwtRandomise (s : State) : Host.Outcome State Fault Refusal := unlessFatal bwtRandomise s

/-- R177. -/
def execBwtSortRetry (s : State) : Host.Outcome State Fault Refusal := unlessFatal (bwtSortRetry Config.params) s

/-- R178. -/
def execBwtOrigin (s : State) : Host.Outcome State Fault Refusal := unlessFatal bwtOrigin s

end Sys2Proof.Machine
end

