-- ==== Sys2Proof/Machine/Mtf.lean ====
section
/-! DEFINITION. The symbol stream (43_mtf_rle2.md): `MTF.GEN` and `RLE2.FLUSH`. -/

namespace Sys2Proof.Machine

/-- R200: the byte values that occur, ascending (`seqToUnseq`). -/
def usedBytes (bs : List Byte) : List Byte :=
  ((List.range 256).map (BitVec.ofNat 8)).filter (fun v => bs.contains v)

/-- The index of the first occurrence of `c`, or the length. -/
def rankOf (c : Nat) : List Nat → Nat
  | [] => 0
  | y :: ys => if y = c then 0 else rankOf c ys + 1

/-- R202: move the element at index `j` to the front. -/
def moveToFront (ys : List Nat) (j : Nat) : List Nat := ys.getD j 0 :: (ys.take j ++ ys.drop (j + 1))

/-- R202 to R205: the walk over dense indices from the list `ys` with `z` zero ranks pending; the symbols put, up to and
with EOB, and the list at the end. -/
def mtfWalk (eob : Nat) : List Nat → Nat → List Nat → List Nat × List Nat
  | ys, z, [] => (zeroRun z ++ [eob], ys)
  | ys, z, c :: cs =>
    let j := rankOf c ys
    if j = 0 then mtfWalk eob ys (z + 1) cs
    else
      let r := mtfWalk eob (moveToFront ys j) 0 cs
      (zeroRun z ++ (j + 1) :: r.1, r.2)

/-- R206: how often each of the first `n` symbols occurs. -/
def tally (n : Nat) (syms : List Nat) : List Nat := (List.range n).map (fun v => syms.count v)

/-- R71, R202: the dense indices of the last column, in sorted order, for the dense numbering `used`. -/
def lastColumn (used : List Nat) (bs : List Byte) (zs : List Nat) : List Nat :=
  zs.map (fun z => rankOf (lastOfRotation bs z).toNat used)

/-- R200 to R205: symbols and final list for a buffer and its sorted offsets. -/
def symbolsOf (bs : List Byte) (zs : List Nat) : List Nat × List Nat :=
  let used := (usedBytes bs).map BitVec.toNat
  mtfWalk (used.length + 1) (List.range used.length) 0 (lastColumn used bs zs)

/-- R208 `MTF.GEN`. -/
def mtfGen (s : State) : Res :=
  withBuffer s fun bs =>
    withZptr s fun zs =>
      let used := usedBytes bs
      let syms := (symbolsOf bs zs).1
      .done
        { s with
          inUse := Store.ofList ((List.range 256).map fun v => BitVec.ofBool (bs.contains (BitVec.ofNat 8 v)))
          seqToUnseq := Store.ofList used
          unseqToSeq := used.zipIdx.map fun v => (v.1.toNat, BitVec.ofNat 8 v.2)
          nInUse := BitVec.ofNat 9 used.length
          alphaSize := BitVec.ofNat 9 (used.length + 2)
          yy := Store.ofNats 8 (symbolsOf bs zs).2
          zpend := 0
          szptr := Store.ofNats 9 syms
          nMTF := BitVec.ofNat 20 syms.length
          mtfFreq := Store.ofNats 20 (tally (used.length + 2) syms)
          phase := .hufInit }

/-- R202 `put_symbol(s)`; `szptr` has `cap + 1` elements (R45). -/
def putSymbol (sym : Nat) (s : State) : Res :=
  inRange .szptr (s.nMTF.toNat < s.cap.toNat + 1)
    (readOr .mtfFreq (s.mtfFreq.read sym) fun f =>
      .done
        { s with
          szptr := s.szptr.write s.nMTF.toNat (BitVec.ofNat 9 sym)
          nMTF := s.nMTF + 1
          mtfFreq := s.mtfFreq.write sym (f + 1) })

/-- Put symbols in order. -/
def putSymbols : List Nat → State → Res
  | [], s => .done s
  | sym :: syms, s => (putSymbol sym s).andThen (putSymbols syms)

/-- R204 `RLE2.FLUSH`, as an operation of its own. -/
def rle2Flush (s : State) : Res :=
  (putSymbols (zeroRun s.zpend.toNat) s).andThen fun s => .done { s with zpend := 0 }

/-! ## Meanings -/

/-- R208. -/
def execMtfGen (s : State) : Host.Outcome State Fault Refusal := unlessFatal mtfGen s

/-- R204. -/
def execRle2Flush (s : State) : Host.Outcome State Fault Refusal := unlessFatal rle2Flush s

end Sys2Proof.Machine
end

