-- ==== Sys2Proof/Machine/Huffman.lean ====
section
/-! DEFINITION. Construction of the coding tables (44_huffman_tables.md), by the reference procedure R221 to R231:
`HUF.NGROUPS`, `HUF.INIT`, `HUF.ITER`, `HUF.MKLEN`, `HUF.RANGECHK`, `HUF.ASSIGN`, `HUF.SELMTF`. -/

namespace Sys2Proof.Machine

/-- R221 on the four thresholds. -/
def groupsFor (thresholds : Vector Nat 4) (nMTF : Nat) : Nat :=
  if nMTF < thresholds[0] then 2
  else if nMTF < thresholds[1] then 3
  else if nMTF < thresholds[2] then 4
  else if nMTF < thresholds[3] then 5
  else 6

/-- R221 `HUF.NGROUPS`. -/
def hufNgroups (p : Params) (s : State) : Res :=
  .done { s with nGroups := BitVec.ofNat 3 (groupsFor p.ngroupThresh s.nMTF.toNat) }

/-! ## R222: initial tables. A range `gs..ge` is held as `gs` and `hi = ge + 1`. -/

/-- R222, the inner loop: extend the range while it is short of `tFreq` and symbols remain; `fuel` bounds the symbols. -/
def growRange (freq : List Nat) (tFreq : Int) : Nat → Nat → Int → Nat × Int
  | 0, hi, aFreq => (hi, aFreq)
  | fuel + 1, hi, aFreq =>
    if aFreq < tFreq ∧ hi < freq.length then growRange freq tFreq fuel (hi + 1) (aFreq + (freq.getD hi 0 : Nat))
    else (hi, aFreq)

/-- R222, the outer loop, from `nPart` down: the ranges of tables `0..nPart-1`, by table. -/
def initRanges (freq : List Nat) (nGroups : Nat) : Nat → Int → Nat → List (Nat × Nat)
  | 0, _, _ => []
  | n + 1, remF, gs =>
    let r := growRange freq (remF / ((n + 1 : Nat) : Int)) freq.length gs 0
    let back := gs + 1 < r.1 ∧ n + 1 ≠ nGroups ∧ n + 1 ≠ 1 ∧ (nGroups - (n + 1)) % 2 = 1
    let hi := if back then r.1 - 1 else r.1
    let aFreq := if back then r.2 - ((freq.getD (r.1 - 1) 0 : Nat) : Int) else r.2
    initRanges freq nGroups n (remF - aFreq) hi ++ [(gs, hi)]

/-- R222: the pseudo-lengths of a table whose range is `r.1 .. r.2 - 1`. -/
def initRow (alpha : Nat) (r : Nat × Nat) : List Nat :=
  (List.range alpha).map (fun v => if r.1 ≤ v ∧ v < r.2 then Config.icostIn else Config.icostOut)

/-- R222: the pseudo-lengths of all tables. -/
def initLens (freq : List Nat) (nGroups nMTF : Nat) : List (List Nat) :=
  (initRanges freq nGroups nGroups nMTF 0).map (initRow freq.length)

/-- R222 `HUF.INIT`. -/
def hufInit (s : State) : Res :=
  inRange .lens (s.nGroups.toNat ≤ Config.nGroupsMax)
    (inRange .mtfFreq (s.alphaSize.toNat ≤ Config.alphaMax)
      (readOr .mtfFreq (s.mtfFreq.readRange 0 s.alphaSize.toNat) fun freq =>
        .done { s with lens := Store.ofRows 5 (initLens (natsOf freq) s.nGroups.toNat s.nMTF.toNat) }))

/-! ## R224, R225: one assignment pass -/

/-- R220, R224: groups of 50 symbols, the last one possibly shorter; `fuel` bounds the number of groups. -/
def groupsOf : Nat → List Nat → List (List Nat)
  | 0, _ => []
  | fuel + 1, syms =>
    if syms.isEmpty then [] else syms.take Config.gSize :: groupsOf fuel (syms.drop Config.gSize)

/-- R224: the coding groups of a symbol stream. -/
def symbolGroups (syms : List Nat) : List (List Nat) := groupsOf syms.length syms

/-- R224: the bit cost of a group under each table. -/
def groupCosts (lens : List (List Nat)) (g : List Nat) : List Nat :=
  lens.map (fun row => (g.map (fun v => row.getD v 0)).sum)

/-- R224: "ties go to the lowest table index". -/
def leastIndex (costs : List Nat) : Nat := rankOf (costs.foldl min (costs.headD 0)) costs

/-- R224: the table chosen for each group. -/
def selectTables (lens : List (List Nat)) (groups : List (List Nat)) : List Nat :=
  groups.map (fun g => leastIndex (groupCosts lens g))

/-- R225: symbol frequencies of the groups assigned to table `t`. -/
def tableFreqs (alpha : Nat) (groups : List (List Nat)) (sels : List Nat) (t : Nat) : List Nat :=
  tally alpha (((groups.zip sels).filter (fun p => p.2 = t)).map Prod.fst).flatten

/-- Rows `0..nGroups-1` of a two-dimensional table, `alphaSize` elements each. -/
def withRows {w : Nat} (space : Space) (table : Store w) (s : State) (k : List (List Nat) → Res) : Res :=
  inRange space (s.nGroups.toNat ≤ Config.nGroupsMax && s.alphaSize.toNat ≤ Config.alphaMax)
    (readOr space (readRows table s.nGroups.toNat s.alphaSize.toNat) fun rows => k (rows.map natsOf))

/-- The symbols `szptr[0..nMTF-1]`. -/
def withSymbols (s : State) (k : List Nat → Res) : Res :=
  inRange .szptr (s.nMTF.toNat ≤ s.cap.toNat + 1)
    (readOr .szptr (s.szptr.readRange 0 s.nMTF.toNat) fun syms => k (natsOf syms))

/-- R224 `HUF.ITER`. A symbol of `alphaSize` or more has no length (R37): 93 U5. `cost` holds the costs of the last
group. -/
def hufIter (s : State) : Res :=
  withSymbols s fun syms =>
    withRows .lens s.lens s fun lens =>
      let groups := symbolGroups syms
      let sels := selectTables lens groups
      if ¬ syms.all (fun v => v < s.alphaSize.toNat) then .stop (.unspecifiedRead .lens)
      else if lens.isEmpty && !syms.isEmpty then .stop .noTable
      else
        inRange .selector (groups.length ≤ Config.selectorMax)
          (.done
            { s with
              nSelectors := BitVec.ofNat 15 groups.length
              selector := Store.ofNats 3 sels
              fave := Store.ofNats 15 (tally s.nGroups.toNat sels)
              cost :=
                match groups.getLast? with
                | some g => Store.ofNats 11 (groupCosts lens g)
                | none => s.cost
              rfreq :=
                Store.ofRows 20
                  ((List.range s.nGroups.toNat).map (tableFreqs s.alphaSize.toNat groups sels)) })

/-! ## R226 to R228: code lengths -/

/-- The scratch of R226 (R41): a min-heap of node numbers, packed weights, parent links. -/
structure Forest where
  heap : List Nat
  weight : List Word32
  parent : List Int
  nHeap : Nat
  nNodes : Nat
  deriving DecidableEq, Repr

/-- R226: the packed weight of node `n`. -/
def Forest.wt (f : Forest) (n : Nat) : Nat := (f.weight.getD n 0).toNat

/-- The node at heap position `z`. -/
def Forest.at_ (f : Forest) (z : Nat) : Nat := f.heap.getD z 0

/-- R227 `upheap`, the element `tmp` rising from `z`; `fuel` bounds the halvings of `z`. -/
def upheapFrom (tmp : Nat) : Nat → Nat → Forest → Forest
  | 0, z, f => { f with heap := f.heap.set z tmp }
  | fuel + 1, z, f =>
    if f.wt tmp < f.wt (f.at_ (z / 2)) then
      upheapFrom tmp fuel (z / 2) { f with heap := f.heap.set z (f.at_ (z / 2)) }
    else { f with heap := f.heap.set z tmp }

/-- R227 `upheap(z)`. -/
def Forest.upheap (f : Forest) (z : Nat) : Forest := upheapFrom (f.at_ z) z z f

/-- R227: the smaller child, left on a tie. -/
def Forest.child (f : Forest) (z : Nat) : Nat :=
  if 2 * z < f.nHeap ∧ f.wt (f.at_ (2 * z + 1)) < f.wt (f.at_ (2 * z)) then 2 * z + 1 else 2 * z

/-- R227 `downheap`, the element `tmp` sinking from `z`; `fuel` bounds the doublings of `z`. -/
def downheapFrom (tmp : Nat) : Nat → Nat → Forest → Forest
  | 0, z, f => { f with heap := f.heap.set z tmp }
  | fuel + 1, z, f =>
    if f.nHeap < 2 * z then { f with heap := f.heap.set z tmp }
    else if f.wt tmp < f.wt (f.at_ (f.child z)) then { f with heap := f.heap.set z tmp }
    else downheapFrom tmp fuel (f.child z) { f with heap := f.heap.set z (f.at_ (f.child z)) }

/-- R227 `downheap(z)`. -/
def Forest.downheap (f : Forest) (z : Nat) : Forest := downheapFrom (f.at_ z) f.nHeap z f

/-- R226: enter leaf `i`. -/
def Forest.enterLeaf (f : Forest) (i : Nat) : Forest :=
  { f with parent := f.parent.set i (-1), nHeap := f.nHeap + 1, heap := f.heap.set (f.nHeap + 1) i }.upheap (f.nHeap + 1)

/-- R226: take the root off the heap; the node taken is `f.at_ 1`. -/
def Forest.dropRoot (f : Forest) : Forest :=
  { f with heap := f.heap.set 1 (f.at_ f.nHeap), nHeap := f.nHeap - 1 }.downheap 1

/-- R226: the weight of a node joined from two. -/
def joinWeight (a b : Word32) : Word32 :=
  ((a &&& 0xFFFFFF00#32) + (b &&& 0xFFFFFF00#32)) |||
    (1#32 + (if (a &&& 0xFF#32).toNat < (b &&& 0xFF#32).toNat then b &&& 0xFF#32 else a &&& 0xFF#32))

/-- R226: join the two least nodes under a new one. -/
def Forest.join (f : Forest) : Forest :=
  let n1 := f.at_ 1
  let f := f.dropRoot
  let n2 := f.at_ 1
  let f := f.dropRoot
  let n := f.nNodes + 1
  { f with
    nNodes := n
    parent := ((f.parent.set n1 n).set n2 n).set n (-1)
    weight := f.weight.set n (joinWeight (f.weight.getD n1 0) (f.weight.getD n2 0))
    nHeap := f.nHeap + 1
    heap := f.heap.set (f.nHeap + 1) n }.upheap (f.nHeap + 1)

/-- R226 `while nHeap > 1`; `fuel` bounds the joins. -/
def joinAll : Nat → Forest → Forest
  | 0, f => f
  | fuel + 1, f => if 1 < f.nHeap then joinAll fuel f.join else f

/-- R226: the tree over leaves `1..alpha` of the given weights (`weights` by node, node 0 the sentinel). -/
def buildTree (alpha : Nat) (weights : List Word32) : Forest :=
  let f : Forest :=
    { heap := List.replicate (alpha + 1) 0
      weight := weights.set 0 0
      parent := (List.replicate (2 * alpha + 1) 0).set 0 (-2)
      nHeap := 0
      nNodes := alpha }
  joinAll alpha ((List.range' 1 alpha).foldl Forest.enterLeaf f)

/-- R226: the depth of node `k`; `fuel` bounds the steps to the root. -/
def depthOf (parent : List Int) : Nat → Nat → Nat
  | 0, _ => 0
  | fuel + 1, k => if 0 ≤ parent.getD k (-1) then depthOf parent fuel (parent.getD k (-1)).toNat + 1 else 0

/-- R226: the depths of the leaves. -/
def leafDepths (alpha : Nat) (f : Forest) : List Nat :=
  (List.range' 1 alpha).map (fun i => depthOf f.parent (2 * alpha) i)

/-- R226: a leaf's first weight, a zero frequency counting as 1. -/
def leafWeight (freq : Nat) : Word32 := (BitVec.ofNat 32 (if freq = 0 then 1 else freq)) <<< 8

/-- R228: `1 + (f div 2)`. -/
def halveWeight (w : Word32) : Word32 := (BitVec.ofNat 32 (1 + (w >>> 8).toNat / 2)) <<< 8

/-- R228: halve every leaf, nodes `1..alpha`. -/
def halveLeaves (alpha : Nat) (weights : List Word32) : List Word32 :=
  weights.zipIdx.map (fun x => if 1 ≤ x.2 ∧ x.2 ≤ alpha then halveWeight x.1 else x.1)

/-- R226 `loop`, with at most `fuel` halvings (R228: "The loop ends"): lengths and the last tree. -/
def lengthLoop (alpha maxLen : Nat) : Nat → List Word32 → List Nat × Forest
  | 0, weights => (leafDepths alpha (buildTree alpha weights), buildTree alpha weights)
  | fuel + 1, weights =>
    let f := buildTree alpha weights
    let ls := leafDepths alpha f
    if ls.all (fun l => l ≤ maxLen) then (ls, f) else lengthLoop alpha maxLen fuel (halveLeaves alpha f.weight)

/-- R226: the code lengths for frequencies `freq`. A frequency has at most 24 bits, so that after 24 halvings every one is
1 or 2 and the depth at most 10 (R228); 32 halvings are never needed (log entry 12). -/
def makeLengths (maxLen : Nat) (freq : List Nat) : List Nat × Forest :=
  lengthLoop freq.length maxLen 32
    (0#32 :: (freq.map leafWeight ++ List.replicate freq.length 0#32))

/-- R226 `HUF.MKLEN t`. -/
def hufMklen (t : Nat) (s : State) : Res :=
  inRange .rfreq (t < Config.nGroupsMax)
    (inRange .heap (s.alphaSize.toNat ≤ Config.alphaMax)
      (readOr .rfreq (s.rfreq.readRow t s.alphaSize.toNat) fun freq =>
        let r := makeLengths Config.lenMax (natsOf freq)
        .done
          { s with
            lens := s.lens.writeRow t (r.1.map (BitVec.ofNat 5))
            heap := s.heap.writeRange 0 (r.2.heap.map (BitVec.ofNat 10))
            weight := s.weight.writeRange 0 (r.2.weight.take (r.2.nNodes + 1))
            parent := s.parent.writeRange 0 ((r.2.parent.take (r.2.nNodes + 1)).map (BitVec.ofInt 11)) }))

/-! ## R229 to R231 -/

/-- R229: a code length a table may hold. -/
def lengthLegal (l : Nat) : Bool := Config.lenMin ≤ l && l ≤ Config.lenMax

/-- R229 `HUF.RANGECHK`. -/
def hufRangechk (s : State) : Res :=
  withRows .lens s.lens s fun rows =>
    if rows.all (fun row => row.all lengthLegal) then .done s else raise .codelenRange s

/-- R230, the inner loop: give the symbols of length `n` the codes from `vec` on. -/
def assignLength (n : Nat) : List Nat → List Nat → Nat → List Nat × Nat
  | l :: ls, c :: cs, vec =>
    if l = n then
      let r := assignLength n ls cs (vec + 1)
      (vec :: r.1, r.2)
    else
      let r := assignLength n ls cs vec
      (c :: r.1, r.2)
  | _, _, vec => ([], vec)

/-- R230, the outer loop over `k` lengths from `n` on. -/
def assignFrom (lens : List Nat) : Nat → Nat → Nat → List Nat → List Nat
  | 0, _, _, codes => codes
  | k + 1, n, vec, codes =>
    let r := assignLength n lens codes vec
    assignFrom lens k (n + 1) (r.2 * 2 % 2 ^ 32) r.1

/-- R230: the least length. -/
def leastLen (lens : List Nat) : Nat := lens.foldl min (lens.headD 0)

/-- R230: the greatest length. -/
def greatestLen (lens : List Nat) : Nat := lens.foldl max 0

/-- R230: the canonical codes of a table. -/
def canonicalCodes (lens : List Nat) : List Nat :=
  assignFrom lens (greatestLen lens + 1 - leastLen lens) (leastLen lens) 0 (List.replicate lens.length 0)

/-- R230 `HUF.ASSIGN t`. -/
def hufAssign (t : Nat) (s : State) : Res :=
  inRange .code (t < Config.nGroupsMax && s.alphaSize.toNat ≤ Config.alphaMax)
    (readOr .lens (s.lens.readRow t s.alphaSize.toNat) fun ls =>
      .done { s with code := s.code.writeRow t ((canonicalCodes (natsOf ls)).map (BitVec.ofNat 20)) })

/-- R231: the move-to-front walk over the selectors, and the list at the end. -/
def selectorWalk : List Nat → List Nat → List Nat × List Nat
  | pos, [] => ([], pos)
  | pos, t :: ts =>
    let r := selectorWalk (moveToFront pos (rankOf t pos)) ts
    (rankOf t pos :: r.1, r.2)

/-- The selectors `selector[0..nSelectors-1]`. -/
def withSelectors (s : State) (k : List Nat → Res) : Res :=
  inRange .selector (s.nSelectors.toNat ≤ Config.selectorMax)
    (readOr .selector (s.selector.readRange 0 s.nSelectors.toNat) fun sels => k (natsOf sels))

/-- R231 `HUF.SELMTF`. A selector that names no table has no position (R11). -/
def hufSelmtf (s : State) : Res :=
  inRange .selector (s.nGroups.toNat ≤ Config.nGroupsMax)
    (withSelectors s fun sels =>
      inRange .selector (sels.all (fun t => t < s.nGroups.toNat))
        (let r := selectorWalk (List.range s.nGroups.toNat) sels
         .done
          { s with
            selectorMtf := Store.ofNats 3 r.1
            pos := Store.ofNats 3 r.2
            phase := .emit }))

/-! ## Meanings -/

/-- R221. -/
def execHufNgroups (s : State) : Host.Outcome State Fault Refusal := unlessFatal (hufNgroups Config.params) s

/-- R222. -/
def execHufInit (s : State) : Host.Outcome State Fault Refusal := unlessFatal hufInit s

/-- R224. -/
def execHufIter (s : State) : Host.Outcome State Fault Refusal := unlessFatal hufIter s

/-- R226. -/
def execHufMklen (table : BitVec 3) (s : State) : Host.Outcome State Fault Refusal :=
  unlessFatal (hufMklen table.toNat) s

/-- R229. -/
def execHufRangechk (s : State) : Host.Outcome State Fault Refusal := unlessFatal hufRangechk s

/-- R230. -/
def execHufAssign (table : BitVec 3) (s : State) : Host.Outcome State Fault Refusal :=
  unlessFatal (hufAssign table.toNat) s

/-- R231. -/
def execHufSelmtf (s : State) : Host.Outcome State Fault Refusal := unlessFatal hufSelmtf s

end Sys2Proof.Machine
end

