-- ==== Sys2Proof/Machine/Sink.lean ====
section
/-! DEFINITION. The BitOperations (40_bitsink.md): `BITS`, `BOOL`, `UNARY`, `INT32`, `FLUSH`, and the reserved kinds (R112). -/

namespace Sys2Proof.Machine

/-- The form R132 to R135 share: `SINK_CLOSED` before `BAD_BITOP` (R319), both before any bit is written (R139). -/
def sinkWrite (legal : Bool) (bs : List Bool) (s : State) : Res :=
  if s.sink.closed then raise .sinkClosed s
  else if legal then .done { s with sink := s.sink.putBits bs }
  else raise .badBitop s

/-- R132. -/
def opBits (count : BitVec 8) (value : Word32) : State → Res :=
  sinkWrite (bitsLegal count) (bitsOf count.toNat value)

/-- R133. -/
def opBool (count : BitVec 8) (value : Word32) : State → Res :=
  sinkWrite (boolLegal count value) [value.getLsbD 0]

/-- R134. -/
def opUnary (count : BitVec 8) (value : Word32) : State → Res :=
  sinkWrite (unaryLegal count value) (unaryBits value.toNat)

/-- R135. -/
def opInt32 (count : BitVec 8) (value : Word32) : State → Res :=
  sinkWrite (int32Legal count) (int32Bits value)

/-- R65: the zero bits that fill the last byte. -/
def padBits (nacc : BitVec 3) : List Bool := List.replicate ((8 - nacc.toNat) % 8) false

/-- R136: pad, push, close. -/
def opFlush (count : BitVec 8) (value : Word32) (s : State) : Res :=
  (sinkWrite (flushLegal count value) (padBits s.sink.nacc) s).andThen fun s =>
    .done { s with sink := { s.sink with closed := true } }

/-- R112: a reserved kind is `BAD_BITOP`, or `SINK_CLOSED` while the sink is closed (R319). -/
def opReserved : State → Res := sinkWrite false []

/-- A recorded BitOperation applied to the BitSink (R138: "unchanged"). -/
def BitOp.apply : BitOp → State → Res
  | .bits c v => opBits c v
  | .bool b => sinkWrite true [b]
  | .unary n => opUnary 0#8 n

/-- Recorded BitOperations applied in order (R138, R291). -/
def applyOps : List BitOp → State → Res
  | [], s => .done s
  | op :: ops, s => (op.apply s).andThen (applyOps ops)

/-- R138 `emit`: append to the Block's recorder. -/
def State.emit (s : State) (ops : List BitOp) : State := { s with bopq := s.bopq ++ ops }

/-! ## Meanings -/

/-- R132 `BITS c, v`. -/
def execBits (count : BitVec 8) (value : BitVec 32) (s : State) : Host.Outcome State Fault Refusal :=
  unlessFatal (opBits count value) s

/-- R133 `BOOL b`. -/
def execBoolean (count : BitVec 8) (value : BitVec 32) (s : State) : Host.Outcome State Fault Refusal :=
  unlessFatal (opBool count value) s

/-- R134 `UNARY n`. -/
def execUnary (count : BitVec 8) (value : BitVec 32) (s : State) : Host.Outcome State Fault Refusal :=
  unlessFatal (opUnary count value) s

/-- R135 `INT32 v`. -/
def execInt32 (count : BitVec 8) (value : BitVec 32) (s : State) : Host.Outcome State Fault Refusal :=
  unlessFatal (opInt32 count value) s

/-- R136 `FLUSH`. -/
def execFlush (count : BitVec 8) (value : BitVec 32) (s : State) : Host.Outcome State Fault Refusal :=
  unlessFatal (opFlush count value) s

/-- R112: kind 0x00. -/
def execBoReserved00 (_ignored : BitVec 40) (s : State) : Host.Outcome State Fault Refusal := unlessFatal opReserved s

/-- R112: kinds 0x06, 0x07. -/
def execBoReserved0607 (_ignored : BitVec 41) (s : State) : Host.Outcome State Fault Refusal :=
  unlessFatal opReserved s

/-- R112: kinds 0x08 to 0x0F. -/
def execBoReserved080F (_ignored : BitVec 43) (s : State) : Host.Outcome State Fault Refusal :=
  unlessFatal opReserved s

/-- R112: kinds 0x10 to 0x1F. -/
def execBoReserved101F (_ignored : BitVec 44) (s : State) : Host.Outcome State Fault Refusal :=
  unlessFatal opReserved s

/-- R112: kinds 0x20 to 0x3F. -/
def execBoReserved203F (_ignored : BitVec 45) (s : State) : Host.Outcome State Fault Refusal :=
  unlessFatal opReserved s

/-- R112: kinds 0x40 to 0x7F. -/
def execBoReserved407F (_ignored : BitVec 46) (s : State) : Host.Outcome State Fault Refusal :=
  unlessFatal opReserved s

/-- R112: kinds 0x80 to 0xFF. -/
def execBoReserved80FF (_ignored : BitVec 47) (s : State) : Host.Outcome State Fault Refusal :=
  unlessFatal opReserved s

end Sys2Proof.Machine
end

