-- ==== Sys2Proof/Machine/Emit.lean ====
section
/-! DEFINITION. Emission into the recorder: the block header (46_block_framing.md) and the five payload parts
(45_huffman_emit.md). -/

namespace Sys2Proof.Machine

/-- R270 `FRM.BLOCKHDR`: its BitOperations. -/
def headerOps (s : State) : List BitOp :=
  magicOps Config.blockMagic ++ (int32Ops s.blockCrc ++ [.bool s.randomised, .bits 24#8 (s.origPtr.setWidth 32)])

/-- R270. -/
def frmBlockhdr (s : State) : Res := .done (s.emit (headerOps s))

/-- R250: the 16-bit word whose first bit (bit 15) stands for the first of 16 flags. -/
def word16 (bs : List Bool) : Nat := bs.foldl (fun a b => 2 * a + (if b then 1 else 0)) 0

/-- R250: in-use group `i`. -/
def inUseGroup (used : List Bool) (i : Nat) : List Bool := (used.drop (16 * i)).take 16

/-- R250: the group word, then the word of each active group. -/
def inUseOps (used : List Bool) : List BitOp :=
  .bits 16#8 (BitVec.ofNat 32 (word16 ((List.range 16).map fun i => (inUseGroup used i).any id))) ::
    ((List.range 16).filter fun i => (inUseGroup used i).any id).map fun i =>
      .bits 16#8 (BitVec.ofNat 32 (word16 (inUseGroup used i)))

/-- R250 `EMIT.INUSE`. -/
def emitInuse (s : State) : Res :=
  readOr .inUse (s.inUse.readRange 0 256) fun bits =>
    .done (s.emit (inUseOps (bits.map fun b => b == 1#1)))

/-- R251 `EMIT.COUNTS`. -/
def emitCounts (s : State) : Res :=
  .done (s.emit [.bits 3#8 (s.nGroups.setWidth 32), .bits 15#8 (s.nSelectors.setWidth 32)])

/-- R252 `EMIT.SELECTORS`. -/
def emitSelectors (s : State) : Res :=
  inRange .selectorMtf (s.nSelectors.toNat ≤ Config.selectorMax)
    (readOr .selectorMtf (s.selectorMtf.readRange 0 s.nSelectors.toNat) fun js =>
      .done (s.emit (js.map fun j => .unary (j.setWidth 32))))

/-- R253: the steps from `cur` to `target`: up is `10`, down is `11`. -/
def stepOps (cur target : Nat) : List BitOp :=
  if cur < target then List.replicate (target - cur) (.bits 2#8 0b10#32)
  else List.replicate (cur - target) (.bits 2#8 0b11#32)

/-- R253: steps and terminator of each symbol, from the current length. -/
def deltaOps : Nat → List Nat → List BitOp
  | _, [] => []
  | cur, l :: ls => stepOps cur l ++ .bool false :: deltaOps l ls

/-- R253: one table. -/
def lengthsOps (row : List Nat) : List BitOp :=
  .bits 5#8 (BitVec.ofNat 32 (row.headD 0)) :: deltaOps (row.headD 0) row

/-- R253 `EMIT.LENGTHS`. A row has a first length (`len[t][0]`) when `alphaSize >= 1`. -/
def emitLengths (s : State) : Res :=
  withRows .lens s.lens s fun rows =>
    if rows.any List.isEmpty then .stop (.unspecifiedRead .lens)
    else .done (s.emit (rows.map lengthsOps).flatten)

/-- R254: the operation of symbol `v` under table `t`. -/
def symbolOp (s : State) (t v : Nat) : Option BitOp :=
  if t < Config.nGroupsMax ∧ v < Config.alphaMax then
    match s.lens.read (tableIndex t v), s.code.read (tableIndex t v) with
    | some l, some c => some (.bits (l.setWidth 8) (c.setWidth 32))
    | _, _ => none
  else none

/-- R254: the operations of the symbol stream. -/
def symbolOps (s : State) (sels syms : List Nat) : Option (List BitOp) :=
  readAll (fun x => symbolOp s (sels.getD (x.2 / Config.gSize) 0) x.1) syms.zipIdx

/-- R254 `EMIT.SYMBOLS`; the groups `0 .. (nMTF - 1) div 50` need a selector. -/
def emitSymbols (s : State) : Res :=
  withSymbols s fun syms =>
    inRange .selector ((syms.length + 49) / Config.gSize ≤ Config.selectorMax)
      (readOr .selector (s.selector.readRange 0 ((syms.length + 49) / Config.gSize)) fun sels =>
        readOr .code (symbolOps s (natsOf sels) syms) fun ops =>
          .done { s.emit ops with phase := .compressed })

/-! ## Meanings -/

/-- R270. -/
def execFrmBlockhdr (s : State) : Host.Outcome State Fault Refusal := unlessFatal frmBlockhdr s

/-- R250. -/
def execEmitInuse (s : State) : Host.Outcome State Fault Refusal := unlessFatal emitInuse s

/-- R251. -/
def execEmitCounts (s : State) : Host.Outcome State Fault Refusal := unlessFatal emitCounts s

/-- R252. -/
def execEmitSelectors (s : State) : Host.Outcome State Fault Refusal := unlessFatal emitSelectors s

/-- R253. -/
def execEmitLengths (s : State) : Host.Outcome State Fault Refusal := unlessFatal emitLengths s

/-- R254. -/
def execEmitSymbols (s : State) : Host.Outcome State Fault Refusal := unlessFatal emitSymbols s

end Sys2Proof.Machine
end

