-- ==== Sys2Proof/Machine/Rle1.lean ====
section
/-! DEFINITION. The input stage (41_rle1_crc.md): `BLK.INIT`, `BLK.WRITE`, `RLE1.FLUSHRUN`, `BLK.CLOSE`, and the CRC step. -/

namespace Sys2Proof.Machine

/-- R153: one of the eight bit steps. -/
def crcBit (c : Word32) : Word32 := if c.getLsbD 31 then (c <<< 1) ^^^ Config.crcPoly else c <<< 1

/-- R153 `crc_step`. -/
def crcStep (c : Word32) (v : Byte) : Word32 :=
  crcBit (crcBit (crcBit (crcBit (crcBit (crcBit (crcBit (crcBit (c ^^^ (v ++ 0#24)))))))))

/-- R154, R43 `CRCTAB[i]`, a derived convenience. -/
def crcTab (i : Byte) : Word32 := crcStep 0#32 i

/-- R150, R49: the new Block, its id still to be drawn. -/
def State.newBlock (s : State) : State :=
  { s.blockUnspecified with
    blkId := s.nextId
    nextId := s.nextId + 1
    cap := capacity s.cfgLevel
    len := 0
    rawCount := 0
    runLen := 0
    crc := Config.crcInit
    full := false
    closed := false
    bopq := []
    phase := .filling }

/-- R150 `BLK.INIT`; R27, 93 U7: an id that would pass `2^32 - 1` is refused. -/
def blkInit (s : State) : Res :=
  if s.nextId = 0xFFFFFFFF#32 then .refuse (.counterWrap .nextId) else .done s.newBlock

/-- R152 `RLE1.FLUSHRUN`; the buffer has `cap` elements (R45), an append past them is 93 U6. -/
def flushRun (s : State) : Res :=
  if s.runLen = 0 then .done s
  else
    inRange .b (s.len.toNat + runCost s.runLen.toNat ≤ s.cap.toNat)
      (.done
        { s with
          b := s.b.writeRange s.len.toNat (runBytes s.runByte s.runLen.toNat)
          len := s.len + BitVec.ofNat 20 (runCost s.runLen.toNat)
          runLen := 0 })

/-- R151: an accepted byte goes into the CRC and the raw count. -/
def State.countRaw (s : State) (v : Byte) : State := { s with crc := crcStep s.crc v, rawCount := s.rawCount + 1 }

/-- R151 `BLK.WRITE v`. The result is ACCEPT exactly when `accepts s v` (Flags.lean). R26 lists WRB among the readers of
`closed`, and no rule says what WRB does with it (R151, R285 and R287 do not read it): here `closed` is not looked at.
DESIGN CHOICE (log entry 31); unsafe for a harness that writes to a Block it has closed, no host command can (R273). -/
def blkWrite (v : Byte) (s : State) : Res :=
  if s.full then .done s
  else if s.cap.toNat < writeNeed s v then
    (flushRun s).andThen fun s => .done { s with full := true }
  else if s.rawCount = 0xFFFFFFFF#32 then .refuse (.counterWrap .rawCount)
  else if s.runLen = 0 then .done { s.countRaw v with runByte := v, runLen := 1 }
  else if v = s.runByte then
    if s.runLen.toNat + 1 = Config.runMax then flushRun { s.countRaw v with runLen := s.runLen + 1 }
    else .done { s.countRaw v with runLen := s.runLen + 1 }
  else (flushRun (s.countRaw v)).andThen fun s => .done { s with runByte := v, runLen := 1 }

/-- R156 `BLK.CLOSE`. -/
def blkClose (s : State) : Res :=
  if s.closed then raise .doubleClose s
  else (flushRun { s with closed := true }).andThen fun s => .done { s with blockCrc := ~~~ s.crc, phase := .queued }

/-! ## Meanings -/

/-- R150. -/
def execBlkInit (s : State) : Host.Outcome State Fault Refusal := unlessFatal blkInit s

/-- R151. -/
def execBlkWrite (byte : BitVec 8) (s : State) : Host.Outcome State Fault Refusal := unlessFatal (blkWrite byte) s

/-- R152. -/
def execRle1Flushrun (s : State) : Host.Outcome State Fault Refusal := unlessFatal flushRun s

/-- R156. -/
def execBlkClose (s : State) : Host.Outcome State Fault Refusal := unlessFatal blkClose s

end Sys2Proof.Machine
end

