-- ==== Sys2Proof/Machine/Stream.lean ====
section
/-! DEFINITION. The host commands and the stream framing (47_stream_host.md), with the operations they run: `REPLAY`,
`COMPRESS`, and the phases of the sequencer (R24, R25). -/

namespace Sys2Proof.Machine

/-! ## R291 -/

/-- R291: what follows the replayed operations (R290: the CRC folds by rotate and xor). -/
def State.foldBlock (s : State) : State :=
  { s with
    streamCrc := rotl1 s.streamCrc ^^^ s.blockCrc
    blocksEmitted := s.blocksEmitted + 1
    bopq := []
    phase := .flushed }

/-- R291 `REPLAY`; a count of Blocks that would pass `2^32 - 1` is 93 U7. -/
def replay (s : State) : Res :=
  if s.blocksEmitted = 0xFFFFFFFF#32 then .refuse (.counterWrap .blocksEmitted)
  else (applyOps s.bopq s).andThen fun s => .done s.foldBlock

/-! ## The phases, R24, R25: one operation of the sequencer each -/

/-- `QUEUED -> SORT1`: a lane takes the Block; R315: `LaneFails` is "consulted at the start of `COMPRESS`". -/
def phaseQueued (s : State) : Res :=
  if s.laneFails.contains s.blkId then raise .workerFail s else .done { s with phase := .sort1 }

/-- Phase `HUF_INIT`: R221, R222; then `HUF_ITER` with pass 0 (R223, R25). -/
def phaseHufInit (p : Params) (s : State) : Res :=
  (hufNgroups p s).andThen fun s => (hufInit s).andThen fun s => .done { s with phase := .hufIter, iter := 0 }

/-- R223: `HUF.MKLEN t` for each table from `t` on, `n` of them. -/
def makeTables : Nat → Nat → State → Res
  | 0, _, s => .done s
  | n + 1, t, s => (hufMklen t s).andThen (makeTables n (t + 1))

/-- R25: after a pass, the next pass or `HUF_ASSIGN`. -/
def State.nextPass (s : State) : State :=
  if s.iter.toNat + 1 < Config.nIters then { s with iter := s.iter + 1, phase := .hufIter }
  else { s with phase := .hufAssign }

/-- Phase `HUF_ITER`: one refinement pass (R223). -/
def phaseHufIter (s : State) : Res :=
  (hufIter s).andThen fun s => (makeTables s.nGroups.toNat 0 s).andThen fun s => .done s.nextPass

/-- R230 for each table from `t` on, `n` of them. -/
def assignTables : Nat → Nat → State → Res
  | 0, _, s => .done s
  | n + 1, t, s => (hufAssign t s).andThen (assignTables n (t + 1))

/-- Phase `HUF_ASSIGN`: R229, R230, R231. -/
def phaseHufAssign (s : State) : Res :=
  (hufRangechk s).andThen fun s => (assignTables s.nGroups.toNat 0 s).andThen hufSelmtf

/-- Phase `EMIT`: R270, R250 to R254 (R255, R271: in this order). -/
def phaseEmit (s : State) : Res :=
  (frmBlockhdr s).andThen fun s => (emitInuse s).andThen fun s => (emitCounts s).andThen fun s =>
    (emitSelectors s).andThen fun s => (emitLengths s).andThen emitSymbols

/-- R172 to R177: the first attempt and, if it was abandoned, the randomised retry. -/
def sortBlock (p : Params) (s : State) : Res :=
  (bwtSort p s).andThen fun s =>
    if s.phase = .randomise then (bwtRandomise s).andThen (bwtSortRetry p) else .done s

/-- R294 `COMPRESS`. -/
def compress (p : Params) (s : State) : Res :=
  (phaseQueued s).andThen fun s => (sortBlock p s).andThen fun s => (bwtOrigin s).andThen fun s =>
    (mtfGen s).andThen fun s => (phaseHufInit p s).andThen fun s => (phaseHufIter s).andThen fun s =>
      (phaseHufIter s).andThen fun s => (phaseHufIter s).andThen fun s => (phaseHufIter s).andThen fun s =>
        (phaseHufAssign s).andThen phaseEmit

/-- R24, R25: the operation the sequencer performs by itself in a phase. `IDLE`, `FILLING` and `FATAL` have none: there
"the sequencer simply does nothing" (R339), in `FATAL` until reset (R321). `FLUSHED` is left for a new Block. -/
def phaseOp (p : Params) (ph : Phase) : State → Res :=
  match ph with
  | .idle => .done
  | .filling => .done
  | .queued => phaseQueued
  | .sort1 => bwtSort p
  | .randomise => bwtRandomise
  | .sort2 => bwtSortRetry p
  | .origin => bwtOrigin
  | .mtf => mtfGen
  | .hufInit => phaseHufInit p
  | .hufIter => phaseHufIter
  | .hufAssign => phaseHufAssign
  | .emit => phaseEmit
  | .compressed => replay
  | .flushed => blkInit
  | .fatal => .done

/-! ## Commands -/

/-- R156, R294, R291: what CLOSEBLK and FINISH do with a Block that has raw bytes. -/
def emitBlock (p : Params) (s : State) : Res :=
  (blkClose s).andThen fun s => (compress p s).andThen replay

/-- R91, R286: the stream header, four `BITS 8` (R105). -/
def headerBytes (level : BitVec 4) : List BitOp :=
  [.bits 8#8 0x42#32, .bits 8#8 0x5A#32, .bits 8#8 0x68#32, .bits 8#8 (0x30#32 + level.setWidth 32)]

/-- R286: the assignments of OPEN, before the header. -/
def State.openRegisters (s : State) (owns : Bool) (level : BitVec 8) : State :=
  { s with
    cfgLevel := clampLevel level
    cfgOwnsSink := owns
    sink := { s.sink with acc := 0, nacc := 0, closed := false }
    streamCrc := 0
    nextId := 0
    blocksEmitted := 0
    streamOpen := true }

/-- R286 `OPEN`. -/
def openOp (owns : Bool) (level : BitVec 8) (s : State) : Res :=
  if s.sinkWritable then
    let s := s.openRegisters owns level
    (applyOps (headerBytes s.cfgLevel) s).andThen fun s => (blkInit s).andThen fun s => .done s.respondOk
  else raise .config s

/-- R287 `WRB`. -/
def wrbOp (v : Byte) (s : State) : Res :=
  (blkWrite v s).andThen fun t => .done (if accepts s v then t.respondOk else t.respondReject)

/-- R288 `CLOSEBLK`. -/
def closeblkOp (p : Params) (s : State) : Res :=
  if s.rawCount = 0 then .done s.respondOk
  else (emitBlock p s).andThen fun s => (blkInit s).andThen fun s => .done s.respondOk

/-- R98, R289: the footer's magic, its CRC (`INT32`), and the flush. -/
def footer (s : State) : Res :=
  (applyOps (magicOps Config.eosMagic) s).andThen fun s =>
    (opInt32 32#8 s.streamCrc s).andThen fun s => opFlush 0#8 0#32 s

/-- R289: the end of FINISH. -/
def State.closeStream (s : State) : State :=
  { s with
    sink := { s.sink with bytes := s.sink.bytes ++ (if s.cfgOwnsSink then [.close] else []) }
    streamOpen := false
    phase := .idle }

/-- R289 `FINISH`. -/
def finishOp (p : Params) (s : State) : Res :=
  (if s.rawCount = 0 then .done s else emitBlock p s).andThen fun s =>
    (footer s).andThen fun s => .done s.closeStream.respondOk

/-! ## Meanings -/

/-- R285, R286. -/
def execOpenStream (owns : Bool) (level : BitVec 8) (s : State) : Host.Outcome State Fault Refusal :=
  hostCommand (!s.streamOpen) (openOp owns level) s

/-- R285, R287. -/
def execWrb (byte : BitVec 8) (s : State) : Host.Outcome State Fault Refusal := hostCommand s.streamOpen (wrbOp byte) s

/-- R285, R288. -/
def execCloseblk (s : State) : Host.Outcome State Fault Refusal :=
  hostCommand s.streamOpen (closeblkOp Config.params) s

/-- R285, R289. -/
def execFinish (s : State) : Host.Outcome State Fault Refusal := hostCommand s.streamOpen (finishOp Config.params) s

/-- R285 step 2, R296. -/
def execSeek (_ignored : BitVec 12) (s : State) : Host.Outcome State Fault Refusal := .next (s.respondLocal .unsupported)

/-- R285 step 2, R296. -/
def execRead (_ignored : BitVec 12) (s : State) : Host.Outcome State Fault Refusal := .next (s.respondLocal .unsupported)

/-- R285 step 2, R296. -/
def execSetlen (_ignored : BitVec 12) (s : State) : Host.Outcome State Fault Refusal :=
  .next (s.respondLocal .unsupported)

/-- R285 step 1, R110. -/
def execHcReserved0 (_ignored : BitVec 12) (s : State) : Host.Outcome State Fault Refusal :=
  .next (s.respondLocal .reservedOp)

/-- R285 step 1, R110. -/
def execHcReserved8F (_word : BitVec 16) (s : State) : Host.Outcome State Fault Refusal :=
  .next (s.respondLocal .reservedOp)

/-- R294. -/
def execCompress (s : State) : Host.Outcome State Fault Refusal := unlessFatal (compress Config.params) s

/-- R291. -/
def execReplay (s : State) : Host.Outcome State Fault Refusal := unlessFatal replay s

end Sys2Proof.Machine
end

