-- ==== Sys2Proof/Machine/Dispatch.lean ====
section
/-! DEFINITION. One arm per constructor of `Instr`, in the order of the opcode table. -/

namespace Sys2Proof.Machine

def exec (i : Instr) (s : State) : Host.Outcome State Fault Refusal :=
  match i with
  | .openStream owns level => Sys2Proof.Machine.execOpenStream owns level s
  | .wrb byte => Sys2Proof.Machine.execWrb byte s
  | .closeblk => Sys2Proof.Machine.execCloseblk s
  | .finish => Sys2Proof.Machine.execFinish s
  | .seek ignored => Sys2Proof.Machine.execSeek ignored s
  | .read ignored => Sys2Proof.Machine.execRead ignored s
  | .setlen ignored => Sys2Proof.Machine.execSetlen ignored s
  | .hcReserved0 ignored => Sys2Proof.Machine.execHcReserved0 ignored s
  | .hcReserved8F word => Sys2Proof.Machine.execHcReserved8F word s
  | .bits count value => Sys2Proof.Machine.execBits count value s
  | .boolean count value => Sys2Proof.Machine.execBoolean count value s
  | .unary count value => Sys2Proof.Machine.execUnary count value s
  | .int32 count value => Sys2Proof.Machine.execInt32 count value s
  | .flush count value => Sys2Proof.Machine.execFlush count value s
  | .boReserved00 ignored => Sys2Proof.Machine.execBoReserved00 ignored s
  | .boReserved0607 ignored => Sys2Proof.Machine.execBoReserved0607 ignored s
  | .boReserved080F ignored => Sys2Proof.Machine.execBoReserved080F ignored s
  | .boReserved101F ignored => Sys2Proof.Machine.execBoReserved101F ignored s
  | .boReserved203F ignored => Sys2Proof.Machine.execBoReserved203F ignored s
  | .boReserved407F ignored => Sys2Proof.Machine.execBoReserved407F ignored s
  | .boReserved80FF ignored => Sys2Proof.Machine.execBoReserved80FF ignored s
  | .blkInit => Sys2Proof.Machine.execBlkInit s
  | .blkWrite byte => Sys2Proof.Machine.execBlkWrite byte s
  | .rle1Flushrun => Sys2Proof.Machine.execRle1Flushrun s
  | .blkClose => Sys2Proof.Machine.execBlkClose s
  | .compress => Sys2Proof.Machine.execCompress s
  | .bwtSort => Sys2Proof.Machine.execBwtSort s
  | .bwtRandomise => Sys2Proof.Machine.execBwtRandomise s
  | .bwtSortRetry => Sys2Proof.Machine.execBwtSortRetry s
  | .bwtOrigin => Sys2Proof.Machine.execBwtOrigin s
  | .mtfGen => Sys2Proof.Machine.execMtfGen s
  | .rle2Flush => Sys2Proof.Machine.execRle2Flush s
  | .hufNgroups => Sys2Proof.Machine.execHufNgroups s
  | .hufInit => Sys2Proof.Machine.execHufInit s
  | .hufIter => Sys2Proof.Machine.execHufIter s
  | .hufMklen table => Sys2Proof.Machine.execHufMklen table s
  | .hufRangechk => Sys2Proof.Machine.execHufRangechk s
  | .hufAssign table => Sys2Proof.Machine.execHufAssign table s
  | .hufSelmtf => Sys2Proof.Machine.execHufSelmtf s
  | .frmBlockhdr => Sys2Proof.Machine.execFrmBlockhdr s
  | .emitInuse => Sys2Proof.Machine.execEmitInuse s
  | .emitCounts => Sys2Proof.Machine.execEmitCounts s
  | .emitSelectors => Sys2Proof.Machine.execEmitSelectors s
  | .emitLengths => Sys2Proof.Machine.execEmitLengths s
  | .emitSymbols => Sys2Proof.Machine.execEmitSymbols s
  | .replay => Sys2Proof.Machine.execReplay s

end Sys2Proof.Machine
end

