-- ==== Sys2Proof/WellFormed.lean ====
section
/-! DEFINITION. Which terms of `Instr` stand for a word: a reserved host word is really reserved (R110), and a table
operand names one of the six coding tables (R37, R6 `N_GROUPS_MAX`). Every other operand may take every value of its
field. -/

namespace Sys2Proof

/-- R110: `hop` 0x8..0xF, or an `HC` word of `hop` 0x1..0x4 whose `hmod` or `harg` violates its row of R106. -/
def hcSpellingReserved (w : BitVec 16) : Bool :=
  let hop := w.toNat / 4096
  let rest := w.toNat % 4096
  (8 ≤ hop) || (hop == 1 && 512 ≤ rest) || (hop == 2 && 256 ≤ rest) || (hop == 3 && rest != 0) ||
    (hop == 4 && rest != 0)

/-- Well-formed instructions. -/
def Instr.wf : Instr → Bool
  | .openStream _ _ => true
  | .wrb _ => true
  | .closeblk => true
  | .finish => true
  | .seek _ => true
  | .read _ => true
  | .setlen _ => true
  | .hcReserved0 _ => true
  | .hcReserved8F w => hcSpellingReserved w
  | .bits _ _ => true
  | .boolean _ _ => true
  | .unary _ _ => true
  | .int32 _ _ => true
  | .flush _ _ => true
  | .boReserved00 _ => true
  | .boReserved0607 _ => true
  | .boReserved080F _ => true
  | .boReserved101F _ => true
  | .boReserved203F _ => true
  | .boReserved407F _ => true
  | .boReserved80FF _ => true
  | .blkInit => true
  | .blkWrite _ => true
  | .rle1Flushrun => true
  | .blkClose => true
  | .compress => true
  | .bwtSort => true
  | .bwtRandomise => true
  | .bwtSortRetry => true
  | .bwtOrigin => true
  | .mtfGen => true
  | .rle2Flush => true
  | .hufNgroups => true
  | .hufInit => true
  | .hufIter => true
  | .hufMklen t => t.toNat < Config.nGroupsMax
  | .hufRangechk => true
  | .hufAssign t => t.toNat < Config.nGroupsMax
  | .hufSelmtf => true
  | .frmBlockhdr => true
  | .emitInuse => true
  | .emitCounts => true
  | .emitSelectors => true
  | .emitLengths => true
  | .emitSymbols => true
  | .replay => true

end Sys2Proof
end

