-- ==== Sys2Proof/Decode.lean ====
section
/-! DEFINITION. From words to instructions (R106, R107, R109, R110, R112) and back. Decoding is total: every `HC` and every
`BO` word is an instruction (a reserved one has a constructor of its own); a harness word that names no phase operation
is rejected by name. -/

namespace Sys2Proof

/-- Why a harness word (`CmdWord.po`) names no phase operation. -/
inductive DecodeError where
  /-- The phase has no operation (R24: `IDLE`, `FLUSHED`, the reserved value 14, `FATAL`). -/
  | phaseWithoutOperation
  /-- The phase has no operation at this place. -/
  | noSuchStep
  /-- The operation takes no such operand. -/
  | operandOutOfRange
  deriving DecidableEq, Repr

/-- The name of a rejected harness word. -/
def DecodeError.name : DecodeError → String
  | .phaseWithoutOperation => "phase without operation"
  | .noSuchStep => "no such step"
  | .operandOutOfRange => "operand out of range"

/-- R106, R109: an `HC` word. -/
def decodeHc (w : BitVec 16) : Instr :=
  let hop := (w.extractLsb' 12 4).toNat
  let hmod := (w.extractLsb' 8 4).toNat
  let harg := w.extractLsb' 0 8
  if hop = 0 then .hcReserved0 (w.extractLsb' 0 12)
  else if hop = 1 ∧ hmod < 2 then .openStream (w.getLsbD 8) harg
  else if hop = 2 ∧ hmod = 0 then .wrb harg
  else if hop = 3 ∧ hmod = 0 ∧ harg = 0#8 then .closeblk
  else if hop = 4 ∧ hmod = 0 ∧ harg = 0#8 then .finish
  else if hop = 5 then .seek (w.extractLsb' 0 12)
  else if hop = 6 then .read (w.extractLsb' 0 12)
  else if hop = 7 then .setlen (w.extractLsb' 0 12)
  else .hcReserved8F w

/-- R107, R109: a `BO` word, by `kind`; `count` and `value` stay operands and are checked by the operation (R139). -/
def decodeBo (w : BitVec 48) : Instr :=
  let kind := (w.extractLsb' 40 8).toNat
  let count := w.extractLsb' 32 8
  let value := w.extractLsb' 0 32
  if kind = 0 then .boReserved00 (w.extractLsb' 0 40)
  else if kind = 1 then .bits count value
  else if kind = 2 then .boolean count value
  else if kind = 3 then .unary count value
  else if kind = 4 then .int32 count value
  else if kind = 5 then .flush count value
  else if kind < 0x08 then .boReserved0607 (w.extractLsb' 0 41)
  else if kind < 0x10 then .boReserved080F (w.extractLsb' 0 43)
  else if kind < 0x20 then .boReserved101F (w.extractLsb' 0 44)
  else if kind < 0x40 then .boReserved203F (w.extractLsb' 0 45)
  else if kind < 0x80 then .boReserved407F (w.extractLsb' 0 46)
  else .boReserved80FF (w.extractLsb' 0 47)

/-- An operation without an operand: its operand byte must be zero. -/
def withoutOperand (v : BitVec 8) (i : Instr) : Except DecodeError Instr :=
  if v = 0#8 then .ok i else .error .operandOutOfRange

/-- An operation on one coding table: its operand byte is the table, 0..5 (R37). -/
def withTable (v : BitVec 8) (f : BitVec 3 → Instr) : Except DecodeError Instr :=
  if v.toNat < Config.nGroupsMax then .ok (f (v.extractLsb' 0 3)) else .error .operandOutOfRange

/-- R109: "Phase operations ... are selected by `phase` and, within a phase, run in the fixed order given in
`opcode_table.json` field `step`". A place 0 where the table counts from 1 is the phase's first operation. -/
def phaseOperation (phase step : Nat) (v : BitVec 8) : Except DecodeError Instr :=
  match phase, step with
  | 1, 0 => withoutOperand v .blkInit
  | 1, 1 => .ok (.blkWrite v)
  | 1, 2 => withoutOperand v .rle1Flushrun
  | 2, 0 => withoutOperand v .blkClose
  | 2, 1 => withoutOperand v .blkClose
  | 2, 2 => withoutOperand v .compress
  | 3, 0 => withoutOperand v .bwtSort
  | 3, 1 => withoutOperand v .bwtSort
  | 4, 0 => withoutOperand v .bwtRandomise
  | 4, 1 => withoutOperand v .bwtRandomise
  | 5, 0 => withoutOperand v .bwtSortRetry
  | 5, 1 => withoutOperand v .bwtSortRetry
  | 6, 0 => withoutOperand v .bwtOrigin
  | 6, 1 => withoutOperand v .bwtOrigin
  | 7, 0 => withoutOperand v .mtfGen
  | 7, 1 => withoutOperand v .mtfGen
  | 7, 2 => withoutOperand v .rle2Flush
  | 8, 0 => withoutOperand v .hufNgroups
  | 8, 1 => withoutOperand v .hufNgroups
  | 8, 2 => withoutOperand v .hufInit
  | 9, 0 => withoutOperand v .hufIter
  | 9, 1 => withoutOperand v .hufIter
  | 9, 2 => withTable v .hufMklen
  | 10, 0 => withoutOperand v .hufRangechk
  | 10, 1 => withoutOperand v .hufRangechk
  | 10, 2 => withTable v .hufAssign
  | 10, 3 => withoutOperand v .hufSelmtf
  | 11, 0 => withoutOperand v .frmBlockhdr
  | 11, 1 => withoutOperand v .frmBlockhdr
  | 11, 2 => withoutOperand v .emitInuse
  | 11, 3 => withoutOperand v .emitCounts
  | 11, 4 => withoutOperand v .emitSelectors
  | 11, 5 => withoutOperand v .emitLengths
  | 11, 6 => withoutOperand v .emitSymbols
  | 12, 0 => withoutOperand v .replay
  | 12, 1 => withoutOperand v .replay
  | 0, _ => .error .phaseWithoutOperation
  | p, _ => if p ≤ 12 then .error .noSuchStep else .error .phaseWithoutOperation

/-- A harness word. -/
def decodePo (w : BitVec 16) : Except DecodeError Instr :=
  phaseOperation (w.extractLsb' 0 4).toNat (w.extractLsb' 4 4).toNat (w.extractLsb' 8 8)

/-- Decoding, total. -/
def decode : CmdWord → Except DecodeError Instr
  | .hc w => .ok (decodeHc w)
  | .bo w => .ok (decodeBo w)
  | .po w => decodePo w

/-- A harness word from its three fields. -/
def poWord (phase step : BitVec 4) (operand : BitVec 8) : CmdWord := .po (operand ++ step ++ phase)

/-- R106, R107, R116: the word of an instruction. -/
def encode : Instr → CmdWord
  | .openStream owns level => .hc (0x1#4 ++ 0#3 ++ BitVec.ofBool owns ++ level)
  | .wrb byte => .hc (0x2#4 ++ 0x0#4 ++ byte)
  | .closeblk => .hc 0x3000#16
  | .finish => .hc 0x4000#16
  | .seek a => .hc (0x5#4 ++ a)
  | .read a => .hc (0x6#4 ++ a)
  | .setlen a => .hc (0x7#4 ++ a)
  | .hcReserved0 a => .hc (0x0#4 ++ a)
  | .hcReserved8F w => .hc w
  | .bits count value => .bo (0x01#8 ++ count ++ value)
  | .boolean count value => .bo (0x02#8 ++ count ++ value)
  | .unary count value => .bo (0x03#8 ++ count ++ value)
  | .int32 count value => .bo (0x04#8 ++ count ++ value)
  | .flush count value => .bo (0x05#8 ++ count ++ value)
  | .boReserved00 a => .bo (0x00#8 ++ a)
  | .boReserved0607 a => .bo (0b0000011#7 ++ a)
  | .boReserved080F a => .bo (0b00001#5 ++ a)
  | .boReserved101F a => .bo (0b0001#4 ++ a)
  | .boReserved203F a => .bo (0b001#3 ++ a)
  | .boReserved407F a => .bo (0b01#2 ++ a)
  | .boReserved80FF a => .bo (0b1#1 ++ a)
  | .blkInit => poWord 1 0 0
  | .blkWrite byte => poWord 1 1 byte
  | .rle1Flushrun => poWord 1 2 0
  | .blkClose => poWord 2 1 0
  | .compress => poWord 2 2 0
  | .bwtSort => poWord 3 1 0
  | .bwtRandomise => poWord 4 1 0
  | .bwtSortRetry => poWord 5 1 0
  | .bwtOrigin => poWord 6 1 0
  | .mtfGen => poWord 7 1 0
  | .rle2Flush => poWord 7 2 0
  | .hufNgroups => poWord 8 1 0
  | .hufInit => poWord 8 2 0
  | .hufIter => poWord 9 1 0
  | .hufMklen t => poWord 9 2 (0#5 ++ t)
  | .hufRangechk => poWord 10 1 0
  | .hufAssign t => poWord 10 2 (0#5 ++ t)
  | .hufSelmtf => poWord 10 3 0
  | .frmBlockhdr => poWord 11 1 0
  | .emitInuse => poWord 11 2 0
  | .emitCounts => poWord 11 3 0
  | .emitSelectors => poWord 11 4 0
  | .emitLengths => poWord 11 5 0
  | .emitSymbols => poWord 11 6 0
  | .replay => poWord 12 1 0

/-- The message a word of the opcode table is: a table word of at most 8 bits names a phase operation, one of 16 bits a
host command, one of 48 bits a BitOperation. Bits above `nbits` are zero. -/
def tableWord (nbits w : Nat) : CmdWord :=
  if nbits ≤ 8 then .po (BitVec.ofNat 16 (w % 2 ^ nbits))
  else if nbits ≤ 16 then .hc (BitVec.ofNat 16 (w % 2 ^ nbits))
  else .bo (BitVec.ofNat 48 (w % 2 ^ nbits))

/-- The instruction the decoder reads from a word of the opcode table. -/
def decodeTableWord (nbits w : Nat) : Option Instr :=
  match decode (tableWord nbits w) with
  | .ok i => some i
  | .error _ => none

end Sys2Proof
end

