-- ==== Sys2Proof/Machine/Sequencer.lean ====
section
/-! DEFINITION. What a step takes up: the next input (R9, R295), or the operation of the current phase (R24, R25). -/

namespace Sys2Proof.Machine

/-- The sequencer's own operation in the current phase, with no input pending. -/
def advance (s : State) : Host.Outcome State Fault Refusal := unlessFatal (phaseOp Config.params s.phase) s

/-- R315: a further block id whose lane fails. -/
def State.injectLaneFail (s : State) (blk : Word32) : State := { s with laneFails := blk :: s.laneFails }

/-- R350, 93 U15: reset while a command that would lead from `s` to `t` is in flight. A prefix of what it would have pushed
is on `BYTES` (how much is a free value); it "gets no response", and the machine is reset. -/
def State.cutByReset (s t : State) : State :=
  { s with
    sink := { s.sink with
      bytes := s.sink.bytes ++ (t.sink.bytes.drop s.sink.bytes.length).take (Config.resetCut t.freeCtr) }
    freeCtr := t.freeCtr + 1 }.hardReset

/-- Reset during the message whose execution on `s` ends as `o`; where the model stops, it stops here too. -/
def resetDuring (s : State) (o : Host.Outcome State Fault Refusal) : Host.Outcome State Fault Refusal :=
  match o with
  | .next t => .next (s.cutByReset t)
  | .fault f => .fault f
  | .refused r => .refused r

end Sys2Proof.Machine
end

