-- ==== Sys2Proof/Machine/Step.lean ====
section
/-! DEFINITION. One step: the head of `inbox` is taken up (a message is decoded and executed, a platform input takes its
effect); with no input pending the sequencer performs the operation of its phase. Each is atomic (R67). -/

namespace Sys2Proof.Machine

/-- Execute a message. -/
def execMessage (w : CmdWord) (s : State) : Host.Outcome State Fault Refusal :=
  match decode w with
  | .ok i => exec i s
  | .error e => .refused (.noSuchOperation e.name)

/-- The step function. -/
def step (s : State) : Host.Outcome State Fault Refusal :=
  match s.inbox with
  | [] => advance s
  | .message w :: rest => execMessage w { s with inbox := rest }
  | .sinkWritable b :: rest => .next { s with inbox := rest, sinkWritable := b }
  | .laneFail blk :: rest => .next ({ s with inbox := rest }.injectLaneFail blk)
  | .reset :: rest => .next ({ s with inbox := rest }.hardReset)
  | .resetDuring w :: rest => resetDuring { s with inbox := rest } (execMessage w { s with inbox := rest })

/-- Present the message of a table word next: `inbox` is where `step` takes its next instruction from. -/
def State.withFetchWord (s : State) (nbits w : Nat) : State :=
  { s with inbox := .message (tableWord nbits w) :: s.inbox }

end Sys2Proof.Machine
end

