-- ==== Sys2Proof/Safety.lean ====
section
/-! DEFINITION. The terms in which claims about SCBZ2E are stated: what a BitSink has written (R130), what it means to
append to it, the order of rotations in the words of R13 and R70, the inverse walks of the coding stages, and the
invariants of the machine. -/

namespace Sys2Proof.Machine

/-! ## The output stream -/

/-- The bits of one message on `BYTES` (R60): a byte, most significant bit first. -/
def SinkMsg.bits : SinkMsg → List Bool
  | .byte b => bitsOf 8 b
  | .close => []

/-- R130: every bit written so far, those of the partial byte included. -/
def BitSink.stream (k : BitSink) : List Bool :=
  (k.bytes.map SinkMsg.bits).flatten ++ bitsOf k.nacc.toNat k.acc

/-- R130, R60: `k'` is `k` with the bits `bs` written: whole bytes have been pushed after those of `k`, the stream is
that of `k` followed by `bs`, and the sink is open or closed as before. -/
structure BitSink.Appends (k k' : BitSink) (bs : List Bool) : Prop where
  pushed : ∃ added : List Byte, k'.bytes = k.bytes ++ added.map SinkMsg.byte
  stream : k'.stream = k.stream ++ bs
  closed : k'.closed = k.closed

/-- The bits a recorded list of BitOperations stands for. -/
def streamOf (ops : List BitOp) : List Bool := (ops.map BitOp.stream).flatten

/-- R130: the bit string of a BitOperation that writes bits (R132 to R135), if it is legal (R112). -/
def bitString : Instr → Option (List Bool)
  | .bits c v => if c.toNat ≤ 32 then some (bitsOf c.toNat v) else none
  | .boolean c v => if c = 1#8 ∧ v.toNat < 2 then some [v.getLsbD 0] else none
  | .unary c v => if c = 0#8 ∧ 0 ≤ v.toInt then some (List.replicate v.toNat true ++ [false]) else none
  | .int32 c v => if c = 32#8 then some (bitsOf 32 v) else none
  | _ => none

/-- Run instructions one after another; stop at the first that does not answer a next state. -/
def execAll : List Instr → State → Host.Outcome State Fault Refusal
  | [], s => .next s
  | i :: is, s =>
    match exec i s with
    | .next t => execAll is t
    | .fault f => .fault f
    | .refused r => .refused r

/-- R316, for a machine that has taken no fatal fault yet: code and block id are latched, the sequencer halts, "everything
else keeps the value it had". -/
def State.haltedWith (s : State) (code : BitVec 8) : State :=
  { s with faultCode := code, faultBlk := s.blkId, fatal := true, phase := .fatal }

/-! ## Kinds of instruction -/

/-- A host command (R106). -/
def isHostCommand (i : Instr) : Bool :=
  match encode i with
  | .hc _ => true
  | .bo _ => false
  | .po _ => false

/-- A BitOperation (R107). -/
def isBitOperation (i : Instr) : Bool :=
  match encode i with
  | .hc _ => false
  | .bo _ => true
  | .po _ => false

/-- The commands whose execution R297 and R298 restrict. -/
def isStreamCommand : Instr → Bool
  | .openStream _ _ => true
  | .wrb _ => true
  | .closeblk => true
  | .finish => true
  | _ => false

/-! ## The order of rotations -/

/-- R13: lexicographic order of byte strings of equal length. -/
def LexLe (u v : List Byte) : Prop :=
  u = v ∨ ∃ k, k < u.length ∧ (∀ j, j < k → u.getD j 0 = v.getD j 0) ∧ (u.getD k 0).toNat < (v.getD k 0).toNat

/-- R70, R170: the rotation of `bs` that starts at `i`. -/
def wrapped (bs : List Byte) (i : Nat) : List Byte := (List.range bs.length).map fun j => bwrap bs (i + j)

/-- R176: the sum of the first `k` gaps, the table read cyclically. -/
def gapSum : Nat → Nat
  | 0 => 0
  | k + 1 => gapSum k + Config.rnums.getD (k % 512) 0

/-- R312, R172, R177: a sort of the Block with this buffer overflows its stack, in the first attempt or in the retry on the
randomised buffer. -/
def sortOverflows (p : Params) (bs : List Byte) : Bool :=
  stackExceeded p bs || (workExceeded p bs && stackExceeded p (randomiseBytes 0 0 bs))

/-! ## Inverse walks: what a decoder reads back -/

/-- R158: a reader of `B` that counts consecutive equal bytes, takes the byte after four of them as a count byte, and
restarts its count after every count byte; `n` bytes equal to `last` have been counted. -/
def decodeRuns : Nat → Byte → List Byte → List Byte
  | _, _, [] => []
  | n, last, b :: bs =>
    if n = 4 then List.replicate b.toNat last ++ decodeRuns 0 0 bs
    else if n ≠ 0 ∧ b = last then b :: decodeRuns (n + 1) last bs
    else b :: decodeRuns 1 b bs

/-- The dense indices a symbol stream stands for (R99, R103, R202): digits of a zero run wait until a symbol that is no
digit comes. -/
def decodeSymbols (eob : Nat) : List Nat → List Nat → List Nat → List Nat
  | _, _, [] => []
  | ys, digits, v :: vs =>
    if v < 2 then decodeSymbols eob ys (digits ++ [v]) vs
    else
      List.replicate (zeroRunValue digits) (ys.headD 0) ++
        (if v = eob then [] else ys.getD (v - 1) 0 :: decodeSymbols eob (moveToFront ys (v - 1)) [] vs)

/-- R231 read backwards: the selectors that move-to-front positions stand for. -/
def decodeSelectors : List Nat → List Nat → List Nat
  | _, [] => []
  | pos, j :: js => pos.getD j 0 :: decodeSelectors (moveToFront pos j) js

/-- R224: the symbols of coding group `g`. -/
def groupSymbols (syms : List Nat) (g : Nat) : List Nat := (syms.drop (50 * g)).take 50

/-- R224: the bit cost of symbols under one table. -/
def bitCost (row : List Nat) (syms : List Nat) : Nat := (syms.map fun v => row.getD v 0).sum

/-- R253: the bits that lead from code length `a` to code length `b`, with the terminator. -/
def deltaBits (a b : Nat) : List Bool :=
  (List.replicate (b - a) [true, false]).flatten ++ (List.replicate (a - b) [true, true]).flatten ++ [false]

/-- R230, R104: what the symbols before `v` (shorter codes, then lower indices) add to its code. -/
def codeValue (lens : List Nat) (v : Nat) : Nat :=
  (((List.range lens.length).filter fun u =>
      decide (lens.getD u 0 < lens.getD v 0) || (decide (lens.getD u 0 = lens.getD v 0) && decide (u < v))).map
    fun u => 2 ^ (lens.getD v 0 - lens.getD u 0)).sum

/-! ## Invariants -/

/-- Every memory and table is in canonical form. -/
structure State.StoresWf (s : State) : Prop where
  b : s.b.wf
  zptr : s.zptr.wf
  szptr : s.szptr.wf
  quadrant : s.quadrant.wf
  ftab : s.ftab.wf
  inUse : s.inUse.wf
  seqToUnseq : s.seqToUnseq.wf
  unseqToSeq : s.unseqToSeq.wf
  yy : s.yy.wf
  mtfFreq : s.mtfFreq.wf
  lens : s.lens.wf
  code : s.code.wf
  rfreq : s.rfreq.wf
  fave : s.fave.wf
  cost : s.cost.wf
  selector : s.selector.wf
  selectorMtf : s.selectorMtf.wf
  heap : s.heap.wf
  weight : s.weight.wf
  parent : s.parent.wf
  pos : s.pos.wf

/-- R155, R21, R45: the pending run always fits, and the buffer holds `len` bytes. -/
structure State.InputOk (s : State) : Prop where
  level : s.cfgLevel.toNat ≤ 9
  cap : s.cap.toNat = 100000 * s.cfgLevel.toNat
  fits : s.len.toNat + runCost s.runLen.toNat ≤ s.cap.toNat
  run : s.runLen.toNat ≤ 254
  filled : (s.b.readRange 0 s.len.toNat).isSome = true
  raw : s.rawCount = 0 ↔ s.len = 0 ∧ s.runLen = 0

/-- R316, R31, R24: the fatal flag, the phase `FATAL` and a fault code other than 0 come and go together. -/
structure State.FatalOk (s : State) : Prop where
  phase : s.fatal = true ↔ s.phase = .fatal
  code : s.fatal = true ↔ s.faultCode ≠ 0

/-- R20: the bits of `acc` above the pending ones are zero. -/
def State.SinkOk (s : State) : Prop := s.sink.acc.toNat < 2 ^ s.sink.nacc.toNat

/-- The invariant that every step keeps, whatever messages arrive. -/
structure State.Inv (s : State) : Prop where
  stores : s.StoresWf
  input : s.InputOk
  fatal : s.FatalOk
  sink : s.SinkOk

/-- The machine between two host commands when nothing but host commands has arrived (R25, R273, R291): no Block is
half-way, nothing is recorded, the current Block is not closed and the sink of an open stream is not. -/
structure State.BetweenCommands (s : State) : Prop where
  inv : s.Inv
  phase : s.fatal = false → s.phase = if s.streamOpen then .filling else .idle
  open_ : s.fatal = false → s.streamOpen = true → s.sink.closed = false ∧ s.closed = false ∧ s.bopq = []
  level : s.streamOpen = true → 1 ≤ s.cfgLevel.toNat

/-! ## Runs -/

/-- `n` steps, one after another, up to the first that does not answer a next state. -/
def runSteps : Nat → State → Host.Outcome State Fault Refusal
  | 0, s => .next s
  | n + 1, s =>
    match step s with
    | .next t => runSteps n t
    | .fault f => .fault f
    | .refused r => .refused r

end Sys2Proof.Machine
end

