-- ==== Sys2Proof/Certificates/Slice0/Obligations.lean ====
section
/-! DEFINITION. The statements for the provers, in the order of OBLIGATIONS.json. Hypotheses speak of the state and the
operands alone; a free value of Config (log entries 1 to 3) stands in conclusions only. `t = { s with f := t.f }` says
that every field but `f` is as before (the frame). -/

section

open Sys2Proof Sys2Proof.Machine

/-! ## Reset and the step -/

/-- R48: the values after reset; `CFG.lanes` shows the parameter `LANES`, a free value within 1..128 (R8, R30, log entry 4).
Registers R48 calls unspecified are not mentioned. R31: what the `STATUS` outputs show, in every state, with the number R24
gives each phase; and what they show once a fatal fault has been taken (R316). -/
def Obligations.ResetValues : Prop :=
  (let s := State.reset
   s.phase = .idle ∧ s.fatal = false ∧ s.faultCode = 0#8 ∧ s.streamOpen = false ∧ s.sink.closed = false ∧
     s.full = false ∧ s.closed = false ∧ s.sink.acc = 0#8 ∧ s.sink.nacc = 0#3 ∧ s.streamCrc = 0#32 ∧
     s.nextId = 0#32 ∧ s.blocksEmitted = 0#32 ∧ s.cfgLevel = 0#4 ∧ s.cfgOwnsSink = false ∧
     s.cfgLanes = BitVec.ofNat 8 Config.lanes ∧ 1 ≤ s.cfgLanes.toNat ∧ s.cfgLanes.toNat ≤ 128 ∧ s.bopq = [] ∧
     s.sink.bytes = []) ∧
  (∀ s : State,
    s.status.phase =
      (match s.phase with
      | .idle => 0#4
      | .filling => 1#4
      | .queued => 2#4
      | .sort1 => 3#4
      | .randomise => 4#4
      | .sort2 => 5#4
      | .origin => 6#4
      | .mtf => 7#4
      | .hufInit => 8#4
      | .hufIter => 9#4
      | .hufAssign => 10#4
      | .emit => 11#4
      | .compressed => 12#4
      | .flushed => 13#4
      | .fatal => 15#4) ∧
    s.status.full = s.full ∧ s.status.fatal = s.fatal ∧ s.status.faultCode = s.faultCode ∧
    s.status.faultBlk = s.faultBlk ∧ s.status.blkId = s.blkId) ∧
  ∀ (s : State) (f : HwFault), (s.fatalEntry f).status =
    { phase := 15#4, full := s.full, fatal := true
      faultCode := if s.fatal then s.faultCode else f.code
      faultBlk := if s.fatal then s.faultBlk else s.blkId
      blkId := s.blkId }

/-- R350: the reset input, in every state, `FATAL` included. What has been pushed on `BYTES` and the responses given stay
(no `close` is sent, no response is added). While a command is in flight (93 U15) a prefix of what it would have pushed is
out as well, and it gets no response. -/
def Obligations.ResetInput : Prop :=
  ∀ (s : State) (rest : List Input),
    (let isReset := fun t : State =>
      t.phase = .idle ∧ t.fatal = false ∧ t.faultCode = 0#8 ∧ t.streamOpen = false ∧ t.sink.closed = false ∧
      t.full = false ∧ t.closed = false ∧ t.sink.acc = 0#8 ∧ t.sink.nacc = 0#3 ∧ t.streamCrc = 0#32 ∧
      t.nextId = 0#32 ∧ t.blocksEmitted = 0#32 ∧ t.cfgLevel = 0#4 ∧ t.cfgOwnsSink = false ∧
      t.cfgLanes = BitVec.ofNat 8 Config.lanes ∧ t.bopq = [] ∧ t.rsp = s.rsp ∧ t.inbox = rest
     (s.inbox = .reset :: rest → ∃ t, step s = .next t ∧ isReset t ∧ t.sink.bytes = s.sink.bytes) ∧
     ∀ (w : CmdWord) (i : Instr) (u : State), s.inbox = .resetDuring w :: rest → decode w = .ok i →
       exec i { s with inbox := rest } = .next u →
       ∃ (t : State) (out later : List SinkMsg), step s = .next t ∧ isReset t ∧
         u.sink.bytes = s.sink.bytes ++ (out ++ later) ∧ t.sink.bytes = s.sink.bytes ++ out)

/-- A step takes the next input. A message: step takes it away and is exec of the instruction it decodes to. The level
input `SINK_WRITABLE` (R9) and an injected lane failure (R315) change the recorded input and nothing else. -/
def Obligations.StepTakesNextInput : Prop :=
  ∀ (s : State) (rest : List Input),
    (∀ (w : CmdWord) (i : Instr), s.inbox = .message w :: rest → decode w = .ok i →
      step s = exec i { s with inbox := rest }) ∧
    (∀ b, s.inbox = .sinkWritable b :: rest → step s = .next { s with inbox := rest, sinkWritable := b }) ∧
    (∀ k, s.inbox = .laneFail k :: rest →
      step s = .next { s with inbox := rest, laneFails := k :: s.laneFails })

/-- R25, R24: what a step of the sequencer by itself (no input pending) may make of `phase`, for every phase. -/
def Obligations.SequencerFollowsTransferTable : Prop :=
  ∀ s t : State, s.inbox = [] → s.fatal = false → step s = .next t →
    match s.phase with
    | .idle => t = s
    | .filling => t = s
    | .queued => t.phase = .sort1 ∨ t.phase = .fatal
    | .sort1 =>
      ((t.phase = .origin ∧ t.randomised = false) ∨ (t.phase = .randomise ∧ t.firstAttempt = true)) ∨ t.phase = .fatal
    | .randomise => t.phase = .sort2 ∧ t.randomised = true ∧ t.firstAttempt = false
    | .sort2 => t.phase = .origin ∨ t.phase = .fatal
    | .origin => t.phase = .mtf ∨ t.phase = .fatal
    | .mtf => t.phase = .hufInit
    | .hufInit => t.phase = .hufIter ∧ t.iter = 0#3
    | .hufIter =>
      if s.iter.toNat < 3 then t.phase = .hufIter ∧ t.iter = s.iter + 1 else t.phase = .hufAssign ∧ t.iter = s.iter
    | .hufAssign => t.phase = .emit ∨ t.phase = .fatal
    | .emit => t.phase = .compressed
    | .compressed => t.phase = .flushed ∨ t.phase = .fatal
    | .flushed => t.phase = .filling
    | .fatal => t = s

/-- R109, R24, R294, R255, R271: in a phase of several operations the sequencer runs them in the fixed order of the
opcode table, then transfers. -/
def Obligations.PhasesRunTheirOperationsInOrder : Prop :=
  ∀ s : State, s.inbox = [] → s.fatal = false →
    (s.phase = .hufInit →
      step s =
        match execAll [.hufNgroups, .hufInit] s with
        | .next t => .next { t with phase := .hufIter, iter := 0#3 }
        | .fault f => .fault f
        | .refused r => .refused r) ∧
    (s.phase = .hufIter →
      step s =
        match execAll (.hufIter :: (List.range s.nGroups.toNat).map fun n => .hufMklen (BitVec.ofNat 3 n)) s with
        | .next t =>
          .next (if s.iter.toNat < 3 then { t with phase := .hufIter, iter := s.iter + 1 }
            else { t with phase := .hufAssign })
        | .fault f => .fault f
        | .refused r => .refused r) ∧
    (s.phase = .hufAssign →
      step s =
        execAll (.hufRangechk ::
          (((List.range s.nGroups.toNat).map fun n => .hufAssign (BitVec.ofNat 3 n)) ++ [.hufSelmtf])) s) ∧
    (s.phase = .emit →
      step s = execAll [.frmBlockhdr, .emitInuse, .emitCounts, .emitSelectors, .emitLengths, .emitSymbols] s)

/-! ## Encoding -/

/-- R106, R107, R116 and the model's harness words: no operand bit is dropped. -/
def Obligations.DecodeEncode : Prop := ∀ i : Instr, i.wf = true → decode (encode i) = .ok i

/-- The other direction: every host command word and every BitOperation word is the word of the instruction it decodes to,
and that instruction is well-formed; a harness word that decodes has a well-formed instruction too. -/
def Obligations.EncodeDecode : Prop :=
  (∀ w : BitVec 16, encode (decodeHc w) = .hc w ∧ (decodeHc w).wf = true) ∧
  (∀ w : BitVec 48, encode (decodeBo w) = .bo w ∧ (decodeBo w).wf = true) ∧
  ∀ (w : BitVec 16) (i : Instr), decode (.po w) = .ok i → i.wf = true

/-- Words written out from R106, R107 and R116. -/
def Obligations.WrittenWordsDecode : Prop :=
  decode (.hc 0b0001000100001001#16) = .ok (.openStream true 9#8) ∧
  decode (.hc 0b0010000001100001#16) = .ok (.wrb 0x61#8) ∧
  decode (.hc 0b0011000000000000#16) = .ok .closeblk ∧
  decode (.hc 0b0100000000000000#16) = .ok .finish ∧
  decode (.bo 0x010500000006#48) = .ok (.bits 5#8 6#32) ∧
  decode (.bo 0x030000000003#48) = .ok (.unary 0#8 3#32) ∧
  decode (.bo 0x050000000000#48) = .ok (.flush 0#8 0#32)

/-! ## Refused commands and fatal entry -/

/-- R296, R110, R298, R317: the local refusals. SEEK, READ, SETLEN and the reserved commands in every state; OPEN in an
open stream, WRB, CLOSEBLK and FINISH outside one. Each answers `{0x02, code}` and changes nothing else. The last clause:
every word with a reserved `hop`, and every word that violates its row, is a reserved command. -/
def Obligations.LocalRefusals : Prop :=
  (∀ (a : BitVec 12) (w : BitVec 16) (s : State),
    exec (.seek a) s = .next { s with rsp := s.rsp ++ [0x0230#16] } ∧
    exec (.read a) s = .next { s with rsp := s.rsp ++ [0x0230#16] } ∧
    exec (.setlen a) s = .next { s with rsp := s.rsp ++ [0x0230#16] } ∧
    exec (.hcReserved0 a) s = .next { s with rsp := s.rsp ++ [0x0243#16] } ∧
    exec (.hcReserved8F w) s = .next { s with rsp := s.rsp ++ [0x0243#16] }) ∧
  (∀ (i : Instr) (s : State), isStreamCommand i = true → s.fatal = false →
    (s.streamOpen = match i with
      | .openStream _ _ => true
      | _ => false) →
    exec i s = .next { s with rsp := s.rsp ++ [0x0242#16] }) ∧
  ∀ (s : State) (rest : List Input) (w : BitVec 16), s.inbox = .message (.hc w) :: rest →
    (let hop := (w.extractLsb' 12 4).toNat
     hop = 0 ∨ 8 ≤ hop ∨ (hop = 1 ∧ w.extractLsb' 9 3 ≠ 0#3) ∨ (hop = 2 ∧ w.extractLsb' 8 4 ≠ 0#4) ∨
       ((hop = 3 ∨ hop = 4) ∧ w.extractLsb' 0 12 ≠ 0#12)) →
    step s = .next { s with inbox := rest, rsp := s.rsp ++ [0x0243#16] }

/-- R297, R322, R316: while `fatal = 1`, OPEN, WRB, CLOSEBLK and FINISH are answered with the latched code, and no
instruction changes anything but the responses; only host commands are answered. -/
def Obligations.NothingExecutesInFatal : Prop :=
  ∀ (i : Instr) (s : State), s.fatal = true →
    (isStreamCommand i = true → exec i s = .next { s with rsp := s.rsp ++ [0x03#8 ++ s.faultCode] }) ∧
    ∃ rs, exec i s = .next { s with rsp := s.rsp ++ rs } ∧ (isHostCommand i = false → rs = [])

/-- R321, R350, U10: a step out of `FATAL` that is no reset stays in `FATAL`, with the first fault's code and block id. That
a BitOperation or a harness's phase operation there leaves the flag, `phase` and the BitSink as they were is log entry 9
(DEDUCED from R322). -/
def Obligations.OnlyResetLeavesFatal : Prop :=
  ∀ s t : State, s.fatal = true → s.phase = .fatal → s.inbox.head? ≠ some .reset →
    (∀ w, s.inbox.head? ≠ some (.resetDuring w)) → step s = .next t →
    t.fatal = true ∧ t.phase = .fatal ∧ t.faultCode = s.faultCode ∧ t.faultBlk = s.faultBlk ∧ t.sink = s.sink

/-- R295, R108: a host command that answers a next state adds exactly one response, of one of the four kinds; a local
answer changes nothing else, a fatal answer carries the latched code. Other instructions add none. -/
def Obligations.OneResponsePerCommand : Prop :=
  ∀ (i : Instr) (s t : State), exec i s = .next t →
    (isHostCommand i = false → t.rsp = s.rsp) ∧
    (isHostCommand i = true → ∃ r : BitVec 16, t.rsp = s.rsp ++ [r] ∧
      (r = 0x0000#16 ∨ (r = 0x0100#16 ∧ ∃ v, i = .wrb v) ∨
        (r.extractLsb' 8 8 = 0x02#8 ∧ t = { s with rsp := t.rsp }) ∨
        (r = 0x03#8 ++ t.faultCode ∧ t.fatal = true)))

/-- R28, R29, R30: the configuration registers are written by OPEN only. -/
def Obligations.OnlyOpenConfigures : Prop :=
  ∀ (i : Instr) (s t : State), (∀ owns level, i ≠ .openStream owns level) → exec i s = .next t →
    t.cfgLevel = s.cfgLevel ∧ t.cfgOwnsSink = s.cfgOwnsSink ∧ t.cfgLanes = s.cfgLanes

/-! ## BitSink -/

/-- R132 `BITS c, v`. -/
def Obligations.BitsOperation : Prop :=
  ∀ (c : BitVec 8) (v : BitVec 32) (s : State), s.fatal = false →
    (s.sink.closed = true → exec (.bits c v) s = .next (s.haltedWith 0x40#8)) ∧
    (s.sink.closed = false → 32 < c.toNat → exec (.bits c v) s = .next (s.haltedWith 0x41#8)) ∧
    (s.sink.closed = false → c.toNat ≤ 32 →
      ∃ k, s.sink.Appends k ((List.range c.toNat).map fun j => v.getLsbD (c.toNat - 1 - j)) ∧
        exec (.bits c v) s = .next { s with sink := k })

/-- R133 `BOOL b`. -/
def Obligations.BoolOperation : Prop :=
  ∀ (c : BitVec 8) (v : BitVec 32) (s : State), s.fatal = false →
    (s.sink.closed = true → exec (.boolean c v) s = .next (s.haltedWith 0x40#8)) ∧
    (s.sink.closed = false → (c ≠ 1#8 ∨ v.extractLsb' 1 31 ≠ 0#31) →
      exec (.boolean c v) s = .next (s.haltedWith 0x41#8)) ∧
    (s.sink.closed = false → c = 1#8 → v.extractLsb' 1 31 = 0#31 →
      ∃ k, s.sink.Appends k [v.getLsbD 0] ∧ exec (.boolean c v) s = .next { s with sink := k })

/-- R134 `UNARY n`. -/
def Obligations.UnaryOperation : Prop :=
  ∀ (c : BitVec 8) (v : BitVec 32) (s : State), s.fatal = false →
    (s.sink.closed = true → exec (.unary c v) s = .next (s.haltedWith 0x40#8)) ∧
    (s.sink.closed = false → (c ≠ 0#8 ∨ v.toInt < 0) → exec (.unary c v) s = .next (s.haltedWith 0x41#8)) ∧
    (s.sink.closed = false → c = 0#8 → 0 ≤ v.toInt →
      ∃ k, s.sink.Appends k (List.replicate v.toNat true ++ [false]) ∧
        exec (.unary c v) s = .next { s with sink := k })

/-- R135 `INT32 v`. -/
def Obligations.Int32Operation : Prop :=
  ∀ (c : BitVec 8) (v : BitVec 32) (s : State), s.fatal = false →
    (s.sink.closed = true → exec (.int32 c v) s = .next (s.haltedWith 0x40#8)) ∧
    (s.sink.closed = false → c ≠ 32#8 → exec (.int32 c v) s = .next (s.haltedWith 0x41#8)) ∧
    (s.sink.closed = false → c = 32#8 →
      ∃ k, s.sink.Appends k ((List.range 32).map fun j => v.getLsbD (31 - j)) ∧
        exec (.int32 c v) s = .next { s with sink := k })

/-- R136 `FLUSH`, R65: zero bits up to a byte boundary, then the sink is closed. -/
def Obligations.FlushOperation : Prop :=
  ∀ (c : BitVec 8) (v : BitVec 32) (s : State), s.fatal = false →
    (s.sink.closed = true → exec (.flush c v) s = .next (s.haltedWith 0x40#8)) ∧
    (s.sink.closed = false → (c ≠ 0#8 ∨ v ≠ 0#32) → exec (.flush c v) s = .next (s.haltedWith 0x41#8)) ∧
    (s.sink.closed = false → c = 0#8 → v = 0#32 →
      ∃ k, s.sink.Appends k (List.replicate ((8 - s.sink.nacc.toNat) % 8) false) ∧ k.nacc = 0#3 ∧
        exec (.flush c v) s = .next { s with sink := { k with closed := true } })

/-- R112, R107, R139, R319: the effect of a BitOperation of a reserved kind is fatal entry, with no bit written; and every
word whose `kind` is reserved is such an instruction. -/
def Obligations.ReservedBitOperations : Prop :=
  (∀ s : State, s.fatal = false →
    (let code := if s.sink.closed then 0x40#8 else 0x41#8
     (∀ a, exec (.boReserved00 a) s = .next (s.haltedWith code)) ∧
     (∀ a, exec (.boReserved0607 a) s = .next (s.haltedWith code)) ∧
     (∀ a, exec (.boReserved080F a) s = .next (s.haltedWith code)) ∧
     (∀ a, exec (.boReserved101F a) s = .next (s.haltedWith code)) ∧
     (∀ a, exec (.boReserved203F a) s = .next (s.haltedWith code)) ∧
     (∀ a, exec (.boReserved407F a) s = .next (s.haltedWith code)) ∧
     ∀ a, exec (.boReserved80FF a) s = .next (s.haltedWith code))) ∧
  ∀ (s : State) (rest : List Input) (w : BitVec 48), s.fatal = false → s.inbox = .message (.bo w) :: rest →
    (let kind := (w.extractLsb' 40 8).toNat
     kind = 0 ∨ 6 ≤ kind) →
    step s = .next ({ s with inbox := rest }.haltedWith (if s.sink.closed then 0x40#8 else 0x41#8))

/-- R130: the contract of the BitSink. Any sequence of legal BitOperations from an open, byte-aligned sink pushes the
whole bytes of the concatenated bit strings and keeps the rest pending; a FLUSH after them pushes the rest, filled up
with zero bits. -/
def Obligations.SinkContract : Prop :=
  ∀ (ops : List Instr) (strings : List (List Bool)) (s : State),
    s.fatal = false → s.sink.closed = false → s.sink.nacc = 0#3 → ops.map bitString = strings.map some →
    ∃ k : BitSink, execAll ops s = .next { s with sink := k } ∧
      (let S := strings.flatten
       ∃ pushed : List Byte, k.bytes = s.sink.bytes ++ pushed.map SinkMsg.byte ∧ pushed.length = S.length / 8 ∧
         (∀ n j, n < pushed.length → j < 8 → (pushed.getD n 0).getLsbD (7 - j) = S.getD (8 * n + j) false) ∧
         k.nacc.toNat = S.length % 8 ∧
         (∀ j, j < S.length % 8 →
           k.acc.getLsbD (S.length % 8 - 1 - j) = S.getD (8 * (S.length / 8) + j) false)) ∧
      ∃ k' : BitSink, execAll (ops ++ [.flush 0#8 0#32]) s = .next { s with sink := k' } ∧
        (let S := strings.flatten ++ List.replicate ((8 - strings.flatten.length % 8) % 8) false
         ∃ pushed : List Byte, k'.bytes = s.sink.bytes ++ pushed.map SinkMsg.byte ∧ pushed.length = S.length / 8 ∧
           ∀ n j, n < pushed.length → j < 8 → (pushed.getD n 0).getLsbD (7 - j) = S.getD (8 * n + j) false)

/-- R67: "a byte, once pushed, is never changed or withdrawn", over every step and every input. -/
def Obligations.BytesOnlyGrow : Prop :=
  ∀ s t : State, step s = .next t → ∃ added, t.sink.bytes = s.sink.bytes ++ added

/-! ## Input stage -/

/-- R150 `BLK.INIT`, with R49 (what block init does not name is left open). That an id that would pass 2^32 - 1 is refused
is R27, 93 U7 and log entry 13 (DEDUCED). -/
def Obligations.BlkInitOperation : Prop :=
  ∀ s : State, s.fatal = false → s.cfgLevel.toNat ≤ 9 →
    (s.nextId = 0xFFFFFFFF#32 → exec .blkInit s = .refused (.counterWrap .nextId)) ∧
    (s.nextId ≠ 0xFFFFFFFF#32 →
      ∃ t, exec .blkInit s = .next t ∧
        t.blkId = s.nextId ∧ t.nextId = s.nextId + 1 ∧ t.cap.toNat = 100000 * s.cfgLevel.toNat ∧ t.len = 0#20 ∧
        t.rawCount = 0#32 ∧ t.runLen = 0#8 ∧ t.crc = 0xFFFFFFFF#32 ∧ t.full = false ∧ t.closed = false ∧
        t.bopq = [] ∧ t.phase = .filling ∧
        t.sink = s.sink ∧ t.streamCrc = s.streamCrc ∧ t.blocksEmitted = s.blocksEmitted ∧
        t.streamOpen = s.streamOpen ∧ t.fatal = false ∧ t.cfgLevel = s.cfgLevel ∧ t.cfgOwnsSink = s.cfgOwnsSink ∧
        t.cfgLanes = s.cfgLanes ∧ t.faultCode = s.faultCode ∧ t.faultBlk = s.faultBlk ∧ t.inbox = s.inbox ∧
        t.rsp = s.rsp ∧ t.sinkWritable = s.sinkWritable ∧ t.laneFails = s.laneFails)

/-- R152 `RLE1.FLUSHRUN`, R102: the bytes of the pending run are appended to `B`; nothing else of `B` changes. -/
def Obligations.FlushRunOperation : Prop :=
  ∀ s : State, s.fatal = false → s.len.toNat + runCost s.runLen.toNat ≤ s.cap.toNat →
    ∃ t, exec .rle1Flushrun s = .next t ∧ t = { s with b := t.b, len := t.len, runLen := 0#8 } ∧
      (let L := s.runLen.toNat
       t.len.toNat = s.len.toNat + (if L ≤ 3 then L else 5) ∧
       ∀ a, t.b.read a =
         if a < s.len.toNat ∨ t.len.toNat ≤ a then s.b.read a
         else if 4 ≤ L ∧ a = s.len.toNat + 4 then some (BitVec.ofNat 8 (L - 4))
         else some s.runByte)

/-- R151 `BLK.WRITE v`. A full Block takes nothing. A byte that does not fit flushes the pending run, makes the Block full
and is not consumed. A byte that fits is counted and goes into the CRC, in three cases; `RLE1.FLUSHRUN` is the
instruction of that name; `accepts` is the result ACCEPT. That a raw count past 2^32 - 1 is refused is 93 U7 and log
entry 13 (DEDUCED), not R151; that `closed` is not read is log entry 31. -/
def Obligations.BlkWriteOperation : Prop :=
  ∀ (v : BitVec 8) (s : State), s.fatal = false → s.len.toNat + runCost s.runLen.toNat ≤ s.cap.toNat →
    s.runLen.toNat ≤ 254 →
    (let need :=
      if s.runLen.toNat = 0 then s.len.toNat + 1
      else if v = s.runByte then s.len.toNat + runCost (s.runLen.toNat + 1)
      else s.len.toNat + runCost s.runLen.toNat + 1
     let u := { s with crc := crcStep s.crc v, rawCount := s.rawCount + 1 }
     (accepts s v = true ↔ s.full = false ∧ need ≤ s.cap.toNat) ∧
     (s.full = true → exec (.blkWrite v) s = .next s) ∧
     (s.full = false → s.cap.toNat < need →
       ∃ t, exec .rle1Flushrun s = .next t ∧ exec (.blkWrite v) s = .next { t with full := true } ∧
         t.crc = s.crc ∧ t.rawCount = s.rawCount) ∧
     (s.full = false → need ≤ s.cap.toNat → s.rawCount = 0xFFFFFFFF#32 →
       exec (.blkWrite v) s = .refused (.counterWrap .rawCount)) ∧
     (s.full = false → need ≤ s.cap.toNat → s.rawCount ≠ 0xFFFFFFFF#32 →
       (s.runLen = 0#8 → exec (.blkWrite v) s = .next { u with runByte := v, runLen := 1#8 }) ∧
       (s.runLen ≠ 0#8 → v = s.runByte → s.runLen.toNat < 254 →
         exec (.blkWrite v) s = .next { u with runLen := s.runLen + 1 }) ∧
       (s.runLen ≠ 0#8 → v = s.runByte → s.runLen.toNat = 254 →
         ∃ t, exec .rle1Flushrun { u with runLen := 255#8 } = .next t ∧ exec (.blkWrite v) s = .next t ∧
           t.runLen = 0#8) ∧
       (s.runLen ≠ 0#8 → v ≠ s.runByte →
         ∃ t, exec .rle1Flushrun u = .next t ∧
           exec (.blkWrite v) s = .next { t with runByte := v, runLen := 1#8 })))

/-- R287 `WRB`: the effect of `BLK.WRITE`, and the response says whether the byte was accepted. -/
def Obligations.WrbResponse : Prop :=
  ∀ (v : BitVec 8) (s : State), s.fatal = false → s.streamOpen = true → s.InputOk → s.rawCount ≠ 0xFFFFFFFF#32 →
    ∃ t, exec (.blkWrite v) s = .next t ∧ t.rsp = s.rsp ∧
      (let need :=
        if s.runLen.toNat = 0 then s.len.toNat + 1
        else if v = s.runByte then s.len.toNat + runCost (s.runLen.toNat + 1)
        else s.len.toNat + runCost s.runLen.toNat + 1
       let r := if s.full = false ∧ need ≤ s.cap.toNat then 0x0000#16 else 0x0100#16
       exec (.wrb v) s = .next { t with rsp := s.rsp ++ [r] })

/-- R155, R293: run-free input fills a Block exactly: of bytes no two adjacent of which are equal, a fresh Block takes
`100000 × level` and rejects the next, which leaves `len = cap`. -/
def Obligations.RunFreeBlockFillsExactly : Prop :=
  ∀ (s : State) (xs : List (BitVec 8)) (v : BitVec 8), s.fatal = false → s.InputOk → 1 ≤ s.cfgLevel.toNat →
    s.len = 0#20 → s.runLen = 0#8 → s.rawCount = 0#32 → s.full = false →
    xs.length = 100000 * s.cfgLevel.toNat → (xs ++ [v]).IsChain (fun a b => a ≠ b) →
    ∃ t u, execAll (xs.map .blkWrite) s = .next t ∧ t.rawCount.toNat = xs.length ∧ t.full = false ∧
      exec (.blkWrite v) t = .next u ∧ u.full = true ∧ u.rawCount = t.rawCount ∧ u.len = u.cap ∧ u.cap = s.cap ∧
      u.b.readRange 0 u.len.toNat = some xs

/-- R102, R151, R152, R156, R158: the buffer of a closed Block is the run-length encoding of the raw bytes it accepted (a
decoder that restarts its count after every count byte reads them back), and its CRC is over those raw bytes. -/
def Obligations.BlockBufferDecodes : Prop :=
  ∀ (s t : State) (xs : List (BitVec 8)), s.fatal = false → s.InputOk → s.len = 0#20 → s.runLen = 0#8 →
    s.rawCount = 0#32 → s.crc = 0xFFFFFFFF#32 → s.closed = false →
    execAll (xs.map .blkWrite ++ [.blkClose]) s = .next t → t.rawCount.toNat = xs.length →
    ∃ bs, t.b.readRange 0 t.len.toNat = some bs ∧ decodeRuns 0 0 bs = xs ∧
      t.blockCrc = ~~~ (xs.foldl crcStep 0xFFFFFFFF#32) ∧ t.phase = .queued

/-- R153, R154: the byte-wise form of the CRC step, and the entries R154 names. -/
def Obligations.CrcTableForm : Prop :=
  (∀ (c : BitVec 32) (v : BitVec 8), crcStep c v = (c <<< 8) ^^^ crcTab (c.extractLsb' 24 8 ^^^ v)) ∧
  crcTab 0 = 0x00000000#32 ∧ crcTab 1 = 0x04C11DB7#32 ∧ crcTab 2 = 0x09823B6E#32 ∧ crcTab 3 = 0x0D4326D9#32 ∧
  crcTab 128 = 0x690CE0EE#32 ∧ crcTab 255 = 0xB1F740B4#32

/-- R156 `BLK.CLOSE`, R314: the run is flushed, the CRC latched; a second close is fatal. -/
def Obligations.BlkCloseOperation : Prop :=
  ∀ s : State, s.fatal = false →
    (s.closed = true → exec .blkClose s = .next (s.haltedWith 0x04#8)) ∧
    (s.closed = false → s.len.toNat + runCost s.runLen.toNat ≤ s.cap.toNat →
      ∃ t, exec .rle1Flushrun { s with closed := true } = .next t ∧
        exec .blkClose s = .next { t with blockCrc := ~~~ s.crc, phase := .queued })

/-! ## Sort -/

/-- R172, R173, R312 `BWT.SORT`, first attempt: for every value of the open predicates (log entries 1 and 3). `work_done`
is a free value after the attempt. -/
def Obligations.BwtSortOperation : Prop :=
  ∀ (s : State) (bs : List Byte), s.fatal = false → 1 ≤ s.len.toNat → s.len.toNat ≤ s.cap.toNat →
    s.b.readRange 0 s.len.toNat = some bs →
    ∃ t, exec .bwtSort s = .next t ∧
      t = { s with
              firstAttempt := true
              randomised := false
              workDone := t.workDone
              workLimit := some (BitVec.ofNat 32 (50 * s.len.toNat))
              zptr := t.zptr
              phase := t.phase
              fatal := t.fatal
              faultCode := t.faultCode
              faultBlk := t.faultBlk } ∧
      (if stackExceeded Config.params bs then
        t.phase = .fatal ∧ t.fatal = true ∧ t.faultCode = 0x02#8 ∧ t.faultBlk = s.blkId
      else
        t.fatal = false ∧ t.faultCode = s.faultCode ∧ t.faultBlk = s.faultBlk ∧
          (if workExceeded Config.params bs then t.phase = .randomise
          else
            t.phase = .origin ∧
              ∃ zs : List Nat, zs.Perm (List.range bs.length) ∧
                (∀ i, i + 1 < bs.length → LexLe (wrapped bs (zs.getD i 0)) (wrapped bs (zs.getD (i + 1) 0))) ∧
                t.zptr.readRange 0 s.len.toNat = some (zs.map (BitVec.ofNat 20))))

/-- R177, R174 `BWT.SORT`, retry: the limit is not consulted. -/
def Obligations.BwtRetryOperation : Prop :=
  ∀ (s : State) (bs : List Byte), s.fatal = false → 1 ≤ s.len.toNat → s.len.toNat ≤ s.cap.toNat →
    s.b.readRange 0 s.len.toNat = some bs →
    ∃ t, exec .bwtSortRetry s = .next t ∧
      t = { s with
              workDone := t.workDone
              zptr := t.zptr
              phase := t.phase
              fatal := t.fatal
              faultCode := t.faultCode
              faultBlk := t.faultBlk } ∧
      (if stackExceeded Config.params bs then
        t.phase = .fatal ∧ t.fatal = true ∧ t.faultCode = 0x02#8 ∧ t.faultBlk = s.blkId
      else
        t.fatal = false ∧ t.faultCode = s.faultCode ∧ t.faultBlk = s.faultBlk ∧ t.phase = .origin ∧
          ∃ zs : List Nat, zs.Perm (List.range bs.length) ∧
            (∀ i, i + 1 < bs.length → LexLe (wrapped bs (zs.getD i 0)) (wrapped bs (zs.getD (i + 1) 0))) ∧
            t.zptr.readRange 0 s.len.toNat = some (zs.map (BitVec.ofNat 20)))

/-- R175, R176 `BWT.RANDOMISE`: the inverted bytes are those at `S_k + RNUMS[k] - 2`, the table read cyclically. -/
def Obligations.BwtRandomiseOperation : Prop :=
  ∀ (s : State) (bs : List Byte), s.fatal = false → s.len.toNat ≤ s.cap.toNat →
    s.b.readRange 0 s.len.toNat = some bs →
    ∃ t, exec .bwtRandomise s = .next t ∧
      t = { s with
              b := t.b
              randomised := true
              firstAttempt := false
              workDone := 0#64
              workLimit := none
              phase := .sort2 } ∧
      (∀ a, s.len.toNat ≤ a → t.b.read a = s.b.read a) ∧
      ∀ a, a < s.len.toNat →
        ((∃ k, a + 2 = gapSum (k + 1)) → t.b.read a = some (bs.getD a 0 ^^^ 1#8)) ∧
        ((¬ ∃ k, a + 2 = gapSum (k + 1)) → t.b.read a = some (bs.getD a 0))

/-- R178, R311 `BWT.ORIGIN`: the position of offset 0, or the fatal fault. -/
def Obligations.BwtOriginOperation : Prop :=
  ∀ (s : State) (zs : List (BitVec 20)), s.fatal = false → s.len.toNat ≤ s.cap.toNat →
    s.zptr.readRange 0 s.len.toNat = some zs →
    (0#20 ∈ zs → ∃ i : Nat, zs[i]? = some 0#20 ∧ (∀ j : Nat, j < i → zs[j]? ≠ some 0#20) ∧
      ∃ o : BitVec 24, o.toNat = i ∧ exec .bwtOrigin s = .next { s with origPtr := o, phase := .mtf }) ∧
    (0#20 ∉ zs → exec .bwtOrigin s = .next (s.haltedWith 0x01#8))

/-! ## Symbol stream -/

/-- R103: the digits of a zero run exist, are unique, and are those `RLE2.FLUSH` writes; they are the binary digits of
`r + 1` without the leading 1, least significant first. -/
def Obligations.ZeroRunNumeral : Prop :=
  ∀ r : Nat, (∀ d ∈ zeroRun r, d < 2) ∧ zeroRunValue (zeroRun r) = r ∧
    (∀ ds : List Nat, (∀ d ∈ ds, d < 2) → zeroRunValue ds = r → ds = zeroRun r) ∧
    zeroRun r = (Nat.digits 2 (r + 1)).dropLast

/-- R204 `RLE2.FLUSH`: the symbols of the pending run follow those of `szptr`, and are counted. -/
def Obligations.Rle2FlushOperation : Prop :=
  ∀ (s : State) (f0 f1 : BitVec 20), s.fatal = false → s.cap.toNat ≤ 900000 →
    s.mtfFreq.read 0 = some f0 → s.mtfFreq.read 1 = some f1 →
    (let ds := zeroRun s.zpend.toNat
     s.nMTF.toNat + ds.length ≤ s.cap.toNat + 1 →
     ∃ t, exec .rle2Flush s = .next t ∧
       t = { s with szptr := t.szptr, nMTF := t.nMTF, mtfFreq := t.mtfFreq, zpend := 0#20 } ∧
       t.nMTF.toNat = s.nMTF.toNat + ds.length ∧
       (∀ a, t.szptr.read a =
         if s.nMTF.toNat ≤ a ∧ a < t.nMTF.toNat then some (BitVec.ofNat 9 (ds.getD (a - s.nMTF.toNat) 0))
         else s.szptr.read a) ∧
       t.mtfFreq.read 0 = some (f0 + BitVec.ofNat 20 (ds.count 0)) ∧
       t.mtfFreq.read 1 = some (f1 + BitVec.ofNat 20 (ds.count 1)) ∧
       ∀ a, 2 ≤ a → t.mtfFreq.read a = s.mtfFreq.read a)

/-- R200, R201, R205, R206, R208 `MTF.GEN`: the in-use tables, the counts and the end of the stream. -/
def Obligations.MtfGenOperation : Prop :=
  ∀ (s : State) (bs : List Byte) (zs : List (BitVec 20)), s.fatal = false → 1 ≤ s.len.toNat →
    s.len.toNat ≤ s.cap.toNat → s.cap.toNat ≤ 900000 → s.b.readRange 0 s.len.toNat = some bs →
    s.zptr.readRange 0 s.len.toNat = some zs →
    ∃ (t : State) (used : List Byte) (syms : List Nat), exec .mtfGen s = .next t ∧
      t = { s with
              inUse := t.inUse, seqToUnseq := t.seqToUnseq, unseqToSeq := t.unseqToSeq, nInUse := t.nInUse
              alphaSize := t.alphaSize, yy := t.yy, zpend := 0#20, szptr := t.szptr, nMTF := t.nMTF
              mtfFreq := t.mtfFreq, phase := .hufInit } ∧
      (∀ v : Byte, v ∈ used ↔ v ∈ bs) ∧ used.Pairwise (fun a b => a.toNat < b.toNat) ∧
      (∀ v : Byte, t.inUse.read v.toNat = some (BitVec.ofBool (bs.contains v))) ∧
      (∀ k : Nat, k < used.length → t.seqToUnseq.read k = some (used.getD k 0) ∧
        t.unseqToSeq.read (used.getD k 0).toNat = some (BitVec.ofNat 8 k)) ∧
      t.nInUse.toNat = used.length ∧ t.alphaSize.toNat = used.length + 2 ∧
      t.nMTF.toNat = syms.length ∧ 2 ≤ syms.length ∧ syms.length ≤ bs.length + 1 ∧
      t.szptr.readRange 0 syms.length = some (syms.map (BitVec.ofNat 9)) ∧
      (∀ v ∈ syms, v ≤ used.length + 1) ∧
      (∀ k : Nat, k < syms.length → (syms.getD k 0 = used.length + 1 ↔ k + 1 = syms.length)) ∧
      ∀ v : Nat, v < used.length + 2 → t.mtfFreq.read v = some (BitVec.ofNat 20 (syms.count v))

/-- R71, R99, R202 to R205: the symbol stream `MTF.GEN` leaves stands for the last column: a decoder that undoes zero runs
and move-to-front ranks reads back, in sorted order, the byte before the start of each rotation. -/
def Obligations.SymbolStreamDecodes : Prop :=
  ∀ (s t : State) (bs : List Byte) (zs : List (BitVec 20)), s.fatal = false → 1 ≤ s.len.toNat →
    s.cap.toNat ≤ 900000 → s.b.readRange 0 s.len.toNat = some bs → s.zptr.readRange 0 s.len.toNat = some zs →
    exec .mtfGen s = .next t →
    ∃ (syms : List (BitVec 9)) (used : List (BitVec 8)),
      t.szptr.readRange 0 t.nMTF.toNat = some syms ∧ t.seqToUnseq.readRange 0 t.nInUse.toNat = some used ∧
      (decodeSymbols (t.alphaSize.toNat - 1) (List.range t.nInUse.toNat) [] (natsOf syms)).map
          (fun k => used.getD k 0) =
        zs.map fun z => bwrap bs (z.toNat + s.len.toNat - 1)

/-! ## Coding tables -/

/-- R221 `HUF.NGROUPS`: the five-way choice, on the parameter `NGROUP_THRESH` of the hardware (a free value, log entry 21),
and on the numbers R221 gives as its default. -/
def Obligations.HufNgroupsOperation : Prop :=
  (∀ s : State, s.fatal = false →
    (let th := Config.params.ngroupThresh
     exec .hufNgroups s = .next { s with
       nGroups :=
         if s.nMTF.toNat < th[0] then 2#3
         else if s.nMTF.toNat < th[1] then 3#3
         else if s.nMTF.toNat < th[2] then 4#3
         else if s.nMTF.toNat < th[3] then 5#3
         else 6#3 })) ∧
  ∀ (p : Params) (s : State), p.ngroupThresh = #v[200, 600, 1200, 2400] →
    hufNgroups p s = .done { s with
      nGroups :=
        if s.nMTF.toNat < 200 then 2#3
        else if s.nMTF.toNat < 600 then 3#3
        else if s.nMTF.toNat < 1200 then 4#3
        else if s.nMTF.toNat < 2400 then 5#3
        else 6#3 }

/-- R222 `HUF.INIT`: the tables, from the highest numbered down, get contiguous ranges of symbols: `hi t` is the symbol
after the range of table `t`, `hi (t + 1)` the first symbol of it. A range grows until it holds the remaining
frequency's share or the symbols run out; every second inner table gives its last symbol back. -/
def Obligations.HufInitOperation : Prop :=
  ∀ (s : State) (fs : List (BitVec 20)), s.fatal = false → s.nGroups.toNat ≤ 6 → s.alphaSize.toNat ≤ 258 →
    s.mtfFreq.readRange 0 s.alphaSize.toNat = some fs →
    ∃ (t : State) (hi : Nat → Nat), exec .hufInit s = .next t ∧ t = { s with lens := t.lens } ∧
      (let G := s.nGroups.toNat
       let sumTo : Nat → Int := fun k => (((natsOf fs).take k).sum : Int)
       hi G = 0 ∧
       (∀ n, n < G →
         ∃ reach, hi (n + 1) ≤ reach ∧ reach ≤ s.alphaSize.toNat ∧
           (let share : Int := ((s.nMTF.toNat : Int) - sumTo (hi (n + 1))) / ((n : Int) + 1)
            (∀ k, hi (n + 1) ≤ k → k < reach → sumTo k - sumTo (hi (n + 1)) < share) ∧
            (share ≤ sumTo reach - sumTo (hi (n + 1)) ∨ reach = s.alphaSize.toNat)) ∧
           hi n =
             if hi (n + 1) + 1 < reach ∧ n + 1 ≠ G ∧ n + 1 ≠ 1 ∧ (G - (n + 1)) % 2 = 1 then reach - 1 else reach) ∧
       ∀ n v, n < G → v < s.alphaSize.toNat →
         t.lens.read (258 * n + v) = some (if hi (n + 1) ≤ v ∧ v < hi n then 0#5 else 15#5))

/-- R224, R225 `HUF.ITER`, one assignment pass: each group of 50 symbols goes to the least table of least cost; the
frequencies of each table are those of its groups. -/
def Obligations.HufIterOperation : Prop :=
  ∀ (s : State) (syms : List (BitVec 9)) (rows : List (List (BitVec 5))), s.fatal = false →
    s.nMTF.toNat ≤ s.cap.toNat + 1 → s.cap.toNat ≤ 900000 → 1 ≤ s.nGroups.toNat → s.nGroups.toNat ≤ 6 →
    s.alphaSize.toNat ≤ 258 → s.szptr.readRange 0 s.nMTF.toNat = some syms →
    (∀ v ∈ syms, v.toNat < s.alphaSize.toNat) → rows.length = s.nGroups.toNat →
    (∀ n, n < s.nGroups.toNat → s.lens.readRange (258 * n) s.alphaSize.toNat = some (rows.getD n [])) →
    ∃ (t : State) (sel : List Nat), exec .hufIter s = .next t ∧
      t = { s with
              nSelectors := t.nSelectors, selector := t.selector, fave := t.fave, cost := t.cost
              rfreq := t.rfreq } ∧
      (let groups := (s.nMTF.toNat + 49) / 50
       let cost := fun n g => bitCost (natsOf (rows.getD n [])) (groupSymbols (natsOf syms) g)
       t.nSelectors.toNat = groups ∧ sel.length = groups ∧
       t.selector.readRange 0 groups = some (sel.map (BitVec.ofNat 3)) ∧
       (∀ g, g < groups → sel.getD g 0 < s.nGroups.toNat ∧
         ∀ n, n < s.nGroups.toNat →
           cost (sel.getD g 0) g ≤ cost n g ∧ (n < sel.getD g 0 → cost (sel.getD g 0) g < cost n g)) ∧
       ∀ n, n < s.nGroups.toNat →
         t.fave.read n = some (BitVec.ofNat 15 (sel.count n)) ∧
         (1 ≤ groups → t.cost.read n = some (BitVec.ofNat 11 (cost n (groups - 1)))) ∧
         ∀ v, v < s.alphaSize.toNat →
           t.rfreq.read (258 * n + v) = some (BitVec.ofNat 20
             (((List.range groups).map fun g =>
               if sel.getD g 0 = n then (groupSymbols (natsOf syms) g).count v else 0).sum)))

/-- R226 `HUF.MKLEN t`: it runs on every row of frequencies, and writes the lengths of table `t` and the scratch memories
only. -/
def Obligations.HufMklenOperation : Prop :=
  ∀ (n : BitVec 3) (s : State) (freq : List (BitVec 20)), s.fatal = false → n.toNat < 6 →
    s.alphaSize.toNat ≤ 258 → s.rfreq.readRange (258 * n.toNat) s.alphaSize.toNat = some freq →
    ∃ (t : State) (ls : List Nat), exec (.hufMklen n) s = .next t ∧
      t = { s with lens := t.lens, heap := t.heap, weight := t.weight, parent := t.parent } ∧
      ls = (makeLengths 20 (natsOf freq)).1 ∧ ls.length = s.alphaSize.toNat ∧
      ∀ a, t.lens.read a =
        if 258 * n.toNat ≤ a ∧ a < 258 * n.toNat + s.alphaSize.toNat then
          some (BitVec.ofNat 5 (ls.getD (a - 258 * n.toNat) 0))
        else s.lens.read a

/-- R232 items 3 and 4, R220: the lengths `HUF.MKLEN` makes are within 1..20 and their Kraft sum is 1, whatever the
frequencies of a Block. -/
def Obligations.CodeLengthsLegal : Prop :=
  ∀ freq : List Nat, 3 ≤ freq.length → freq.length ≤ 258 → freq.sum ≤ 900001 →
    (makeLengths 20 freq).1.length = freq.length ∧
    (∀ l ∈ (makeLengths 20 freq).1, 1 ≤ l ∧ l ≤ 20) ∧
    ((makeLengths 20 freq).1.map fun l => 2 ^ (20 - l)).sum = 2 ^ 20

/-- R229, R313 `HUF.RANGECHK`. -/
def Obligations.HufRangechkOperation : Prop :=
  ∀ (s : State) (rows : List (List (BitVec 5))), s.fatal = false → s.nGroups.toNat ≤ 6 → s.alphaSize.toNat ≤ 258 →
    rows.length = s.nGroups.toNat →
    (∀ n, n < s.nGroups.toNat → s.lens.readRange (258 * n) s.alphaSize.toNat = some (rows.getD n [])) →
    ((∀ row ∈ rows, ∀ l ∈ row, 1 ≤ l.toNat ∧ l.toNat ≤ 20) → exec .hufRangechk s = .next s) ∧
    ((∃ row ∈ rows, ∃ l ∈ row, l.toNat < 1 ∨ 20 < l.toNat) →
      exec .hufRangechk s = .next (s.haltedWith 0x03#8))

/-- R230, R104 `HUF.ASSIGN t`: a code is the sum of what the shorter codes and the lower symbols of the same length take,
in 20 bits (R38). -/
def Obligations.HufAssignOperation : Prop :=
  ∀ (n : BitVec 3) (s : State) (ls : List (BitVec 5)), s.fatal = false → n.toNat < 6 → s.alphaSize.toNat ≤ 258 →
    s.lens.readRange (258 * n.toNat) s.alphaSize.toNat = some ls →
    ∃ t, exec (.hufAssign n) s = .next t ∧ t = { s with code := t.code } ∧
      ∀ a, t.code.read a =
        if 258 * n.toNat ≤ a ∧ a < 258 * n.toNat + s.alphaSize.toNat then
          some (BitVec.ofNat 20 (codeValue (natsOf ls) (a - 258 * n.toNat)))
        else s.code.read a

/-- R104, R115, R230: over lengths that satisfy the Kraft inequality the codes fit their lengths and no code is a prefix of
another. -/
def Obligations.CanonicalCodesPrefixFree : Prop :=
  ∀ lens : List Nat, (∀ l ∈ lens, 1 ≤ l ∧ l ≤ 20) → (lens.map fun l => 2 ^ (20 - l)).sum ≤ 2 ^ 20 →
    (∀ v, v < lens.length → (canonicalCodes lens).getD v 0 < 2 ^ lens.getD v 0) ∧
    ∀ u v, u < lens.length → v < lens.length → u ≠ v → lens.getD u 0 ≤ lens.getD v 0 →
      (canonicalCodes lens).getD v 0 / 2 ^ (lens.getD v 0 - lens.getD u 0) ≠ (canonicalCodes lens).getD u 0

/-- R231 `HUF.SELMTF`: positions below `nGroups` from which the selectors can be read back. -/
def Obligations.HufSelmtfOperation : Prop :=
  ∀ (s : State) (sels : List (BitVec 3)), s.fatal = false → s.nGroups.toNat ≤ 6 → s.nSelectors.toNat ≤ 18002 →
    s.selector.readRange 0 s.nSelectors.toNat = some sels → (∀ n ∈ sels, n.toNat < s.nGroups.toNat) →
    ∃ (t : State) (js : List Nat), exec .hufSelmtf s = .next t ∧
      t = { s with selectorMtf := t.selectorMtf, pos := t.pos, phase := .emit } ∧
      t.selectorMtf.readRange 0 s.nSelectors.toNat = some (js.map (BitVec.ofNat 3)) ∧
      (∀ j ∈ js, j < s.nGroups.toNat) ∧
      decodeSelectors (List.range s.nGroups.toNat) js = natsOf sels

/-! ## Emission -/

/-- R270 `FRM.BLOCKHDR` and R251 `EMIT.COUNTS`: the recorded operations. -/
def Obligations.HeaderAndCounts : Prop :=
  ∀ s : State, s.fatal = false →
    exec .frmBlockhdr s = .next { s with
      bopq := s.bopq ++
        [.bits 24#8 0x314159#32, .bits 24#8 0x265359#32, .bits 16#8 ((s.blockCrc.extractLsb' 16 16).setWidth 32),
         .bits 16#8 ((s.blockCrc.extractLsb' 0 16).setWidth 32), .bool s.randomised,
         .bits 24#8 (s.origPtr.setWidth 32)] } ∧
    exec .emitCounts s = .next { s with
      bopq := s.bopq ++ [.bits 3#8 (s.nGroups.setWidth 32), .bits 15#8 (s.nSelectors.setWidth 32)] }

/-- R250, R93 `EMIT.INUSE`: 16 group bits, then the 16 bits of every group that has a byte in use, lowest byte first. -/
def Obligations.EmitInuseOperation : Prop :=
  ∀ (s : State) (bits : List (BitVec 1)), s.fatal = false → s.inUse.readRange 0 256 = some bits →
    ∃ (ops : List BitOp), exec .emitInuse s = .next { s with bopq := s.bopq ++ ops } ∧
      (∀ op ∈ ops, ∃ v, op = .bits 16#8 v) ∧
      (let used := fun v => bits.getD v 0#1 == 1#1
       let group := fun i => (List.range 16).map fun j => used (16 * i + j)
       streamOf ops =
         ((List.range 16).map fun i => (group i).any id) ++
           (((List.range 16).filter fun i => (group i).any id).map group).flatten)

/-- R252 `EMIT.SELECTORS` and R254 `EMIT.SYMBOLS`: one operation for each selector and for each symbol. -/
def Obligations.EmitSelectorsAndSymbols : Prop :=
  (∀ (s : State) (js : List (BitVec 3)), s.fatal = false → s.nSelectors.toNat ≤ 18002 →
    s.selectorMtf.readRange 0 s.nSelectors.toNat = some js →
    exec .emitSelectors s = .next { s with bopq := s.bopq ++ js.map fun j => .unary (j.setWidth 32) }) ∧
  ∀ (s : State) (syms : List (BitVec 9)) (sels : List (BitVec 3)) (len code : Nat → Nat → Nat), s.fatal = false →
    s.nMTF.toNat ≤ s.cap.toNat + 1 → s.cap.toNat ≤ 900000 → s.szptr.readRange 0 s.nMTF.toNat = some syms →
    s.selector.readRange 0 ((s.nMTF.toNat + 49) / 50) = some sels →
    (∀ n ∈ sels, n.toNat < 6) → (∀ v ∈ syms, v.toNat < 258) →
    (∀ n ∈ sels, ∀ v ∈ syms,
      s.lens.read (258 * n.toNat + v.toNat) = some (BitVec.ofNat 5 (len n.toNat v.toNat)) ∧
      s.code.read (258 * n.toNat + v.toNat) = some (BitVec.ofNat 20 (code n.toNat v.toNat))) →
    (∀ n v, len n v < 32 ∧ code n v < 2 ^ 20) →
    exec .emitSymbols s = .next { s with
      bopq := s.bopq ++ (List.range syms.length).map fun k =>
        .bits (BitVec.ofNat 8 (len (sels.getD (k / 50) 0).toNat (syms.getD k 0).toNat))
          (BitVec.ofNat 32 (code (sels.getD (k / 50) 0).toNat (syms.getD k 0).toNat))
      phase := .compressed }

/-- R253, R96 `EMIT.LENGTHS`: for each table the 5-bit length of symbol 0, then for each symbol the steps from the length
before it and a zero bit. -/
def Obligations.EmitLengthsOperation : Prop :=
  ∀ (s : State) (rows : List (List (BitVec 5))), s.fatal = false → s.nGroups.toNat ≤ 6 →
    1 ≤ s.alphaSize.toNat → s.alphaSize.toNat ≤ 258 → rows.length = s.nGroups.toNat →
    (∀ n, n < s.nGroups.toNat → s.lens.readRange (258 * n) s.alphaSize.toNat = some (rows.getD n [])) →
    ∃ (ops : List BitOp), exec .emitLengths s = .next { s with bopq := s.bopq ++ ops } ∧
      (∀ op ∈ ops, op.legal = true) ∧
      streamOf ops = (rows.map fun row =>
        ((List.range 5).map fun j => (row.getD 0 0).getLsbD (4 - j)) ++
          ((List.range row.length).map fun v =>
            deltaBits (row.getD (v - 1) 0).toNat (row.getD v 0).toNat).flatten).flatten

/-! ## Replay and host commands -/

/-- R291, R290 `REPLAY`: the recorded operations reach the sink in order, then the CRC is folded by rotate and xor. That a
count of Blocks past 2^32 - 1 is refused is 93 U7 and log entry 13 (DEDUCED), not R291. -/
def Obligations.ReplayOperation : Prop :=
  ∀ s : State, s.fatal = false →
    (s.blocksEmitted = 0xFFFFFFFF#32 → exec .replay s = .refused (.counterWrap .blocksEmitted)) ∧
    (s.blocksEmitted ≠ 0xFFFFFFFF#32 → s.sink.closed = false → (∀ op ∈ s.bopq, op.legal = true) →
      ∃ k, s.sink.Appends k (streamOf s.bopq) ∧
        exec .replay s = .next { s with
          sink := k
          streamCrc := s.streamCrc.rotateLeft 1 ^^^ s.blockCrc
          blocksEmitted := s.blocksEmitted + 1
          bopq := []
          phase := .flushed })

/-- R286 `OPEN`, with R91, R28 and R113 (the clamp) and R137 (re-opening); R315: an unwritable sink is fatal before
anything is written. -/
def Obligations.OpenCommand : Prop :=
  ∀ (owns : Bool) (level : BitVec 8) (s : State), s.fatal = false → s.streamOpen = false →
    (s.sinkWritable = false →
      exec (.openStream owns level) s =
        .next { s.haltedWith 0x10#8 with rsp := s.rsp ++ [0x0310#16] }) ∧
    (s.sinkWritable = true →
      ∃ t, exec (.openStream owns level) s = .next t ∧
        (let l := min 9 (max 1 level.toNat)
         t.cfgLevel.toNat = l ∧ t.cfgOwnsSink = owns ∧ t.streamCrc = 0#32 ∧ t.nextId = 1#32 ∧
         t.blocksEmitted = 0#32 ∧ t.streamOpen = true ∧
         t.sink = { acc := 0#8, nacc := 0#3, closed := false,
                    bytes := s.sink.bytes ++
                      [.byte 0x42#8, .byte 0x5A#8, .byte 0x68#8, .byte (BitVec.ofNat 8 (0x30 + l))] } ∧
         t.blkId = 0#32 ∧ t.cap.toNat = 100000 * l ∧ t.len = 0#20 ∧ t.rawCount = 0#32 ∧ t.runLen = 0#8 ∧
         t.crc = 0xFFFFFFFF#32 ∧ t.full = false ∧ t.closed = false ∧ t.bopq = [] ∧ t.phase = .filling ∧
         t.fatal = false ∧ t.faultCode = s.faultCode ∧ t.faultBlk = s.faultBlk ∧ t.cfgLanes = s.cfgLanes ∧
         t.inbox = s.inbox ∧ t.sinkWritable = s.sinkWritable ∧ t.laneFails = s.laneFails ∧
         t.rsp = s.rsp ++ [0x0000#16]))

/-- R288, R289, R292: CLOSEBLK on an empty Block does nothing; FINISH on one writes the footer, pads, closes the sink, and
sends `close` if it owns it. -/
def Obligations.EmptyBlockCommands : Prop :=
  ∀ s : State, s.fatal = false → s.streamOpen = true → s.rawCount = 0#32 →
    exec .closeblk s = .next { s with rsp := s.rsp ++ [0x0000#16] } ∧
    (s.sink.closed = false →
      ∃ k, s.sink.Appends k
          (((List.range 48).map fun j => (0x177245385090#48).getLsbD (47 - j)) ++
            ((List.range 32).map fun j => s.streamCrc.getLsbD (31 - j)) ++
            List.replicate ((8 - s.sink.nacc.toNat) % 8) false) ∧
        k.nacc = 0#3 ∧
        exec .finish s = .next { s with
          sink := { k with closed := true, bytes := k.bytes ++ if s.cfgOwnsSink then [.close] else [] }
          streamOpen := false
          phase := .idle
          rsp := s.rsp ++ [0x0000#16] })

/-- R294, R232, R312, R315 `COMPRESS` on a queued Block: it completes, for every value of the open predicates. Before it
nothing is stopped by the model; a bounded sort stack that overflows (log entry 3) and an injected lane failure are the
only faults it can take. -/
def Obligations.CompressOperation : Prop :=
  ∀ (s : State) (bs : List Byte), s.fatal = false → 1 ≤ s.len.toNat → s.len.toNat ≤ s.cap.toNat →
    s.cap.toNat ≤ 900000 → s.b.readRange 0 s.len.toNat = some bs →
    (s.laneFails.contains s.blkId = true → exec .compress s = .next (s.haltedWith 0x20#8)) ∧
    (s.laneFails.contains s.blkId = false →
      ∃ t, exec .compress s = .next t ∧ t.sink = s.sink ∧ t.rsp = s.rsp ∧ t.inbox = s.inbox ∧
        t.blockCrc = s.blockCrc ∧ t.crc = s.crc ∧ t.rawCount = s.rawCount ∧ t.len = s.len ∧ t.closed = s.closed ∧
        t.streamCrc = s.streamCrc ∧ t.blocksEmitted = s.blocksEmitted ∧ t.nextId = s.nextId ∧ t.blkId = s.blkId ∧
        (if stackExceeded Config.params bs = true ∨
            (workExceeded Config.params bs = true ∧
              stackExceeded Config.params (randomiseBytes 0 0 bs) = true) then
          t.phase = .fatal ∧ t.fatal = true ∧ t.faultCode = 0x02#8 ∧ t.bopq = s.bopq
        else
          t.phase = .compressed ∧ t.fatal = false ∧ t.randomised = workExceeded Config.params bs ∧
            (∃ ops : List BitOp, t.bopq = s.bopq ++ ops ∧ (∀ op ∈ ops, op.legal = true) ∧
              ops.take 6 =
                [.bits 24#8 0x314159#32, .bits 24#8 0x265359#32,
                 .bits 16#8 ((s.blockCrc.extractLsb' 16 16).setWidth 32),
                 .bits 16#8 ((s.blockCrc.extractLsb' 0 16).setWidth 32), .bool t.randomised,
                 .bits 24#8 (t.origPtr.setWidth 32)]) ∧
            t.b.readRange 0 s.len.toNat =
              some (if workExceeded Config.params bs then randomiseBytes 0 0 bs else bs) ∧
            t.zptr.read t.origPtr.toNat = some 0#20))

/-- R25, R294: the sequencer, left alone, does to a queued Block exactly what `COMPRESS` does, in 11 steps or, with the
randomised retry (or where it halts), in 13. -/
def Obligations.SequencerWalkIsCompress : Prop :=
  ∀ s : State, s.inbox = [] → s.fatal = false → s.phase = .queued →
    runSteps 11 s = exec .compress s ∨ runSteps 13 s = exec .compress s

/-- R288, R289 in full, from any state between commands (R155, R293): CLOSEBLK and FINISH on a Block with raw bytes end it.
`bs` is the buffer `BLK.CLOSE` leaves. An injected lane failure and a sort stack that overflows on `bs` (log entry 3) are
fatal; in every other case the bits of the recording that `BLK.CLOSE` and `COMPRESS` leave are appended to the stream, the
CRC is folded, and the next Block, or the idle machine after the footer, stands ready. -/
def Obligations.BlockCommandsComplete : Prop :=
  ∀ s : State, s.BetweenCommands → s.fatal = false → s.streamOpen = true → s.rawCount ≠ 0#32 →
    s.blocksEmitted ≠ 0xFFFFFFFF#32 → s.nextId ≠ 0xFFFFFFFF#32 →
    ∃ (c t u : State) (bs : List Byte),
      exec .blkClose s = .next c ∧ c.b.readRange 0 c.len.toNat = some bs ∧ 1 ≤ bs.length ∧
      exec .closeblk s = .next t ∧ exec .finish s = .next u ∧
      (let halts := fun (code : BitVec 8) (v : State) =>
        v.fatal = true ∧ v.phase = .fatal ∧ v.faultCode = code ∧ v.faultBlk = s.blkId ∧ v.sink = s.sink ∧
          v.rsp = s.rsp ++ [0x03#8 ++ code]
       if s.laneFails.contains s.blkId = true then halts 0x20#8 t ∧ halts 0x20#8 u
       else if sortOverflows Config.params bs = true then halts 0x02#8 t ∧ halts 0x02#8 u
       else
        ∃ q : State, exec .compress c = .next q ∧ q.fatal = false ∧
          (streamOf q.bopq).take 80 =
            ((List.range 48).map fun j => (0x314159265359#48).getLsbD (47 - j)) ++
              ((List.range 32).map fun j => (~~~ s.crc).getLsbD (31 - j)) ∧
          s.sink.Appends t.sink (streamOf q.bopq) ∧ t.fatal = false ∧ t.phase = .filling ∧ t.blkId = s.nextId ∧
          t.nextId = s.nextId + 1 ∧ t.rawCount = 0#32 ∧ t.full = false ∧ t.bopq = [] ∧
          t.streamCrc = s.streamCrc.rotateLeft 1 ^^^ ~~~ s.crc ∧ t.blocksEmitted = s.blocksEmitted + 1 ∧
          t.streamOpen = true ∧ t.rsp = s.rsp ++ [0x0000#16] ∧
          u.fatal = false ∧ u.phase = .idle ∧ u.streamOpen = false ∧ u.sink.closed = true ∧ u.sink.nacc = 0#3 ∧
          u.streamCrc = s.streamCrc.rotateLeft 1 ^^^ ~~~ s.crc ∧ u.blocksEmitted = s.blocksEmitted + 1 ∧
          u.rsp = s.rsp ++ [0x0000#16] ∧
          (∃ added : List Byte, u.sink.bytes =
            t.sink.bytes ++ added.map SinkMsg.byte ++ if s.cfgOwnsSink then [.close] else []) ∧
          u.sink.stream =
            s.sink.stream ++ streamOf q.bopq ++
              (((List.range 48).map fun j => (0x177245385090#48).getLsbD (47 - j)) ++
                ((List.range 32).map fun j => u.streamCrc.getLsbD (31 - j)) ++
                List.replicate ((8 - t.sink.nacc.toNat) % 8) false))

/-! ## Invariants -/

/-- The invariant at reset. -/
def Obligations.InvAtReset : Prop := State.reset.Inv ∧ State.reset.BetweenCommands

/-- R155, R20, R45, R316: every step keeps the invariant, whatever input arrives, a harness's included. -/
def Obligations.StepKeepsInv : Prop := ∀ s t : State, s.Inv → step s = .next t → t.Inv

/-- R273, R112, R352, R311: while only host commands arrive, every command leaves the machine between commands again, and
`DOUBLE_CLOSE`, `SINK_CLOSED`, `BAD_BITOP` and `ORIGIN_NOT_FOUND` are never taken. -/
def Obligations.CommandsTakeNoHarnessFault : Prop :=
  ∀ (i : Instr) (s t : State), isHostCommand i = true → s.BetweenCommands → exec i s = .next t →
    t.BetweenCommands ∧
      (s.fatal = false → t.fatal = true →
        t.faultCode ≠ 0x01#8 ∧ t.faultCode ≠ 0x04#8 ∧ t.faultCode ≠ 0x40#8 ∧ t.faultCode ≠ 0x41#8)

/-- R293, R155, R354: the byte a full Block rejects is accepted by the next Block: a CLOSEBLK that ends a Block with raw
bytes leaves a Block that accepts any byte, but where a sort stack overflows on the buffer `bs` of the closed Block (log
entry 3), which is fatal. -/
def Obligations.RejectedByteIsAcceptedNext : Prop :=
  ∀ (s : State) (v : BitVec 8), s.BetweenCommands → s.fatal = false → s.streamOpen = true → s.full = true →
    s.rawCount ≠ 0#32 → s.laneFails.contains s.blkId = false → s.blocksEmitted ≠ 0xFFFFFFFF#32 →
    s.nextId ≠ 0xFFFFFFFF#32 →
    (let r := { s with rsp := s.rsp ++ [0x0100#16] }
     exec (.wrb v) s = .next r ∧
     ∃ (c t : State) (bs : List Byte),
      exec .blkClose r = .next c ∧ c.b.readRange 0 c.len.toNat = some bs ∧ exec .closeblk r = .next t ∧
      (if sortOverflows Config.params bs = true then t.fatal = true ∧ t.faultCode = 0x02#8
       else
        ∃ u, exec (.wrb v) t = .next u ∧ u.rsp = s.rsp ++ [0x0100#16, 0x0000#16, 0x0000#16] ∧ u.rawCount = 1#32 ∧
          u.runByte = v ∧ u.runLen = 1#8 ∧ u.crc = crcStep 0xFFFFFFFF#32 v ∧ u.blkId = s.nextId))

end
end

