-- ==== Sys2Proof/Laws/State.lean ====
section
/-! SUPPORT. What each named update of State leaves in each field. -/

namespace Sys2Proof.Machine

variable (s : State)

/-! `State.respond` -/

@[simp] theorem State.respond_phase (a c : BitVec 8) : (s.respond a c).phase = s.phase := rfl
@[simp] theorem State.respond_sink (a c : BitVec 8) : (s.respond a c).sink = s.sink := rfl
@[simp] theorem State.respond_blkId (a c : BitVec 8) : (s.respond a c).blkId = s.blkId := rfl
@[simp] theorem State.respond_cap (a c : BitVec 8) : (s.respond a c).cap = s.cap := rfl
@[simp] theorem State.respond_len (a c : BitVec 8) : (s.respond a c).len = s.len := rfl
@[simp] theorem State.respond_rawCount (a c : BitVec 8) : (s.respond a c).rawCount = s.rawCount := rfl
@[simp] theorem State.respond_runByte (a c : BitVec 8) : (s.respond a c).runByte = s.runByte := rfl
@[simp] theorem State.respond_runLen (a c : BitVec 8) : (s.respond a c).runLen = s.runLen := rfl
@[simp] theorem State.respond_crc (a c : BitVec 8) : (s.respond a c).crc = s.crc := rfl
@[simp] theorem State.respond_blockCrc (a c : BitVec 8) : (s.respond a c).blockCrc = s.blockCrc := rfl
@[simp] theorem State.respond_full (a c : BitVec 8) : (s.respond a c).full = s.full := rfl
@[simp] theorem State.respond_closed (a c : BitVec 8) : (s.respond a c).closed = s.closed := rfl
@[simp] theorem State.respond_origPtr (a c : BitVec 8) : (s.respond a c).origPtr = s.origPtr := rfl
@[simp] theorem State.respond_workDone (a c : BitVec 8) : (s.respond a c).workDone = s.workDone := rfl
@[simp] theorem State.respond_workLimit (a c : BitVec 8) : (s.respond a c).workLimit = s.workLimit := rfl
@[simp] theorem State.respond_firstAttempt (a c : BitVec 8) : (s.respond a c).firstAttempt = s.firstAttempt := rfl
@[simp] theorem State.respond_randomised (a c : BitVec 8) : (s.respond a c).randomised = s.randomised := rfl
@[simp] theorem State.respond_nInUse (a c : BitVec 8) : (s.respond a c).nInUse = s.nInUse := rfl
@[simp] theorem State.respond_alphaSize (a c : BitVec 8) : (s.respond a c).alphaSize = s.alphaSize := rfl
@[simp] theorem State.respond_zpend (a c : BitVec 8) : (s.respond a c).zpend = s.zpend := rfl
@[simp] theorem State.respond_nMTF (a c : BitVec 8) : (s.respond a c).nMTF = s.nMTF := rfl
@[simp] theorem State.respond_nGroups (a c : BitVec 8) : (s.respond a c).nGroups = s.nGroups := rfl
@[simp] theorem State.respond_nSelectors (a c : BitVec 8) : (s.respond a c).nSelectors = s.nSelectors := rfl
@[simp] theorem State.respond_iter (a c : BitVec 8) : (s.respond a c).iter = s.iter := rfl
@[simp] theorem State.respond_streamCrc (a c : BitVec 8) : (s.respond a c).streamCrc = s.streamCrc := rfl
@[simp] theorem State.respond_nextId (a c : BitVec 8) : (s.respond a c).nextId = s.nextId := rfl
@[simp] theorem State.respond_blocksEmitted (a c : BitVec 8) : (s.respond a c).blocksEmitted = s.blocksEmitted := rfl
@[simp] theorem State.respond_streamOpen (a c : BitVec 8) : (s.respond a c).streamOpen = s.streamOpen := rfl
@[simp] theorem State.respond_fatal (a c : BitVec 8) : (s.respond a c).fatal = s.fatal := rfl
@[simp] theorem State.respond_cfgLevel (a c : BitVec 8) : (s.respond a c).cfgLevel = s.cfgLevel := rfl
@[simp] theorem State.respond_cfgOwnsSink (a c : BitVec 8) : (s.respond a c).cfgOwnsSink = s.cfgOwnsSink := rfl
@[simp] theorem State.respond_cfgLanes (a c : BitVec 8) : (s.respond a c).cfgLanes = s.cfgLanes := rfl
@[simp] theorem State.respond_faultCode (a c : BitVec 8) : (s.respond a c).faultCode = s.faultCode := rfl
@[simp] theorem State.respond_faultBlk (a c : BitVec 8) : (s.respond a c).faultBlk = s.faultBlk := rfl
@[simp] theorem State.respond_b (a c : BitVec 8) : (s.respond a c).b = s.b := rfl
@[simp] theorem State.respond_zptr (a c : BitVec 8) : (s.respond a c).zptr = s.zptr := rfl
@[simp] theorem State.respond_szptr (a c : BitVec 8) : (s.respond a c).szptr = s.szptr := rfl
@[simp] theorem State.respond_quadrant (a c : BitVec 8) : (s.respond a c).quadrant = s.quadrant := rfl
@[simp] theorem State.respond_ftab (a c : BitVec 8) : (s.respond a c).ftab = s.ftab := rfl
@[simp] theorem State.respond_bopq (a c : BitVec 8) : (s.respond a c).bopq = s.bopq := rfl
@[simp] theorem State.respond_inUse (a c : BitVec 8) : (s.respond a c).inUse = s.inUse := rfl
@[simp] theorem State.respond_seqToUnseq (a c : BitVec 8) : (s.respond a c).seqToUnseq = s.seqToUnseq := rfl
@[simp] theorem State.respond_unseqToSeq (a c : BitVec 8) : (s.respond a c).unseqToSeq = s.unseqToSeq := rfl
@[simp] theorem State.respond_yy (a c : BitVec 8) : (s.respond a c).yy = s.yy := rfl
@[simp] theorem State.respond_mtfFreq (a c : BitVec 8) : (s.respond a c).mtfFreq = s.mtfFreq := rfl
@[simp] theorem State.respond_lens (a c : BitVec 8) : (s.respond a c).lens = s.lens := rfl
@[simp] theorem State.respond_code (a c : BitVec 8) : (s.respond a c).code = s.code := rfl
@[simp] theorem State.respond_rfreq (a c : BitVec 8) : (s.respond a c).rfreq = s.rfreq := rfl
@[simp] theorem State.respond_fave (a c : BitVec 8) : (s.respond a c).fave = s.fave := rfl
@[simp] theorem State.respond_cost (a c : BitVec 8) : (s.respond a c).cost = s.cost := rfl
@[simp] theorem State.respond_selector (a c : BitVec 8) : (s.respond a c).selector = s.selector := rfl
@[simp] theorem State.respond_selectorMtf (a c : BitVec 8) : (s.respond a c).selectorMtf = s.selectorMtf := rfl
@[simp] theorem State.respond_heap (a c : BitVec 8) : (s.respond a c).heap = s.heap := rfl
@[simp] theorem State.respond_weight (a c : BitVec 8) : (s.respond a c).weight = s.weight := rfl
@[simp] theorem State.respond_parent (a c : BitVec 8) : (s.respond a c).parent = s.parent := rfl
@[simp] theorem State.respond_pos (a c : BitVec 8) : (s.respond a c).pos = s.pos := rfl
@[simp] theorem State.respond_inbox (a c : BitVec 8) : (s.respond a c).inbox = s.inbox := rfl
@[simp] theorem State.respond_rsp (a c : BitVec 8) : (s.respond a c).rsp = s.rsp ++ [responseWord a c] := rfl
@[simp] theorem State.respond_sinkWritable (a c : BitVec 8) : (s.respond a c).sinkWritable = s.sinkWritable := rfl
@[simp] theorem State.respond_laneFails (a c : BitVec 8) : (s.respond a c).laneFails = s.laneFails := rfl
@[simp] theorem State.respond_freeCtr (a c : BitVec 8) : (s.respond a c).freeCtr = s.freeCtr := rfl

/-! `State.fatalEntry` -/

@[simp] theorem State.fatalEntry_phase (f : HwFault) : (s.fatalEntry f).phase = .fatal := rfl
@[simp] theorem State.fatalEntry_sink (f : HwFault) : (s.fatalEntry f).sink = s.sink := rfl
@[simp] theorem State.fatalEntry_blkId (f : HwFault) : (s.fatalEntry f).blkId = s.blkId := rfl
@[simp] theorem State.fatalEntry_cap (f : HwFault) : (s.fatalEntry f).cap = s.cap := rfl
@[simp] theorem State.fatalEntry_len (f : HwFault) : (s.fatalEntry f).len = s.len := rfl
@[simp] theorem State.fatalEntry_rawCount (f : HwFault) : (s.fatalEntry f).rawCount = s.rawCount := rfl
@[simp] theorem State.fatalEntry_runByte (f : HwFault) : (s.fatalEntry f).runByte = s.runByte := rfl
@[simp] theorem State.fatalEntry_runLen (f : HwFault) : (s.fatalEntry f).runLen = s.runLen := rfl
@[simp] theorem State.fatalEntry_crc (f : HwFault) : (s.fatalEntry f).crc = s.crc := rfl
@[simp] theorem State.fatalEntry_blockCrc (f : HwFault) : (s.fatalEntry f).blockCrc = s.blockCrc := rfl
@[simp] theorem State.fatalEntry_full (f : HwFault) : (s.fatalEntry f).full = s.full := rfl
@[simp] theorem State.fatalEntry_closed (f : HwFault) : (s.fatalEntry f).closed = s.closed := rfl
@[simp] theorem State.fatalEntry_origPtr (f : HwFault) : (s.fatalEntry f).origPtr = s.origPtr := rfl
@[simp] theorem State.fatalEntry_workDone (f : HwFault) : (s.fatalEntry f).workDone = s.workDone := rfl
@[simp] theorem State.fatalEntry_workLimit (f : HwFault) : (s.fatalEntry f).workLimit = s.workLimit := rfl
@[simp] theorem State.fatalEntry_firstAttempt (f : HwFault) : (s.fatalEntry f).firstAttempt = s.firstAttempt := rfl
@[simp] theorem State.fatalEntry_randomised (f : HwFault) : (s.fatalEntry f).randomised = s.randomised := rfl
@[simp] theorem State.fatalEntry_nInUse (f : HwFault) : (s.fatalEntry f).nInUse = s.nInUse := rfl
@[simp] theorem State.fatalEntry_alphaSize (f : HwFault) : (s.fatalEntry f).alphaSize = s.alphaSize := rfl
@[simp] theorem State.fatalEntry_zpend (f : HwFault) : (s.fatalEntry f).zpend = s.zpend := rfl
@[simp] theorem State.fatalEntry_nMTF (f : HwFault) : (s.fatalEntry f).nMTF = s.nMTF := rfl
@[simp] theorem State.fatalEntry_nGroups (f : HwFault) : (s.fatalEntry f).nGroups = s.nGroups := rfl
@[simp] theorem State.fatalEntry_nSelectors (f : HwFault) : (s.fatalEntry f).nSelectors = s.nSelectors := rfl
@[simp] theorem State.fatalEntry_iter (f : HwFault) : (s.fatalEntry f).iter = s.iter := rfl
@[simp] theorem State.fatalEntry_streamCrc (f : HwFault) : (s.fatalEntry f).streamCrc = s.streamCrc := rfl
@[simp] theorem State.fatalEntry_nextId (f : HwFault) : (s.fatalEntry f).nextId = s.nextId := rfl
@[simp] theorem State.fatalEntry_blocksEmitted (f : HwFault) : (s.fatalEntry f).blocksEmitted = s.blocksEmitted := rfl
@[simp] theorem State.fatalEntry_streamOpen (f : HwFault) : (s.fatalEntry f).streamOpen = s.streamOpen := rfl
@[simp] theorem State.fatalEntry_fatal (f : HwFault) : (s.fatalEntry f).fatal = true := rfl
@[simp] theorem State.fatalEntry_cfgLevel (f : HwFault) : (s.fatalEntry f).cfgLevel = s.cfgLevel := rfl
@[simp] theorem State.fatalEntry_cfgOwnsSink (f : HwFault) : (s.fatalEntry f).cfgOwnsSink = s.cfgOwnsSink := rfl
@[simp] theorem State.fatalEntry_cfgLanes (f : HwFault) : (s.fatalEntry f).cfgLanes = s.cfgLanes := rfl
@[simp] theorem State.fatalEntry_faultCode (f : HwFault) : (s.fatalEntry f).faultCode = if s.fatal then s.faultCode else f.code := rfl
@[simp] theorem State.fatalEntry_faultBlk (f : HwFault) : (s.fatalEntry f).faultBlk = if s.fatal then s.faultBlk else s.blkId := rfl
@[simp] theorem State.fatalEntry_b (f : HwFault) : (s.fatalEntry f).b = s.b := rfl
@[simp] theorem State.fatalEntry_zptr (f : HwFault) : (s.fatalEntry f).zptr = s.zptr := rfl
@[simp] theorem State.fatalEntry_szptr (f : HwFault) : (s.fatalEntry f).szptr = s.szptr := rfl
@[simp] theorem State.fatalEntry_quadrant (f : HwFault) : (s.fatalEntry f).quadrant = s.quadrant := rfl
@[simp] theorem State.fatalEntry_ftab (f : HwFault) : (s.fatalEntry f).ftab = s.ftab := rfl
@[simp] theorem State.fatalEntry_bopq (f : HwFault) : (s.fatalEntry f).bopq = s.bopq := rfl
@[simp] theorem State.fatalEntry_inUse (f : HwFault) : (s.fatalEntry f).inUse = s.inUse := rfl
@[simp] theorem State.fatalEntry_seqToUnseq (f : HwFault) : (s.fatalEntry f).seqToUnseq = s.seqToUnseq := rfl
@[simp] theorem State.fatalEntry_unseqToSeq (f : HwFault) : (s.fatalEntry f).unseqToSeq = s.unseqToSeq := rfl
@[simp] theorem State.fatalEntry_yy (f : HwFault) : (s.fatalEntry f).yy = s.yy := rfl
@[simp] theorem State.fatalEntry_mtfFreq (f : HwFault) : (s.fatalEntry f).mtfFreq = s.mtfFreq := rfl
@[simp] theorem State.fatalEntry_lens (f : HwFault) : (s.fatalEntry f).lens = s.lens := rfl
@[simp] theorem State.fatalEntry_code (f : HwFault) : (s.fatalEntry f).code = s.code := rfl
@[simp] theorem State.fatalEntry_rfreq (f : HwFault) : (s.fatalEntry f).rfreq = s.rfreq := rfl
@[simp] theorem State.fatalEntry_fave (f : HwFault) : (s.fatalEntry f).fave = s.fave := rfl
@[simp] theorem State.fatalEntry_cost (f : HwFault) : (s.fatalEntry f).cost = s.cost := rfl
@[simp] theorem State.fatalEntry_selector (f : HwFault) : (s.fatalEntry f).selector = s.selector := rfl
@[simp] theorem State.fatalEntry_selectorMtf (f : HwFault) : (s.fatalEntry f).selectorMtf = s.selectorMtf := rfl
@[simp] theorem State.fatalEntry_heap (f : HwFault) : (s.fatalEntry f).heap = s.heap := rfl
@[simp] theorem State.fatalEntry_weight (f : HwFault) : (s.fatalEntry f).weight = s.weight := rfl
@[simp] theorem State.fatalEntry_parent (f : HwFault) : (s.fatalEntry f).parent = s.parent := rfl
@[simp] theorem State.fatalEntry_pos (f : HwFault) : (s.fatalEntry f).pos = s.pos := rfl
@[simp] theorem State.fatalEntry_inbox (f : HwFault) : (s.fatalEntry f).inbox = s.inbox := rfl
@[simp] theorem State.fatalEntry_rsp (f : HwFault) : (s.fatalEntry f).rsp = s.rsp := rfl
@[simp] theorem State.fatalEntry_sinkWritable (f : HwFault) : (s.fatalEntry f).sinkWritable = s.sinkWritable := rfl
@[simp] theorem State.fatalEntry_laneFails (f : HwFault) : (s.fatalEntry f).laneFails = s.laneFails := rfl
@[simp] theorem State.fatalEntry_freeCtr (f : HwFault) : (s.fatalEntry f).freeCtr = s.freeCtr := rfl

/-! `State.haltedWith` -/

@[simp] theorem State.haltedWith_phase (c : BitVec 8) : (s.haltedWith c).phase = .fatal := rfl
@[simp] theorem State.haltedWith_sink (c : BitVec 8) : (s.haltedWith c).sink = s.sink := rfl
@[simp] theorem State.haltedWith_blkId (c : BitVec 8) : (s.haltedWith c).blkId = s.blkId := rfl
@[simp] theorem State.haltedWith_cap (c : BitVec 8) : (s.haltedWith c).cap = s.cap := rfl
@[simp] theorem State.haltedWith_len (c : BitVec 8) : (s.haltedWith c).len = s.len := rfl
@[simp] theorem State.haltedWith_rawCount (c : BitVec 8) : (s.haltedWith c).rawCount = s.rawCount := rfl
@[simp] theorem State.haltedWith_runByte (c : BitVec 8) : (s.haltedWith c).runByte = s.runByte := rfl
@[simp] theorem State.haltedWith_runLen (c : BitVec 8) : (s.haltedWith c).runLen = s.runLen := rfl
@[simp] theorem State.haltedWith_crc (c : BitVec 8) : (s.haltedWith c).crc = s.crc := rfl
@[simp] theorem State.haltedWith_blockCrc (c : BitVec 8) : (s.haltedWith c).blockCrc = s.blockCrc := rfl
@[simp] theorem State.haltedWith_full (c : BitVec 8) : (s.haltedWith c).full = s.full := rfl
@[simp] theorem State.haltedWith_closed (c : BitVec 8) : (s.haltedWith c).closed = s.closed := rfl
@[simp] theorem State.haltedWith_origPtr (c : BitVec 8) : (s.haltedWith c).origPtr = s.origPtr := rfl
@[simp] theorem State.haltedWith_workDone (c : BitVec 8) : (s.haltedWith c).workDone = s.workDone := rfl
@[simp] theorem State.haltedWith_workLimit (c : BitVec 8) : (s.haltedWith c).workLimit = s.workLimit := rfl
@[simp] theorem State.haltedWith_firstAttempt (c : BitVec 8) : (s.haltedWith c).firstAttempt = s.firstAttempt := rfl
@[simp] theorem State.haltedWith_randomised (c : BitVec 8) : (s.haltedWith c).randomised = s.randomised := rfl
@[simp] theorem State.haltedWith_nInUse (c : BitVec 8) : (s.haltedWith c).nInUse = s.nInUse := rfl
@[simp] theorem State.haltedWith_alphaSize (c : BitVec 8) : (s.haltedWith c).alphaSize = s.alphaSize := rfl
@[simp] theorem State.haltedWith_zpend (c : BitVec 8) : (s.haltedWith c).zpend = s.zpend := rfl
@[simp] theorem State.haltedWith_nMTF (c : BitVec 8) : (s.haltedWith c).nMTF = s.nMTF := rfl
@[simp] theorem State.haltedWith_nGroups (c : BitVec 8) : (s.haltedWith c).nGroups = s.nGroups := rfl
@[simp] theorem State.haltedWith_nSelectors (c : BitVec 8) : (s.haltedWith c).nSelectors = s.nSelectors := rfl
@[simp] theorem State.haltedWith_iter (c : BitVec 8) : (s.haltedWith c).iter = s.iter := rfl
@[simp] theorem State.haltedWith_streamCrc (c : BitVec 8) : (s.haltedWith c).streamCrc = s.streamCrc := rfl
@[simp] theorem State.haltedWith_nextId (c : BitVec 8) : (s.haltedWith c).nextId = s.nextId := rfl
@[simp] theorem State.haltedWith_blocksEmitted (c : BitVec 8) : (s.haltedWith c).blocksEmitted = s.blocksEmitted := rfl
@[simp] theorem State.haltedWith_streamOpen (c : BitVec 8) : (s.haltedWith c).streamOpen = s.streamOpen := rfl
@[simp] theorem State.haltedWith_fatal (c : BitVec 8) : (s.haltedWith c).fatal = true := rfl
@[simp] theorem State.haltedWith_cfgLevel (c : BitVec 8) : (s.haltedWith c).cfgLevel = s.cfgLevel := rfl
@[simp] theorem State.haltedWith_cfgOwnsSink (c : BitVec 8) : (s.haltedWith c).cfgOwnsSink = s.cfgOwnsSink := rfl
@[simp] theorem State.haltedWith_cfgLanes (c : BitVec 8) : (s.haltedWith c).cfgLanes = s.cfgLanes := rfl
@[simp] theorem State.haltedWith_faultCode (c : BitVec 8) : (s.haltedWith c).faultCode = c := rfl
@[simp] theorem State.haltedWith_faultBlk (c : BitVec 8) : (s.haltedWith c).faultBlk = s.blkId := rfl
@[simp] theorem State.haltedWith_b (c : BitVec 8) : (s.haltedWith c).b = s.b := rfl
@[simp] theorem State.haltedWith_zptr (c : BitVec 8) : (s.haltedWith c).zptr = s.zptr := rfl
@[simp] theorem State.haltedWith_szptr (c : BitVec 8) : (s.haltedWith c).szptr = s.szptr := rfl
@[simp] theorem State.haltedWith_quadrant (c : BitVec 8) : (s.haltedWith c).quadrant = s.quadrant := rfl
@[simp] theorem State.haltedWith_ftab (c : BitVec 8) : (s.haltedWith c).ftab = s.ftab := rfl
@[simp] theorem State.haltedWith_bopq (c : BitVec 8) : (s.haltedWith c).bopq = s.bopq := rfl
@[simp] theorem State.haltedWith_inUse (c : BitVec 8) : (s.haltedWith c).inUse = s.inUse := rfl
@[simp] theorem State.haltedWith_seqToUnseq (c : BitVec 8) : (s.haltedWith c).seqToUnseq = s.seqToUnseq := rfl
@[simp] theorem State.haltedWith_unseqToSeq (c : BitVec 8) : (s.haltedWith c).unseqToSeq = s.unseqToSeq := rfl
@[simp] theorem State.haltedWith_yy (c : BitVec 8) : (s.haltedWith c).yy = s.yy := rfl
@[simp] theorem State.haltedWith_mtfFreq (c : BitVec 8) : (s.haltedWith c).mtfFreq = s.mtfFreq := rfl
@[simp] theorem State.haltedWith_lens (c : BitVec 8) : (s.haltedWith c).lens = s.lens := rfl
@[simp] theorem State.haltedWith_code (c : BitVec 8) : (s.haltedWith c).code = s.code := rfl
@[simp] theorem State.haltedWith_rfreq (c : BitVec 8) : (s.haltedWith c).rfreq = s.rfreq := rfl
@[simp] theorem State.haltedWith_fave (c : BitVec 8) : (s.haltedWith c).fave = s.fave := rfl
@[simp] theorem State.haltedWith_cost (c : BitVec 8) : (s.haltedWith c).cost = s.cost := rfl
@[simp] theorem State.haltedWith_selector (c : BitVec 8) : (s.haltedWith c).selector = s.selector := rfl
@[simp] theorem State.haltedWith_selectorMtf (c : BitVec 8) : (s.haltedWith c).selectorMtf = s.selectorMtf := rfl
@[simp] theorem State.haltedWith_heap (c : BitVec 8) : (s.haltedWith c).heap = s.heap := rfl
@[simp] theorem State.haltedWith_weight (c : BitVec 8) : (s.haltedWith c).weight = s.weight := rfl
@[simp] theorem State.haltedWith_parent (c : BitVec 8) : (s.haltedWith c).parent = s.parent := rfl
@[simp] theorem State.haltedWith_pos (c : BitVec 8) : (s.haltedWith c).pos = s.pos := rfl
@[simp] theorem State.haltedWith_inbox (c : BitVec 8) : (s.haltedWith c).inbox = s.inbox := rfl
@[simp] theorem State.haltedWith_rsp (c : BitVec 8) : (s.haltedWith c).rsp = s.rsp := rfl
@[simp] theorem State.haltedWith_sinkWritable (c : BitVec 8) : (s.haltedWith c).sinkWritable = s.sinkWritable := rfl
@[simp] theorem State.haltedWith_laneFails (c : BitVec 8) : (s.haltedWith c).laneFails = s.laneFails := rfl
@[simp] theorem State.haltedWith_freeCtr (c : BitVec 8) : (s.haltedWith c).freeCtr = s.freeCtr := rfl

/-! `State.emit` -/

@[simp] theorem State.emit_phase (ops : List BitOp) : (s.emit ops).phase = s.phase := rfl
@[simp] theorem State.emit_sink (ops : List BitOp) : (s.emit ops).sink = s.sink := rfl
@[simp] theorem State.emit_blkId (ops : List BitOp) : (s.emit ops).blkId = s.blkId := rfl
@[simp] theorem State.emit_cap (ops : List BitOp) : (s.emit ops).cap = s.cap := rfl
@[simp] theorem State.emit_len (ops : List BitOp) : (s.emit ops).len = s.len := rfl
@[simp] theorem State.emit_rawCount (ops : List BitOp) : (s.emit ops).rawCount = s.rawCount := rfl
@[simp] theorem State.emit_runByte (ops : List BitOp) : (s.emit ops).runByte = s.runByte := rfl
@[simp] theorem State.emit_runLen (ops : List BitOp) : (s.emit ops).runLen = s.runLen := rfl
@[simp] theorem State.emit_crc (ops : List BitOp) : (s.emit ops).crc = s.crc := rfl
@[simp] theorem State.emit_blockCrc (ops : List BitOp) : (s.emit ops).blockCrc = s.blockCrc := rfl
@[simp] theorem State.emit_full (ops : List BitOp) : (s.emit ops).full = s.full := rfl
@[simp] theorem State.emit_closed (ops : List BitOp) : (s.emit ops).closed = s.closed := rfl
@[simp] theorem State.emit_origPtr (ops : List BitOp) : (s.emit ops).origPtr = s.origPtr := rfl
@[simp] theorem State.emit_workDone (ops : List BitOp) : (s.emit ops).workDone = s.workDone := rfl
@[simp] theorem State.emit_workLimit (ops : List BitOp) : (s.emit ops).workLimit = s.workLimit := rfl
@[simp] theorem State.emit_firstAttempt (ops : List BitOp) : (s.emit ops).firstAttempt = s.firstAttempt := rfl
@[simp] theorem State.emit_randomised (ops : List BitOp) : (s.emit ops).randomised = s.randomised := rfl
@[simp] theorem State.emit_nInUse (ops : List BitOp) : (s.emit ops).nInUse = s.nInUse := rfl
@[simp] theorem State.emit_alphaSize (ops : List BitOp) : (s.emit ops).alphaSize = s.alphaSize := rfl
@[simp] theorem State.emit_zpend (ops : List BitOp) : (s.emit ops).zpend = s.zpend := rfl
@[simp] theorem State.emit_nMTF (ops : List BitOp) : (s.emit ops).nMTF = s.nMTF := rfl
@[simp] theorem State.emit_nGroups (ops : List BitOp) : (s.emit ops).nGroups = s.nGroups := rfl
@[simp] theorem State.emit_nSelectors (ops : List BitOp) : (s.emit ops).nSelectors = s.nSelectors := rfl
@[simp] theorem State.emit_iter (ops : List BitOp) : (s.emit ops).iter = s.iter := rfl
@[simp] theorem State.emit_streamCrc (ops : List BitOp) : (s.emit ops).streamCrc = s.streamCrc := rfl
@[simp] theorem State.emit_nextId (ops : List BitOp) : (s.emit ops).nextId = s.nextId := rfl
@[simp] theorem State.emit_blocksEmitted (ops : List BitOp) : (s.emit ops).blocksEmitted = s.blocksEmitted := rfl
@[simp] theorem State.emit_streamOpen (ops : List BitOp) : (s.emit ops).streamOpen = s.streamOpen := rfl
@[simp] theorem State.emit_fatal (ops : List BitOp) : (s.emit ops).fatal = s.fatal := rfl
@[simp] theorem State.emit_cfgLevel (ops : List BitOp) : (s.emit ops).cfgLevel = s.cfgLevel := rfl
@[simp] theorem State.emit_cfgOwnsSink (ops : List BitOp) : (s.emit ops).cfgOwnsSink = s.cfgOwnsSink := rfl
@[simp] theorem State.emit_cfgLanes (ops : List BitOp) : (s.emit ops).cfgLanes = s.cfgLanes := rfl
@[simp] theorem State.emit_faultCode (ops : List BitOp) : (s.emit ops).faultCode = s.faultCode := rfl
@[simp] theorem State.emit_faultBlk (ops : List BitOp) : (s.emit ops).faultBlk = s.faultBlk := rfl
@[simp] theorem State.emit_b (ops : List BitOp) : (s.emit ops).b = s.b := rfl
@[simp] theorem State.emit_zptr (ops : List BitOp) : (s.emit ops).zptr = s.zptr := rfl
@[simp] theorem State.emit_szptr (ops : List BitOp) : (s.emit ops).szptr = s.szptr := rfl
@[simp] theorem State.emit_quadrant (ops : List BitOp) : (s.emit ops).quadrant = s.quadrant := rfl
@[simp] theorem State.emit_ftab (ops : List BitOp) : (s.emit ops).ftab = s.ftab := rfl
@[simp] theorem State.emit_bopq (ops : List BitOp) : (s.emit ops).bopq = s.bopq ++ ops := rfl
@[simp] theorem State.emit_inUse (ops : List BitOp) : (s.emit ops).inUse = s.inUse := rfl
@[simp] theorem State.emit_seqToUnseq (ops : List BitOp) : (s.emit ops).seqToUnseq = s.seqToUnseq := rfl
@[simp] theorem State.emit_unseqToSeq (ops : List BitOp) : (s.emit ops).unseqToSeq = s.unseqToSeq := rfl
@[simp] theorem State.emit_yy (ops : List BitOp) : (s.emit ops).yy = s.yy := rfl
@[simp] theorem State.emit_mtfFreq (ops : List BitOp) : (s.emit ops).mtfFreq = s.mtfFreq := rfl
@[simp] theorem State.emit_lens (ops : List BitOp) : (s.emit ops).lens = s.lens := rfl
@[simp] theorem State.emit_code (ops : List BitOp) : (s.emit ops).code = s.code := rfl
@[simp] theorem State.emit_rfreq (ops : List BitOp) : (s.emit ops).rfreq = s.rfreq := rfl
@[simp] theorem State.emit_fave (ops : List BitOp) : (s.emit ops).fave = s.fave := rfl
@[simp] theorem State.emit_cost (ops : List BitOp) : (s.emit ops).cost = s.cost := rfl
@[simp] theorem State.emit_selector (ops : List BitOp) : (s.emit ops).selector = s.selector := rfl
@[simp] theorem State.emit_selectorMtf (ops : List BitOp) : (s.emit ops).selectorMtf = s.selectorMtf := rfl
@[simp] theorem State.emit_heap (ops : List BitOp) : (s.emit ops).heap = s.heap := rfl
@[simp] theorem State.emit_weight (ops : List BitOp) : (s.emit ops).weight = s.weight := rfl
@[simp] theorem State.emit_parent (ops : List BitOp) : (s.emit ops).parent = s.parent := rfl
@[simp] theorem State.emit_pos (ops : List BitOp) : (s.emit ops).pos = s.pos := rfl
@[simp] theorem State.emit_inbox (ops : List BitOp) : (s.emit ops).inbox = s.inbox := rfl
@[simp] theorem State.emit_rsp (ops : List BitOp) : (s.emit ops).rsp = s.rsp := rfl
@[simp] theorem State.emit_sinkWritable (ops : List BitOp) : (s.emit ops).sinkWritable = s.sinkWritable := rfl
@[simp] theorem State.emit_laneFails (ops : List BitOp) : (s.emit ops).laneFails = s.laneFails := rfl
@[simp] theorem State.emit_freeCtr (ops : List BitOp) : (s.emit ops).freeCtr = s.freeCtr := rfl

/-! `State.countRaw` -/

@[simp] theorem State.countRaw_phase (v : Byte) : (s.countRaw v).phase = s.phase := rfl
@[simp] theorem State.countRaw_sink (v : Byte) : (s.countRaw v).sink = s.sink := rfl
@[simp] theorem State.countRaw_blkId (v : Byte) : (s.countRaw v).blkId = s.blkId := rfl
@[simp] theorem State.countRaw_cap (v : Byte) : (s.countRaw v).cap = s.cap := rfl
@[simp] theorem State.countRaw_len (v : Byte) : (s.countRaw v).len = s.len := rfl
@[simp] theorem State.countRaw_rawCount (v : Byte) : (s.countRaw v).rawCount = s.rawCount + 1 := rfl
@[simp] theorem State.countRaw_runByte (v : Byte) : (s.countRaw v).runByte = s.runByte := rfl
@[simp] theorem State.countRaw_runLen (v : Byte) : (s.countRaw v).runLen = s.runLen := rfl
@[simp] theorem State.countRaw_crc (v : Byte) : (s.countRaw v).crc = crcStep s.crc v := rfl
@[simp] theorem State.countRaw_blockCrc (v : Byte) : (s.countRaw v).blockCrc = s.blockCrc := rfl
@[simp] theorem State.countRaw_full (v : Byte) : (s.countRaw v).full = s.full := rfl
@[simp] theorem State.countRaw_closed (v : Byte) : (s.countRaw v).closed = s.closed := rfl
@[simp] theorem State.countRaw_origPtr (v : Byte) : (s.countRaw v).origPtr = s.origPtr := rfl
@[simp] theorem State.countRaw_workDone (v : Byte) : (s.countRaw v).workDone = s.workDone := rfl
@[simp] theorem State.countRaw_workLimit (v : Byte) : (s.countRaw v).workLimit = s.workLimit := rfl
@[simp] theorem State.countRaw_firstAttempt (v : Byte) : (s.countRaw v).firstAttempt = s.firstAttempt := rfl
@[simp] theorem State.countRaw_randomised (v : Byte) : (s.countRaw v).randomised = s.randomised := rfl
@[simp] theorem State.countRaw_nInUse (v : Byte) : (s.countRaw v).nInUse = s.nInUse := rfl
@[simp] theorem State.countRaw_alphaSize (v : Byte) : (s.countRaw v).alphaSize = s.alphaSize := rfl
@[simp] theorem State.countRaw_zpend (v : Byte) : (s.countRaw v).zpend = s.zpend := rfl
@[simp] theorem State.countRaw_nMTF (v : Byte) : (s.countRaw v).nMTF = s.nMTF := rfl
@[simp] theorem State.countRaw_nGroups (v : Byte) : (s.countRaw v).nGroups = s.nGroups := rfl
@[simp] theorem State.countRaw_nSelectors (v : Byte) : (s.countRaw v).nSelectors = s.nSelectors := rfl
@[simp] theorem State.countRaw_iter (v : Byte) : (s.countRaw v).iter = s.iter := rfl
@[simp] theorem State.countRaw_streamCrc (v : Byte) : (s.countRaw v).streamCrc = s.streamCrc := rfl
@[simp] theorem State.countRaw_nextId (v : Byte) : (s.countRaw v).nextId = s.nextId := rfl
@[simp] theorem State.countRaw_blocksEmitted (v : Byte) : (s.countRaw v).blocksEmitted = s.blocksEmitted := rfl
@[simp] theorem State.countRaw_streamOpen (v : Byte) : (s.countRaw v).streamOpen = s.streamOpen := rfl
@[simp] theorem State.countRaw_fatal (v : Byte) : (s.countRaw v).fatal = s.fatal := rfl
@[simp] theorem State.countRaw_cfgLevel (v : Byte) : (s.countRaw v).cfgLevel = s.cfgLevel := rfl
@[simp] theorem State.countRaw_cfgOwnsSink (v : Byte) : (s.countRaw v).cfgOwnsSink = s.cfgOwnsSink := rfl
@[simp] theorem State.countRaw_cfgLanes (v : Byte) : (s.countRaw v).cfgLanes = s.cfgLanes := rfl
@[simp] theorem State.countRaw_faultCode (v : Byte) : (s.countRaw v).faultCode = s.faultCode := rfl
@[simp] theorem State.countRaw_faultBlk (v : Byte) : (s.countRaw v).faultBlk = s.faultBlk := rfl
@[simp] theorem State.countRaw_b (v : Byte) : (s.countRaw v).b = s.b := rfl
@[simp] theorem State.countRaw_zptr (v : Byte) : (s.countRaw v).zptr = s.zptr := rfl
@[simp] theorem State.countRaw_szptr (v : Byte) : (s.countRaw v).szptr = s.szptr := rfl
@[simp] theorem State.countRaw_quadrant (v : Byte) : (s.countRaw v).quadrant = s.quadrant := rfl
@[simp] theorem State.countRaw_ftab (v : Byte) : (s.countRaw v).ftab = s.ftab := rfl
@[simp] theorem State.countRaw_bopq (v : Byte) : (s.countRaw v).bopq = s.bopq := rfl
@[simp] theorem State.countRaw_inUse (v : Byte) : (s.countRaw v).inUse = s.inUse := rfl
@[simp] theorem State.countRaw_seqToUnseq (v : Byte) : (s.countRaw v).seqToUnseq = s.seqToUnseq := rfl
@[simp] theorem State.countRaw_unseqToSeq (v : Byte) : (s.countRaw v).unseqToSeq = s.unseqToSeq := rfl
@[simp] theorem State.countRaw_yy (v : Byte) : (s.countRaw v).yy = s.yy := rfl
@[simp] theorem State.countRaw_mtfFreq (v : Byte) : (s.countRaw v).mtfFreq = s.mtfFreq := rfl
@[simp] theorem State.countRaw_lens (v : Byte) : (s.countRaw v).lens = s.lens := rfl
@[simp] theorem State.countRaw_code (v : Byte) : (s.countRaw v).code = s.code := rfl
@[simp] theorem State.countRaw_rfreq (v : Byte) : (s.countRaw v).rfreq = s.rfreq := rfl
@[simp] theorem State.countRaw_fave (v : Byte) : (s.countRaw v).fave = s.fave := rfl
@[simp] theorem State.countRaw_cost (v : Byte) : (s.countRaw v).cost = s.cost := rfl
@[simp] theorem State.countRaw_selector (v : Byte) : (s.countRaw v).selector = s.selector := rfl
@[simp] theorem State.countRaw_selectorMtf (v : Byte) : (s.countRaw v).selectorMtf = s.selectorMtf := rfl
@[simp] theorem State.countRaw_heap (v : Byte) : (s.countRaw v).heap = s.heap := rfl
@[simp] theorem State.countRaw_weight (v : Byte) : (s.countRaw v).weight = s.weight := rfl
@[simp] theorem State.countRaw_parent (v : Byte) : (s.countRaw v).parent = s.parent := rfl
@[simp] theorem State.countRaw_pos (v : Byte) : (s.countRaw v).pos = s.pos := rfl
@[simp] theorem State.countRaw_inbox (v : Byte) : (s.countRaw v).inbox = s.inbox := rfl
@[simp] theorem State.countRaw_rsp (v : Byte) : (s.countRaw v).rsp = s.rsp := rfl
@[simp] theorem State.countRaw_sinkWritable (v : Byte) : (s.countRaw v).sinkWritable = s.sinkWritable := rfl
@[simp] theorem State.countRaw_laneFails (v : Byte) : (s.countRaw v).laneFails = s.laneFails := rfl
@[simp] theorem State.countRaw_freeCtr (v : Byte) : (s.countRaw v).freeCtr = s.freeCtr := rfl

/-! `State.foldBlock` -/

@[simp] theorem State.foldBlock_phase : (s.foldBlock).phase = .flushed := rfl
@[simp] theorem State.foldBlock_sink : (s.foldBlock).sink = s.sink := rfl
@[simp] theorem State.foldBlock_blkId : (s.foldBlock).blkId = s.blkId := rfl
@[simp] theorem State.foldBlock_cap : (s.foldBlock).cap = s.cap := rfl
@[simp] theorem State.foldBlock_len : (s.foldBlock).len = s.len := rfl
@[simp] theorem State.foldBlock_rawCount : (s.foldBlock).rawCount = s.rawCount := rfl
@[simp] theorem State.foldBlock_runByte : (s.foldBlock).runByte = s.runByte := rfl
@[simp] theorem State.foldBlock_runLen : (s.foldBlock).runLen = s.runLen := rfl
@[simp] theorem State.foldBlock_crc : (s.foldBlock).crc = s.crc := rfl
@[simp] theorem State.foldBlock_blockCrc : (s.foldBlock).blockCrc = s.blockCrc := rfl
@[simp] theorem State.foldBlock_full : (s.foldBlock).full = s.full := rfl
@[simp] theorem State.foldBlock_closed : (s.foldBlock).closed = s.closed := rfl
@[simp] theorem State.foldBlock_origPtr : (s.foldBlock).origPtr = s.origPtr := rfl
@[simp] theorem State.foldBlock_workDone : (s.foldBlock).workDone = s.workDone := rfl
@[simp] theorem State.foldBlock_workLimit : (s.foldBlock).workLimit = s.workLimit := rfl
@[simp] theorem State.foldBlock_firstAttempt : (s.foldBlock).firstAttempt = s.firstAttempt := rfl
@[simp] theorem State.foldBlock_randomised : (s.foldBlock).randomised = s.randomised := rfl
@[simp] theorem State.foldBlock_nInUse : (s.foldBlock).nInUse = s.nInUse := rfl
@[simp] theorem State.foldBlock_alphaSize : (s.foldBlock).alphaSize = s.alphaSize := rfl
@[simp] theorem State.foldBlock_zpend : (s.foldBlock).zpend = s.zpend := rfl
@[simp] theorem State.foldBlock_nMTF : (s.foldBlock).nMTF = s.nMTF := rfl
@[simp] theorem State.foldBlock_nGroups : (s.foldBlock).nGroups = s.nGroups := rfl
@[simp] theorem State.foldBlock_nSelectors : (s.foldBlock).nSelectors = s.nSelectors := rfl
@[simp] theorem State.foldBlock_iter : (s.foldBlock).iter = s.iter := rfl
@[simp] theorem State.foldBlock_streamCrc : (s.foldBlock).streamCrc = rotl1 s.streamCrc ^^^ s.blockCrc := rfl
@[simp] theorem State.foldBlock_nextId : (s.foldBlock).nextId = s.nextId := rfl
@[simp] theorem State.foldBlock_blocksEmitted : (s.foldBlock).blocksEmitted = s.blocksEmitted + 1 := rfl
@[simp] theorem State.foldBlock_streamOpen : (s.foldBlock).streamOpen = s.streamOpen := rfl
@[simp] theorem State.foldBlock_fatal : (s.foldBlock).fatal = s.fatal := rfl
@[simp] theorem State.foldBlock_cfgLevel : (s.foldBlock).cfgLevel = s.cfgLevel := rfl
@[simp] theorem State.foldBlock_cfgOwnsSink : (s.foldBlock).cfgOwnsSink = s.cfgOwnsSink := rfl
@[simp] theorem State.foldBlock_cfgLanes : (s.foldBlock).cfgLanes = s.cfgLanes := rfl
@[simp] theorem State.foldBlock_faultCode : (s.foldBlock).faultCode = s.faultCode := rfl
@[simp] theorem State.foldBlock_faultBlk : (s.foldBlock).faultBlk = s.faultBlk := rfl
@[simp] theorem State.foldBlock_b : (s.foldBlock).b = s.b := rfl
@[simp] theorem State.foldBlock_zptr : (s.foldBlock).zptr = s.zptr := rfl
@[simp] theorem State.foldBlock_szptr : (s.foldBlock).szptr = s.szptr := rfl
@[simp] theorem State.foldBlock_quadrant : (s.foldBlock).quadrant = s.quadrant := rfl
@[simp] theorem State.foldBlock_ftab : (s.foldBlock).ftab = s.ftab := rfl
@[simp] theorem State.foldBlock_bopq : (s.foldBlock).bopq = [] := rfl
@[simp] theorem State.foldBlock_inUse : (s.foldBlock).inUse = s.inUse := rfl
@[simp] theorem State.foldBlock_seqToUnseq : (s.foldBlock).seqToUnseq = s.seqToUnseq := rfl
@[simp] theorem State.foldBlock_unseqToSeq : (s.foldBlock).unseqToSeq = s.unseqToSeq := rfl
@[simp] theorem State.foldBlock_yy : (s.foldBlock).yy = s.yy := rfl
@[simp] theorem State.foldBlock_mtfFreq : (s.foldBlock).mtfFreq = s.mtfFreq := rfl
@[simp] theorem State.foldBlock_lens : (s.foldBlock).lens = s.lens := rfl
@[simp] theorem State.foldBlock_code : (s.foldBlock).code = s.code := rfl
@[simp] theorem State.foldBlock_rfreq : (s.foldBlock).rfreq = s.rfreq := rfl
@[simp] theorem State.foldBlock_fave : (s.foldBlock).fave = s.fave := rfl
@[simp] theorem State.foldBlock_cost : (s.foldBlock).cost = s.cost := rfl
@[simp] theorem State.foldBlock_selector : (s.foldBlock).selector = s.selector := rfl
@[simp] theorem State.foldBlock_selectorMtf : (s.foldBlock).selectorMtf = s.selectorMtf := rfl
@[simp] theorem State.foldBlock_heap : (s.foldBlock).heap = s.heap := rfl
@[simp] theorem State.foldBlock_weight : (s.foldBlock).weight = s.weight := rfl
@[simp] theorem State.foldBlock_parent : (s.foldBlock).parent = s.parent := rfl
@[simp] theorem State.foldBlock_pos : (s.foldBlock).pos = s.pos := rfl
@[simp] theorem State.foldBlock_inbox : (s.foldBlock).inbox = s.inbox := rfl
@[simp] theorem State.foldBlock_rsp : (s.foldBlock).rsp = s.rsp := rfl
@[simp] theorem State.foldBlock_sinkWritable : (s.foldBlock).sinkWritable = s.sinkWritable := rfl
@[simp] theorem State.foldBlock_laneFails : (s.foldBlock).laneFails = s.laneFails := rfl
@[simp] theorem State.foldBlock_freeCtr : (s.foldBlock).freeCtr = s.freeCtr := rfl

/-! `State.openRegisters` -/

@[simp] theorem State.openRegisters_phase (o : Bool) (l : BitVec 8) : (s.openRegisters o l).phase = s.phase := rfl
@[simp] theorem State.openRegisters_sink (o : Bool) (l : BitVec 8) : (s.openRegisters o l).sink = { s.sink with acc := 0, nacc := 0, closed := false } := rfl
@[simp] theorem State.openRegisters_blkId (o : Bool) (l : BitVec 8) : (s.openRegisters o l).blkId = s.blkId := rfl
@[simp] theorem State.openRegisters_cap (o : Bool) (l : BitVec 8) : (s.openRegisters o l).cap = s.cap := rfl
@[simp] theorem State.openRegisters_len (o : Bool) (l : BitVec 8) : (s.openRegisters o l).len = s.len := rfl
@[simp] theorem State.openRegisters_rawCount (o : Bool) (l : BitVec 8) : (s.openRegisters o l).rawCount = s.rawCount := rfl
@[simp] theorem State.openRegisters_runByte (o : Bool) (l : BitVec 8) : (s.openRegisters o l).runByte = s.runByte := rfl
@[simp] theorem State.openRegisters_runLen (o : Bool) (l : BitVec 8) : (s.openRegisters o l).runLen = s.runLen := rfl
@[simp] theorem State.openRegisters_crc (o : Bool) (l : BitVec 8) : (s.openRegisters o l).crc = s.crc := rfl
@[simp] theorem State.openRegisters_blockCrc (o : Bool) (l : BitVec 8) : (s.openRegisters o l).blockCrc = s.blockCrc := rfl
@[simp] theorem State.openRegisters_full (o : Bool) (l : BitVec 8) : (s.openRegisters o l).full = s.full := rfl
@[simp] theorem State.openRegisters_closed (o : Bool) (l : BitVec 8) : (s.openRegisters o l).closed = s.closed := rfl
@[simp] theorem State.openRegisters_origPtr (o : Bool) (l : BitVec 8) : (s.openRegisters o l).origPtr = s.origPtr := rfl
@[simp] theorem State.openRegisters_workDone (o : Bool) (l : BitVec 8) : (s.openRegisters o l).workDone = s.workDone := rfl
@[simp] theorem State.openRegisters_workLimit (o : Bool) (l : BitVec 8) : (s.openRegisters o l).workLimit = s.workLimit := rfl
@[simp] theorem State.openRegisters_firstAttempt (o : Bool) (l : BitVec 8) : (s.openRegisters o l).firstAttempt = s.firstAttempt := rfl
@[simp] theorem State.openRegisters_randomised (o : Bool) (l : BitVec 8) : (s.openRegisters o l).randomised = s.randomised := rfl
@[simp] theorem State.openRegisters_nInUse (o : Bool) (l : BitVec 8) : (s.openRegisters o l).nInUse = s.nInUse := rfl
@[simp] theorem State.openRegisters_alphaSize (o : Bool) (l : BitVec 8) : (s.openRegisters o l).alphaSize = s.alphaSize := rfl
@[simp] theorem State.openRegisters_zpend (o : Bool) (l : BitVec 8) : (s.openRegisters o l).zpend = s.zpend := rfl
@[simp] theorem State.openRegisters_nMTF (o : Bool) (l : BitVec 8) : (s.openRegisters o l).nMTF = s.nMTF := rfl
@[simp] theorem State.openRegisters_nGroups (o : Bool) (l : BitVec 8) : (s.openRegisters o l).nGroups = s.nGroups := rfl
@[simp] theorem State.openRegisters_nSelectors (o : Bool) (l : BitVec 8) : (s.openRegisters o l).nSelectors = s.nSelectors := rfl
@[simp] theorem State.openRegisters_iter (o : Bool) (l : BitVec 8) : (s.openRegisters o l).iter = s.iter := rfl
@[simp] theorem State.openRegisters_streamCrc (o : Bool) (l : BitVec 8) : (s.openRegisters o l).streamCrc = 0 := rfl
@[simp] theorem State.openRegisters_nextId (o : Bool) (l : BitVec 8) : (s.openRegisters o l).nextId = 0 := rfl
@[simp] theorem State.openRegisters_blocksEmitted (o : Bool) (l : BitVec 8) : (s.openRegisters o l).blocksEmitted = 0 := rfl
@[simp] theorem State.openRegisters_streamOpen (o : Bool) (l : BitVec 8) : (s.openRegisters o l).streamOpen = true := rfl
@[simp] theorem State.openRegisters_fatal (o : Bool) (l : BitVec 8) : (s.openRegisters o l).fatal = s.fatal := rfl
@[simp] theorem State.openRegisters_cfgLevel (o : Bool) (l : BitVec 8) : (s.openRegisters o l).cfgLevel = clampLevel l := rfl
@[simp] theorem State.openRegisters_cfgOwnsSink (o : Bool) (l : BitVec 8) : (s.openRegisters o l).cfgOwnsSink = o := rfl
@[simp] theorem State.openRegisters_cfgLanes (o : Bool) (l : BitVec 8) : (s.openRegisters o l).cfgLanes = s.cfgLanes := rfl
@[simp] theorem State.openRegisters_faultCode (o : Bool) (l : BitVec 8) : (s.openRegisters o l).faultCode = s.faultCode := rfl
@[simp] theorem State.openRegisters_faultBlk (o : Bool) (l : BitVec 8) : (s.openRegisters o l).faultBlk = s.faultBlk := rfl
@[simp] theorem State.openRegisters_b (o : Bool) (l : BitVec 8) : (s.openRegisters o l).b = s.b := rfl
@[simp] theorem State.openRegisters_zptr (o : Bool) (l : BitVec 8) : (s.openRegisters o l).zptr = s.zptr := rfl
@[simp] theorem State.openRegisters_szptr (o : Bool) (l : BitVec 8) : (s.openRegisters o l).szptr = s.szptr := rfl
@[simp] theorem State.openRegisters_quadrant (o : Bool) (l : BitVec 8) : (s.openRegisters o l).quadrant = s.quadrant := rfl
@[simp] theorem State.openRegisters_ftab (o : Bool) (l : BitVec 8) : (s.openRegisters o l).ftab = s.ftab := rfl
@[simp] theorem State.openRegisters_bopq (o : Bool) (l : BitVec 8) : (s.openRegisters o l).bopq = s.bopq := rfl
@[simp] theorem State.openRegisters_inUse (o : Bool) (l : BitVec 8) : (s.openRegisters o l).inUse = s.inUse := rfl
@[simp] theorem State.openRegisters_seqToUnseq (o : Bool) (l : BitVec 8) : (s.openRegisters o l).seqToUnseq = s.seqToUnseq := rfl
@[simp] theorem State.openRegisters_unseqToSeq (o : Bool) (l : BitVec 8) : (s.openRegisters o l).unseqToSeq = s.unseqToSeq := rfl
@[simp] theorem State.openRegisters_yy (o : Bool) (l : BitVec 8) : (s.openRegisters o l).yy = s.yy := rfl
@[simp] theorem State.openRegisters_mtfFreq (o : Bool) (l : BitVec 8) : (s.openRegisters o l).mtfFreq = s.mtfFreq := rfl
@[simp] theorem State.openRegisters_lens (o : Bool) (l : BitVec 8) : (s.openRegisters o l).lens = s.lens := rfl
@[simp] theorem State.openRegisters_code (o : Bool) (l : BitVec 8) : (s.openRegisters o l).code = s.code := rfl
@[simp] theorem State.openRegisters_rfreq (o : Bool) (l : BitVec 8) : (s.openRegisters o l).rfreq = s.rfreq := rfl
@[simp] theorem State.openRegisters_fave (o : Bool) (l : BitVec 8) : (s.openRegisters o l).fave = s.fave := rfl
@[simp] theorem State.openRegisters_cost (o : Bool) (l : BitVec 8) : (s.openRegisters o l).cost = s.cost := rfl
@[simp] theorem State.openRegisters_selector (o : Bool) (l : BitVec 8) : (s.openRegisters o l).selector = s.selector := rfl
@[simp] theorem State.openRegisters_selectorMtf (o : Bool) (l : BitVec 8) : (s.openRegisters o l).selectorMtf = s.selectorMtf := rfl
@[simp] theorem State.openRegisters_heap (o : Bool) (l : BitVec 8) : (s.openRegisters o l).heap = s.heap := rfl
@[simp] theorem State.openRegisters_weight (o : Bool) (l : BitVec 8) : (s.openRegisters o l).weight = s.weight := rfl
@[simp] theorem State.openRegisters_parent (o : Bool) (l : BitVec 8) : (s.openRegisters o l).parent = s.parent := rfl
@[simp] theorem State.openRegisters_pos (o : Bool) (l : BitVec 8) : (s.openRegisters o l).pos = s.pos := rfl
@[simp] theorem State.openRegisters_inbox (o : Bool) (l : BitVec 8) : (s.openRegisters o l).inbox = s.inbox := rfl
@[simp] theorem State.openRegisters_rsp (o : Bool) (l : BitVec 8) : (s.openRegisters o l).rsp = s.rsp := rfl
@[simp] theorem State.openRegisters_sinkWritable (o : Bool) (l : BitVec 8) : (s.openRegisters o l).sinkWritable = s.sinkWritable := rfl
@[simp] theorem State.openRegisters_laneFails (o : Bool) (l : BitVec 8) : (s.openRegisters o l).laneFails = s.laneFails := rfl
@[simp] theorem State.openRegisters_freeCtr (o : Bool) (l : BitVec 8) : (s.openRegisters o l).freeCtr = s.freeCtr := rfl

/-! `State.closeStream` -/

@[simp] theorem State.closeStream_phase : (s.closeStream).phase = .idle := rfl
@[simp] theorem State.closeStream_sink : (s.closeStream).sink = { s.sink with bytes := s.sink.bytes ++ (if s.cfgOwnsSink then [.close] else []) } := rfl
@[simp] theorem State.closeStream_blkId : (s.closeStream).blkId = s.blkId := rfl
@[simp] theorem State.closeStream_cap : (s.closeStream).cap = s.cap := rfl
@[simp] theorem State.closeStream_len : (s.closeStream).len = s.len := rfl
@[simp] theorem State.closeStream_rawCount : (s.closeStream).rawCount = s.rawCount := rfl
@[simp] theorem State.closeStream_runByte : (s.closeStream).runByte = s.runByte := rfl
@[simp] theorem State.closeStream_runLen : (s.closeStream).runLen = s.runLen := rfl
@[simp] theorem State.closeStream_crc : (s.closeStream).crc = s.crc := rfl
@[simp] theorem State.closeStream_blockCrc : (s.closeStream).blockCrc = s.blockCrc := rfl
@[simp] theorem State.closeStream_full : (s.closeStream).full = s.full := rfl
@[simp] theorem State.closeStream_closed : (s.closeStream).closed = s.closed := rfl
@[simp] theorem State.closeStream_origPtr : (s.closeStream).origPtr = s.origPtr := rfl
@[simp] theorem State.closeStream_workDone : (s.closeStream).workDone = s.workDone := rfl
@[simp] theorem State.closeStream_workLimit : (s.closeStream).workLimit = s.workLimit := rfl
@[simp] theorem State.closeStream_firstAttempt : (s.closeStream).firstAttempt = s.firstAttempt := rfl
@[simp] theorem State.closeStream_randomised : (s.closeStream).randomised = s.randomised := rfl
@[simp] theorem State.closeStream_nInUse : (s.closeStream).nInUse = s.nInUse := rfl
@[simp] theorem State.closeStream_alphaSize : (s.closeStream).alphaSize = s.alphaSize := rfl
@[simp] theorem State.closeStream_zpend : (s.closeStream).zpend = s.zpend := rfl
@[simp] theorem State.closeStream_nMTF : (s.closeStream).nMTF = s.nMTF := rfl
@[simp] theorem State.closeStream_nGroups : (s.closeStream).nGroups = s.nGroups := rfl
@[simp] theorem State.closeStream_nSelectors : (s.closeStream).nSelectors = s.nSelectors := rfl
@[simp] theorem State.closeStream_iter : (s.closeStream).iter = s.iter := rfl
@[simp] theorem State.closeStream_streamCrc : (s.closeStream).streamCrc = s.streamCrc := rfl
@[simp] theorem State.closeStream_nextId : (s.closeStream).nextId = s.nextId := rfl
@[simp] theorem State.closeStream_blocksEmitted : (s.closeStream).blocksEmitted = s.blocksEmitted := rfl
@[simp] theorem State.closeStream_streamOpen : (s.closeStream).streamOpen = false := rfl
@[simp] theorem State.closeStream_fatal : (s.closeStream).fatal = s.fatal := rfl
@[simp] theorem State.closeStream_cfgLevel : (s.closeStream).cfgLevel = s.cfgLevel := rfl
@[simp] theorem State.closeStream_cfgOwnsSink : (s.closeStream).cfgOwnsSink = s.cfgOwnsSink := rfl
@[simp] theorem State.closeStream_cfgLanes : (s.closeStream).cfgLanes = s.cfgLanes := rfl
@[simp] theorem State.closeStream_faultCode : (s.closeStream).faultCode = s.faultCode := rfl
@[simp] theorem State.closeStream_faultBlk : (s.closeStream).faultBlk = s.faultBlk := rfl
@[simp] theorem State.closeStream_b : (s.closeStream).b = s.b := rfl
@[simp] theorem State.closeStream_zptr : (s.closeStream).zptr = s.zptr := rfl
@[simp] theorem State.closeStream_szptr : (s.closeStream).szptr = s.szptr := rfl
@[simp] theorem State.closeStream_quadrant : (s.closeStream).quadrant = s.quadrant := rfl
@[simp] theorem State.closeStream_ftab : (s.closeStream).ftab = s.ftab := rfl
@[simp] theorem State.closeStream_bopq : (s.closeStream).bopq = s.bopq := rfl
@[simp] theorem State.closeStream_inUse : (s.closeStream).inUse = s.inUse := rfl
@[simp] theorem State.closeStream_seqToUnseq : (s.closeStream).seqToUnseq = s.seqToUnseq := rfl
@[simp] theorem State.closeStream_unseqToSeq : (s.closeStream).unseqToSeq = s.unseqToSeq := rfl
@[simp] theorem State.closeStream_yy : (s.closeStream).yy = s.yy := rfl
@[simp] theorem State.closeStream_mtfFreq : (s.closeStream).mtfFreq = s.mtfFreq := rfl
@[simp] theorem State.closeStream_lens : (s.closeStream).lens = s.lens := rfl
@[simp] theorem State.closeStream_code : (s.closeStream).code = s.code := rfl
@[simp] theorem State.closeStream_rfreq : (s.closeStream).rfreq = s.rfreq := rfl
@[simp] theorem State.closeStream_fave : (s.closeStream).fave = s.fave := rfl
@[simp] theorem State.closeStream_cost : (s.closeStream).cost = s.cost := rfl
@[simp] theorem State.closeStream_selector : (s.closeStream).selector = s.selector := rfl
@[simp] theorem State.closeStream_selectorMtf : (s.closeStream).selectorMtf = s.selectorMtf := rfl
@[simp] theorem State.closeStream_heap : (s.closeStream).heap = s.heap := rfl
@[simp] theorem State.closeStream_weight : (s.closeStream).weight = s.weight := rfl
@[simp] theorem State.closeStream_parent : (s.closeStream).parent = s.parent := rfl
@[simp] theorem State.closeStream_pos : (s.closeStream).pos = s.pos := rfl
@[simp] theorem State.closeStream_inbox : (s.closeStream).inbox = s.inbox := rfl
@[simp] theorem State.closeStream_rsp : (s.closeStream).rsp = s.rsp := rfl
@[simp] theorem State.closeStream_sinkWritable : (s.closeStream).sinkWritable = s.sinkWritable := rfl
@[simp] theorem State.closeStream_laneFails : (s.closeStream).laneFails = s.laneFails := rfl
@[simp] theorem State.closeStream_freeCtr : (s.closeStream).freeCtr = s.freeCtr := rfl

/-! `State.injectLaneFail` -/

@[simp] theorem State.injectLaneFail_phase (k : Word32) : (s.injectLaneFail k).phase = s.phase := rfl
@[simp] theorem State.injectLaneFail_sink (k : Word32) : (s.injectLaneFail k).sink = s.sink := rfl
@[simp] theorem State.injectLaneFail_blkId (k : Word32) : (s.injectLaneFail k).blkId = s.blkId := rfl
@[simp] theorem State.injectLaneFail_cap (k : Word32) : (s.injectLaneFail k).cap = s.cap := rfl
@[simp] theorem State.injectLaneFail_len (k : Word32) : (s.injectLaneFail k).len = s.len := rfl
@[simp] theorem State.injectLaneFail_rawCount (k : Word32) : (s.injectLaneFail k).rawCount = s.rawCount := rfl
@[simp] theorem State.injectLaneFail_runByte (k : Word32) : (s.injectLaneFail k).runByte = s.runByte := rfl
@[simp] theorem State.injectLaneFail_runLen (k : Word32) : (s.injectLaneFail k).runLen = s.runLen := rfl
@[simp] theorem State.injectLaneFail_crc (k : Word32) : (s.injectLaneFail k).crc = s.crc := rfl
@[simp] theorem State.injectLaneFail_blockCrc (k : Word32) : (s.injectLaneFail k).blockCrc = s.blockCrc := rfl
@[simp] theorem State.injectLaneFail_full (k : Word32) : (s.injectLaneFail k).full = s.full := rfl
@[simp] theorem State.injectLaneFail_closed (k : Word32) : (s.injectLaneFail k).closed = s.closed := rfl
@[simp] theorem State.injectLaneFail_origPtr (k : Word32) : (s.injectLaneFail k).origPtr = s.origPtr := rfl
@[simp] theorem State.injectLaneFail_workDone (k : Word32) : (s.injectLaneFail k).workDone = s.workDone := rfl
@[simp] theorem State.injectLaneFail_workLimit (k : Word32) : (s.injectLaneFail k).workLimit = s.workLimit := rfl
@[simp] theorem State.injectLaneFail_firstAttempt (k : Word32) : (s.injectLaneFail k).firstAttempt = s.firstAttempt := rfl
@[simp] theorem State.injectLaneFail_randomised (k : Word32) : (s.injectLaneFail k).randomised = s.randomised := rfl
@[simp] theorem State.injectLaneFail_nInUse (k : Word32) : (s.injectLaneFail k).nInUse = s.nInUse := rfl
@[simp] theorem State.injectLaneFail_alphaSize (k : Word32) : (s.injectLaneFail k).alphaSize = s.alphaSize := rfl
@[simp] theorem State.injectLaneFail_zpend (k : Word32) : (s.injectLaneFail k).zpend = s.zpend := rfl
@[simp] theorem State.injectLaneFail_nMTF (k : Word32) : (s.injectLaneFail k).nMTF = s.nMTF := rfl
@[simp] theorem State.injectLaneFail_nGroups (k : Word32) : (s.injectLaneFail k).nGroups = s.nGroups := rfl
@[simp] theorem State.injectLaneFail_nSelectors (k : Word32) : (s.injectLaneFail k).nSelectors = s.nSelectors := rfl
@[simp] theorem State.injectLaneFail_iter (k : Word32) : (s.injectLaneFail k).iter = s.iter := rfl
@[simp] theorem State.injectLaneFail_streamCrc (k : Word32) : (s.injectLaneFail k).streamCrc = s.streamCrc := rfl
@[simp] theorem State.injectLaneFail_nextId (k : Word32) : (s.injectLaneFail k).nextId = s.nextId := rfl
@[simp] theorem State.injectLaneFail_blocksEmitted (k : Word32) : (s.injectLaneFail k).blocksEmitted = s.blocksEmitted := rfl
@[simp] theorem State.injectLaneFail_streamOpen (k : Word32) : (s.injectLaneFail k).streamOpen = s.streamOpen := rfl
@[simp] theorem State.injectLaneFail_fatal (k : Word32) : (s.injectLaneFail k).fatal = s.fatal := rfl
@[simp] theorem State.injectLaneFail_cfgLevel (k : Word32) : (s.injectLaneFail k).cfgLevel = s.cfgLevel := rfl
@[simp] theorem State.injectLaneFail_cfgOwnsSink (k : Word32) : (s.injectLaneFail k).cfgOwnsSink = s.cfgOwnsSink := rfl
@[simp] theorem State.injectLaneFail_cfgLanes (k : Word32) : (s.injectLaneFail k).cfgLanes = s.cfgLanes := rfl
@[simp] theorem State.injectLaneFail_faultCode (k : Word32) : (s.injectLaneFail k).faultCode = s.faultCode := rfl
@[simp] theorem State.injectLaneFail_faultBlk (k : Word32) : (s.injectLaneFail k).faultBlk = s.faultBlk := rfl
@[simp] theorem State.injectLaneFail_b (k : Word32) : (s.injectLaneFail k).b = s.b := rfl
@[simp] theorem State.injectLaneFail_zptr (k : Word32) : (s.injectLaneFail k).zptr = s.zptr := rfl
@[simp] theorem State.injectLaneFail_szptr (k : Word32) : (s.injectLaneFail k).szptr = s.szptr := rfl
@[simp] theorem State.injectLaneFail_quadrant (k : Word32) : (s.injectLaneFail k).quadrant = s.quadrant := rfl
@[simp] theorem State.injectLaneFail_ftab (k : Word32) : (s.injectLaneFail k).ftab = s.ftab := rfl
@[simp] theorem State.injectLaneFail_bopq (k : Word32) : (s.injectLaneFail k).bopq = s.bopq := rfl
@[simp] theorem State.injectLaneFail_inUse (k : Word32) : (s.injectLaneFail k).inUse = s.inUse := rfl
@[simp] theorem State.injectLaneFail_seqToUnseq (k : Word32) : (s.injectLaneFail k).seqToUnseq = s.seqToUnseq := rfl
@[simp] theorem State.injectLaneFail_unseqToSeq (k : Word32) : (s.injectLaneFail k).unseqToSeq = s.unseqToSeq := rfl
@[simp] theorem State.injectLaneFail_yy (k : Word32) : (s.injectLaneFail k).yy = s.yy := rfl
@[simp] theorem State.injectLaneFail_mtfFreq (k : Word32) : (s.injectLaneFail k).mtfFreq = s.mtfFreq := rfl
@[simp] theorem State.injectLaneFail_lens (k : Word32) : (s.injectLaneFail k).lens = s.lens := rfl
@[simp] theorem State.injectLaneFail_code (k : Word32) : (s.injectLaneFail k).code = s.code := rfl
@[simp] theorem State.injectLaneFail_rfreq (k : Word32) : (s.injectLaneFail k).rfreq = s.rfreq := rfl
@[simp] theorem State.injectLaneFail_fave (k : Word32) : (s.injectLaneFail k).fave = s.fave := rfl
@[simp] theorem State.injectLaneFail_cost (k : Word32) : (s.injectLaneFail k).cost = s.cost := rfl
@[simp] theorem State.injectLaneFail_selector (k : Word32) : (s.injectLaneFail k).selector = s.selector := rfl
@[simp] theorem State.injectLaneFail_selectorMtf (k : Word32) : (s.injectLaneFail k).selectorMtf = s.selectorMtf := rfl
@[simp] theorem State.injectLaneFail_heap (k : Word32) : (s.injectLaneFail k).heap = s.heap := rfl
@[simp] theorem State.injectLaneFail_weight (k : Word32) : (s.injectLaneFail k).weight = s.weight := rfl
@[simp] theorem State.injectLaneFail_parent (k : Word32) : (s.injectLaneFail k).parent = s.parent := rfl
@[simp] theorem State.injectLaneFail_pos (k : Word32) : (s.injectLaneFail k).pos = s.pos := rfl
@[simp] theorem State.injectLaneFail_inbox (k : Word32) : (s.injectLaneFail k).inbox = s.inbox := rfl
@[simp] theorem State.injectLaneFail_rsp (k : Word32) : (s.injectLaneFail k).rsp = s.rsp := rfl
@[simp] theorem State.injectLaneFail_sinkWritable (k : Word32) : (s.injectLaneFail k).sinkWritable = s.sinkWritable := rfl
@[simp] theorem State.injectLaneFail_laneFails (k : Word32) : (s.injectLaneFail k).laneFails = k :: s.laneFails := rfl
@[simp] theorem State.injectLaneFail_freeCtr (k : Word32) : (s.injectLaneFail k).freeCtr = s.freeCtr := rfl

/-! `State.withFetchWord` -/

@[simp] theorem State.withFetchWord_phase (n w : Nat) : (s.withFetchWord n w).phase = s.phase := rfl
@[simp] theorem State.withFetchWord_sink (n w : Nat) : (s.withFetchWord n w).sink = s.sink := rfl
@[simp] theorem State.withFetchWord_blkId (n w : Nat) : (s.withFetchWord n w).blkId = s.blkId := rfl
@[simp] theorem State.withFetchWord_cap (n w : Nat) : (s.withFetchWord n w).cap = s.cap := rfl
@[simp] theorem State.withFetchWord_len (n w : Nat) : (s.withFetchWord n w).len = s.len := rfl
@[simp] theorem State.withFetchWord_rawCount (n w : Nat) : (s.withFetchWord n w).rawCount = s.rawCount := rfl
@[simp] theorem State.withFetchWord_runByte (n w : Nat) : (s.withFetchWord n w).runByte = s.runByte := rfl
@[simp] theorem State.withFetchWord_runLen (n w : Nat) : (s.withFetchWord n w).runLen = s.runLen := rfl
@[simp] theorem State.withFetchWord_crc (n w : Nat) : (s.withFetchWord n w).crc = s.crc := rfl
@[simp] theorem State.withFetchWord_blockCrc (n w : Nat) : (s.withFetchWord n w).blockCrc = s.blockCrc := rfl
@[simp] theorem State.withFetchWord_full (n w : Nat) : (s.withFetchWord n w).full = s.full := rfl
@[simp] theorem State.withFetchWord_closed (n w : Nat) : (s.withFetchWord n w).closed = s.closed := rfl
@[simp] theorem State.withFetchWord_origPtr (n w : Nat) : (s.withFetchWord n w).origPtr = s.origPtr := rfl
@[simp] theorem State.withFetchWord_workDone (n w : Nat) : (s.withFetchWord n w).workDone = s.workDone := rfl
@[simp] theorem State.withFetchWord_workLimit (n w : Nat) : (s.withFetchWord n w).workLimit = s.workLimit := rfl
@[simp] theorem State.withFetchWord_firstAttempt (n w : Nat) : (s.withFetchWord n w).firstAttempt = s.firstAttempt := rfl
@[simp] theorem State.withFetchWord_randomised (n w : Nat) : (s.withFetchWord n w).randomised = s.randomised := rfl
@[simp] theorem State.withFetchWord_nInUse (n w : Nat) : (s.withFetchWord n w).nInUse = s.nInUse := rfl
@[simp] theorem State.withFetchWord_alphaSize (n w : Nat) : (s.withFetchWord n w).alphaSize = s.alphaSize := rfl
@[simp] theorem State.withFetchWord_zpend (n w : Nat) : (s.withFetchWord n w).zpend = s.zpend := rfl
@[simp] theorem State.withFetchWord_nMTF (n w : Nat) : (s.withFetchWord n w).nMTF = s.nMTF := rfl
@[simp] theorem State.withFetchWord_nGroups (n w : Nat) : (s.withFetchWord n w).nGroups = s.nGroups := rfl
@[simp] theorem State.withFetchWord_nSelectors (n w : Nat) : (s.withFetchWord n w).nSelectors = s.nSelectors := rfl
@[simp] theorem State.withFetchWord_iter (n w : Nat) : (s.withFetchWord n w).iter = s.iter := rfl
@[simp] theorem State.withFetchWord_streamCrc (n w : Nat) : (s.withFetchWord n w).streamCrc = s.streamCrc := rfl
@[simp] theorem State.withFetchWord_nextId (n w : Nat) : (s.withFetchWord n w).nextId = s.nextId := rfl
@[simp] theorem State.withFetchWord_blocksEmitted (n w : Nat) : (s.withFetchWord n w).blocksEmitted = s.blocksEmitted := rfl
@[simp] theorem State.withFetchWord_streamOpen (n w : Nat) : (s.withFetchWord n w).streamOpen = s.streamOpen := rfl
@[simp] theorem State.withFetchWord_fatal (n w : Nat) : (s.withFetchWord n w).fatal = s.fatal := rfl
@[simp] theorem State.withFetchWord_cfgLevel (n w : Nat) : (s.withFetchWord n w).cfgLevel = s.cfgLevel := rfl
@[simp] theorem State.withFetchWord_cfgOwnsSink (n w : Nat) : (s.withFetchWord n w).cfgOwnsSink = s.cfgOwnsSink := rfl
@[simp] theorem State.withFetchWord_cfgLanes (n w : Nat) : (s.withFetchWord n w).cfgLanes = s.cfgLanes := rfl
@[simp] theorem State.withFetchWord_faultCode (n w : Nat) : (s.withFetchWord n w).faultCode = s.faultCode := rfl
@[simp] theorem State.withFetchWord_faultBlk (n w : Nat) : (s.withFetchWord n w).faultBlk = s.faultBlk := rfl
@[simp] theorem State.withFetchWord_b (n w : Nat) : (s.withFetchWord n w).b = s.b := rfl
@[simp] theorem State.withFetchWord_zptr (n w : Nat) : (s.withFetchWord n w).zptr = s.zptr := rfl
@[simp] theorem State.withFetchWord_szptr (n w : Nat) : (s.withFetchWord n w).szptr = s.szptr := rfl
@[simp] theorem State.withFetchWord_quadrant (n w : Nat) : (s.withFetchWord n w).quadrant = s.quadrant := rfl
@[simp] theorem State.withFetchWord_ftab (n w : Nat) : (s.withFetchWord n w).ftab = s.ftab := rfl
@[simp] theorem State.withFetchWord_bopq (n w : Nat) : (s.withFetchWord n w).bopq = s.bopq := rfl
@[simp] theorem State.withFetchWord_inUse (n w : Nat) : (s.withFetchWord n w).inUse = s.inUse := rfl
@[simp] theorem State.withFetchWord_seqToUnseq (n w : Nat) : (s.withFetchWord n w).seqToUnseq = s.seqToUnseq := rfl
@[simp] theorem State.withFetchWord_unseqToSeq (n w : Nat) : (s.withFetchWord n w).unseqToSeq = s.unseqToSeq := rfl
@[simp] theorem State.withFetchWord_yy (n w : Nat) : (s.withFetchWord n w).yy = s.yy := rfl
@[simp] theorem State.withFetchWord_mtfFreq (n w : Nat) : (s.withFetchWord n w).mtfFreq = s.mtfFreq := rfl
@[simp] theorem State.withFetchWord_lens (n w : Nat) : (s.withFetchWord n w).lens = s.lens := rfl
@[simp] theorem State.withFetchWord_code (n w : Nat) : (s.withFetchWord n w).code = s.code := rfl
@[simp] theorem State.withFetchWord_rfreq (n w : Nat) : (s.withFetchWord n w).rfreq = s.rfreq := rfl
@[simp] theorem State.withFetchWord_fave (n w : Nat) : (s.withFetchWord n w).fave = s.fave := rfl
@[simp] theorem State.withFetchWord_cost (n w : Nat) : (s.withFetchWord n w).cost = s.cost := rfl
@[simp] theorem State.withFetchWord_selector (n w : Nat) : (s.withFetchWord n w).selector = s.selector := rfl
@[simp] theorem State.withFetchWord_selectorMtf (n w : Nat) : (s.withFetchWord n w).selectorMtf = s.selectorMtf := rfl
@[simp] theorem State.withFetchWord_heap (n w : Nat) : (s.withFetchWord n w).heap = s.heap := rfl
@[simp] theorem State.withFetchWord_weight (n w : Nat) : (s.withFetchWord n w).weight = s.weight := rfl
@[simp] theorem State.withFetchWord_parent (n w : Nat) : (s.withFetchWord n w).parent = s.parent := rfl
@[simp] theorem State.withFetchWord_pos (n w : Nat) : (s.withFetchWord n w).pos = s.pos := rfl
@[simp] theorem State.withFetchWord_inbox (n w : Nat) : (s.withFetchWord n w).inbox = .message (tableWord n w) :: s.inbox := rfl
@[simp] theorem State.withFetchWord_rsp (n w : Nat) : (s.withFetchWord n w).rsp = s.rsp := rfl
@[simp] theorem State.withFetchWord_sinkWritable (n w : Nat) : (s.withFetchWord n w).sinkWritable = s.sinkWritable := rfl
@[simp] theorem State.withFetchWord_laneFails (n w : Nat) : (s.withFetchWord n w).laneFails = s.laneFails := rfl
@[simp] theorem State.withFetchWord_freeCtr (n w : Nat) : (s.withFetchWord n w).freeCtr = s.freeCtr := rfl

/-! `State.newBlock` -/

@[simp] theorem State.newBlock_phase : (s.newBlock).phase = .filling := rfl
@[simp] theorem State.newBlock_sink : (s.newBlock).sink = s.sink := rfl
@[simp] theorem State.newBlock_blkId : (s.newBlock).blkId = s.nextId := rfl
@[simp] theorem State.newBlock_cap : (s.newBlock).cap = capacity s.cfgLevel := rfl
@[simp] theorem State.newBlock_len : (s.newBlock).len = 0 := rfl
@[simp] theorem State.newBlock_rawCount : (s.newBlock).rawCount = 0 := rfl
@[simp] theorem State.newBlock_runLen : (s.newBlock).runLen = 0 := rfl
@[simp] theorem State.newBlock_crc : (s.newBlock).crc = Config.crcInit := rfl
@[simp] theorem State.newBlock_full : (s.newBlock).full = false := rfl
@[simp] theorem State.newBlock_closed : (s.newBlock).closed = false := rfl
@[simp] theorem State.newBlock_streamCrc : (s.newBlock).streamCrc = s.streamCrc := rfl
@[simp] theorem State.newBlock_nextId : (s.newBlock).nextId = s.nextId + 1 := rfl
@[simp] theorem State.newBlock_blocksEmitted : (s.newBlock).blocksEmitted = s.blocksEmitted := rfl
@[simp] theorem State.newBlock_streamOpen : (s.newBlock).streamOpen = s.streamOpen := rfl
@[simp] theorem State.newBlock_fatal : (s.newBlock).fatal = s.fatal := rfl
@[simp] theorem State.newBlock_cfgLevel : (s.newBlock).cfgLevel = s.cfgLevel := rfl
@[simp] theorem State.newBlock_cfgOwnsSink : (s.newBlock).cfgOwnsSink = s.cfgOwnsSink := rfl
@[simp] theorem State.newBlock_cfgLanes : (s.newBlock).cfgLanes = s.cfgLanes := rfl
@[simp] theorem State.newBlock_faultCode : (s.newBlock).faultCode = s.faultCode := rfl
@[simp] theorem State.newBlock_faultBlk : (s.newBlock).faultBlk = s.faultBlk := rfl
@[simp] theorem State.newBlock_b : (s.newBlock).b = [] := rfl
@[simp] theorem State.newBlock_zptr : (s.newBlock).zptr = [] := rfl
@[simp] theorem State.newBlock_szptr : (s.newBlock).szptr = [] := rfl
@[simp] theorem State.newBlock_quadrant : (s.newBlock).quadrant = [] := rfl
@[simp] theorem State.newBlock_ftab : (s.newBlock).ftab = [] := rfl
@[simp] theorem State.newBlock_bopq : (s.newBlock).bopq = [] := rfl
@[simp] theorem State.newBlock_inUse : (s.newBlock).inUse = [] := rfl
@[simp] theorem State.newBlock_seqToUnseq : (s.newBlock).seqToUnseq = [] := rfl
@[simp] theorem State.newBlock_unseqToSeq : (s.newBlock).unseqToSeq = [] := rfl
@[simp] theorem State.newBlock_yy : (s.newBlock).yy = [] := rfl
@[simp] theorem State.newBlock_mtfFreq : (s.newBlock).mtfFreq = [] := rfl
@[simp] theorem State.newBlock_lens : (s.newBlock).lens = [] := rfl
@[simp] theorem State.newBlock_code : (s.newBlock).code = [] := rfl
@[simp] theorem State.newBlock_rfreq : (s.newBlock).rfreq = [] := rfl
@[simp] theorem State.newBlock_fave : (s.newBlock).fave = [] := rfl
@[simp] theorem State.newBlock_cost : (s.newBlock).cost = [] := rfl
@[simp] theorem State.newBlock_selector : (s.newBlock).selector = [] := rfl
@[simp] theorem State.newBlock_selectorMtf : (s.newBlock).selectorMtf = [] := rfl
@[simp] theorem State.newBlock_heap : (s.newBlock).heap = [] := rfl
@[simp] theorem State.newBlock_weight : (s.newBlock).weight = [] := rfl
@[simp] theorem State.newBlock_parent : (s.newBlock).parent = [] := rfl
@[simp] theorem State.newBlock_pos : (s.newBlock).pos = [] := rfl
@[simp] theorem State.newBlock_inbox : (s.newBlock).inbox = s.inbox := rfl
@[simp] theorem State.newBlock_rsp : (s.newBlock).rsp = s.rsp := rfl
@[simp] theorem State.newBlock_sinkWritable : (s.newBlock).sinkWritable = s.sinkWritable := rfl
@[simp] theorem State.newBlock_laneFails : (s.newBlock).laneFails = s.laneFails := rfl
@[simp] theorem State.newBlock_freeCtr : (s.newBlock).freeCtr = s.freeCtr + 1 := rfl

/-! `State.hardReset` -/

@[simp] theorem State.hardReset_phase : s.hardReset.phase = State.reset.phase := rfl
@[simp] theorem State.hardReset_sink : s.hardReset.sink = { BitSink.reset with bytes := s.sink.bytes } := rfl
@[simp] theorem State.hardReset_blkId : s.hardReset.blkId = State.reset.blkId := rfl
@[simp] theorem State.hardReset_cap : s.hardReset.cap = State.reset.cap := rfl
@[simp] theorem State.hardReset_len : s.hardReset.len = State.reset.len := rfl
@[simp] theorem State.hardReset_rawCount : s.hardReset.rawCount = State.reset.rawCount := rfl
@[simp] theorem State.hardReset_runByte : s.hardReset.runByte = State.reset.runByte := rfl
@[simp] theorem State.hardReset_runLen : s.hardReset.runLen = State.reset.runLen := rfl
@[simp] theorem State.hardReset_crc : s.hardReset.crc = State.reset.crc := rfl
@[simp] theorem State.hardReset_blockCrc : s.hardReset.blockCrc = State.reset.blockCrc := rfl
@[simp] theorem State.hardReset_full : s.hardReset.full = State.reset.full := rfl
@[simp] theorem State.hardReset_closed : s.hardReset.closed = State.reset.closed := rfl
@[simp] theorem State.hardReset_origPtr : s.hardReset.origPtr = State.reset.origPtr := rfl
@[simp] theorem State.hardReset_workDone : s.hardReset.workDone = State.reset.workDone := rfl
@[simp] theorem State.hardReset_workLimit : s.hardReset.workLimit = State.reset.workLimit := rfl
@[simp] theorem State.hardReset_firstAttempt : s.hardReset.firstAttempt = State.reset.firstAttempt := rfl
@[simp] theorem State.hardReset_randomised : s.hardReset.randomised = State.reset.randomised := rfl
@[simp] theorem State.hardReset_nInUse : s.hardReset.nInUse = State.reset.nInUse := rfl
@[simp] theorem State.hardReset_alphaSize : s.hardReset.alphaSize = State.reset.alphaSize := rfl
@[simp] theorem State.hardReset_zpend : s.hardReset.zpend = State.reset.zpend := rfl
@[simp] theorem State.hardReset_nMTF : s.hardReset.nMTF = State.reset.nMTF := rfl
@[simp] theorem State.hardReset_nGroups : s.hardReset.nGroups = State.reset.nGroups := rfl
@[simp] theorem State.hardReset_nSelectors : s.hardReset.nSelectors = State.reset.nSelectors := rfl
@[simp] theorem State.hardReset_iter : s.hardReset.iter = State.reset.iter := rfl
@[simp] theorem State.hardReset_streamCrc : s.hardReset.streamCrc = State.reset.streamCrc := rfl
@[simp] theorem State.hardReset_nextId : s.hardReset.nextId = State.reset.nextId := rfl
@[simp] theorem State.hardReset_blocksEmitted : s.hardReset.blocksEmitted = State.reset.blocksEmitted := rfl
@[simp] theorem State.hardReset_streamOpen : s.hardReset.streamOpen = State.reset.streamOpen := rfl
@[simp] theorem State.hardReset_fatal : s.hardReset.fatal = State.reset.fatal := rfl
@[simp] theorem State.hardReset_cfgLevel : s.hardReset.cfgLevel = State.reset.cfgLevel := rfl
@[simp] theorem State.hardReset_cfgOwnsSink : s.hardReset.cfgOwnsSink = State.reset.cfgOwnsSink := rfl
@[simp] theorem State.hardReset_cfgLanes : s.hardReset.cfgLanes = State.reset.cfgLanes := rfl
@[simp] theorem State.hardReset_faultCode : s.hardReset.faultCode = State.reset.faultCode := rfl
@[simp] theorem State.hardReset_faultBlk : s.hardReset.faultBlk = State.reset.faultBlk := rfl
@[simp] theorem State.hardReset_b : s.hardReset.b = State.reset.b := rfl
@[simp] theorem State.hardReset_zptr : s.hardReset.zptr = State.reset.zptr := rfl
@[simp] theorem State.hardReset_szptr : s.hardReset.szptr = State.reset.szptr := rfl
@[simp] theorem State.hardReset_quadrant : s.hardReset.quadrant = State.reset.quadrant := rfl
@[simp] theorem State.hardReset_ftab : s.hardReset.ftab = State.reset.ftab := rfl
@[simp] theorem State.hardReset_bopq : s.hardReset.bopq = State.reset.bopq := rfl
@[simp] theorem State.hardReset_inUse : s.hardReset.inUse = State.reset.inUse := rfl
@[simp] theorem State.hardReset_seqToUnseq : s.hardReset.seqToUnseq = State.reset.seqToUnseq := rfl
@[simp] theorem State.hardReset_unseqToSeq : s.hardReset.unseqToSeq = State.reset.unseqToSeq := rfl
@[simp] theorem State.hardReset_yy : s.hardReset.yy = State.reset.yy := rfl
@[simp] theorem State.hardReset_mtfFreq : s.hardReset.mtfFreq = State.reset.mtfFreq := rfl
@[simp] theorem State.hardReset_lens : s.hardReset.lens = State.reset.lens := rfl
@[simp] theorem State.hardReset_code : s.hardReset.code = State.reset.code := rfl
@[simp] theorem State.hardReset_rfreq : s.hardReset.rfreq = State.reset.rfreq := rfl
@[simp] theorem State.hardReset_fave : s.hardReset.fave = State.reset.fave := rfl
@[simp] theorem State.hardReset_cost : s.hardReset.cost = State.reset.cost := rfl
@[simp] theorem State.hardReset_selector : s.hardReset.selector = State.reset.selector := rfl
@[simp] theorem State.hardReset_selectorMtf : s.hardReset.selectorMtf = State.reset.selectorMtf := rfl
@[simp] theorem State.hardReset_heap : s.hardReset.heap = State.reset.heap := rfl
@[simp] theorem State.hardReset_weight : s.hardReset.weight = State.reset.weight := rfl
@[simp] theorem State.hardReset_parent : s.hardReset.parent = State.reset.parent := rfl
@[simp] theorem State.hardReset_pos : s.hardReset.pos = State.reset.pos := rfl
@[simp] theorem State.hardReset_inbox : s.hardReset.inbox = s.inbox := rfl
@[simp] theorem State.hardReset_rsp : s.hardReset.rsp = s.rsp := rfl
@[simp] theorem State.hardReset_sinkWritable : s.hardReset.sinkWritable = s.sinkWritable := rfl
@[simp] theorem State.hardReset_laneFails : s.hardReset.laneFails = s.laneFails := rfl
@[simp] theorem State.hardReset_freeCtr : s.hardReset.freeCtr = s.freeCtr := rfl

/-- R25: everything `State.nextPass` does. -/
theorem State.nextPass_eq : s.nextPass = if s.iter.toNat < 3 then { s with iter := s.iter + 1, phase := .hufIter }
    else { s with phase := .hufAssign } := by
  unfold State.nextPass Config.nIters
  by_cases h : s.iter.toNat < 3
  · rw [if_pos (by omega), if_pos h]
  · rw [if_neg (by omega), if_neg h]

/-- R316: fatal entry of a machine that has taken no fatal fault. -/
theorem State.fatalEntry_eq {s : State} (h : s.fatal = false) (f : HwFault) : s.fatalEntry f = s.haltedWith f.code := by
  simp [State.fatalEntry, State.haltedWith, h]

end Sys2Proof.Machine
end

