-- ==== Sys2Proof/Laws/Res.lean ====
section
/-! SUPPORT. How operations compose: peeling `andThen`, `readOr`, `inRange`, and what `exec` makes of the result. -/

namespace Sys2Proof.Machine

@[simp] theorem Res.andThen_done (s : State) (k : State → Res) : (Res.done s).andThen k = k s := rfl
@[simp] theorem Res.andThen_raised (s : State) (k : State → Res) : (Res.raised s).andThen k = .raised s := rfl
@[simp] theorem Res.andThen_stop (f : Fault) (k : State → Res) : (Res.stop f).andThen k = .stop f := rfl
@[simp] theorem Res.andThen_refuse (r : Refusal) (k : State → Res) : (Res.refuse r).andThen k = .refuse r := rfl

theorem Res.andThen_assoc (r : Res) (k l : State → Res) :
    (r.andThen k).andThen l = r.andThen fun s => (k s).andThen l := by
  cases r <;> rfl

/-- A sequence completes exactly when both parts do. -/
theorem Res.andThen_eq_done {r : Res} {k : State → Res} {t : State} :
    r.andThen k = .done t ↔ ∃ s, r = .done s ∧ k s = .done t := by
  cases r <;> simp

/-- A sequence takes a fatal fault exactly when its first part does, or its second after a completed first. -/
theorem Res.andThen_eq_raised {r : Res} {k : State → Res} {t : State} :
    r.andThen k = .raised t ↔ r = .raised t ∨ ∃ s, r = .done s ∧ k s = .raised t := by
  cases r <;> simp

/-- `P` holds of the state a completed operation leaves, and `Q` of the state a raised fault leaves. -/
def Res.Post (P Q : State → Prop) : Res → Prop
  | .done s => P s
  | .raised s => Q s
  | .stop _ => True
  | .refuse _ => True

@[simp] theorem Res.post_done (P Q : State → Prop) (s : State) : (Res.done s).Post P Q = P s := rfl
@[simp] theorem Res.post_raised (P Q : State → Prop) (s : State) : (Res.raised s).Post P Q = Q s := rfl
@[simp] theorem Res.post_stop (P Q : State → Prop) (f : Fault) : (Res.stop f).Post P Q = True := rfl
@[simp] theorem Res.post_refuse (P Q : State → Prop) (f : Refusal) : (Res.refuse f).Post P Q = True := rfl

theorem Res.Post.mono {r : Res} {P Q P' Q' : State → Prop} (h : r.Post P Q) (hP : ∀ s, P s → P' s)
    (hQ : ∀ s, Q s → Q' s) : r.Post P' Q' := by
  cases r with
  | done s => exact hP s h
  | raised s => exact hQ s h
  | stop _ => trivial
  | refuse _ => trivial

/-- A property of sequences from properties of their parts. -/
theorem Res.Post.andThen {r : Res} {k : State → Res} {P Q R : State → Prop} (h : r.Post P Q)
    (hk : ∀ s, P s → (k s).Post R Q) : (r.andThen k).Post R Q := by
  cases r with
  | done s => exact hk s h
  | raised s => exact h
  | stop _ => trivial
  | refuse _ => trivial

theorem Res.Post.of_done {r : Res} {P Q : State → Prop} {s : State} (h : r.Post P Q) (e : r = .done s) : P s := by
  subst e; exact h

theorem Res.Post.of_raised {r : Res} {P Q : State → Prop} {s : State} (h : r.Post P Q) (e : r = .raised s) : Q s := by
  subst e; exact h

@[simp] theorem readOr_some {α : Type} (sp : Space) (x : α) (k : α → Res) : readOr sp (some x) k = k x := rfl

theorem readOr_post {α : Type} {sp : Space} {o : Option α} {k : α → Res} {P Q : State → Prop}
    (h : ∀ x, o = some x → (k x).Post P Q) : (readOr sp o k).Post P Q := by
  cases o with
  | none => trivial
  | some x => exact h x rfl

theorem inRange_of {sp : Space} {ok : Bool} (h : ok = true) (k : Res) : inRange sp ok k = k := by
  simp [inRange, h]

theorem inRange_post {sp : Space} {ok : Bool} {k : Res} {P Q : State → Prop} (h : ok = true → k.Post P Q) :
    (inRange sp ok k).Post P Q := by
  unfold inRange
  split
  · exact h ‹_›
  · trivial

theorem raise_of_not_fatal {s : State} (h : s.fatal = false) (f : HwFault) : raise f s = .raised (s.haltedWith f.code) := by
  rw [raise, State.fatalEntry_eq h]

/-- What an operation outside a command makes of a next state. -/
theorem unlessFatal_eq_next {op : State → Res} {s t : State} :
    unlessFatal op s = .next t ↔
      (s.fatal = true ∧ t = s) ∨ (s.fatal = false ∧ (op s = .done t ∨ op s = .raised t)) := by
  unfold unlessFatal
  cases h : s.fatal
  · cases hr : op s <;> simp [Res.direct, eq_comm]
  · simp [eq_comm]

theorem unlessFatal_of_done {op : State → Res} {s t : State} (h : s.fatal = false) (e : op s = .done t) :
    unlessFatal op s = .next t := by
  simp [unlessFatal, h, e, Res.direct]

theorem unlessFatal_of_raised {op : State → Res} {s t : State} (h : s.fatal = false) (e : op s = .raised t) :
    unlessFatal op s = .next t := by
  simp [unlessFatal, h, e, Res.direct]

theorem unlessFatal_post {op : State → Res} {s t : State} {P : State → Prop} (hs : P s) (h : (op s).Post P P)
    (e : unlessFatal op s = .next t) : P t := by
  rcases unlessFatal_eq_next.1 e with ⟨_, rfl⟩ | ⟨_, e | e⟩
  · exact hs
  · exact h.of_done e
  · exact h.of_raised e

/-- What a command makes of a next state. -/
theorem hostCommand_eq_next {ok : Bool} {op : State → Res} {s t : State} :
    hostCommand ok op s = .next t ↔
      (s.fatal = true ∧ t = s.respondFatal) ∨
      (s.fatal = false ∧ ok = false ∧ t = s.respondLocal .badState) ∨
      (s.fatal = false ∧ ok = true ∧ (op s = .done t ∨ ∃ u, op s = .raised u ∧ t = u.respondFatal)) := by
  unfold hostCommand
  cases h : s.fatal
  · cases ok
    · simp [eq_comm]
    · cases hr : op s <;> simp [Res.command, eq_comm]
  · simp [eq_comm]

theorem hostCommand_of_done {ok : Bool} {op : State → Res} {s t : State} (h : s.fatal = false) (hok : ok = true)
    (e : op s = .done t) : hostCommand ok op s = .next t := by
  simp [hostCommand, h, hok, e, Res.command]

theorem hostCommand_of_raised {ok : Bool} {op : State → Res} {s t : State} (h : s.fatal = false) (hok : ok = true)
    (e : op s = .raised t) : hostCommand ok op s = .next t.respondFatal := by
  simp [hostCommand, h, hok, e, Res.command]

end Sys2Proof.Machine
end

