-- ==== Sys2Proof/Laws/Sink.lean ====
section
/-! SUPPORT. The bit packer against R130: written bits are appended to the stream. -/

namespace Sys2Proof.Machine

@[simp] theorem length_bitsOf {w : Nat} (n : Nat) (v : BitVec w) : (bitsOf n v).length = n := by simp [bitsOf]

theorem getElem?_bitsOf {w : Nat} {n j : Nat} {v : BitVec w} (h : j < n) :
    (bitsOf n v)[j]? = some (v.getLsbD (n - 1 - j)) := by
  simp [bitsOf, h]

theorem BitSink.putBits_nil (k : BitSink) : k.putBits [] = k := rfl

theorem BitSink.putBits_cons (k : BitSink) (b : Bool) (bs : List Bool) : k.putBits (b :: bs) = (k.putBit b).putBits bs := rfl

theorem BitSink.putBits_append (k : BitSink) (as bs : List Bool) : k.putBits (as ++ bs) = (k.putBits as).putBits bs := by
  simp [BitSink.putBits, List.foldl_append]

/-- R131: the pending bits after one more. -/
theorem bitsOf_shiftIn (n : Nat) (acc : BitVec 8) (b : Bool) (h : n < 8) :
    bitsOf (n + 1) (shiftIn acc b) = bitsOf n acc ++ [b] := by
  apply List.ext_getElem?
  intro j
  by_cases hj : j < n
  · rw [List.getElem?_append_left (by simpa using hj), getElem?_bitsOf hj, getElem?_bitsOf (by omega)]
    have e : n + 1 - 1 - j = (n - 1 - j) + 1 := by omega
    rw [e]
    have hb : (if b then (1#8) else 0#8).getLsbD (n - 1 - j + 1) = false := by
      cases b <;> simp
    unfold shiftIn
    rw [BitVec.getLsbD_or, hb, BitVec.getLsbD_shiftLeft]
    simp; omega
  · by_cases hj' : j = n
    · subst hj'
      rw [List.getElem?_append_right (by simp), getElem?_bitsOf (by omega)]
      unfold shiftIn
      rw [BitVec.getLsbD_or, BitVec.getLsbD_shiftLeft]
      cases b <;> simp
    · rw [List.getElem?_eq_none (by simp; omega), List.getElem?_eq_none (by simp; omega)]

/-- R130 for one bit: it is appended to the stream, at most one byte is pushed, the sink stays as open as it was. -/
theorem BitSink.appends_putBit (k : BitSink) (b : Bool) : k.Appends (k.putBit b) [b] := by
  by_cases h : k.nacc = 7#3
  · have e : k.putBit b = { k with acc := 0, nacc := 0, bytes := k.bytes ++ [.byte (shiftIn k.acc b)] } := by
      simp [BitSink.putBit, h]
    rw [e]
    refine ⟨⟨[shiftIn k.acc b], rfl⟩, ?_, rfl⟩
    have h7 : k.nacc.toNat = 7 := by rw [h]; rfl
    simp only [BitSink.stream, List.map_append, List.flatten_append, h7]
    have e8 : bitsOf 8 (shiftIn k.acc b) = bitsOf 7 k.acc ++ [b] := bitsOf_shiftIn 7 k.acc b (by omega)
    have e0 : bitsOf 0 (0#8) = [] := rfl
    simp [SinkMsg.bits, e8, e0]
  · have e : k.putBit b = { k with acc := shiftIn k.acc b, nacc := k.nacc + 1 } := by
      simp [BitSink.putBit, h]
    rw [e]
    refine ⟨⟨[], by simp⟩, ?_, rfl⟩
    have h7 : k.nacc.toNat < 7 := by
      have := k.nacc.isLt
      have : k.nacc.toNat ≠ 7 := fun h' => h (BitVec.eq_of_toNat_eq h')
      omega
    have hn : (k.nacc + 1#3).toNat = k.nacc.toNat + 1 := by
      rw [BitVec.toNat_add]; simp; omega
    change (k.bytes.map SinkMsg.bits).flatten ++ bitsOf (k.nacc + 1#3).toNat (shiftIn k.acc b) = _
    rw [hn, bitsOf_shiftIn _ _ _ (by omega), BitSink.stream, List.append_assoc]

theorem BitSink.Appends.refl (k : BitSink) : k.Appends k [] := ⟨⟨[], by simp⟩, by simp, rfl⟩

theorem BitSink.Appends.trans {k k' k'' : BitSink} {as bs : List Bool} (h : k.Appends k' as) (h' : k'.Appends k'' bs) :
    k.Appends k'' (as ++ bs) := by
  obtain ⟨⟨x, hx⟩, h2, h3⟩ := h
  obtain ⟨⟨y, hy⟩, h5, h6⟩ := h'
  exact ⟨⟨x ++ y, by simp [hy, hx]⟩, by rw [h5, h2, List.append_assoc], h6.trans h3⟩

/-- R130: written bits are appended. -/
theorem BitSink.appends_putBits (k : BitSink) (bs : List Bool) : k.Appends (k.putBits bs) bs := by
  induction bs generalizing k with
  | nil => exact .refl k
  | cons b bs ih => exact (k.appends_putBit b).trans (ih (k.putBit b))

@[simp] theorem BitSink.putBits_closed (k : BitSink) (bs : List Bool) : (k.putBits bs).closed = k.closed :=
  (k.appends_putBits bs).closed

/-- R130: the number of pending bits counts on modulo 8. -/
theorem BitSink.putBits_nacc (k : BitSink) (bs : List Bool) :
    (k.putBits bs).nacc.toNat = (k.nacc.toNat + bs.length) % 8 := by
  induction bs generalizing k with
  | nil => have := k.nacc.isLt; simp [BitSink.putBits_nil]; omega
  | cons b bs ih =>
    rw [BitSink.putBits_cons, ih]
    have : (k.putBit b).nacc.toNat = (k.nacc.toNat + 1) % 8 := by
      unfold BitSink.putBit
      split
      · rename_i h; rw [h]; rfl
      · rw [BitVec.toNat_add]; rfl
    rw [this]; simp; omega

/-- R20: the bits of `acc` above the pending ones stay zero. -/
theorem BitSink.putBit_acc {k : BitSink} (h : k.acc.toNat < 2 ^ k.nacc.toNat) (b : Bool) :
    (k.putBit b).acc.toNat < 2 ^ (k.putBit b).nacc.toNat := by
  unfold BitSink.putBit
  split
  · simp
  · rename_i h7
    have h7 : k.nacc.toNat < 7 := by
      have := k.nacc.isLt
      have : k.nacc.toNat ≠ 7 := fun h' => h7 (BitVec.eq_of_toNat_eq h')
      omega
    have hn : (k.nacc + 1#3).toNat = k.nacc.toNat + 1 := by
      rw [BitVec.toNat_add]; simp; omega
    change (shiftIn k.acc b).toNat < 2 ^ (k.nacc + 1#3).toNat
    rw [hn]
    have hp : 2 ^ k.nacc.toNat ≤ 2 ^ 6 := Nat.pow_le_pow_right (by omega) (by omega)
    unfold shiftIn
    rw [BitVec.toNat_or]
    apply Nat.or_lt_two_pow
    · rw [BitVec.toNat_shiftLeft, Nat.shiftLeft_eq, Nat.mod_eq_of_lt] <;> rw [Nat.pow_succ] <;> omega
    · cases b
      · simp
      · simp

theorem BitSink.putBits_acc {k : BitSink} (h : k.acc.toNat < 2 ^ k.nacc.toNat) (bs : List Bool) :
    (k.putBits bs).acc.toNat < 2 ^ (k.putBits bs).nacc.toNat := by
  induction bs generalizing k with
  | nil => exact h
  | cons b bs ih => exact ih (BitSink.putBit_acc h b)

/-- Everything `sinkWrite` does. -/
theorem sinkWrite_cases (legal : Bool) (bs : List Bool) (s : State) :
    (s.sink.closed = true ∧ sinkWrite legal bs s = raise .sinkClosed s) ∨
    (s.sink.closed = false ∧ legal = false ∧ sinkWrite legal bs s = raise .badBitop s) ∨
    (s.sink.closed = false ∧ legal = true ∧ sinkWrite legal bs s = .done { s with sink := s.sink.putBits bs }) := by
  unfold sinkWrite
  cases s.sink.closed <;> cases legal <;> simp

/-- Everything an application of a recorded operation does (R132 to R134). -/
theorem BitOp.apply_eq (op : BitOp) : op.apply = sinkWrite op.legal op.stream := by
  cases op with
  | bits c v => rfl
  | bool b => rfl
  | unary n => rfl

/-- R291, R138: legal recorded operations all reach an open sink. -/
theorem applyOps_eq_done {ops : List BitOp} {s : State} (hc : s.sink.closed = false) (hl : ∀ op ∈ ops, op.legal = true) :
    applyOps ops s = .done { s with sink := s.sink.putBits (streamOf ops) } := by
  induction ops generalizing s with
  | nil => rfl
  | cons op ops ih =>
    have h1 : op.apply s = .done { s with sink := s.sink.putBits op.stream } := by
      rw [BitOp.apply_eq]; simp [sinkWrite, hc, hl op (by simp)]
    have h2 := ih (s := { s with sink := s.sink.putBits op.stream }) (by simpa using hc) (fun o ho => hl o (by simp [ho]))
    simp only [applyOps, h1, Res.andThen_done, h2]
    simp [streamOf, BitSink.putBits_append]

/-- What applying recorded operations can do to a state. -/
theorem applyOps_post (ops : List BitOp) (s : State) (hf : s.fatal = false) :
    (applyOps ops s).Post (fun t => ∃ bs, t = { s with sink := s.sink.putBits bs })
      (fun t => ∃ bs c, (c = 0x40#8 ∨ c = 0x41#8) ∧ t = { s with sink := s.sink.putBits bs }.haltedWith c) := by
  induction ops generalizing s with
  | nil => exact ⟨[], rfl⟩
  | cons op ops ih =>
    rw [applyOps, BitOp.apply_eq]
    rcases sinkWrite_cases op.legal op.stream s with ⟨_, e⟩ | ⟨_, _, e⟩ | ⟨_, _, e⟩ <;> rw [e]
    · rw [raise_of_not_fatal hf]; exact ⟨[], _, .inl rfl, rfl⟩
    · rw [raise_of_not_fatal hf]; exact ⟨[], _, .inr rfl, rfl⟩
    · rw [Res.andThen_done]
      refine (ih { s with sink := s.sink.putBits op.stream } hf).mono ?_ ?_
      · rintro t ⟨bs, rfl⟩; exact ⟨op.stream ++ bs, by simp [BitSink.putBits_append]⟩
      · rintro t ⟨bs, c, hc, rfl⟩; exact ⟨op.stream ++ bs, c, hc, by simp [BitSink.putBits_append]⟩

end Sys2Proof.Machine
end

