-- ==== Sys2Proof/Laws/Store.lean ====
section
/-! SUPPORT. What the store operations do: reads after writes, and the canonical form. -/

namespace Sys2Proof

variable {w : Nat}

theorem Store.read_append (a b : Store w) (i : Nat) :
    Store.read (a ++ b) i = (Store.read a i).or (Store.read b i) := by
  induction a with
  | nil => simp [Store.read]
  | cons c a ih =>
    obtain ⟨k, v⟩ := c
    by_cases h : k = i <;> simp [Store.read, h, ih]

theorem Store.read_eq_none_of_notMem {m : Store w} {i : Nat} (h : i ∉ m.map Prod.fst) : Store.read m i = none := by
  induction m with
  | nil => rfl
  | cons c m ih =>
    obtain ⟨k, v⟩ := c
    simp only [List.map_cons, List.mem_cons, not_or] at h
    simp [Store.read, Ne.symm h.1, ih h.2]

theorem Store.read_filter_of_true {m : Store w} {p : Nat → Bool} {i : Nat} (h : p i = true) :
    Store.read (m.filter (fun c => p c.1)) i = Store.read m i := by
  induction m with
  | nil => rfl
  | cons c m ih =>
    obtain ⟨k, v⟩ := c
    by_cases hk : k = i
    · subst hk; simp [Store.read, h]
    · by_cases hp : p k = true <;> simp [Store.read, hk, hp, ih]

theorem Store.read_filter_of_false {m : Store w} {p : Nat → Bool} {i : Nat} (h : p i = false) :
    Store.read (m.filter (fun c => p c.1)) i = none := by
  apply Store.read_eq_none_of_notMem
  simp only [List.mem_map, List.mem_filter, not_exists, not_and]
  rintro ⟨k, v⟩ ⟨_, hk⟩ rfl
  simp_all

theorem Store.read_zip_range' (vs : List (BitVec w)) (i j : Nat) :
    Store.read ((List.range' i vs.length).zip vs) j = if i ≤ j then vs[j - i]? else none := by
  induction vs generalizing i with
  | nil => simp [Store.read]
  | cons v vs ih =>
    rw [List.length_cons, List.range'_succ, List.zip_cons_cons]
    by_cases hj : i = j
    · subst hj; simp [Store.read]
    · simp only [Store.read, hj, if_false, ih]
      by_cases hl : i ≤ j
      · rw [if_pos (by omega), if_pos hl, show j - i = j - (i + 1) + 1 by omega]; simp
      · rw [if_neg (by omega), if_neg hl]

theorem map_fst_zip_range' (vs : List (BitVec w)) (i : Nat) :
    ((List.range' i vs.length).zip vs).map Prod.fst = List.range' i vs.length := by
  rw [List.map_fst_zip]; simp

theorem map_snd_zip_range' (vs : List (BitVec w)) (i : Nat) :
    ((List.range' i vs.length).zip vs).map Prod.snd = vs := by
  rw [List.map_snd_zip]; simp

/-- Everything `writeRange` does to single reads. -/
theorem Store.read_writeRange (m : Store w) (i : Nat) (vs : List (BitVec w)) (j : Nat) :
    Store.read (m.writeRange i vs) j = if i ≤ j ∧ j < i + vs.length then vs[j - i]? else Store.read m j := by
  unfold Store.writeRange
  rw [Store.read_append, Store.read_append, Store.read_zip_range']
  by_cases h1 : j < i
  · rw [Store.read_filter_of_true (p := fun k => decide (k < i)) (by simpa using h1),
      Store.read_filter_of_false (p := fun k => decide (i + vs.length ≤ k)) (by simp; omega)]
    rw [if_neg (by omega), if_neg (by omega)]; simp
  · rw [Store.read_filter_of_false (p := fun k => decide (k < i)) (by simpa using h1)]
    by_cases h2 : j < i + vs.length
    · rw [Store.read_filter_of_false (p := fun k => decide (i + vs.length ≤ k)) (by simp; omega)]
      rw [if_pos (by omega), if_pos (by omega)]; simp
    · rw [Store.read_filter_of_true (p := fun k => decide (i + vs.length ≤ k)) (by simp; omega)]
      rw [if_pos (by omega), if_neg (by omega), List.getElem?_eq_none (by omega)]; simp

theorem Store.read_write (m : Store w) (i : Nat) (v : BitVec w) (j : Nat) :
    Store.read (m.write i v) j = if j = i then some v else Store.read m j := by
  unfold Store.write
  rw [Store.read_writeRange]
  by_cases h : j = i
  · subst h; simp
  · rw [if_neg (by simp; omega), if_neg h]

theorem pairwise_lt_range' (i n : Nat) : (List.range' i n).Pairwise (· < ·) := by
  simpa using List.pairwise_lt_range' (s := i) (n := n)

/-- A write keeps the canonical form. -/
theorem Store.wf_writeRange {m : Store w} (h : m.wf) (i : Nat) (vs : List (BitVec w)) : (m.writeRange i vs).wf := by
  have hf : ∀ p : Nat × BitVec w → Bool, ((m.filter p).map Prod.fst).Pairwise (· < ·) :=
    fun p => List.Pairwise.sublist (List.Sublist.map _ List.filter_sublist) h
  unfold Store.writeRange Store.wf
  rw [List.map_append, List.map_append, map_fst_zip_range', List.pairwise_append, List.pairwise_append]
  refine ⟨hf _, ⟨pairwise_lt_range' _ _, hf _, ?_⟩, ?_⟩
  · intro a ha b hb
    simp only [List.mem_range'_1, List.mem_map, List.mem_filter, decide_eq_true_eq] at ha hb
    obtain ⟨c, ⟨_, hc⟩, rfl⟩ := hb
    omega
  · intro a ha b hb
    simp only [List.mem_map, List.mem_filter, decide_eq_true_eq, List.mem_append, List.mem_range'_1] at ha hb
    obtain ⟨c, ⟨_, hc⟩, rfl⟩ := ha
    rcases hb with hb | ⟨d, ⟨_, hd⟩, rfl⟩ <;> omega

theorem Store.wf_write {m : Store w} (h : m.wf) (i : Nat) (v : BitVec w) : (m.write i v).wf := Store.wf_writeRange h i [v]

theorem Store.wf_writeRow {m : Store w} (h : m.wf) (t : Nat) (vs : List (BitVec w)) : (m.writeRow t vs).wf :=
  Store.wf_writeRange h _ vs

theorem Store.wf_ofList (vs : List (BitVec w)) : (Store.ofList vs).wf := by
  unfold Store.ofList Store.wf
  rw [map_fst_zip_range']
  exact pairwise_lt_range' _ _

theorem Store.wf_ofNats (w : Nat) (ns : List Nat) : (Store.ofNats w ns).wf := Store.wf_ofList _

theorem Store.wf_nil : Store.wf ([] : Store w) := List.Pairwise.nil

/-- The elements read as a range are those read one by one. -/
theorem Store.read_of_readRange {m : Store w} {i n : Nat} {xs : List (BitVec w)} (h : m.readRange i n = some xs)
    {j : Nat} (h1 : i ≤ j) (h2 : j < i + n) : Store.read m j = xs[j - i]? := by
  unfold Store.readRange at h
  split at h
  · rename_i hk
    cases h
    rw [← Store.read_filter_of_true (m := m) (p := fun k => decide (i ≤ k) && decide (k < i + n))
      (by simp [h1, h2])]
    change Store.read (m.between i n) j = _
    generalize m.between i n = cells at hk ⊢
    have hl : cells.length = n := by simpa using congrArg List.length hk
    have : cells = (List.range' i (cells.map Prod.snd).length).zip (cells.map Prod.snd) := by
      rw [List.length_map, hl, ← hk, List.zip_map']
      exact (List.map_id' cells).symm
    have e := Store.read_zip_range' (cells.map Prod.snd) i j
    rw [← this, if_pos h1] at e
    exact e
  · cases h

theorem Store.length_of_readRange {m : Store w} {i n : Nat} {xs : List (BitVec w)} (h : m.readRange i n = some xs) :
    xs.length = n := by
  unfold Store.readRange at h
  split at h
  · rename_i hk; cases h; simpa using congrArg List.length hk
  · cases h

theorem Store.readRange_zero (m : Store w) (i : Nat) : m.readRange i 0 = some [] := by
  unfold Store.readRange Store.between
  rw [List.filter_eq_nil_iff.2 (by intro a _; simp)]
  rfl

theorem filter_zip_range'_true (vs : List (BitVec w)) (i : Nat) (p : Nat → Bool)
    (h : ∀ k, i ≤ k → k < i + vs.length → p k = true) :
    ((List.range' i vs.length).zip vs).filter (fun c => p c.1) = (List.range' i vs.length).zip vs := by
  apply List.filter_eq_self.2
  intro c hc
  have := (List.of_mem_zip hc).1
  rw [List.mem_range'_1] at this
  exact h _ this.1 this.2

/-- What was written as a range reads back as a range. -/
theorem Store.readRange_writeRange_same (m : Store w) (i : Nat) (vs : List (BitVec w)) :
    (m.writeRange i vs).readRange i vs.length = some vs := by
  have : (m.writeRange i vs).between i vs.length = (List.range' i vs.length).zip vs := by
    unfold Store.writeRange Store.between
    rw [List.filter_append, List.filter_append,
      filter_zip_range'_true vs i (fun k => decide (i ≤ k) && decide (k < i + vs.length)) (by simp +contextual),
      List.filter_filter, List.filter_filter,
      List.filter_eq_nil_iff.2 (by intro c _; simp; omega), List.filter_eq_nil_iff.2 (by intro c _; simp)]
    simp
  unfold Store.readRange
  rw [this, map_fst_zip_range', map_snd_zip_range']
  simp

/-- Two ranges that meet are one range. -/
theorem Store.readRange_add {m : Store w} {i n k : Nat} (hm : m.wf) {xs ys : List (BitVec w)}
    (h1 : m.readRange i n = some xs) (h2 : m.readRange (i + n) k = some ys) :
    m.readRange i (n + k) = some (xs ++ ys) := by
  have key : m.between i (n + k) = m.between i n ++ m.between (i + n) k := by
    clear h1 h2
    unfold Store.between
    induction m with
    | nil => rfl
    | cons c m ih =>
      have hm' : Store.wf m := List.Pairwise.of_cons hm
      have hlt : ∀ d ∈ m, c.1 < d.1 := by
        intro d hd
        have := List.rel_of_pairwise_cons hm (List.mem_map_of_mem (f := Prod.fst) hd)
        exact this
      by_cases ha : i ≤ c.1 ∧ c.1 < i + n
      · rw [List.filter_cons_of_pos (by simp; omega), List.filter_cons_of_pos (by simp; omega), ih hm',
          List.filter_cons_of_neg (by simp; omega)]
        rfl
      · by_cases hb : i + n ≤ c.1 ∧ c.1 < i + n + k
        · rw [List.filter_cons_of_pos (by simp; omega), List.filter_cons_of_neg (by simp; omega), ih hm',
            List.filter_cons_of_pos (by simp; omega)]
          rw [List.filter_eq_nil_iff.2]
          · rfl
          · intro d hd; have := hlt d hd; simp; omega
        · rw [List.filter_cons_of_neg (by simp; omega), List.filter_cons_of_neg (by simp; omega), ih hm',
            List.filter_cons_of_neg (by simp; omega)]
  unfold Store.readRange at *
  split at h1 <;> [skip; cases h1]
  split at h2 <;> [skip; cases h2]
  rename_i e1 e2
  cases h1; cases h2
  rw [key, List.map_append, e1, e2, List.map_append, if_pos]
  rw [← List.range'_append_1]

/-- A write elsewhere leaves a range as it was. -/
theorem Store.readRange_writeRange_of_le {m : Store w} {i n j : Nat} {vs : List (BitVec w)} (h : i + n ≤ j) :
    (m.writeRange j vs).readRange i n = m.readRange i n := by
  have : (m.writeRange j vs).between i n = m.between i n := by
    unfold Store.writeRange Store.between
    rw [List.filter_append, List.filter_append, List.filter_filter, List.filter_filter]
    have e1 : ((List.range' j vs.length).zip vs).filter (fun c => decide (i ≤ c.1) && decide (c.1 < i + n)) = [] := by
      apply List.filter_eq_nil_iff.2
      intro c hc
      have := (List.of_mem_zip hc).1
      rw [List.mem_range'_1] at this
      simp; omega
    have e2 : m.filter (fun c => (decide (i ≤ c.1) && decide (c.1 < i + n)) && decide (j + vs.length ≤ c.1)) = [] := by
      apply List.filter_eq_nil_iff.2
      intro c _; simp; omega
    rw [e1, e2]
    simp only [List.append_nil]
    apply List.filter_congr
    intro c _
    by_cases hc : c.1 < i + n <;> simp [hc]; omega
  unfold Store.readRange
  rw [this]

theorem Store.readRange_ofList (vs : List (BitVec w)) : (Store.ofList vs).readRange 0 vs.length = some vs := by
  have := Store.readRange_writeRange_same ([] : Store w) 0 vs
  simpa [Store.writeRange, Store.ofList] using this

theorem Store.read_ofList (vs : List (BitVec w)) (i : Nat) : Store.read (Store.ofList vs) i = vs[i]? := by
  unfold Store.ofList
  rw [Store.read_zip_range']; simp

theorem Store.read_ofNats (w : Nat) (ns : List Nat) (i : Nat) :
    Store.read (Store.ofNats w ns) i = ns[i]?.map (BitVec.ofNat w) := by
  rw [Store.ofNats, Store.read_ofList, List.getElem?_map]

theorem natsOf_map_ofNat {w : Nat} (ns : List Nat) (h : ∀ n ∈ ns, n < 2 ^ w) : natsOf (ns.map (BitVec.ofNat w)) = ns := by
  unfold natsOf
  rw [List.map_map]
  conv_rhs => rw [← List.map_id ns]
  apply List.map_congr_left
  intro n hn
  simp [Nat.mod_eq_of_lt (h n hn)]

end Sys2Proof
end

