-- ==== Sys2Proof/Laws/Canonical.lean ====
section
/-! SUPPORT. The canonical form of the tables that an operation makes anew, and of the memories at reset (the writes in place
are in Laws/Store.lean). -/

namespace Sys2Proof

open Sys2Proof.Machine

theorem Store.wf_append {w : Nat} {a b : Store w} (ha : a.wf) (hb : b.wf)
    (h : ∀ c ∈ a, ∀ d ∈ b, c.1 < d.1) : Store.wf (a ++ b) := by
  unfold Store.wf at *
  rw [List.map_append, List.pairwise_append]
  refine ⟨ha, hb, ?_⟩
  intro x hx y hy
  obtain ⟨c, hc, rfl⟩ := List.mem_map.1 hx
  obtain ⟨d, hd, rfl⟩ := List.mem_map.1 hy
  exact h c hc d hd

/-- The rows of a two-dimensional table do not overlap (R37 to R39: 258 elements a row). -/
theorem Store.wf_ofRows (w : Nat) (rows : List (List Nat)) (h : ∀ r ∈ rows, r.length ≤ 258) : (Store.ofRows w rows).wf := by
  unfold Store.ofRows
  suffices ∀ n, Store.wf (w := w) ((rows.zipIdx n).map (fun r =>
      (List.range' (tableIndex r.2 0) r.1.length).zip (r.1.map (BitVec.ofNat w)))).flatten ∧
      ∀ c ∈ ((rows.zipIdx n).map (fun r =>
        (List.range' (tableIndex r.2 0) r.1.length).zip (r.1.map (BitVec.ofNat w)))).flatten, 258 * n ≤ c.1 from (this 0).1
  induction rows with
  | nil => exact fun n => ⟨List.Pairwise.nil, by simp⟩
  | cons r rs ih =>
    intro n
    obtain ⟨h1, h2⟩ := ih (fun r hr => h r (List.mem_cons_of_mem _ hr)) (n + 1)
    have hr := h r List.mem_cons_self
    have keys : ∀ c ∈ (List.range' (tableIndex n 0) r.length).zip (r.map (BitVec.ofNat w)), 258 * n ≤ c.1 ∧ c.1 < 258 * n + 258 := by
      intro c hc
      have := (List.mem_range'_1.1 (List.of_mem_zip hc).1)
      simp only [tableIndex, Config.alphaMax] at this
      omega
    simp only [List.zipIdx_cons, List.map_cons, List.flatten_cons]
    refine ⟨Store.wf_append ?_ h1 fun c hc d hd => ?_, fun c hc => ?_⟩
    · unfold Store.wf
      rw [List.map_fst_zip (by simp)]
      exact pairwise_lt_range' _ _
    · have := keys c hc; have := h2 d hd; omega
    · rcases List.mem_append.1 hc with hc | hc
      · exact (keys c hc).1
      · have := h2 c hc; omega

/-- R34: the dense numbering is ascending. -/
theorem sorted_usedBytes (bs : List Byte) : ((usedBytes bs).map BitVec.toNat).Pairwise (· < ·) := by
  rw [List.pairwise_map]
  unfold usedBytes
  refine List.Pairwise.filter _ ?_
  rw [List.pairwise_map]
  refine (List.pairwise_lt_range (n := 256)).imp_of_mem ?_
  intro a b ha hb hab
  have ha := List.mem_range.1 ha
  have hb := List.mem_range.1 hb
  simp only [BitVec.toNat_ofNat]
  omega

theorem wf_unseqToSeq (bs : List Byte) :
    Store.wf (w := 8) ((usedBytes bs).zipIdx.map fun v => (v.1.toNat, BitVec.ofNat 8 v.2)) := by
  unfold Store.wf
  have e : (((usedBytes bs).zipIdx.map fun v => (v.1.toNat, BitVec.ofNat 8 v.2)).map Prod.fst) =
      (usedBytes bs).map BitVec.toNat := by
    rw [List.map_map]
    rw [show (Prod.fst ∘ fun v : Byte × Nat => (v.1.toNat, BitVec.ofNat 8 v.2)) = BitVec.toNat ∘ Prod.fst from rfl,
      ← List.map_map, List.zipIdx_map_fst]
  rw [e]
  exact sorted_usedBytes bs

/-- Memory at reset is in canonical form. -/
theorem reset_storesWf : State.reset.StoresWf := by constructor <;> exact Store.wf_nil

end Sys2Proof
end

