-- ==== Sys2Proof/Laws/Lane.lean ====
section
/-! SUPPORT. What each operation can do to the state: one lemma per operation, cited instead of its definition. -/

namespace Sys2Proof.Machine

/-- R326, R24: the phase operations from `SORT1` to `EMIT` leave everything outside the lane as it was: the sink, the input
stage, the stream registers, the configuration, the channels. -/
structure SameOutsideLane (s t : State) : Prop where
  sink : t.sink = s.sink
  blkId : t.blkId = s.blkId
  cap : t.cap = s.cap
  len : t.len = s.len
  rawCount : t.rawCount = s.rawCount
  runByte : t.runByte = s.runByte
  runLen : t.runLen = s.runLen
  crc : t.crc = s.crc
  blockCrc : t.blockCrc = s.blockCrc
  full : t.full = s.full
  closed : t.closed = s.closed
  streamCrc : t.streamCrc = s.streamCrc
  nextId : t.nextId = s.nextId
  blocksEmitted : t.blocksEmitted = s.blocksEmitted
  streamOpen : t.streamOpen = s.streamOpen
  cfgLevel : t.cfgLevel = s.cfgLevel
  cfgOwnsSink : t.cfgOwnsSink = s.cfgOwnsSink
  cfgLanes : t.cfgLanes = s.cfgLanes
  quadrant : t.quadrant = s.quadrant
  ftab : t.ftab = s.ftab
  inbox : t.inbox = s.inbox
  rsp : t.rsp = s.rsp
  sinkWritable : t.sinkWritable = s.sinkWritable
  laneFails : t.laneFails = s.laneFails
  freeCtr : t.freeCtr = s.freeCtr

theorem SameOutsideLane.refl (s : State) : SameOutsideLane s s := ⟨rfl, rfl, rfl, rfl, rfl, rfl, rfl, rfl, rfl, rfl, rfl, rfl, rfl, rfl, rfl, rfl, rfl, rfl, rfl, rfl, rfl, rfl, rfl, rfl, rfl⟩

theorem SameOutsideLane.trans {s t u : State} (h : SameOutsideLane s t) (h' : SameOutsideLane t u) : SameOutsideLane s u :=
  ⟨h'.sink.trans h.sink,
   h'.blkId.trans h.blkId,
   h'.cap.trans h.cap,
   h'.len.trans h.len,
   h'.rawCount.trans h.rawCount,
   h'.runByte.trans h.runByte,
   h'.runLen.trans h.runLen,
   h'.crc.trans h.crc,
   h'.blockCrc.trans h.blockCrc,
   h'.full.trans h.full,
   h'.closed.trans h.closed,
   h'.streamCrc.trans h.streamCrc,
   h'.nextId.trans h.nextId,
   h'.blocksEmitted.trans h.blocksEmitted,
   h'.streamOpen.trans h.streamOpen,
   h'.cfgLevel.trans h.cfgLevel,
   h'.cfgOwnsSink.trans h.cfgOwnsSink,
   h'.cfgLanes.trans h.cfgLanes,
   h'.quadrant.trans h.quadrant,
   h'.ftab.trans h.ftab,
   h'.inbox.trans h.inbox,
   h'.rsp.trans h.rsp,
   h'.sinkWritable.trans h.sinkWritable,
   h'.laneFails.trans h.laneFails,
   h'.freeCtr.trans h.freeCtr⟩

/-- Outside the lane nothing changed, and no fatal fault was taken. -/
structure LaneDone (s t : State) : Prop where
  same : SameOutsideLane s t
  fatal : t.fatal = s.fatal
  faultCode : t.faultCode = s.faultCode
  faultBlk : t.faultBlk = s.faultBlk

theorem LaneDone.refl (s : State) : LaneDone s s := ⟨.refl s, rfl, rfl, rfl⟩

theorem LaneDone.trans {s t u : State} (h : LaneDone s t) (h' : LaneDone t u) : LaneDone s u :=
  ⟨h.same.trans h'.same, h'.fatal.trans h.fatal, h'.faultCode.trans h.faultCode, h'.faultBlk.trans h.faultBlk⟩

/-- Outside the lane nothing changed, and a fatal fault with a code of `cs` was taken. -/
structure LaneRaised (cs : List (BitVec 8)) (s t : State) : Prop where
  same : SameOutsideLane s t
  fatal : t.fatal = true
  phase : t.phase = .fatal
  faultCode : t.faultCode ∈ cs
  faultBlk : t.faultBlk = s.blkId

theorem LaneRaised.of_done {cs : List (BitVec 8)} {s t u : State} (h : LaneDone s t) (h' : LaneRaised cs t u) :
    LaneRaised cs s u :=
  ⟨h.same.trans h'.same, h'.fatal, h'.phase, h'.faultCode, h'.faultBlk.trans h.same.blkId⟩

theorem LaneRaised.mono {cs ds : List (BitVec 8)} {s t : State} (h : LaneRaised cs s t) (hs : ∀ c ∈ cs, c ∈ ds) :
    LaneRaised ds s t :=
  ⟨h.same, h.fatal, h.phase, hs _ h.faultCode, h.faultBlk⟩

/-- What a lane operation leaves: `LaneDone`, or `LaneRaised` with one of the codes `cs`. -/
abbrev Lane (cs : List (BitVec 8)) (s : State) (r : Res) : Prop := r.Post (LaneDone s) (LaneRaised cs s)

theorem Lane.andThen {cs : List (BitVec 8)} {s : State} {r : Res} {k : State → Res} (h : Lane cs s r)
    (hk : ∀ t, LaneDone s t → Lane cs t (k t)) : Lane cs s (r.andThen k) :=
  Res.Post.andThen h fun t ht => (hk t ht).mono (fun _ h' => ht.trans h') (fun _ h' => .of_done ht h')

theorem Lane.mono {cs ds : List (BitVec 8)} {s : State} {r : Res} (h : Lane cs s r) (hs : ∀ c ∈ cs, c ∈ ds) :
    Lane ds s r :=
  Res.Post.mono h (fun _ h' => h') (fun _ h' => h'.mono hs)

theorem withBuffer_post {s : State} {k : List Byte → Res} {P Q : State → Prop}
    (h : ∀ bs, s.len.toNat ≤ s.cap.toNat → s.b.readRange 0 s.len.toNat = some bs → (k bs).Post P Q) :
    (withBuffer s k).Post P Q :=
  inRange_post fun h1 => readOr_post fun _ h2 => h _ (of_decide_eq_true h1) h2

theorem withBuffer_of {s : State} {k : List Byte → Res} {bs : List Byte} (h1 : s.len.toNat ≤ s.cap.toNat)
    (h2 : s.b.readRange 0 s.len.toNat = some bs) : withBuffer s k = k bs := by
  simp [withBuffer, inRange, h1, h2, readOr]

theorem withZptr_post {s : State} {k : List Nat → Res} {P Q : State → Prop}
    (h : ∀ zs, s.zptr.readRange 0 s.len.toNat = some zs → (k (natsOf zs)).Post P Q) : (withZptr s k).Post P Q :=
  inRange_post fun _ => readOr_post fun _ h2 => h _ h2

theorem withZptr_of {s : State} {k : List Nat → Res} {zs : List (BitVec 20)} (h1 : s.len.toNat ≤ s.cap.toNat)
    (h2 : s.zptr.readRange 0 s.len.toNat = some zs) : withZptr s k = k (natsOf zs) := by
  simp [withZptr, inRange, h1, h2, readOr]

theorem withSymbols_post {s : State} {k : List Nat → Res} {P Q : State → Prop}
    (h : ∀ vs, s.nMTF.toNat ≤ s.cap.toNat + 1 → s.szptr.readRange 0 s.nMTF.toNat = some vs →
      (k (natsOf vs)).Post P Q) : (withSymbols s k).Post P Q :=
  inRange_post fun h1 => readOr_post fun _ h2 => h _ (of_decide_eq_true h1) h2

theorem withSymbols_of {s : State} {k : List Nat → Res} {vs : List (BitVec 9)} (h1 : s.nMTF.toNat ≤ s.cap.toNat + 1)
    (h2 : s.szptr.readRange 0 s.nMTF.toNat = some vs) : withSymbols s k = k (natsOf vs) := by
  simp [withSymbols, inRange, h1, h2, readOr]

theorem withRows_post {w : Nat} {sp : Space} {tbl : Store w} {s : State} {k : List (List Nat) → Res}
    {P Q : State → Prop}
    (h : ∀ rows, s.nGroups.toNat ≤ 6 → s.alphaSize.toNat ≤ 258 →
      readRows tbl s.nGroups.toNat s.alphaSize.toNat = some rows → (k (rows.map natsOf)).Post P Q) :
    (withRows sp tbl s k).Post P Q :=
  inRange_post fun h1 => readOr_post fun _ h2 => by
    simp only [Bool.and_eq_true, decide_eq_true_eq] at h1
    exact h _ h1.1 h1.2 h2

theorem withRows_of {w : Nat} {sp : Space} {tbl : Store w} {s : State} {k : List (List Nat) → Res}
    {rows : List (List (BitVec w))} (h1 : s.nGroups.toNat ≤ 6) (h2 : s.alphaSize.toNat ≤ 258)
    (h3 : readRows tbl s.nGroups.toNat s.alphaSize.toNat = some rows) :
    withRows sp tbl s k = k (rows.map natsOf) := by
  simp [withRows, inRange, Config.nGroupsMax, Config.alphaMax, h1, h2, h3, readOr]

theorem withSelectors_post {s : State} {k : List Nat → Res} {P Q : State → Prop}
    (h : ∀ vs, s.nSelectors.toNat ≤ 18002 → s.selector.readRange 0 s.nSelectors.toNat = some vs →
      (k (natsOf vs)).Post P Q) : (withSelectors s k).Post P Q :=
  inRange_post fun h1 => readOr_post fun _ h2 => h _ (of_decide_eq_true h1) h2

theorem withSelectors_of {s : State} {k : List Nat → Res} {vs : List (BitVec 3)} (h1 : s.nSelectors.toNat ≤ 18002)
    (h2 : s.selector.readRange 0 s.nSelectors.toNat = some vs) : withSelectors s k = k (natsOf vs) := by
  simp [withSelectors, inRange, Config.selectorMax, h1, h2, readOr]

/-- Reading a list of operands succeeds exactly when every one of them has a value. -/
theorem readAll_eq_some {α β : Type} {f : α → Option β} {as : List α} {bs : List β} :
    readAll f as = some bs ↔ as.map f = bs.map some := by
  induction as generalizing bs with
  | nil => cases bs <;> simp [readAll]
  | cons a as ih =>
    cases bs with
    | nil =>
      simp only [readAll, List.map_cons, List.map_nil, reduceCtorEq, iff_false]
      split <;> simp
    | cons b bs =>
      simp only [readAll, List.map_cons, List.cons.injEq]
      have := @ih bs
      cases h1 : f a <;> cases h2 : readAll f as <;> rw [h2] at this <;> simp [← this]

/-- The rows of a table, one by one. -/
theorem readRows_eq_some {w : Nat} {tbl : Store w} {n m : Nat} {rows : List (List (BitVec w))} :
    readRows tbl n m = some rows ↔
      rows.length = n ∧ ∀ r, r < n → tbl.readRange (258 * r) m = some (rows.getD r []) := by
  unfold readRows
  rw [readAll_eq_some]
  constructor
  · intro h
    have hl : rows.length = n := by simpa using (congrArg List.length h).symm
    refine ⟨hl, fun r hr => ?_⟩
    have := congrArg (fun l => l[r]?) h
    simp only [List.getElem?_map] at this
    rw [List.getElem?_range hr, List.getElem?_eq_getElem (by omega)] at this
    simp only [Option.map_some, Option.some.injEq] at this
    rw [List.getD_eq_getElem?_getD, List.getElem?_eq_getElem (by omega)]
    simpa [Store.readRow, tableIndex, Config.alphaMax] using this
  · rintro ⟨hl, h⟩
    apply List.ext_getElem?
    intro r
    simp only [List.getElem?_map]
    by_cases hr : r < n
    · rw [List.getElem?_range hr, List.getElem?_eq_getElem (by omega)]
      have := h r hr
      rw [List.getD_eq_getElem?_getD, List.getElem?_eq_getElem (by omega)] at this
      simpa [Store.readRow, tableIndex, Config.alphaMax] using this
    · rw [List.getElem?_eq_none (by simp; omega), List.getElem?_eq_none (by omega)]
      rfl

/-! ## The input stage -/

/-- Everything `RLE1.FLUSHRUN` does. -/
theorem flushRun_post (s : State) :
    (flushRun s).Post
      (fun t => (s.runLen = 0 ∧ t = s) ∨
        (s.runLen ≠ 0 ∧ s.len.toNat + runCost s.runLen.toNat ≤ s.cap.toNat ∧
          t = { s with
                b := s.b.writeRange s.len.toNat (runBytes s.runByte s.runLen.toNat)
                len := s.len + BitVec.ofNat 20 (runCost s.runLen.toNat)
                runLen := 0 }))
      (fun _ => False) := by
  unfold flushRun
  split
  · exact .inl ⟨‹_›, rfl⟩
  · exact inRange_post fun h => .inr ⟨‹_›, of_decide_eq_true h, rfl⟩

/-- `RLE1.FLUSHRUN` completes when the pending run fits. -/
theorem flushRun_of {s : State} (h : s.len.toNat + runCost s.runLen.toNat ≤ s.cap.toNat) :
    flushRun s = .done (if s.runLen = 0 then s else
      { s with
        b := s.b.writeRange s.len.toNat (runBytes s.runByte s.runLen.toNat)
        len := s.len + BitVec.ofNat 20 (runCost s.runLen.toNat)
        runLen := 0 }) := by
  unfold flushRun
  split
  · rfl
  · simp [inRange, h]

/-! ## The lane -/

theorem bwtSort_lane (p : Params) (s : State) (h : s.fatal = false) : Lane [0x02#8] s (bwtSort p s) := by
  refine withBuffer_post fun bs _ _ => ?_
  dsimp only
  split
  · rw [raise_of_not_fatal (by exact h)]
    exact ⟨by constructor <;> rfl, rfl, rfl, by simp [HwFault.code, State.haltedWith], rfl⟩
  · split <;> exact ⟨by constructor <;> rfl, rfl, rfl, rfl⟩

theorem bwtSortRetry_lane (p : Params) (s : State) (h : s.fatal = false) : Lane [0x02#8] s (bwtSortRetry p s) := by
  refine withBuffer_post fun bs _ _ => ?_
  dsimp only
  split
  · rw [raise_of_not_fatal (by exact h)]
    exact ⟨by constructor <;> rfl, rfl, rfl, by simp [HwFault.code, State.haltedWith], rfl⟩
  · exact ⟨by constructor <;> rfl, rfl, rfl, rfl⟩

theorem bwtRandomise_lane (s : State) : Lane [] s (bwtRandomise s) :=
  withBuffer_post fun _ _ _ => ⟨by constructor <;> rfl, rfl, rfl, rfl⟩

theorem bwtOrigin_lane (s : State) (h : s.fatal = false) : Lane [0x01#8] s (bwtOrigin s) := by
  refine withZptr_post fun zs _ => ?_
  split
  · exact ⟨by constructor <;> rfl, rfl, rfl, rfl⟩
  · rw [raise_of_not_fatal h]
    exact ⟨by constructor <;> rfl, rfl, rfl, by simp [HwFault.code, State.haltedWith], rfl⟩

theorem mtfGen_lane (s : State) : Lane [] s (mtfGen s) :=
  withBuffer_post fun _ _ _ => withZptr_post fun _ _ => ⟨by constructor <;> rfl, rfl, rfl, rfl⟩

theorem putSymbol_lane (v : Nat) (s : State) : Lane [] s (putSymbol v s) :=
  inRange_post fun _ => readOr_post fun _ _ => ⟨by constructor <;> rfl, rfl, rfl, rfl⟩

theorem putSymbols_lane (vs : List Nat) (s : State) : Lane [] s (putSymbols vs s) := by
  induction vs generalizing s with
  | nil => exact .refl s
  | cons v vs ih => exact Lane.andThen (putSymbol_lane v s) fun t _ => ih t

theorem rle2Flush_lane (s : State) : Lane [] s (rle2Flush s) :=
  Lane.andThen (putSymbols_lane _ s) fun _ _ => ⟨by constructor <;> rfl, rfl, rfl, rfl⟩

theorem hufNgroups_lane (p : Params) (s : State) : Lane [] s (hufNgroups p s) := ⟨by constructor <;> rfl, rfl, rfl, rfl⟩

theorem hufInit_lane (s : State) : Lane [] s (hufInit s) :=
  inRange_post fun _ => inRange_post fun _ => readOr_post fun _ _ => ⟨by constructor <;> rfl, rfl, rfl, rfl⟩

/-- R221, R23: two to six tables, whatever the thresholds. -/
theorem groupsFor_range (thresholds : Vector Nat 4) (n : Nat) :
    2 ≤ groupsFor thresholds n ∧ groupsFor thresholds n ≤ 6 := by
  unfold groupsFor
  repeat' split
  all_goals decide

/-- R221: the register holds the number chosen. -/
theorem toNat_ofNat_groupsFor (thresholds : Vector Nat 4) (n : Nat) :
    (BitVec.ofNat 3 (groupsFor thresholds n)).toNat = groupsFor thresholds n := by
  have := groupsFor_range thresholds n
  rw [BitVec.toNat_ofNat, Nat.mod_eq_of_lt (by omega)]

/-- `HUF.INIT` completes on counted symbols, for up to six tables. -/
theorem hufInit_of {s : State} {fs : List (BitVec 20)} (h1 : s.nGroups.toNat ≤ 6) (h2 : s.alphaSize.toNat ≤ 258)
    (h3 : s.mtfFreq.readRange 0 s.alphaSize.toNat = some fs) :
    hufInit s = .done { s with lens := Store.ofRows 5 (initLens (natsOf fs) s.nGroups.toNat s.nMTF.toNat) } := by
  simp [hufInit, inRange, Config.nGroupsMax, Config.alphaMax, h1, h2, h3, readOr]

/-- Phase `HUF_INIT` completes on counted symbols, whatever the thresholds, and ends in `HUF_ITER`. -/
theorem phaseHufInit_of (p : Params) {s : State} {fs : List (BitVec 20)} (h2 : s.alphaSize.toNat ≤ 258)
    (h3 : s.mtfFreq.readRange 0 s.alphaSize.toNat = some fs) :
    phaseHufInit p s = .done { s with
      nGroups := BitVec.ofNat 3 (groupsFor p.ngroupThresh s.nMTF.toNat)
      lens := Store.ofRows 5 (initLens (natsOf fs) (groupsFor p.ngroupThresh s.nMTF.toNat) s.nMTF.toNat)
      phase := .hufIter, iter := 0 } := by
  have h1 := groupsFor_range p.ngroupThresh s.nMTF.toNat
  have h := hufInit_of (s := { s with nGroups := BitVec.ofNat 3 (groupsFor p.ngroupThresh s.nMTF.toNat) })
    (by rw [toNat_ofNat_groupsFor]; omega) h2 h3
  simp only [toNat_ofNat_groupsFor] at h
  simp only [phaseHufInit, hufNgroups, Res.andThen_done, h]

theorem hufIter_lane (s : State) : Lane [] s (hufIter s) := by
  refine withSymbols_post fun vs _ _ => withRows_post fun rows _ _ _ => ?_
  dsimp only
  split
  · trivial
  · split
    · trivial
    · exact inRange_post fun _ => ⟨by constructor <;> rfl, rfl, rfl, rfl⟩

theorem hufMklen_lane (n : Nat) (s : State) : Lane [] s (hufMklen n s) :=
  inRange_post fun _ => inRange_post fun _ => readOr_post fun _ _ => ⟨by constructor <;> rfl, rfl, rfl, rfl⟩

theorem hufRangechk_lane (s : State) (h : s.fatal = false) : Lane [0x03#8] s (hufRangechk s) := by
  refine withRows_post fun rows _ _ _ => ?_
  split
  · exact .refl s
  · rw [raise_of_not_fatal h]
    exact ⟨by constructor <;> rfl, rfl, rfl, by simp [HwFault.code, State.haltedWith], rfl⟩

theorem hufAssign_lane (n : Nat) (s : State) : Lane [] s (hufAssign n s) :=
  inRange_post fun _ => readOr_post fun _ _ => ⟨by constructor <;> rfl, rfl, rfl, rfl⟩

theorem hufSelmtf_lane (s : State) : Lane [] s (hufSelmtf s) :=
  inRange_post fun _ => withSelectors_post fun _ _ _ => inRange_post fun _ => ⟨by constructor <;> rfl, rfl, rfl, rfl⟩

theorem frmBlockhdr_lane (s : State) : Lane [] s (frmBlockhdr s) := ⟨by constructor <;> rfl, rfl, rfl, rfl⟩

theorem emitInuse_lane (s : State) : Lane [] s (emitInuse s) :=
  readOr_post fun _ _ => ⟨by constructor <;> rfl, rfl, rfl, rfl⟩

theorem emitCounts_lane (s : State) : Lane [] s (emitCounts s) := ⟨by constructor <;> rfl, rfl, rfl, rfl⟩

theorem emitSelectors_lane (s : State) : Lane [] s (emitSelectors s) :=
  inRange_post fun _ => readOr_post fun _ _ => ⟨by constructor <;> rfl, rfl, rfl, rfl⟩

theorem emitLengths_lane (s : State) : Lane [] s (emitLengths s) := by
  refine withRows_post fun rows _ _ _ => ?_
  split
  · trivial
  · exact ⟨by constructor <;> rfl, rfl, rfl, rfl⟩

theorem emitSymbols_lane (s : State) : Lane [] s (emitSymbols s) :=
  withSymbols_post fun _ _ _ => inRange_post fun _ => readOr_post fun _ _ => readOr_post fun _ _ =>
    ⟨by constructor <;> rfl, rfl, rfl, rfl⟩

theorem makeTables_lane (n t : Nat) (s : State) : Lane [] s (makeTables n t s) := by
  induction n generalizing t s with
  | zero => exact .refl s
  | succ n ih => exact Lane.andThen (hufMklen_lane t s) fun u _ => ih (t + 1) u

theorem assignTables_lane (n t : Nat) (s : State) : Lane [] s (assignTables n t s) := by
  induction n generalizing t s with
  | zero => exact .refl s
  | succ n ih => exact Lane.andThen (hufAssign_lane t s) fun u _ => ih (t + 1) u

theorem phaseHufInit_lane (p : Params) (s : State) : Lane [] s (phaseHufInit p s) :=
  Lane.andThen (hufNgroups_lane p s) fun t _ => Lane.andThen (hufInit_lane t) fun _ _ =>
    ⟨by constructor <;> rfl, rfl, rfl, rfl⟩

theorem nextPass_lane (s : State) : LaneDone s s.nextPass := by
  rw [State.nextPass_eq]
  split <;> exact ⟨by constructor <;> rfl, rfl, rfl, rfl⟩

theorem phaseHufIter_lane (s : State) : Lane [] s (phaseHufIter s) :=
  Lane.andThen (hufIter_lane s) fun t _ => Lane.andThen (makeTables_lane _ 0 t) fun u _ => nextPass_lane u

theorem phaseHufAssign_lane (s : State) (h : s.fatal = false) : Lane [0x03#8] s (phaseHufAssign s) :=
  Lane.andThen (hufRangechk_lane s h) fun t _ => Lane.andThen ((assignTables_lane _ 0 t).mono (by simp)) fun u _ =>
    (hufSelmtf_lane u).mono (by simp)

theorem phaseEmit_lane (s : State) : Lane [] s (phaseEmit s) :=
  Lane.andThen (frmBlockhdr_lane s) fun t _ => Lane.andThen (emitInuse_lane t) fun u _ =>
    Lane.andThen (emitCounts_lane u) fun v _ => Lane.andThen (emitSelectors_lane v) fun w _ =>
      Lane.andThen (emitLengths_lane w) fun x _ => emitSymbols_lane x

theorem phaseQueued_lane (s : State) (h : s.fatal = false) : Lane [0x20#8] s (phaseQueued s) := by
  unfold phaseQueued
  split
  · rw [raise_of_not_fatal h]
    exact ⟨by constructor <;> rfl, rfl, rfl, by simp [HwFault.code, State.haltedWith], rfl⟩
  · exact ⟨by constructor <;> rfl, rfl, rfl, rfl⟩

theorem sortBlock_lane (p : Params) (s : State) (h : s.fatal = false) : Lane [0x02#8] s (sortBlock p s) := by
  refine Lane.andThen (bwtSort_lane p s h) fun t ht => ?_
  split
  · exact Lane.andThen ((bwtRandomise_lane t).mono (by simp)) fun u hu =>
      bwtSortRetry_lane p u (by rw [hu.fatal, ht.fatal, h])
  · exact .refl t

/-- R294: what `COMPRESS` can do outside the lane, and the faults it can take. -/
theorem compress_lane (p : Params) (s : State) (h : s.fatal = false) :
    Lane [0x01#8, 0x02#8, 0x03#8, 0x20#8] s (compress p s) := by
  unfold compress
  refine Lane.andThen ((phaseQueued_lane s h).mono (by simp)) fun a ha => ?_
  have ha := ha.fatal.trans h
  refine Lane.andThen ((sortBlock_lane p a ha).mono (by simp)) fun b hb => ?_
  have hb := hb.fatal.trans ha
  refine Lane.andThen ((bwtOrigin_lane b hb).mono (by simp)) fun c hc => ?_
  have hc := hc.fatal.trans hb
  refine Lane.andThen ((mtfGen_lane c).mono (by simp)) fun d hd => ?_
  have hd := hd.fatal.trans hc
  refine Lane.andThen ((phaseHufInit_lane p d).mono (by simp)) fun e he => ?_
  have he := he.fatal.trans hd
  refine Lane.andThen ((phaseHufIter_lane e).mono (by simp)) fun f hf => ?_
  have hf := hf.fatal.trans he
  refine Lane.andThen ((phaseHufIter_lane f).mono (by simp)) fun g hg => ?_
  have hg := hg.fatal.trans hf
  refine Lane.andThen ((phaseHufIter_lane g).mono (by simp)) fun i hi => ?_
  have hi := hi.fatal.trans hg
  refine Lane.andThen ((phaseHufIter_lane i).mono (by simp)) fun j hj => ?_
  have hj := hj.fatal.trans hi
  exact Lane.andThen ((phaseHufAssign_lane j hj).mono (by simp)) fun k _ => (phaseEmit_lane k).mono (by simp)

/-- R291: what `REPLAY` can do. -/
theorem replay_post (s : State) (h : s.fatal = false) :
    (replay s).Post (fun t => ∃ bs, t = { s with sink := s.sink.putBits bs }.foldBlock)
      (fun t => ∃ bs c, (c = 0x40#8 ∨ c = 0x41#8) ∧ t = { s with sink := s.sink.putBits bs }.haltedWith c) := by
  unfold replay
  split
  · trivial
  · refine Res.Post.andThen (applyOps_post s.bopq s h) ?_
    rintro t ⟨bs, rfl⟩
    exact ⟨bs, rfl⟩

end Sys2Proof.Machine
end

