-- ==== Sys2Proof/Laws/PerInstr.lean ====
section
/-! SUPPORT. For every instruction: its word carries the bits that fix its row of the opcode table (R106, R107, R24). -/

namespace Sys2Proof

/-- A concatenation as a number. -/
theorem toNat_append_add {m n : Nat} (a : BitVec m) (b : BitVec n) : (a ++ b).toNat = a.toNat * 2 ^ n + b.toNat := by
  rw [BitVec.toNat_append, ← Nat.shiftLeft_add_eq_or_of_lt b.isLt, Nat.shiftLeft_eq]

namespace Laws.TableRow

/-- A host command word whose bits from `lo` up are `value`. -/
def HcFixed (w : CmdWord) (lo value : Nat) : Prop := ∃ x, w = .hc x ∧ x.toNat / 2 ^ lo = value

/-- A BitOperation word whose bits from `lo` up are `value`. -/
def BoFixed (w : CmdWord) (lo value : Nat) : Prop := ∃ x, w = .bo x ∧ x.toNat / 2 ^ lo = value

/-- A harness word whose `phase` bits are `value`. -/
def PoFixed (w : CmdWord) (value : Nat) : Prop := ∃ x, w = .po x ∧ x.toNat % 16 = value

/-- The word of a well-formed instruction matches its row. -/
def Statement (i : Instr) : Prop :=
  i.wf = true →
    match i with
    | .openStream _ _ => HcFixed (encode i) 9 0x8
    | .wrb _ => HcFixed (encode i) 8 0x20
    | .closeblk => HcFixed (encode i) 0 0x3000
    | .finish => HcFixed (encode i) 0 0x4000
    | .seek _ => HcFixed (encode i) 12 0x5
    | .read _ => HcFixed (encode i) 12 0x6
    | .setlen _ => HcFixed (encode i) 12 0x7
    | .hcReserved0 _ => HcFixed (encode i) 12 0x0
    | .hcReserved8F w => encode i = .hc w ∧ decodeHc w = i
    | .bits _ _ => BoFixed (encode i) 40 0x1
    | .boolean _ _ => BoFixed (encode i) 40 0x2
    | .unary _ _ => BoFixed (encode i) 40 0x3
    | .int32 _ _ => BoFixed (encode i) 40 0x4
    | .flush _ _ => BoFixed (encode i) 40 0x5
    | .boReserved00 _ => BoFixed (encode i) 40 0x0
    | .boReserved0607 _ => BoFixed (encode i) 41 0x3
    | .boReserved080F _ => BoFixed (encode i) 43 0x1
    | .boReserved101F _ => BoFixed (encode i) 44 0x1
    | .boReserved203F _ => BoFixed (encode i) 45 0x1
    | .boReserved407F _ => BoFixed (encode i) 46 0x1
    | .boReserved80FF _ => BoFixed (encode i) 47 0x1
    | .blkInit => PoFixed (encode i) 1
    | .blkWrite _ => PoFixed (encode i) 1
    | .rle1Flushrun => PoFixed (encode i) 1
    | .blkClose => PoFixed (encode i) 2
    | .compress => PoFixed (encode i) 2
    | .bwtSort => PoFixed (encode i) 3
    | .bwtRandomise => PoFixed (encode i) 4
    | .bwtSortRetry => PoFixed (encode i) 5
    | .bwtOrigin => PoFixed (encode i) 6
    | .mtfGen => PoFixed (encode i) 7
    | .rle2Flush => PoFixed (encode i) 7
    | .hufNgroups => PoFixed (encode i) 8
    | .hufInit => PoFixed (encode i) 8
    | .hufIter => PoFixed (encode i) 9
    | .hufMklen _ => PoFixed (encode i) 9
    | .hufRangechk => PoFixed (encode i) 10
    | .hufAssign _ => PoFixed (encode i) 10
    | .hufSelmtf => PoFixed (encode i) 10
    | .frmBlockhdr => PoFixed (encode i) 11
    | .emitInuse => PoFixed (encode i) 11
    | .emitCounts => PoFixed (encode i) 11
    | .emitSelectors => PoFixed (encode i) 11
    | .emitLengths => PoFixed (encode i) 11
    | .emitSymbols => PoFixed (encode i) 11
    | .replay => PoFixed (encode i) 12

theorem openStream (o : Bool) (l : BitVec 8) : Statement (.openStream o l) := fun _ => ⟨_, rfl, by
  rw [toNat_append_add, toNat_append_add, toNat_append_add]
  have := l.isLt
  cases o <;> simp <;> omega⟩
theorem wrb (v : BitVec 8) : Statement (.wrb v) := fun _ => ⟨_, rfl, by
  rw [toNat_append_add]
  have := v.isLt
  simp; omega⟩
theorem closeblk : Statement .closeblk := fun _ => ⟨_, rfl, rfl⟩
theorem finish : Statement .finish := fun _ => ⟨_, rfl, rfl⟩
theorem seek (a : BitVec 12) : Statement (.seek a) := fun _ => ⟨_, rfl, by
  rw [toNat_append_add]
  have := a.isLt
  simp; omega⟩
theorem read (a : BitVec 12) : Statement (.read a) := fun _ => ⟨_, rfl, by
  rw [toNat_append_add]
  have := a.isLt
  simp; omega⟩
theorem setlen (a : BitVec 12) : Statement (.setlen a) := fun _ => ⟨_, rfl, by
  rw [toNat_append_add]
  have := a.isLt
  simp; omega⟩
theorem hcReserved0 (a : BitVec 12) : Statement (.hcReserved0 a) := fun _ => ⟨_, rfl, by
  rw [toNat_append_add]
  have := a.isLt
  simp; omega⟩
theorem hcReserved8F (w : BitVec 16) : Statement (.hcReserved8F w) := by
  intro h
  refine ⟨rfl, ?_⟩
  have h : hcSpellingReserved w = true := h
  have e1 : (w.extractLsb' 12 4).toNat = w.toNat / 4096 := by
    simp [BitVec.extractLsb'_toNat, Nat.shiftRight_eq_div_pow]; omega
  have e2 : (w.extractLsb' 8 4).toNat = w.toNat / 256 % 16 := by
    simp [BitVec.extractLsb'_toNat, Nat.shiftRight_eq_div_pow]
  have e3 : (w.extractLsb' 0 8).toNat = w.toNat % 256 := by
    simp [BitVec.extractLsb'_toNat]
  have hz : w.extractLsb' 0 8 = 0#8 → w.toNat % 256 = 0 := fun e => by rw [← e3, e]; rfl
  simp only [hcSpellingReserved, Bool.or_eq_true, Bool.and_eq_true, decide_eq_true_eq, beq_iff_eq, bne_iff_ne] at h
  unfold decodeHc
  simp only [e1, e2]
  repeat rw [if_neg (by first | omega | (rintro ⟨h1, h2, h3⟩; have := hz h3; omega))]
theorem bits (c : BitVec 8) (v : BitVec 32) : Statement (.bits c v) := fun _ => ⟨_, rfl, by
  rw [toNat_append_add, toNat_append_add]
  have := c.isLt
  have := v.isLt
  simp; omega⟩
theorem boolean (c : BitVec 8) (v : BitVec 32) : Statement (.boolean c v) := fun _ => ⟨_, rfl, by
  rw [toNat_append_add, toNat_append_add]
  have := c.isLt
  have := v.isLt
  simp; omega⟩
theorem unary (c : BitVec 8) (v : BitVec 32) : Statement (.unary c v) := fun _ => ⟨_, rfl, by
  rw [toNat_append_add, toNat_append_add]
  have := c.isLt
  have := v.isLt
  simp; omega⟩
theorem int32 (c : BitVec 8) (v : BitVec 32) : Statement (.int32 c v) := fun _ => ⟨_, rfl, by
  rw [toNat_append_add, toNat_append_add]
  have := c.isLt
  have := v.isLt
  simp; omega⟩
theorem flush (c : BitVec 8) (v : BitVec 32) : Statement (.flush c v) := fun _ => ⟨_, rfl, by
  rw [toNat_append_add, toNat_append_add]
  have := c.isLt
  have := v.isLt
  simp; omega⟩
theorem boReserved00 (a : BitVec 40) : Statement (.boReserved00 a) := fun _ => ⟨_, rfl, by
  rw [toNat_append_add]
  have := a.isLt
  simp; omega⟩
theorem boReserved0607 (a : BitVec 41) : Statement (.boReserved0607 a) := fun _ => ⟨_, rfl, by
  rw [toNat_append_add]
  have := a.isLt
  simp; omega⟩
theorem boReserved080F (a : BitVec 43) : Statement (.boReserved080F a) := fun _ => ⟨_, rfl, by
  rw [toNat_append_add]
  have := a.isLt
  simp; omega⟩
theorem boReserved101F (a : BitVec 44) : Statement (.boReserved101F a) := fun _ => ⟨_, rfl, by
  rw [toNat_append_add]
  have := a.isLt
  simp; omega⟩
theorem boReserved203F (a : BitVec 45) : Statement (.boReserved203F a) := fun _ => ⟨_, rfl, by
  rw [toNat_append_add]
  have := a.isLt
  simp; omega⟩
theorem boReserved407F (a : BitVec 46) : Statement (.boReserved407F a) := fun _ => ⟨_, rfl, by
  rw [toNat_append_add]
  have := a.isLt
  simp; omega⟩
theorem boReserved80FF (a : BitVec 47) : Statement (.boReserved80FF a) := fun _ => ⟨_, rfl, by
  rw [toNat_append_add]
  have := a.isLt
  simp; omega⟩
theorem blkInit : Statement .blkInit := fun _ => ⟨_, rfl, rfl⟩
theorem blkWrite (v : BitVec 8) : Statement (.blkWrite v) := fun _ => ⟨_, rfl, by
  rw [toNat_append_add, toNat_append_add]
  simp⟩
theorem rle1Flushrun : Statement .rle1Flushrun := fun _ => ⟨_, rfl, rfl⟩
theorem blkClose : Statement .blkClose := fun _ => ⟨_, rfl, rfl⟩
theorem compress : Statement .compress := fun _ => ⟨_, rfl, rfl⟩
theorem bwtSort : Statement .bwtSort := fun _ => ⟨_, rfl, rfl⟩
theorem bwtRandomise : Statement .bwtRandomise := fun _ => ⟨_, rfl, rfl⟩
theorem bwtSortRetry : Statement .bwtSortRetry := fun _ => ⟨_, rfl, rfl⟩
theorem bwtOrigin : Statement .bwtOrigin := fun _ => ⟨_, rfl, rfl⟩
theorem mtfGen : Statement .mtfGen := fun _ => ⟨_, rfl, rfl⟩
theorem rle2Flush : Statement .rle2Flush := fun _ => ⟨_, rfl, rfl⟩
theorem hufNgroups : Statement .hufNgroups := fun _ => ⟨_, rfl, rfl⟩
theorem hufInit : Statement .hufInit := fun _ => ⟨_, rfl, rfl⟩
theorem hufIter : Statement .hufIter := fun _ => ⟨_, rfl, rfl⟩
theorem hufMklen (t : BitVec 3) : Statement (.hufMklen t) := fun _ => ⟨_, rfl, by
  rw [toNat_append_add, toNat_append_add]
  simp⟩
theorem hufRangechk : Statement .hufRangechk := fun _ => ⟨_, rfl, rfl⟩
theorem hufAssign (t : BitVec 3) : Statement (.hufAssign t) := fun _ => ⟨_, rfl, by
  rw [toNat_append_add, toNat_append_add]
  simp⟩
theorem hufSelmtf : Statement .hufSelmtf := fun _ => ⟨_, rfl, rfl⟩
theorem frmBlockhdr : Statement .frmBlockhdr := fun _ => ⟨_, rfl, rfl⟩
theorem emitInuse : Statement .emitInuse := fun _ => ⟨_, rfl, rfl⟩
theorem emitCounts : Statement .emitCounts := fun _ => ⟨_, rfl, rfl⟩
theorem emitSelectors : Statement .emitSelectors := fun _ => ⟨_, rfl, rfl⟩
theorem emitLengths : Statement .emitLengths := fun _ => ⟨_, rfl, rfl⟩
theorem emitSymbols : Statement .emitSymbols := fun _ => ⟨_, rfl, rfl⟩
theorem replay : Statement .replay := fun _ => ⟨_, rfl, rfl⟩

end Laws.TableRow

end Sys2Proof
end

