-- ==== Sys2Proof/Tests/Slice0.lean ====
section
/-! SUPPORT. The model's own tests: ill-formed terms, a word for every constructor, single steps against the vectors of
95_test_vectors.md and the examples of the rules, and a witness for the hypotheses of every obligation. -/

namespace Sys2Proof.Tests

open Sys2Proof Sys2Proof.Machine

set_option Elab.async false

/-! ## Helpers -/

/-- One field of the state an outcome leaves. -/
def field {α : Type} (o : Host.Outcome State Fault Refusal) (f : State → α) : Option α :=
  match o with
  | .next s => some (f s)
  | .fault _ => none
  | .refused _ => none

/-- One field of the state an operation leaves. -/
def resField {α : Type} (r : Res) (f : State → α) : Option α :=
  match r with
  | .done s => some (f s)
  | .raised s => some (f s)
  | .stop _ => none
  | .refuse _ => none

/-- An open stream at level 1 with an empty Block 0. -/
def opened : State :=
  { State.reset with
    phase := .filling, streamOpen := true, cfgLevel := 1, cap := 100000, nextId := 1, crc := 0xFFFFFFFF#32 }

/-- The Block `banana` (95 section 3) with the values its vectors give for every stage. -/
def banana : State :=
  { opened with
    b := Store.ofNats 8 [0x62, 0x61, 0x6E, 0x61, 0x6E, 0x61]
    len := 6, rawCount := 6, blockCrc := 0xEFB6EC01#32, origPtr := 3, closed := true
    zptr := Store.ofNats 20 [5, 3, 1, 0, 4, 2]
    inUse := Store.ofNats 1 ((List.range 256).map fun v => if v = 0x61 ∨ v = 0x62 ∨ v = 0x6E then 1 else 0)
    nInUse := 3, alphaSize := 5
    szptr := Store.ofNats 9 [3, 0, 3, 3, 1, 4]
    nMTF := 6
    mtfFreq := Store.ofNats 20 [1, 1, 0, 3, 1]
    nGroups := 2, nSelectors := 1
    lens := Store.ofRows 5 [[3, 3, 2, 2, 2], [3, 3, 3, 1, 3]]
    code := Store.ofRows 20 [[6, 7, 0, 1, 2], [4, 5, 6, 0, 7]]
    rfreq := Store.ofRows 20 [[0, 0, 0, 0, 0], [1, 1, 0, 3, 1]]
    selector := Store.ofNats 3 [1]
    selectorMtf := Store.ofNats 3 [1] }

/-- The pseudo-lengths of `banana` before the first pass (V6.2). -/
def bananaInitial : State := { banana with lens := Store.ofRows 5 [[15, 15, 15, 15, 0], [0, 0, 0, 0, 15]] }

/-! ## Well-formedness -/

theorem test_wf_reserved_host_word : (Instr.hcReserved8F 0x3000#16).wf = false := by decide
theorem test_wf_reserved_host_word_wrb : (Instr.hcReserved8F 0x2061#16).wf = false := by decide
theorem test_wf_reserved_host_word_ok : (Instr.hcReserved8F 0x3001#16).wf = true := by decide
theorem test_wf_mklen : (Instr.hufMklen 6#3).wf = false ∧ (Instr.hufMklen 7#3).wf = false := by decide
theorem test_wf_assign : (Instr.hufAssign 6#3).wf = false ∧ (Instr.hufAssign 7#3).wf = false := by decide

/-! ## Decoding: a word for every constructor, written out from R106, R107, R116 and (harness words) log entry 5 -/

theorem test_decode_commands :
    decode (.hc 0x1001#16) = .ok (.openStream false 1#8) ∧ decode (.hc 0x1109#16) = .ok (.openStream true 9#8) ∧
    decode (.hc 0x2061#16) = .ok (.wrb 0x61#8) ∧ decode (.hc 0x3000#16) = .ok .closeblk ∧
    decode (.hc 0x4000#16) = .ok .finish ∧ decode (.hc 0x5ABC#16) = .ok (.seek 0xABC#12) ∧
    decode (.hc 0x6000#16) = .ok (.read 0#12) ∧ decode (.hc 0x7FFF#16) = .ok (.setlen 0xFFF#12) := by decide

theorem test_decode_reserved_commands :
    decode (.hc 0x0000#16) = .ok (.hcReserved0 0#12) ∧ decode (.hc 0x8000#16) = .ok (.hcReserved8F 0x8000#16) ∧
    decode (.hc 0xF123#16) = .ok (.hcReserved8F 0xF123#16) ∧ decode (.hc 0x1201#16) = .ok (.hcReserved8F 0x1201#16) ∧
    decode (.hc 0x2161#16) = .ok (.hcReserved8F 0x2161#16) ∧ decode (.hc 0x3001#16) = .ok (.hcReserved8F 0x3001#16) ∧
    decode (.hc 0x4100#16) = .ok (.hcReserved8F 0x4100#16) := by decide

theorem test_decode_bitops :
    decode (.bo 0x010500000006#48) = .ok (.bits 5#8 6#32) ∧ decode (.bo 0x020100000001#48) = .ok (.boolean 1#8 1#32) ∧
    decode (.bo 0x0300FFFFFFFF#48) = .ok (.unary 0#8 0xFFFFFFFF#32) ∧
    decode (.bo 0x042019939B6B#48) = .ok (.int32 32#8 0x19939B6B#32) ∧
    decode (.bo 0x050000000000#48) = .ok (.flush 0#8 0#32) := by decide

theorem test_decode_reserved_kinds :
    decode (.bo 0x000000000001#48) = .ok (.boReserved00 1#40) ∧
    decode (.bo 0x060000000000#48) = .ok (.boReserved0607 0#41) ∧
    decode (.bo 0x0F0000000000#48) = .ok (.boReserved080F 0x70000000000#43) ∧
    decode (.bo 0x100000000000#48) = .ok (.boReserved101F 0#44) ∧
    decode (.bo 0x3F0000000000#48) = .ok (.boReserved203F 0x1F0000000000#45) ∧
    decode (.bo 0x400000000000#48) = .ok (.boReserved407F 0#46) ∧
    decode (.bo 0xFF0000000000#48) = .ok (.boReserved80FF 0x7F0000000000#47) := by decide

theorem test_decode_phases :
    decode (.po 0x0001#16) = .ok .blkInit ∧ decode (.po 0x4111#16) = .ok (.blkWrite 0x41#8) ∧
    decode (.po 0x0021#16) = .ok .rle1Flushrun ∧ decode (.po 0x0012#16) = .ok .blkClose ∧
    decode (.po 0x0022#16) = .ok .compress ∧ decode (.po 0x0013#16) = .ok .bwtSort ∧
    decode (.po 0x0014#16) = .ok .bwtRandomise ∧ decode (.po 0x0015#16) = .ok .bwtSortRetry ∧
    decode (.po 0x0016#16) = .ok .bwtOrigin ∧ decode (.po 0x0017#16) = .ok .mtfGen ∧
    decode (.po 0x0027#16) = .ok .rle2Flush ∧ decode (.po 0x0018#16) = .ok .hufNgroups ∧
    decode (.po 0x0028#16) = .ok .hufInit := by decide

theorem test_decode_phases_coding :
    decode (.po 0x0019#16) = .ok .hufIter ∧ decode (.po 0x0529#16) = .ok (.hufMklen 5#3) ∧
    decode (.po 0x001A#16) = .ok .hufRangechk ∧ decode (.po 0x032A#16) = .ok (.hufAssign 3#3) ∧
    decode (.po 0x003A#16) = .ok .hufSelmtf ∧ decode (.po 0x001B#16) = .ok .frmBlockhdr ∧
    decode (.po 0x002B#16) = .ok .emitInuse ∧ decode (.po 0x003B#16) = .ok .emitCounts ∧
    decode (.po 0x004B#16) = .ok .emitSelectors ∧ decode (.po 0x005B#16) = .ok .emitLengths ∧
    decode (.po 0x006B#16) = .ok .emitSymbols ∧ decode (.po 0x001C#16) = .ok .replay := by decide

theorem test_decode_rejects :
    decode (.po 0x0000#16) = .error .phaseWithoutOperation ∧ decode (.po 0x000E#16) = .error .phaseWithoutOperation ∧
    decode (.po 0x0023#16) = .error .noSuchStep ∧ decode (.po 0x0629#16) = .error .operandOutOfRange := by decide

theorem test_table_words :
    decodeTableWord 16 0x2000 = some (.wrb 0#8) ∧ decodeTableWord 48 0x042000000000 = some (.int32 32#8 0#32) ∧
    decodeTableWord 8 0x7 = some .mtfGen ∧ decodeTableWord 8 0xC = some .replay := by decide

/-- After reset, with one table word placed, step runs it (a phase's word names its first operation). -/
theorem test_step_runs_table_words :
    ([0x1000, 0x2000, 0x3000, 0x4000, 0x5000, 0x6000, 0x7000, 0x0000, 0x8000].all fun w =>
      (field (step (State.reset.withFetchWord 16 w)) State.rsp).isSome) = true ∧
    ([1, 2, 3, 4, 5, 6, 7, 8, 9, 10, 11, 12].all fun w =>
      (field (step (State.reset.withFetchWord 8 w)) State.phase).isSome) = true := by decide +kernel

/-! ## Commands (programs P1 to P6, R286, R290) -/

theorem test_open_header : field (exec (.openStream true 9#8) State.reset) (·.sink.bytes) =
    some [.byte 0x42#8, .byte 0x5A#8, .byte 0x68#8, .byte 0x39#8] := by decide +kernel
theorem test_open_unwritable : field (exec (.openStream false 5#8) { State.reset with sinkWritable := false })
    (fun s => (s.faultCode, s.phase, s.rsp, s.cfgLevel, s.sink.bytes)) =
    some (0x10#8, .fatal, [0x0310#16], 0#4, []) := by decide
theorem test_wrb_accept : field (exec (.wrb 0x61#8) opened) (fun s => (s.crc, s.rawCount, s.rsp)) =
    some (0xE66C6494#32, 1#32, [0x0000#16]) := by decide +kernel
theorem test_wrb_reject : field (exec (.wrb 0x43#8) { opened with len := 99999, runByte := 0x42, runLen := 1, rawCount := 5 })
    (fun s => (s.len, s.runLen, s.full, s.rawCount, s.rsp)) =
    some (100000#20, 0#8, true, 5#32, [0x0100#16]) := by decide +kernel
theorem test_closeblk_empty : field (exec .closeblk opened) (fun s => (s.blkId, s.nextId, s.rsp)) =
    some (0#32, 1#32, [0x0000#16]) := by decide
/-- The stream CRC of program P1, with the simulator's open parameters. -/
theorem test_closeblk_one_byte :
    resField (closeblkOp Params.simulator
      { opened with rawCount := 1, runByte := 0x61, runLen := 1, crc := 0xE66C6494#32 })
      (fun s => (s.streamCrc, s.blkId, s.phase, s.rsp)) =
    some (0x19939B6B#32, 1#32, .filling, [0x0000#16]) := by decide +kernel
theorem test_finish_empty : field (exec .finish opened) (fun s => (s.sink.bytes, s.streamOpen, s.phase)) =
    some ([.byte 0x17#8, .byte 0x72#8, .byte 0x45#8, .byte 0x38#8, .byte 0x50#8, .byte 0x90#8, .byte 0#8, .byte 0#8,
      .byte 0#8, .byte 0#8], false, .idle) := by decide +kernel
theorem test_finish_owns : field (exec .finish { opened with cfgOwnsSink := true }) (·.sink.bytes.getLast?) =
    some (some .close) := by decide +kernel
theorem test_seek : field (exec (.seek 0#12) { opened with fatal := true, faultCode := 1 }) State.rsp =
    some [0x0230#16] := by decide
theorem test_read : field (exec (.read 7#12) State.reset) State.rsp = some [0x0230#16] := by decide
theorem test_setlen : field (exec (.setlen 0#12) opened) State.rsp = some [0x0230#16] := by decide
theorem test_reserved_0 : field (exec (.hcReserved0 0#12) opened) State.rsp = some [0x0243#16] := by decide
theorem test_reserved_8F : field (exec (.hcReserved8F 0x8000#16) opened) State.rsp = some [0x0243#16] := by decide

/-! ## BitOperations (V1.1 to V1.22) -/

theorem test_bits_V1_1 : field (exec (.bits 5#8 6#32) { opened with sink := { BitSink.reset with acc := 5, nacc := 3 } })
    (·.sink) = some { BitSink.reset with bytes := [.byte 0xA6#8] } := by decide +kernel
theorem test_bits_V1_16 : field (exec (.bits 33#8 0#32) opened) (fun s => (s.faultCode, s.sink.bytes)) =
    some (0x41#8, []) := by decide
theorem test_bool_V1_2 : field (exec (.boolean 1#8 0#32) { opened with sink := { BitSink.reset with acc := 0x7F, nacc := 7 } })
    (·.sink.bytes) = some [.byte 0xFE#8] := by decide +kernel
theorem test_bool_V1_17 : field (exec (.boolean 1#8 2#32) opened) State.faultCode = some 0x41#8 := by decide
theorem test_unary_V1_5 : field (exec (.unary 0#8 9#32) opened) (·.sink) =
    some { BitSink.reset with acc := 2, nacc := 2, bytes := [.byte 0xFF#8] } := by decide +kernel
theorem test_unary_V1_18 : field (exec (.unary 0#8 0xFFFFFFFF#32) opened) State.faultCode = some 0x41#8 := by decide
theorem test_int32_V1_7 : field (exec (.int32 32#8 0x19939B6B#32) { opened with sink := { BitSink.reset with acc := 1, nacc := 1 } })
    (·.sink) = some { BitSink.reset with acc := 1, nacc := 1, bytes := [.byte 0x8C#8, .byte 0xC9#8, .byte 0xCD#8, .byte 0xB5#8] } := by
  decide +kernel
theorem test_flush_V1_11 : field (exec (.flush 0#8 0#32) { opened with sink := { BitSink.reset with acc := 5, nacc := 3 } })
    (·.sink) = some { BitSink.reset with closed := true, bytes := [.byte 0xA0#8] } := by decide +kernel
theorem test_flush_V1_22 : field (exec (.flush 0#8 0#32) { opened with sink := { BitSink.reset with closed := true } })
    (fun s => (s.faultCode, s.fatal)) = some (0x40#8, true) := by decide
theorem test_reserved_kinds_V1_20 :
    field (exec (.boReserved00 0#40) opened) State.faultCode = some 0x41#8 ∧
    field (exec (.boReserved0607 0#41) opened) State.faultCode = some 0x41#8 ∧
    field (exec (.boReserved080F 0#43) opened) State.faultCode = some 0x41#8 ∧
    field (exec (.boReserved101F 0#44) opened) State.faultCode = some 0x41#8 ∧
    field (exec (.boReserved203F 0#45) opened) State.faultCode = some 0x41#8 ∧
    field (exec (.boReserved407F 0#46) opened) State.faultCode = some 0x41#8 ∧
    field (exec (.boReserved80FF 0#47) opened) State.faultCode = some 0x41#8 := by decide
theorem test_reserved_kind_V1_21 :
    field (exec (.boReserved0607 0#41) { opened with sink := { BitSink.reset with closed := true } }) State.faultCode =
      some 0x40#8 := by decide

/-! ## Input stage (V2, V3) -/

theorem test_crc_V2_5 : ~~~ ([0x31#8, 0x32#8, 0x33#8, 0x34#8, 0x35#8, 0x36#8, 0x37#8, 0x38#8, 0x39#8].foldl crcStep
    0xFFFFFFFF#32) = 0xFC891918#32 := by decide +kernel
theorem test_crc_table : crcTab 128#8 = 0x690CE0EE#32 ∧ crcTab 255#8 = 0xB1F740B4#32 := by decide +kernel
theorem test_blkInit : field (exec .blkInit { opened with cfgLevel := 9, nextId := 7, full := true })
    (fun s => (s.cap, s.blkId, s.nextId, s.full, s.phase)) = some (900000#20, 7#32, 8#32, false, .filling) := by decide
theorem test_blkInit_refused : field (exec .blkInit { opened with nextId := 0xFFFFFFFF#32 }) State.phase = none := by decide
theorem test_blkWrite_V3_6 : field (exec (.blkWrite 0x61#8) { opened with runByte := 0x61, runLen := 254, rawCount := 254 })
    (fun s => (s.b, s.len, s.runLen)) = some (Store.ofNats 8 [0x61, 0x61, 0x61, 0x61, 0xFB], 5#20, 0#8) := by decide +kernel
theorem test_blkWrite_V3_12 : field (exec (.blkWrite 0x62#8) { opened with runByte := 0x61, runLen := 4, rawCount := 4 })
    (fun s => (s.b, s.runByte, s.runLen)) = some (Store.ofNats 8 [0x61, 0x61, 0x61, 0x61, 0], 0x62#8, 1#8) := by
  decide +kernel
theorem test_flushrun_V3_3 : field (exec .rle1Flushrun { opened with runByte := 0x61, runLen := 3 })
    (fun s => (s.b, s.len)) = some (Store.ofNats 8 [0x61, 0x61, 0x61], 3#20) := by decide +kernel
theorem test_flushrun_R152 : field (exec .rle1Flushrun { opened with runByte := 0x61, runLen := 7 })
    (fun s => s.b) = some (Store.ofNats 8 [0x61, 0x61, 0x61, 0x61, 3]) := by decide +kernel
theorem test_blkClose_R156 : field (exec .blkClose { opened with runByte := 0x61, runLen := 1, crc := 0xE66C6494#32 })
    (fun s => (s.b, s.blockCrc, s.closed, s.phase)) =
    some (Store.ofNats 8 [0x61], 0x19939B6B#32, true, .queued) := by decide +kernel
theorem test_blkClose_twice : field (exec .blkClose { opened with closed := true }) State.faultCode = some 0x04#8 := by decide

/-! ## Sort (V4) -/

theorem test_sort_V4_2 : sortOffsets Params.simulator (natsOf (w := 8) [0x62, 0x61, 0x6E, 0x61, 0x6E, 0x61] |>.map (BitVec.ofNat 8)) =
    [5, 3, 1, 0, 4, 2] := by decide +kernel
theorem test_sort_V4_5_other_tie : sortOffsets { Params.simulator with tieOrder := fun _ i => 10 - i } [0x61, 0x62, 0x61, 0x62] =
    [2, 0, 3, 1] := by decide +kernel
theorem test_bwtSort : resField (bwtSort Params.simulator { banana with zptr := [] }) (fun s => (s.zptr, s.phase, s.workLimit)) =
    some (banana.zptr, .origin, some 300#32) := by decide +kernel
theorem test_bwtSort_exceeded : resField (bwtSort { Params.simulator with sortWork := fun _ _ => 301 } banana)
    (fun s => (s.zptr, s.phase)) = some ([], .randomise) := by decide +kernel
theorem test_bwtSortRetry : resField (bwtSortRetry { Params.simulator with sortWork := fun _ _ => 301 } { banana with zptr := [] })
    (fun s => (s.zptr, s.phase)) = some (banana.zptr, .origin) := by decide +kernel
theorem test_bwtSortRetry_stack : resField (bwtSortRetry { Params.simulator with sortStackExceeded := fun _ => true } banana)
    (fun s => (s.faultCode, s.phase)) = some (0x02#8, .fatal) := by decide +kernel
theorem test_bwtRandomise_V4_10 : field (exec .bwtRandomise banana) (fun s => (s.b, s.randomised, s.phase)) =
    some (banana.b, true, .sort2) := by decide +kernel
theorem test_bwtRandomise_V4_12 : (randomiseBytes 0 0 (List.replicate 618 0x61#8)).drop 615 = [0x61#8, 0x61#8, 0x60#8] := by
  decide +kernel
theorem test_bwtOrigin : field (exec .bwtOrigin { banana with origPtr := 0 }) (fun s => (s.origPtr, s.phase)) =
    some (3#24, .mtf) := by decide +kernel
theorem test_bwtOrigin_absent : field (exec .bwtOrigin { banana with zptr := Store.ofNats 20 [5, 3, 1, 1, 4, 2] })
    (fun s => (s.faultCode, s.phase, s.origPtr)) = some (0x01#8, .fatal, 3#24) := by decide +kernel
theorem test_rnums_V4_8 : Config.rnums.length = 512 ∧ Config.rnums.sum = 278212 ∧ Config.rnums.getLast? = some 638 := by
  decide +kernel

/-! ## Symbol stream (V5) -/

theorem test_mtfGen_V5_2 : field (exec .mtfGen { banana with szptr := [], mtfFreq := [], inUse := [] })
    (fun s => (s.szptr, s.seqToUnseq)) = some (banana.szptr, Store.ofNats 8 [0x61, 0x62, 0x6E]) := by decide +kernel
theorem test_mtfGen_V5_3 : field (exec .mtfGen { opened with
      b := Store.ofNats 8 [0x61, 0x61, 0x61, 0x61, 0], len := 5, zptr := Store.ofNats 20 [4, 3, 2, 1, 0] })
    (fun s => (s.szptr, s.mtfFreq)) = some (Store.ofNats 9 [2, 0, 0, 2, 3], Store.ofNats 20 [2, 0, 2, 1]) := by
  decide +kernel
theorem test_rle2Flush_R204 : field (exec .rle2Flush { banana with zpend := 5 }) (fun s => (s.szptr, s.nMTF, s.mtfFreq, s.zpend)) =
    some (Store.ofNats 9 [3, 0, 3, 3, 1, 4, 0, 1], 8#20, Store.ofNats 20 [2, 2, 0, 3, 1], 0#20) := by decide +kernel
theorem test_zeroRun_R103 : zeroRun 8 = [1, 0, 0] ∧ zeroRun 4 = [1, 0] ∧ zeroRun 7 = [0, 0, 0] := by decide

/-! ## Coding tables (V6) -/

theorem test_hufNgroups : resField (hufNgroups Params.simulator { banana with nMTF := 200 }) State.nGroups = some 3#3 ∧
    resField (hufNgroups Params.simulator { banana with nMTF := 2400 }) State.nGroups = some 6#3 := by decide
/-- With other thresholds than the default (93 U3). -/
theorem test_hufNgroups_parameter : let p : Params := { Params.simulator with ngroupThresh := #v[1, 2, 3, 7] }
    resField (hufNgroups p { banana with nMTF := 6 }) State.nGroups = some 5#3 := by decide
theorem test_hufInit_V6_2 : field (exec .hufInit banana) State.lens = some bananaInitial.lens := by decide +kernel
theorem test_hufInit_V6_5 : field (exec .hufInit { banana with
      mtfFreq := Store.ofNats 20 [39, 3, 59, 44, 43, 49, 49, 9, 1], nMTF := 296, nGroups := 3, alphaSize := 9 }) State.lens =
    some (Store.ofRows 5 [[15, 15, 15, 15, 15, 0, 0, 0, 0], [15, 15, 15, 0, 0, 15, 15, 15, 15],
      [0, 0, 0, 15, 15, 15, 15, 15, 15]]) := by decide +kernel
theorem test_hufIter : field (exec .hufIter { bananaInitial with selector := [], rfreq := [] })
    (fun s => (s.selector, s.cost)) = some (Store.ofNats 3 [1], Store.ofNats 11 [75, 15]) := by decide +kernel
theorem test_hufIter_frequencies : field (exec .hufIter { bananaInitial with rfreq := [] }) (fun s => (s.rfreq, s.fave)) =
    some (banana.rfreq, Store.ofNats 15 [0, 1]) := by decide +kernel
theorem test_hufMklen_V6_17 : field (exec (.hufMklen 1#3) bananaInitial) (fun s => s.lens.readRow 1 5) =
    some (some [3#5, 3#5, 3#5, 1#5, 3#5]) := by decide +kernel
theorem test_hufMklen_V6_18 : field (exec (.hufMklen 0#3) bananaInitial) (fun s => s.lens.readRow 0 5) =
    some (some [3#5, 3#5, 2#5, 2#5, 2#5]) := by decide +kernel
theorem test_makeLengths_V6_16 : (makeLengths 3 [1, 1, 2, 3, 5]).1 = [3, 3, 2, 2, 2] ∧
    (makeLengths 20 [1, 1, 2, 3, 5]).1 = [4, 4, 3, 2, 1] := by decide +kernel
theorem test_hufRangechk : field (exec .hufRangechk banana) State.fatal = some false := by decide +kernel
theorem test_hufRangechk_fault : field (exec .hufRangechk bananaInitial) (fun s => (s.faultCode, s.bopq)) =
    some (0x03#8, []) := by decide +kernel
theorem test_hufAssign_V6_31 : field (exec (.hufAssign 1#3) { banana with code := [] }) (fun s => s.code.readRow 1 5) =
    some (some [4#20, 5#20, 6#20, 0#20, 7#20]) := by decide +kernel
theorem test_canonical_V6_35 : canonicalCodes [1, 2, 4, 4, 4, 4] = [0, 2, 12, 13, 14, 15] := by decide
theorem test_hufSelmtf_R231 : field (exec .hufSelmtf { banana with
      nGroups := 3, nSelectors := 4, selector := Store.ofNats 3 [1, 1, 0, 2] }) (fun s => (s.selectorMtf, s.pos, s.phase)) =
    some (Store.ofNats 3 [1, 0, 1, 2], Store.ofNats 3 [2, 0, 1], .emit) := by decide +kernel

/-! ## Emission (examples of R270, R250 to R254) and replay -/

theorem test_blockhdr : field (exec .frmBlockhdr banana) State.bopq =
    some [.bits 24#8 0x314159#32, .bits 24#8 0x265359#32, .bits 16#8 0xEFB6#32, .bits 16#8 0xEC01#32, .bool false,
      .bits 24#8 3#32] := by decide +kernel
theorem test_emitInuse : field (exec .emitInuse banana) State.bopq =
    some [.bits 16#8 0x0200#32, .bits 16#8 0x6002#32] := by decide +kernel
theorem test_emitCounts : field (exec .emitCounts banana) State.bopq = some [.bits 3#8 2#32, .bits 15#8 1#32] := by decide
theorem test_emitSelectors : field (exec .emitSelectors banana) State.bopq = some [.unary 1#32] := by decide +kernel
theorem test_emitLengths : (field (exec .emitLengths { banana with nGroups := 1 }) (fun s => streamOf s.bopq)) =
    some [false, false, false, true, true, false, false, true, true, false, false, false] := by decide +kernel
theorem test_emitSymbols : field (exec .emitSymbols banana) (fun s => (s.bopq, s.phase)) =
    some ([.bits 1#8 0#32, .bits 3#8 4#32, .bits 1#8 0#32, .bits 1#8 0#32, .bits 3#8 5#32, .bits 3#8 7#32], .compressed) := by
  decide +kernel
/-- The 199 bits of the `banana` Block (R256). -/
theorem test_compress_banana : resField (compress Params.simulator { banana with phase := .queued, bopq := [] })
    (fun s => ((streamOf s.bopq).length, s.phase)) = some (199, .compressed) := by decide +kernel
theorem test_compress_lane_failure : field (exec .compress { banana with laneFails := [0] })
    (fun s => (s.faultCode, s.bopq)) = some (0x20#8, []) := by decide +kernel
theorem test_replay_V9_2 : field (exec .replay { banana with
      streamCrc := 0x19939B6B#32, bopq := [.bits 8#8 0x42#32, .bool true] }) (fun s => (s.streamCrc, s.sink, s.bopq, s.phase)) =
    some (0xDC91DAD7#32, { BitSink.reset with acc := 1, nacc := 1, bytes := [.byte 0x42#8] }, [], .flushed) := by decide +kernel

/-! ## The step -/

theorem test_step_reset : field (step { banana with fatal := true, phase := .fatal, inbox := [.reset] })
    (fun s => (s.fatal, s.phase, s.streamOpen)) = some (false, .idle, false) := by decide
theorem test_step_reset_during : field (step { opened with inbox := [.resetDuring (.hc 0x3000#16)] })
    (fun s => (s.phase, s.rsp, s.streamOpen)) = some (.idle, [], false) := by decide +kernel
theorem test_step_idle : step State.reset = .next State.reset := rfl
/-- R31 and the numbers of R24, after a fault of Block 7 in the sort. -/
theorem test_status : ({ banana with blkId := 7, phase := .sort1, full := true } : State).status =
      { phase := 3#4, full := true, fatal := false, faultCode := 0#8, faultBlk := 0#32, blkId := 7#32 } ∧
    (({ banana with blkId := 7, phase := .sort1 } : State).fatalEntry .sortStack).status =
      { phase := 15#4, full := false, fatal := true, faultCode := 0x02#8, faultBlk := 7#32, blkId := 7#32 } := by decide
theorem test_step_sequencer : field (step { banana with phase := .compressed }) State.phase = some .flushed := by decide +kernel

/-! ## Witnesses: states and operands that meet the hypotheses of each obligation, each clause at an edge of its range -/

/-- The state an outcome with a known field leaves. -/
theorem next_of_field {α : Type} {o : Host.Outcome State Fault Refusal} {f : State → α} {a : α}
    (h : field o f = some a) : ∃ t, o = .next t ∧ f t = a := by
  cases o with
  | next t => exact ⟨t, rfl, by simpa [field] using h⟩
  | fault f => simp [field] at h
  | refused r => simp [field] at h

/-- A machine that has taken a fatal fault. -/
def halted : State := { opened with fatal := true, phase := .fatal, faultCode := 0x02#8 }

/-- An open stream whose Block holds one pending raw byte. -/
def oneByte : State := { opened with rawCount := 1, runByte := 0x61, runLen := 1, crc := 0xE66C6494#32 }

/-- `banana` with nothing in the block buffer: a sort of no rotation does not consult the open predicates. -/
def noBytes : State := { banana with len := 0 }

theorem opened_input : opened.InputOk := ⟨by decide, by decide, by decide, by decide, by decide, by decide⟩
theorem opened_inv : opened.Inv where
  stores := by constructor <;> exact List.Pairwise.nil
  input := opened_input
  fatal := ⟨by decide, by decide⟩
  sink := by unfold State.SinkOk; decide
theorem opened_between : opened.BetweenCommands := ⟨opened_inv, by decide, by decide, by decide⟩
theorem oneByte_between : oneByte.BetweenCommands where
  inv := by
    refine ⟨?_, ⟨by decide, by decide, by decide, by decide, by decide, by decide⟩, ⟨by decide, by decide⟩, ?_⟩
    · constructor <;> exact List.Pairwise.nil
    · unfold State.SinkOk; decide
  phase := by decide
  open_ := by decide
  level := by decide

/-- The predicate reads neither the full flag nor the injected lane failures. -/
theorem between_flags {s : State} (h : s.BetweenCommands) {full : Bool} {fails : List Word32} :
    ({ s with full := full, laneFails := fails } : State).BetweenCommands :=
  have i := h.inv.stores
  ⟨⟨⟨i.b, i.zptr, i.szptr, i.quadrant, i.ftab, i.inUse, i.seqToUnseq, i.unseqToSeq, i.yy, i.mtfFreq, i.lens, i.code,
    i.rfreq, i.fave, i.cost, i.selector, i.selectorMtf, i.heap, i.weight, i.parent, i.pos⟩,
    ⟨h.inv.input.level, h.inv.input.cap, h.inv.input.fits, h.inv.input.run, h.inv.input.filled, h.inv.input.raw⟩,
    ⟨h.inv.fatal.phase, h.inv.fatal.code⟩, h.inv.sink⟩, h.phase, h.open_, h.level⟩

theorem test_witness_ResetInput : ({ halted with inbox := [.reset] } : State).inbox = .reset :: [] := rfl
theorem test_witness_ResetInput_during :
    (let s : State := { opened with inbox := [.resetDuring (.hc 0x4000#16)] }
     s.inbox = .resetDuring (.hc 0x4000#16) :: []) ∧ decode (.hc 0x4000#16) = .ok .finish ∧
    ∃ u, exec .finish { opened with inbox := [] } = .next u ∧ u.streamOpen = false :=
  ⟨rfl, by decide, next_of_field (by decide +kernel)⟩
theorem test_witness_StepTakesNextInput :
    ({ opened with inbox := [.message (.hc 0x2061#16)] } : State).inbox = .message (.hc 0x2061#16) :: [] ∧
    decode (.hc 0x2061#16) = .ok (.wrb 0x61#8) ∧
    ({ opened with inbox := [.sinkWritable false] } : State).inbox = .sinkWritable false :: [] ∧
    ({ opened with inbox := [.laneFail 7] } : State).inbox = .laneFail 7 :: [] := by decide
theorem test_witness_SequencerFollowsTransferTable_input :
    (State.reset.inbox = [] ∧ State.reset.fatal = false ∧ ∃ t, step State.reset = .next t) ∧
    (opened.inbox = [] ∧ opened.fatal = false ∧ ∃ t, step opened = .next t) ∧
    ∃ t, step { banana with phase := .queued } = .next t :=
  have t1 : ∃ t, step opened = .next t :=
    (next_of_field (f := State.phase) (a := .filling) (by decide +kernel)).imp fun _ h => h.1
  have t2 : ∃ t, step { banana with phase := .queued } = .next t :=
    (next_of_field (f := State.phase) (a := .sort1) (by decide +kernel)).imp fun _ h => h.1
  ⟨⟨rfl, rfl, _, test_step_idle⟩, ⟨rfl, rfl, t1⟩, t2⟩
theorem test_witness_SequencerFollowsTransferTable_sort :
    ((noBytes.inbox = [] ∧ noBytes.fatal = false) ∧
    ((field (step { noBytes with phase := .sort1 }) State.phase = some .origin) ∧
      field (step { noBytes with phase := .sort2 }) State.phase = some .origin)) ∧
    field (step { banana with phase := .randomise }) State.phase = some .sort2 ∧
    field (step { banana with phase := .origin }) State.phase = some .mtf ∧
    field (step { banana with phase := .mtf }) State.phase = some .hufInit := by decide +kernel
theorem test_witness_SequencerFollowsTransferTable_hufInit :
    ∃ t, step { banana with phase := .hufInit } = .next t ∧ t.phase = .hufIter ∧ t.iter = 0#3 :=
  ⟨_, unlessFatal_of_done rfl (phaseHufInit_of Config.params (s := { banana with phase := .hufInit })
    (fs := [1#20, 1#20, 0#20, 3#20, 1#20]) (by decide) (by decide +kernel)), rfl, rfl⟩
theorem test_witness_SequencerFollowsTransferTable_coding :
    field (step { bananaInitial with phase := .hufIter, iter := 2 }) State.phase = some .hufIter ∧
    field (step { bananaInitial with phase := .hufIter, iter := 3 }) State.phase = some .hufAssign ∧
    field (step { banana with phase := .hufAssign }) State.phase = some .emit ∧
    field (step { banana with phase := .emit }) State.phase = some .compressed ∧
    field (step { banana with phase := .compressed }) State.phase = some .flushed ∧
    field (step { banana with phase := .flushed }) State.phase = some .filling := by decide +kernel
theorem test_witness_PhasesRunTheirOperationsInOrder : banana.inbox = [] ∧ banana.fatal = false ∧
    ({ banana with phase := .hufInit } : State).phase = .hufInit ∧
    ({ bananaInitial with phase := .hufIter } : State).phase = .hufIter ∧
    ({ banana with phase := .hufAssign } : State).phase = .hufAssign ∧
    ({ banana with phase := .emit } : State).phase = .emit := ⟨rfl, rfl, rfl, rfl, rfl, rfl⟩
theorem test_witness_DecodeEncode : (Instr.hufMklen 5#3).wf = true ∧ (Instr.hcReserved8F 0x8000#16).wf = true ∧
    (Instr.bits 255#8 0xFFFFFFFF#32).wf = true := by decide
theorem test_witness_EncodeDecode : decode (.po 0x0529#16) = .ok (.hufMklen 5#3) := by decide
theorem test_witness_LocalRefusals :
    (isStreamCommand (.openStream true 1#8) = true ∧ opened.fatal = false ∧ opened.streamOpen = true) ∧
    (isStreamCommand .finish = true ∧ State.reset.fatal = false ∧ State.reset.streamOpen = false) := by decide
theorem test_witness_LocalRefusals_words :
    ((0x0FFF#16).extractLsb' 12 4).toNat = 0 ∧ 8 ≤ ((0x8000#16).extractLsb' 12 4).toNat ∧
    8 ≤ ((0xFFFF#16).extractLsb' 12 4).toNat ∧
    (((0x1201#16).extractLsb' 12 4).toNat = 1 ∧ (0x1201#16).extractLsb' 9 3 ≠ 0#3) ∧
    (((0x2100#16).extractLsb' 12 4).toNat = 2 ∧ (0x2100#16).extractLsb' 8 4 ≠ 0#4) ∧
    (((0x3001#16).extractLsb' 12 4).toNat = 3 ∧ (0x3001#16).extractLsb' 0 12 ≠ 0#12) ∧
    (((0x4800#16).extractLsb' 12 4).toNat = 4 ∧ (0x4800#16).extractLsb' 0 12 ≠ 0#12) := by decide
theorem test_witness_NothingExecutesInFatal : halted.fatal = true ∧ isStreamCommand .closeblk = true ∧
    isHostCommand .mtfGen = false := by decide
theorem test_witness_OnlyResetLeavesFatal :
    halted.fatal = true ∧ halted.phase = .fatal ∧ halted.inbox.head? ≠ some .reset ∧
    (∀ w, halted.inbox.head? ≠ some (.resetDuring w)) ∧ ∃ t, step halted = .next t :=
  ⟨rfl, rfl, by decide, by simp [halted, opened, State.reset, State.resetFor], _, rfl⟩
theorem test_witness_OneResponsePerCommand :
    (∃ t, exec (.seek 0#12) opened = .next t) ∧ isHostCommand (.seek 0#12) = true ∧
    (∃ t, exec .emitCounts opened = .next t) ∧ isHostCommand .emitCounts = false := ⟨⟨_, rfl⟩, rfl, ⟨_, rfl⟩, rfl⟩
theorem test_witness_OnlyOpenConfigures :
    (∀ owns level, Instr.emitCounts ≠ .openStream owns level) ∧ ∃ t, exec .emitCounts opened = .next t :=
  ⟨by simp, _, rfl⟩
theorem test_witness_BitOperations :
    opened.fatal = false ∧ opened.sink.closed = false ∧
    ({ opened with sink := { BitSink.reset with closed := true } } : State).sink.closed = true ∧
    32 < (33#8).toNat ∧ (32#8).toNat ≤ 32 ∧ (0#32).extractLsb' 1 31 = 0#31 ∧ (1#32).extractLsb' 1 31 = 0#31 ∧
    (2#32).extractLsb' 1 31 ≠ 0#31 ∧ (0x80000000#32).toInt < 0 ∧ 0 ≤ (0x7FFFFFFF#32).toInt := by decide
theorem test_witness_ReservedBitOperations :
    opened.fatal = false ∧ ((0x00FFFFFFFFFF#48).extractLsb' 40 8).toNat = 0 ∧
    6 ≤ ((0x060000000000#48).extractLsb' 40 8).toNat ∧ 6 ≤ ((0xFF0000000000#48).extractLsb' 40 8).toNat := by decide
theorem test_witness_SinkContract :
    [Instr.bits 0#8 1#32, .bits 5#8 6#32, .boolean 1#8 1#32, .unary 0#8 2#32, .int32 32#8 1#32].map bitString =
      [[], [false, false, true, true, false], [true], [true, true, false], List.replicate 31 false ++ [true]].map some ∧
    opened.fatal = false ∧ opened.sink.closed = false ∧ opened.sink.nacc = 0#3 := by decide
theorem test_witness_BytesOnlyGrow : ∃ t, step opened = .next t := ⟨_, rfl⟩
theorem test_witness_BlkInitOperation :
    opened.fatal = false ∧ ({ opened with cfgLevel := 9 } : State).cfgLevel.toNat ≤ 9 ∧
    ({ opened with nextId := 0xFFFFFFFE#32 } : State).nextId ≠ 0xFFFFFFFF#32 ∧
    (let s : State := { opened with nextId := 0xFFFFFFFF#32 }
     s.fatal = false ∧ s.cfgLevel.toNat ≤ 9 ∧ s.nextId = 0xFFFFFFFF#32) := by decide
theorem test_witness_FlushRunOperation :
    ∀ s ∈ [opened, { opened with len := 99995, runLen := 255 }, { opened with len := 99997, runLen := 3 }],
      s.fatal = false ∧ s.len.toNat + runCost s.runLen.toNat ≤ s.cap.toNat := by decide
theorem test_witness_BlkWriteOperation_full : let s : State := { opened with len := 99999, runByte := 1, runLen := 1 }
    s.fatal = false ∧ s.len.toNat + runCost s.runLen.toNat ≤ s.cap.toNat ∧ s.runLen.toNat ≤ 254 ∧
    ({ s with full := true } : State).full = true ∧ s.full = false ∧
    s.cap.toNat < s.len.toNat + runCost (s.runLen.toNat + 1) := by decide
theorem test_witness_BlkWriteOperation_accept :
    ∀ s ∈ [opened, { opened with len := 99994, runByte := 7, runLen := 253 }, { opened with runByte := 7, runLen := 254 },
        { opened with runByte := 8, runLen := 254, len := 99994 }],
      s.fatal = false ∧ s.runLen.toNat ≤ 254 ∧ s.full = false ∧ s.rawCount ≠ 0xFFFFFFFF#32 ∧
      s.len.toNat + runCost s.runLen.toNat + 1 ≤ s.cap.toNat ∧ s.len.toNat + runCost (s.runLen.toNat + 1) ≤ s.cap.toNat := by
  decide
theorem test_witness_BlkWriteOperation_refused : let s : State := { opened with rawCount := 0xFFFFFFFF#32 }
    s.fatal = false ∧ s.len.toNat + runCost s.runLen.toNat ≤ s.cap.toNat ∧ s.runLen.toNat ≤ 254 ∧ s.full = false ∧
    s.runLen.toNat = 0 ∧ s.len.toNat + 1 ≤ s.cap.toNat ∧ s.rawCount = 0xFFFFFFFF#32 := by decide
theorem test_witness_WrbResponse : opened.InputOk ∧ opened.fatal = false ∧ opened.streamOpen = true ∧
    opened.rawCount ≠ 0xFFFFFFFF#32 ∧ (let s : State := { opened with cfgLevel := 0, cap := 0 }
      s.InputOk ∧ s.cap.toNat < s.len.toNat + 1) :=
  ⟨opened_input, rfl, rfl, by decide, ⟨by decide, by decide, by decide, by decide, by decide, by decide⟩, by decide⟩
theorem test_witness_RunFreeBlockFillsExactly :
    let xs := (List.range 100000).map (BitVec.ofNat 8)
    xs.length = 100000 * opened.cfgLevel.toNat ∧ (xs ++ [160#8]).IsChain (fun a b => a ≠ b) ∧ opened.InputOk ∧
    opened.fatal = false ∧ 1 ≤ opened.cfgLevel.toNat ∧ opened.len = 0#20 ∧ opened.runLen = 0#8 ∧
    opened.rawCount = 0#32 ∧ opened.full = false := by
  refine ⟨by rw [List.length_map, List.length_range]; decide, ?_, opened_input, by decide⟩
  have e : (List.range 100000).map (BitVec.ofNat 8) ++ [160#8] = (List.range 100001).map (BitVec.ofNat 8) := by
    have v : BitVec.ofNat 8 100000 = 160#8 := by decide +kernel
    rw [List.range_succ (n := 100000), List.map_append, List.map_cons, List.map_nil, v]
  rw [e, List.isChain_iff_getElem]
  intro i hi
  simp only [List.getElem_map, List.getElem_range, ne_eq, ← BitVec.toNat_inj, BitVec.toNat_ofNat]
  omega
theorem test_witness_BlockBufferDecodes :
    opened.InputOk ∧ (opened.fatal = false ∧ opened.len = 0#20 ∧ opened.runLen = 0#8 ∧ opened.rawCount = 0#32 ∧
      opened.crc = 0xFFFFFFFF#32 ∧ opened.closed = false) ∧
    ∃ t, execAll ([0x61#8, 0x61#8, 0x62#8].map .blkWrite ++ [.blkClose]) opened = .next t ∧ t.rawCount.toNat = 3 :=
  ⟨opened_input, by decide, next_of_field (by decide +kernel)⟩
theorem test_witness_BlkCloseOperation :
    ∀ s ∈ [{ opened with closed := true }, { opened with len := 99995, runLen := 254 }],
      s.fatal = false ∧ s.len.toNat + runCost s.runLen.toNat ≤ s.cap.toNat := by decide
theorem test_witness_BwtOperations :
    banana.fatal = false ∧ 1 ≤ banana.len.toNat ∧ ({ banana with cap := 6 } : State).len.toNat ≤ 6 ∧
    banana.b.readRange 0 banana.len.toNat = some [0x62#8, 0x61#8, 0x6E#8, 0x61#8, 0x6E#8, 0x61#8] := by decide +kernel
theorem test_witness_BwtRandomiseOperation_offsets :
    (617 + 2 = gapSum 1 ∧ 1337 + 2 = gapSum 2) ∧ gapSum 0 < 2 ∧ 2 < gapSum 1 := by decide
theorem test_witness_BwtOriginOperation :
    banana.zptr.readRange 0 banana.len.toNat = some [5#20, 3#20, 1#20, 0#20, 4#20, 2#20] ∧
    0#20 ∈ [5#20, 3#20, 1#20, 0#20, 4#20, 2#20] ∧
    (Store.ofNats 20 [5, 3, 1, 1, 4, 2]).readRange 0 banana.len.toNat = some [5#20, 3#20, 1#20, 1#20, 4#20, 2#20] ∧
    0#20 ∉ [5#20, 3#20, 1#20, 1#20, 4#20, 2#20] := by decide +kernel
theorem test_witness_ZeroRunNumeral : (∀ d ∈ [0, 1], d < 2) ∧ zeroRunValue [0, 1] = 5 := by decide
theorem test_witness_Rle2FlushOperation : let s : State := { banana with zpend := 8, cap := 8 }
    s.fatal = false ∧ s.cap.toNat ≤ 900000 ∧ s.mtfFreq.read 0 = some 1#20 ∧ s.mtfFreq.read 1 = some 1#20 ∧
    s.nMTF.toNat + (zeroRun s.zpend.toNat).length ≤ s.cap.toNat + 1 := by decide +kernel
theorem test_witness_MtfGenOperation :
    (banana.len.toNat ≤ banana.cap.toNat ∧ banana.cap.toNat ≤ 900000) ∧
    banana.zptr.readRange 0 banana.len.toNat = some [5#20, 3#20, 1#20, 0#20, 4#20, 2#20] ∧
    ∃ t, exec .mtfGen banana = .next t ∧ t.phase = .hufInit :=
  ⟨by decide, by decide +kernel, next_of_field (by decide +kernel)⟩
theorem test_witness_HufInitOperation : banana.nGroups.toNat ≤ 6 ∧ banana.alphaSize.toNat ≤ 258 ∧
    banana.mtfFreq.readRange 0 banana.alphaSize.toNat = some [1#20, 1#20, 0#20, 3#20, 1#20] := by decide +kernel
theorem test_witness_HufIterOperation : let rows := [[15#5, 15#5, 15#5, 15#5, 0#5], [0#5, 0#5, 0#5, 0#5, 15#5]]
    (bananaInitial.nMTF.toNat ≤ bananaInitial.cap.toNat + 1 ∧ 1 ≤ bananaInitial.nGroups.toNat) ∧
    (bananaInitial.szptr.readRange 0 bananaInitial.nMTF.toNat = some [3#9, 0#9, 3#9, 3#9, 1#9, 4#9] ∧
      rows.length = bananaInitial.nGroups.toNat ∧
      ∀ v ∈ [3#9, 0#9, 3#9, 3#9, 1#9, 4#9], v.toNat < bananaInitial.alphaSize.toNat) ∧
    ∀ n, n < 2 → bananaInitial.lens.readRange (258 * n) bananaInitial.alphaSize.toNat = some (rows.getD n []) := by
  decide +kernel
theorem test_witness_HufMklenOperation : (1#3).toNat < 6 ∧
    banana.rfreq.readRange (258 * (1#3).toNat) banana.alphaSize.toNat = some [1#20, 1#20, 0#20, 3#20, 1#20] := by
  decide +kernel
theorem test_witness_CodeLengthsLegal :
    (3 ≤ [0, 0, 900001].length ∧ [0, 0, 900001].length ≤ 258 ∧ [0, 0, 900001].sum ≤ 900001) ∧
    (List.replicate 258 3).length ≤ 258 ∧ (List.replicate 258 3).sum ≤ 900001 := by decide +kernel
theorem test_witness_HufTables : let rows := [[3#5, 3#5, 2#5, 2#5, 2#5], [3#5, 3#5, 3#5, 1#5, 3#5]]
    (rows.length = banana.nGroups.toNat ∧ banana.nGroups.toNat ≤ 6 ∧ 1 ≤ banana.alphaSize.toNat) ∧
    (∀ row ∈ rows, ∀ l ∈ row, 1 ≤ l.toNat ∧ l.toNat ≤ 20) ∧
    ∀ n, n < 2 → banana.lens.readRange (258 * n) banana.alphaSize.toNat = some (rows.getD n []) := by decide +kernel
theorem test_witness_HufRangechkOperation : ∃ row ∈ [[20#5, 1#5], [21#5, 1#5]], ∃ l ∈ row, l.toNat < 1 ∨ 20 < l.toNat := by
  decide
theorem test_witness_CanonicalCodesPrefixFree :
    (∀ l ∈ [3, 3, 3, 1, 3], 1 ≤ l ∧ l ≤ 20) ∧ ([3, 3, 3, 1, 3].map fun l => 2 ^ (20 - l)).sum ≤ 2 ^ 20 := by decide
theorem test_witness_HufSelmtfOperation : banana.nSelectors.toNat ≤ 18002 ∧
    banana.selector.readRange 0 banana.nSelectors.toNat = some [1#3] ∧
    ∀ n ∈ [1#3], n.toNat < banana.nGroups.toNat := by decide +kernel
theorem test_witness_EmitInuseOperation : banana.fatal = false ∧ (banana.inUse.readRange 0 256).isSome = true := by
  decide +kernel
theorem test_witness_EmitSelectorsAndSymbols :
    (banana.selectorMtf.readRange 0 banana.nSelectors.toNat = some [1#3] ∧
      banana.selector.readRange 0 ((banana.nMTF.toNat + 49) / 50) = some [1#3] ∧
      banana.szptr.readRange 0 banana.nMTF.toNat = some [3#9, 0#9, 3#9, 3#9, 1#9, 4#9]) ∧
    (let len := fun _ v => if v = 3 then 1 else 3
     let code := fun _ v => [4, 5, 6, 0, 7].getD v 0
     ∀ n ∈ [1#3], ∀ v ∈ [3#9, 0#9, 3#9, 3#9, 1#9, 4#9],
      banana.lens.read (258 * n.toNat + v.toNat) = some (BitVec.ofNat 5 (len n.toNat v.toNat)) ∧
      banana.code.read (258 * n.toNat + v.toNat) = some (BitVec.ofNat 20 (code n.toNat v.toNat))) := by decide +kernel
theorem test_witness_HufNgroupsOperation : banana.fatal = false ∧
    Params.simulator.ngroupThresh = #v[200, 600, 1200, 2400] := ⟨rfl, rfl⟩
theorem test_witness_ReplayOperation_refused : let s : State := { banana with blocksEmitted := 0xFFFFFFFF#32 }
    s.fatal = false ∧ s.blocksEmitted = 0xFFFFFFFF#32 := by decide
theorem test_witness_ReplayOperation :
    banana.blocksEmitted ≠ 0xFFFFFFFF#32 ∧ banana.sink.closed = false ∧
    ∀ op ∈ [BitOp.bits 32#8 1#32, .bool true, .unary 0x7FFFFFFF#32], op.legal = true := by decide
theorem test_witness_OpenCommand : State.reset.fatal = false ∧ State.reset.streamOpen = false ∧
    State.reset.sinkWritable = true ∧ ({ State.reset with sinkWritable := false } : State).sinkWritable = false := by decide
theorem test_witness_EmptyBlockCommands :
    opened.fatal = false ∧ opened.streamOpen = true ∧ opened.rawCount = 0#32 ∧ opened.sink.closed = false := by decide
theorem test_witness_CompressOperation :
    (banana.fatal = false ∧ 1 ≤ banana.len.toNat ∧ banana.len.toNat ≤ banana.cap.toNat ∧ banana.cap.toNat ≤ 900000) ∧
    banana.b.readRange 0 banana.len.toNat = some [0x62#8, 0x61#8, 0x6E#8, 0x61#8, 0x6E#8, 0x61#8] ∧
    banana.laneFails.contains banana.blkId = false ∧
    ({ banana with laneFails := [0] } : State).laneFails.contains banana.blkId = true := by decide +kernel
theorem test_witness_SequencerWalkIsCompress : ({ banana with phase := .queued } : State).phase = .queued ∧
    banana.inbox = [] ∧ banana.fatal = false := ⟨rfl, rfl, rfl⟩
theorem test_witness_BlockCommandsComplete :
    oneByte.BetweenCommands ∧ oneByte.fatal = false ∧ oneByte.streamOpen = true ∧ oneByte.rawCount ≠ 0#32 ∧
    oneByte.blocksEmitted ≠ 0xFFFFFFFF#32 ∧ oneByte.nextId ≠ 0xFFFFFFFF#32 ∧
    oneByte.laneFails.contains oneByte.blkId = false := ⟨oneByte_between, by decide⟩
theorem test_witness_BlockCommandsComplete_lane_failure : let s : State := { oneByte with laneFails := [0] }
    s.BetweenCommands ∧ s.fatal = false ∧ s.streamOpen = true ∧ s.rawCount ≠ 0#32 ∧
    s.blocksEmitted ≠ 0xFFFFFFFF#32 ∧ s.nextId ≠ 0xFFFFFFFF#32 ∧ s.laneFails.contains s.blkId = true :=
  ⟨between_flags oneByte_between (full := false) (fails := [0]), by decide⟩
theorem test_witness_StepKeepsInv : opened.Inv ∧ ∃ t, step opened = .next t := ⟨opened_inv, _, rfl⟩
theorem test_witness_CommandsTakeNoHarnessFault :
    isHostCommand .closeblk = true ∧ opened.BetweenCommands ∧ ∃ t, exec .closeblk opened = .next t :=
  ⟨rfl, opened_between, _, rfl⟩
theorem test_witness_CommandsTakeNoHarnessFault_fatal : let s : State := { State.reset with sinkWritable := false }
    s.BetweenCommands ∧ s.fatal = false ∧ ∃ t, exec (.openStream false 1#8) s = .next t ∧ t.fatal = true := by
  refine ⟨⟨⟨?_, ⟨by decide, by decide, by decide, by decide, by decide, by decide⟩, ⟨by decide, by decide⟩, ?_⟩, by decide,
    by decide, by decide⟩, rfl, next_of_field (by decide)⟩
  · constructor <;> exact List.Pairwise.nil
  · unfold State.SinkOk; decide
theorem test_witness_RejectedByteIsAcceptedNext : let s : State := { oneByte with full := true }
    s.BetweenCommands ∧ s.fatal = false ∧ s.streamOpen = true ∧ s.full = true ∧ s.rawCount ≠ 0#32 ∧
    s.laneFails.contains s.blkId = false ∧ s.blocksEmitted ≠ 0xFFFFFFFF#32 ∧ s.nextId ≠ 0xFFFFFFFF#32 :=
  ⟨between_flags oneByte_between (full := true) (fails := []), by decide⟩

end Sys2Proof.Tests
end

section
/-! PROOF. What `step` does with the input at the head of `inbox`, one equation per input, and O3 from them. -/

namespace Sys2Proof.Machine

/-- A word the decoder accepts runs as its instruction (R106, R107). -/
theorem execMessage_of_decode {w : CmdWord} {i : Instr} (hw : decode w = .ok i) (s : State) :
    execMessage w s = exec i s := by
  simp only [execMessage, hw]

theorem step_message {s : State} {w : CmdWord} {rest : List Input} (h : s.inbox = .message w :: rest) :
    step s = execMessage w { s with inbox := rest } := by
  simp only [step, h]

theorem step_sinkWritable {s : State} {b : Bool} {rest : List Input} (h : s.inbox = .sinkWritable b :: rest) :
    step s = .next { s with inbox := rest, sinkWritable := b } := by
  simp only [step, h]

theorem step_laneFail {s : State} {k : Word32} {rest : List Input} (h : s.inbox = .laneFail k :: rest) :
    step s = .next { s with inbox := rest, laneFails := k :: s.laneFails } := by
  simp only [step, h, State.injectLaneFail]

/-- Settles O3, by the equation of `step` for each of the three inputs; for a message, with the decoder's answer. -/
theorem stepTakesNextInput : Obligations.StepTakesNextInput := by
  intro s rest
  refine ⟨fun w i h hw => ?message, fun b h => step_sinkWritable h, fun k h => step_laneFail h⟩
  case message =>
    calc step s = execMessage w { s with inbox := rest } := step_message h
      _ = exec i { s with inbox := rest } := execMessage_of_decode hw _

end Sys2Proof.Machine
end

section
/-! PROOF. O4 and O55: what the operation of each phase makes of `phase` (R25), and from it the walk of the sequencer, left
alone, through the phases of `COMPRESS` (R294). -/

namespace Sys2Proof.Machine

/-! ## The transfer of each phase -/

/-- A lane operation whose completed state satisfies `P` changes nothing outside the lane besides. -/
theorem Lane.and_done {cs : List (BitVec 8)} {s : State} {r : Res} {P : State → Prop} (hl : Lane cs s r)
    (hp : r.Post P fun _ => True) : r.Post (fun t => LaneDone s t ∧ P t) (LaneRaised cs s) := by
  cases r with
  | done t => exact ⟨hl, hp⟩
  | raised t => exact hl
  | stop _ => trivial
  | refuse _ => trivial

theorem not_laneRaised_nil {s t : State} : ¬ LaneRaised [] s t := fun h => nomatch h.faultCode

/-- What a sequence leaves when it completes is what its last part leaves. -/
theorem Res.Post.last {r : Res} {k : State → Res} {P : State → Prop} (h : ∀ s, (k s).Post P fun _ => True) :
    (r.andThen k).Post P fun _ => True := by
  cases r with
  | done s => exact h s
  | raised _ => trivial
  | stop _ => trivial
  | refuse _ => trivial

theorem bwtSort_transfer (p : Params) (s : State) :
    (bwtSort p s).Post
      (fun t => (t.phase = .origin ∧ t.randomised = false) ∨ (t.phase = .randomise ∧ t.firstAttempt = true))
      fun _ => True := by
  refine withBuffer_post fun bs _ _ => ?_
  dsimp only
  split
  · trivial
  · split
    · exact .inr ⟨rfl, rfl⟩
    · exact .inl ⟨rfl, rfl⟩

theorem bwtRandomise_transfer (s : State) :
    (bwtRandomise s).Post (fun t => t.phase = .sort2 ∧ t.randomised = true ∧ t.firstAttempt = false) fun _ => True :=
  withBuffer_post fun _ _ _ => ⟨rfl, rfl, rfl⟩

theorem bwtSortRetry_transfer (p : Params) (s : State) :
    (bwtSortRetry p s).Post (fun t => t.phase = .origin) fun _ => True := by
  refine withBuffer_post fun bs _ _ => ?_
  dsimp only
  split
  · trivial
  · rfl

theorem bwtOrigin_transfer (s : State) : (bwtOrigin s).Post (fun t => t.phase = .mtf) fun _ => True := by
  refine withZptr_post fun zs _ => ?_
  split
  · rfl
  · trivial

theorem mtfGen_transfer (s : State) : (mtfGen s).Post (fun t => t.phase = .hufInit) fun _ => True :=
  withBuffer_post fun _ _ _ => withZptr_post fun _ _ => rfl

theorem phaseQueued_transfer (s : State) : (phaseQueued s).Post (fun t => t.phase = .sort1) fun _ => True := by
  unfold phaseQueued
  split
  · trivial
  · rfl

theorem phaseHufInit_transfer (p : Params) (s : State) :
    (phaseHufInit p s).Post (fun t => t.phase = .hufIter ∧ t.iter = 0#3) fun _ => True :=
  Res.Post.last fun _ => Res.Post.last fun _ => ⟨rfl, rfl⟩

theorem hufIter_iter (s : State) : (hufIter s).Post (fun t => t.iter = s.iter) fun _ => True := by
  refine withSymbols_post fun vs _ _ => withRows_post fun rows _ _ _ => ?_
  dsimp only
  split
  · trivial
  · split
    · trivial
    · exact inRange_post fun _ => rfl

theorem hufMklen_iter (n : Nat) (s : State) : (hufMklen n s).Post (fun t => t.iter = s.iter) fun _ => True :=
  inRange_post fun _ => inRange_post fun _ => readOr_post fun _ _ => rfl

theorem makeTables_iter (n t : Nat) (s : State) : (makeTables n t s).Post (fun u => u.iter = s.iter) fun _ => True := by
  induction n generalizing t s with
  | zero => rfl
  | succ n ih =>
    exact Res.Post.andThen (hufMklen_iter t s) fun u hu =>
      (ih (t + 1) u).mono (fun _ hv => hv.trans hu) fun _ h => h

/-- R25: a pass is followed by the next one, counted in `iter`, or by `HUF_ASSIGN`. -/
theorem phaseHufIter_transfer (s : State) :
    (phaseHufIter s).Post
      (fun t => if s.iter.toNat < 3 then t.phase = .hufIter ∧ t.iter = s.iter + 1
        else t.phase = .hufAssign ∧ t.iter = s.iter)
      fun _ => True := by
  refine Res.Post.andThen (hufIter_iter s) fun t ht => Res.Post.andThen (makeTables_iter _ 0 t) fun u hu => ?_
  rw [Res.post_done, State.nextPass_eq, hu.trans ht]
  split <;> exact ⟨rfl, rfl⟩

theorem hufSelmtf_transfer (s : State) : (hufSelmtf s).Post (fun t => t.phase = .emit) fun _ => True :=
  inRange_post fun _ => withSelectors_post fun _ _ _ => inRange_post fun _ => rfl

theorem emitSymbols_transfer (s : State) : (emitSymbols s).Post (fun t => t.phase = .compressed) fun _ => True :=
  withSymbols_post fun _ _ _ => inRange_post fun _ => readOr_post fun _ _ => readOr_post fun _ _ => rfl

theorem phaseHufAssign_transfer (s : State) : (phaseHufAssign s).Post (fun t => t.phase = .emit) fun _ => True :=
  Res.Post.last fun _ => Res.Post.last hufSelmtf_transfer

theorem phaseEmit_transfer (s : State) : (phaseEmit s).Post (fun t => t.phase = .compressed) fun _ => True :=
  Res.Post.last fun _ => Res.Post.last fun _ => Res.Post.last fun _ => Res.Post.last fun _ =>
    Res.Post.last emitSymbols_transfer

/-! ## The step of a phase -/

/-- R24: with no input pending a step is the operation of the phase. -/
theorem step_eq_phaseOp {s : State} (hi : s.inbox = []) (hf : s.fatal = false) :
    step s = (phaseOp Config.params s.phase s).direct := by
  simp [step, hi, advance, unlessFatal, hf]

theorem Res.direct_eq_next {r : Res} {t : State} : r.direct = .next t ↔ r = .done t ∨ r = .raised t := by
  cases r <;> simp [Res.direct]

theorem Res.Post.of_direct {r : Res} {P Q : State → Prop} {t : State} (h : r.Post P Q) (e : r.direct = .next t) :
    P t ∨ Q t :=
  (Res.direct_eq_next.1 e).imp h.of_done h.of_raised

/-- A phase that runs a lane operation leads where the operation leads, or to `FATAL`. -/
theorem Lane.of_direct {cs : List (BitVec 8)} {s t : State} {r : Res} {P : State → Prop} (hl : Lane cs s r)
    (hp : r.Post P fun _ => True) (e : r.direct = .next t) : P t ∨ t.phase = .fatal :=
  ((hl.and_done hp).of_direct e).imp (fun h => h.2) fun h => h.phase

/-- A phase whose operation takes no fault leads where the operation leads. -/
theorem Lane.of_direct_nil {s t : State} {r : Res} {P : State → Prop} (hl : Lane [] s r)
    (hp : r.Post P fun _ => True) (e : r.direct = .next t) : P t :=
  ((hl.and_done hp).of_direct e).elim (fun h => h.2) fun h => (not_laneRaised_nil h).elim

theorem replay_transfer {s : State} (hf : s.fatal = false) :
    (replay s).Post (fun t => t.phase = .flushed) fun t => t.phase = .fatal := by
  refine (replay_post s hf).mono ?_ ?_
  · rintro t ⟨bs, rfl⟩; rfl
  · rintro t ⟨bs, c, -, rfl⟩; rfl

theorem blkInit_transfer (s : State) : (blkInit s).Post (fun t => t.phase = .filling) fun _ => False := by
  unfold blkInit
  split
  · trivial
  · rfl

/-- Settles O4, by the transfer of each phase's operation. -/
theorem sequencerFollowsTransferTable : Obligations.SequencerFollowsTransferTable := by
  intro s t hi hf e
  rw [step_eq_phaseOp hi hf] at e
  cases hp : s.phase <;> rw [hp] at e
  case idle => exact (Host.Outcome.next.inj e).symm
  case filling => exact (Host.Outcome.next.inj e).symm
  case queued => exact (phaseQueued_lane s hf).of_direct (phaseQueued_transfer s) e
  case sort1 => exact (bwtSort_lane _ s hf).of_direct (bwtSort_transfer _ s) e
  case randomise => exact (bwtRandomise_lane s).of_direct_nil (bwtRandomise_transfer s) e
  case sort2 => exact (bwtSortRetry_lane _ s hf).of_direct (bwtSortRetry_transfer _ s) e
  case origin => exact (bwtOrigin_lane s hf).of_direct (bwtOrigin_transfer s) e
  case mtf => exact (mtfGen_lane s).of_direct_nil (mtfGen_transfer s) e
  case hufInit => exact (phaseHufInit_lane _ s).of_direct_nil (phaseHufInit_transfer _ s) e
  case hufIter => exact (phaseHufIter_lane s).of_direct_nil (phaseHufIter_transfer s) e
  case hufAssign => exact (phaseHufAssign_lane s hf).of_direct (phaseHufAssign_transfer s) e
  case emit => exact (phaseEmit_lane s).of_direct_nil (phaseEmit_transfer s) e
  case compressed => exact (replay_transfer hf).of_direct e
  case flushed => exact ((blkInit_transfer s).of_direct e).resolve_right id
  case fatal => exact (Host.Outcome.next.inj e).symm

/-! ## The walk of the sequencer -/

/-- The sequencer is about to run the operation of phase `ph`. -/
structure Waiting (ph : Phase) (s : State) : Prop where
  inbox : s.inbox = []
  fatal : s.fatal = false
  phase : s.phase = ph

/-- R321: nothing but an input can move the machine. -/
structure Halted (s : State) : Prop where
  inbox : s.inbox = []
  fatal : s.fatal = true

theorem Halted.runSteps_eq {s : State} (h : Halted s) (n : Nat) : runSteps n s = .next s := by
  have hs : step s = .next s := by simp [step, h.inbox, advance, unlessFatal, h.fatal]
  induction n with
  | zero => rfl
  | succ n ih => simp only [runSteps, hs, ih]

/-- A phase leads to the next one, or halts the machine. -/
theorem Waiting.post {ph : Phase} {cs : List (BitVec 8)} {s : State} {r : Res} {P : State → Prop} (h : Waiting ph s)
    (hl : Lane cs s r) (hp : r.Post P fun _ => True) :
    r.Post (fun t => t.inbox = [] ∧ t.fatal = false ∧ P t) Halted :=
  (hl.and_done hp).mono (fun _ ht => ⟨ht.1.same.inbox.trans h.inbox, ht.1.fatal.trans h.fatal, ht.2⟩)
    fun _ ht => ⟨ht.same.inbox.trans h.inbox, ht.fatal⟩

/-- One step more: where the `n` steps after a phase end as `k` ends, the phase and they end as the phase's operation and
then `k`. -/
theorem Waiting.runSteps_succ {ph : Phase} {s : State} {n : Nat} {k : State → Res} (h : Waiting ph s)
    (hk : (phaseOp Config.params ph s).Post (fun t => runSteps n t = (k t).direct) Halted) :
    runSteps (n + 1) s = ((phaseOp Config.params ph s).andThen k).direct := by
  have hs := step_eq_phaseOp h.inbox h.fatal
  rw [h.phase] at hs
  simp only [runSteps, hs]
  cases e : phaseOp Config.params ph s with
  | done t => exact hk.of_done e
  | raised t => exact (hk.of_raised e).runSteps_eq n
  | stop _ => rfl
  | refuse _ => rfl

/-- The passes of `HUF_ITER` still to come, then the rest of `COMPRESS`. -/
def passesAndEmit : Nat → State → Res
  | 0, s => (phaseHufAssign s).andThen phaseEmit
  | n + 1, s => (phaseHufIter s).andThen (passesAndEmit n)

/-- `COMPRESS` from `ORIGIN` on. -/
def fromOrigin (p : Params) (s : State) : Res :=
  (bwtOrigin s).andThen fun s => (mtfGen s).andThen fun s => (phaseHufInit p s).andThen (passesAndEmit Config.nIters)

/-- R294: `COMPRESS` is the work of the phases. -/
theorem compress_eq (p : Params) (s : State) :
    compress p s = (phaseQueued s).andThen fun s => (sortBlock p s).andThen (fromOrigin p) := rfl

theorem runSteps_emit {s : State} (h : Waiting .emit s) : runSteps 1 s = (phaseEmit s).direct := by
  have hk : (phaseEmit s).Post (fun t => runSteps 0 t = (Res.done t).direct) Halted :=
    (h.post (phaseEmit_lane s) (phaseEmit_transfer s)).mono (fun _ _ => rfl) fun _ ht => ht
  have e : (phaseEmit s).andThen .done = phaseEmit s := by cases phaseEmit s <;> rfl
  exact (h.runSteps_succ hk).trans (congrArg Res.direct e)

theorem runSteps_hufAssign {s : State} (h : Waiting .hufAssign s) : runSteps 2 s = (passesAndEmit 0 s).direct :=
  h.runSteps_succ <| (h.post (phaseHufAssign_lane s h.fatal) (phaseHufAssign_transfer s)).mono
    (fun _ ⟨hi, hf, hp⟩ => runSteps_emit ⟨hi, hf, hp⟩) fun _ ht => ht

/-- R223, R25: with `n` passes to come after the current one. -/
theorem runSteps_hufIter {s : State} {n : Nat} (h : Waiting .hufIter s) (hn : s.iter.toNat + n = 3) :
    runSteps (n + 3) s = (passesAndEmit (n + 1) s).direct := by
  induction n generalizing s with
  | zero =>
    refine h.runSteps_succ <| (h.post (phaseHufIter_lane s) (phaseHufIter_transfer s)).mono ?_ fun _ ht => ht
    rintro t ⟨hi, hf, hp⟩
    rw [if_neg (by omega)] at hp
    exact runSteps_hufAssign ⟨hi, hf, hp.1⟩
  | succ n ih =>
    refine h.runSteps_succ <| (h.post (phaseHufIter_lane s) (phaseHufIter_transfer s)).mono ?_ fun _ ht => ht
    rintro t ⟨hi, hf, hp⟩
    rw [if_pos (by omega)] at hp
    obtain ⟨hph, hit⟩ := hp
    exact ih ⟨hi, hf, hph⟩ (by rw [hit]; bv_omega)

theorem runSteps_hufInit {s : State} (h : Waiting .hufInit s) :
    runSteps 7 s = ((phaseHufInit Config.params s).andThen (passesAndEmit Config.nIters)).direct :=
  h.runSteps_succ <| (h.post (phaseHufInit_lane _ s) (phaseHufInit_transfer _ s)).mono
    (fun _ ⟨hi, hf, hp, hit⟩ => runSteps_hufIter (n := 3) ⟨hi, hf, hp⟩ (by rw [hit]; rfl)) fun _ ht => ht

theorem runSteps_mtf {s : State} (h : Waiting .mtf s) :
    runSteps 8 s = ((mtfGen s).andThen fun s =>
      (phaseHufInit Config.params s).andThen (passesAndEmit Config.nIters)).direct :=
  h.runSteps_succ <| (h.post (mtfGen_lane s) (mtfGen_transfer s)).mono
    (fun _ ⟨hi, hf, hp⟩ => runSteps_hufInit ⟨hi, hf, hp⟩) fun _ ht => ht

theorem runSteps_origin {s : State} (h : Waiting .origin s) : runSteps 9 s = (fromOrigin Config.params s).direct :=
  h.runSteps_succ <| (h.post (bwtOrigin_lane s h.fatal) (bwtOrigin_transfer s)).mono
    (fun _ ⟨hi, hf, hp⟩ => runSteps_mtf ⟨hi, hf, hp⟩) fun _ ht => ht

theorem runSteps_sort2 {s : State} (h : Waiting .sort2 s) :
    runSteps 10 s = ((bwtSortRetry Config.params s).andThen (fromOrigin Config.params)).direct :=
  h.runSteps_succ <| (h.post (bwtSortRetry_lane _ s h.fatal) (bwtSortRetry_transfer _ s)).mono
    (fun _ ⟨hi, hf, hp⟩ => runSteps_origin ⟨hi, hf, hp⟩) fun _ ht => ht

theorem runSteps_randomise {s : State} (h : Waiting .randomise s) :
    runSteps 11 s = ((bwtRandomise s).andThen fun s =>
      (bwtSortRetry Config.params s).andThen (fromOrigin Config.params)).direct :=
  h.runSteps_succ <| (h.post (bwtRandomise_lane s) (bwtRandomise_transfer s)).mono
    (fun _ ⟨hi, hf, hp, _⟩ => runSteps_sort2 ⟨hi, hf, hp⟩) fun _ ht => ht

/-- `COMPRESS` after the first attempt of the sort: the randomised retry where that was abandoned (R174), then the rest. -/
def afterFirstSort (p : Params) (s : State) : Res :=
  if s.phase = .randomise then (bwtRandomise s).andThen fun s => (bwtSortRetry p s).andThen (fromOrigin p)
  else fromOrigin p s

theorem sortBlock_andThen_fromOrigin (p : Params) (s : State) :
    (sortBlock p s).andThen (fromOrigin p) = (bwtSort p s).andThen (afterFirstSort p) := by
  rw [sortBlock, Res.andThen_assoc]
  congr 1
  funext t
  unfold afterFirstSort
  split
  · exact Res.andThen_assoc _ _ _
  · rfl

/-- Where every completed state satisfies `A` or `B`, one of them holds of the outcome: it has at most one completed state. -/
theorem Res.Post.or {r : Res} {P Q A B : State → Prop} (h : r.Post P Q) (hab : ∀ t, P t → A t ∨ B t) :
    r.Post A Q ∨ r.Post B Q := by
  cases r with
  | done t => exact hab t h
  | raised t => exact .inl h
  | stop _ => exact .inl trivial
  | refuse _ => exact .inl trivial

/-- R172 to R177: the sort takes one step, or three where the first attempt is abandoned. -/
theorem runSteps_sort1 {s : State} (h : Waiting .sort1 s) :
    runSteps 10 s = ((sortBlock Config.params s).andThen (fromOrigin Config.params)).direct ∨
      runSteps 12 s = ((sortBlock Config.params s).andThen (fromOrigin Config.params)).direct := by
  rw [sortBlock_andThen_fromOrigin]
  refine ((h.post (bwtSort_lane _ s h.fatal) (bwtSort_transfer _ s)).or ?_).imp h.runSteps_succ h.runSteps_succ
  rintro t ⟨hi, hf, ⟨hp, -⟩ | ⟨hp, -⟩⟩
  · left
    rw [afterFirstSort, if_neg (by simp [hp])]
    exact runSteps_origin ⟨hi, hf, hp⟩
  · right
    rw [afterFirstSort, if_pos hp]
    exact runSteps_randomise ⟨hi, hf, hp⟩

/-- Settles O55, phase by phase from the last: each step of the sequencer is the next part of `COMPRESS`. -/
theorem sequencerWalkIsCompress : Obligations.SequencerWalkIsCompress := by
  intro s hi hf hp
  have h : Waiting .queued s := ⟨hi, hf, hp⟩
  have hc : exec .compress s = (compress Config.params s).direct := by
    simp [exec, execCompress, unlessFatal, hf]
  rw [hc, compress_eq]
  exact ((h.post (phaseQueued_lane s hf) (phaseQueued_transfer s)).or fun t ⟨ti, tf, tp⟩ =>
    runSteps_sort1 ⟨ti, tf, tp⟩).imp h.runSteps_succ h.runSteps_succ

end Sys2Proof.Machine
end

section
/-! PROOF. O13: each operation but that of OPEN keeps the configuration registers (R28, R29, R30). -/

namespace Sys2Proof.Machine

/-- R28, R29, R30: the configuration registers of `t` are those of `s`. -/
structure SameConfig (s t : State) : Prop where
  level : t.cfgLevel = s.cfgLevel
  ownsSink : t.cfgOwnsSink = s.cfgOwnsSink
  lanes : t.cfgLanes = s.cfgLanes

theorem SameConfig.refl (s : State) : SameConfig s s := ⟨rfl, rfl, rfl⟩

theorem SameConfig.trans {s t u : State} (h : SameConfig s t) (h' : SameConfig t u) : SameConfig s u :=
  ⟨h'.level.trans h.level, h'.ownsSink.trans h.ownsSink, h'.lanes.trans h.lanes⟩

theorem SameOutsideLane.sameConfig {s t : State} (h : SameOutsideLane s t) : SameConfig s t :=
  ⟨h.cfgLevel, h.cfgOwnsSink, h.cfgLanes⟩

/-- The configuration registers are the same, and no fatal fault was taken. -/
structure ConfigDone (s t : State) : Prop where
  config : SameConfig s t
  fatal : t.fatal = s.fatal

theorem ConfigDone.refl (s : State) : ConfigDone s s := ⟨.refl s, rfl⟩

/-- Completed or not, the operation leaves the configuration registers as they are in `s`; completed, the flag `fatal`
as well, which the operations after it rely on. -/
abbrev KeepsConfig (s : State) (r : Res) : Prop := r.Post (ConfigDone s) (SameConfig s)

theorem KeepsConfig.after_done {s t : State} {r : Res} (h : ConfigDone s t) (hr : KeepsConfig t r) : KeepsConfig s r :=
  Res.Post.mono hr (fun _ h' => ⟨h.config.trans h'.config, h'.fatal.trans h.fatal⟩) fun _ h' => h.config.trans h'

theorem KeepsConfig.andThen {s : State} {r : Res} {k : State → Res} (h : KeepsConfig s r)
    (hk : ∀ t, t.fatal = s.fatal → KeepsConfig t (k t)) : KeepsConfig s (r.andThen k) :=
  Res.Post.andThen h fun t ht => KeepsConfig.after_done ht (hk t ht.fatal)

/-- A lane operation keeps the configuration registers. -/
theorem Lane.keepsConfig {cs : List (BitVec 8)} {s : State} {r : Res} (h : Lane cs s r) : KeepsConfig s r :=
  Res.Post.mono h (fun _ ht => ⟨ht.same.sameConfig, ht.fatal⟩) fun _ ht => ht.same.sameConfig

theorem raise_keepsConfig (f : HwFault) (s : State) : KeepsConfig s (raise f s) := ⟨rfl, rfl, rfl⟩

/-! ## The BitSink -/

theorem sinkWrite_keepsConfig (legal : Bool) (bs : List Bool) (s : State) : KeepsConfig s (sinkWrite legal bs s) := by
  rcases sinkWrite_cases legal bs s with ⟨-, e⟩ | ⟨-, -, e⟩ | ⟨-, -, e⟩ <;> rw [e]
  · exact raise_keepsConfig _ s
  · exact raise_keepsConfig _ s
  · exact ⟨⟨rfl, rfl, rfl⟩, rfl⟩

theorem opFlush_keepsConfig (count : BitVec 8) (value : Word32) (s : State) : KeepsConfig s (opFlush count value s) :=
  (sinkWrite_keepsConfig _ _ s).andThen fun _ _ => ⟨⟨rfl, rfl, rfl⟩, rfl⟩

theorem applyOps_keepsConfig (ops : List BitOp) (s : State) : KeepsConfig s (applyOps ops s) := by
  induction ops generalizing s with
  | nil => exact .refl s
  | cons op ops ih =>
    rw [applyOps, BitOp.apply_eq]
    exact (sinkWrite_keepsConfig _ _ s).andThen fun t _ => ih t

/-! ## The input stage -/

theorem blkInit_keepsConfig (s : State) : KeepsConfig s (blkInit s) := by
  unfold blkInit
  split
  · trivial
  · exact ⟨⟨rfl, rfl, rfl⟩, rfl⟩

theorem flushRun_keepsConfig (s : State) : KeepsConfig s (flushRun s) := by
  refine (flushRun_post s).mono ?_ fun _ h => h.elim
  rintro t (⟨-, rfl⟩ | ⟨-, -, rfl⟩)
  · exact .refl t
  · exact ⟨⟨rfl, rfl, rfl⟩, rfl⟩

theorem countRaw_configDone (v : Byte) (s : State) : ConfigDone s (s.countRaw v) := ⟨⟨rfl, rfl, rfl⟩, rfl⟩

theorem blkWrite_keepsConfig (v : Byte) (s : State) : KeepsConfig s (blkWrite v s) := by
  unfold blkWrite
  split
  · exact .refl s
  split
  · exact (flushRun_keepsConfig s).andThen fun _ _ => ⟨⟨rfl, rfl, rfl⟩, rfl⟩
  split
  · trivial
  refine .after_done (countRaw_configDone v s) ?_
  split
  · exact ⟨⟨rfl, rfl, rfl⟩, rfl⟩
  split
  · split
    · refine .after_done (t := { s.countRaw v with runLen := s.runLen + 1 }) ⟨⟨rfl, rfl, rfl⟩, rfl⟩ ?_
      exact flushRun_keepsConfig _
    · exact ⟨⟨rfl, rfl, rfl⟩, rfl⟩
  · exact (flushRun_keepsConfig _).andThen fun _ _ => ⟨⟨rfl, rfl, rfl⟩, rfl⟩

theorem blkClose_keepsConfig (s : State) : KeepsConfig s (blkClose s) := by
  unfold blkClose
  split
  · exact raise_keepsConfig _ s
  · refine .after_done (t := { s with closed := true }) ⟨⟨rfl, rfl, rfl⟩, rfl⟩ ?_
    exact (flushRun_keepsConfig _).andThen fun _ _ => ⟨⟨rfl, rfl, rfl⟩, rfl⟩

/-! ## The commands, but OPEN -/

theorem replay_keepsConfig (s : State) : KeepsConfig s (replay s) := by
  unfold replay
  split
  · trivial
  · exact (applyOps_keepsConfig _ s).andThen fun _ _ => ⟨⟨rfl, rfl, rfl⟩, rfl⟩

theorem emitBlock_keepsConfig (p : Params) {s : State} (hf : s.fatal = false) : KeepsConfig s (emitBlock p s) :=
  (blkClose_keepsConfig s).andThen fun t ht =>
    (compress_lane p t (ht.trans hf)).keepsConfig.andThen fun u _ => replay_keepsConfig u

theorem wrbOp_keepsConfig (v : Byte) (s : State) : KeepsConfig s (wrbOp v s) :=
  (blkWrite_keepsConfig v s).andThen fun _ _ => by
    split <;> exact ⟨⟨rfl, rfl, rfl⟩, rfl⟩

theorem closeblkOp_keepsConfig (p : Params) {s : State} (hf : s.fatal = false) : KeepsConfig s (closeblkOp p s) := by
  unfold closeblkOp
  split
  · exact ⟨⟨rfl, rfl, rfl⟩, rfl⟩
  · exact (emitBlock_keepsConfig p hf).andThen fun t _ => (blkInit_keepsConfig t).andThen fun _ _ =>
      ⟨⟨rfl, rfl, rfl⟩, rfl⟩

theorem footer_keepsConfig (s : State) : KeepsConfig s (footer s) :=
  (applyOps_keepsConfig _ s).andThen fun t _ => (sinkWrite_keepsConfig _ _ t).andThen fun u _ =>
    opFlush_keepsConfig _ _ u

theorem finishOp_keepsConfig (p : Params) {s : State} (hf : s.fatal = false) : KeepsConfig s (finishOp p s) := by
  refine KeepsConfig.andThen ?_ fun t _ => (footer_keepsConfig t).andThen fun _ _ => ⟨⟨rfl, rfl, rfl⟩, rfl⟩
  split
  · exact .refl s
  · exact emitBlock_keepsConfig p hf

/-! ## What an instruction makes of the operation it runs -/

theorem unlessFatal_sameConfig {op : State → Res} {s t : State} (h : s.fatal = false → KeepsConfig s (op s))
    (e : unlessFatal op s = .next t) : SameConfig s t := by
  rcases unlessFatal_eq_next.1 e with ⟨-, rfl⟩ | ⟨hf, hd | hr⟩
  · exact .refl t
  · exact (Res.Post.of_done (h hf) hd).config
  · exact Res.Post.of_raised (h hf) hr

theorem hostCommand_sameConfig {ok : Bool} {op : State → Res} {s t : State}
    (h : s.fatal = false → KeepsConfig s (op s)) (e : hostCommand ok op s = .next t) : SameConfig s t := by
  rcases hostCommand_eq_next.1 e with ⟨-, rfl⟩ | ⟨-, -, rfl⟩ | ⟨hf, -, hd | ⟨u, hr, rfl⟩⟩
  · exact ⟨rfl, rfl, rfl⟩
  · exact ⟨rfl, rfl, rfl⟩
  · exact (Res.Post.of_done (h hf) hd).config
  · exact (Res.Post.of_raised (h hf) hr).trans ⟨rfl, rfl, rfl⟩

/-- A local fault "changes nothing" (R317). -/
theorem respondLocal_sameConfig {f : HwFault} {s t : State}
    (e : (Host.Outcome.next (s.respondLocal f) : Host.Outcome State Fault Refusal) = .next t) : SameConfig s t := by
  obtain rfl := Host.Outcome.next.inj e
  exact ⟨rfl, rfl, rfl⟩

theorem exec_sameConfig (i : Instr) {s t : State} (hi : ∀ owns level, i ≠ .openStream owns level)
    (e : exec i s = .next t) : SameConfig s t := by
  cases i with
  | openStream owns level => exact absurd rfl (hi owns level)
  | wrb v => exact hostCommand_sameConfig (fun _ => wrbOp_keepsConfig v s) e
  | closeblk => exact hostCommand_sameConfig (closeblkOp_keepsConfig _) e
  | finish => exact hostCommand_sameConfig (finishOp_keepsConfig _) e
  | seek | read | setlen | hcReserved0 | hcReserved8F => exact respondLocal_sameConfig e
  | bits | boolean | unary | int32 | boReserved00 | boReserved0607 | boReserved080F | boReserved101F | boReserved203F
  | boReserved407F | boReserved80FF =>
    exact unlessFatal_sameConfig (fun _ => sinkWrite_keepsConfig _ _ s) e
  | flush c v => exact unlessFatal_sameConfig (fun _ => opFlush_keepsConfig c v s) e
  | blkInit => exact unlessFatal_sameConfig (fun _ => blkInit_keepsConfig s) e
  | blkWrite v => exact unlessFatal_sameConfig (fun _ => blkWrite_keepsConfig v s) e
  | rle1Flushrun => exact unlessFatal_sameConfig (fun _ => flushRun_keepsConfig s) e
  | blkClose => exact unlessFatal_sameConfig (fun _ => blkClose_keepsConfig s) e
  | compress => exact unlessFatal_sameConfig (fun hf => (compress_lane _ s hf).keepsConfig) e
  | bwtSort => exact unlessFatal_sameConfig (fun hf => (bwtSort_lane _ s hf).keepsConfig) e
  | bwtRandomise => exact unlessFatal_sameConfig (fun _ => (bwtRandomise_lane s).keepsConfig) e
  | bwtSortRetry => exact unlessFatal_sameConfig (fun hf => (bwtSortRetry_lane _ s hf).keepsConfig) e
  | bwtOrigin => exact unlessFatal_sameConfig (fun hf => (bwtOrigin_lane s hf).keepsConfig) e
  | mtfGen => exact unlessFatal_sameConfig (fun _ => (mtfGen_lane s).keepsConfig) e
  | rle2Flush => exact unlessFatal_sameConfig (fun _ => (rle2Flush_lane s).keepsConfig) e
  | hufNgroups => exact unlessFatal_sameConfig (fun _ => (hufNgroups_lane _ s).keepsConfig) e
  | hufInit => exact unlessFatal_sameConfig (fun _ => (hufInit_lane s).keepsConfig) e
  | hufIter => exact unlessFatal_sameConfig (fun _ => (hufIter_lane s).keepsConfig) e
  | hufMklen n => exact unlessFatal_sameConfig (fun _ => (hufMklen_lane n.toNat s).keepsConfig) e
  | hufRangechk => exact unlessFatal_sameConfig (fun hf => (hufRangechk_lane s hf).keepsConfig) e
  | hufAssign n => exact unlessFatal_sameConfig (fun _ => (hufAssign_lane n.toNat s).keepsConfig) e
  | hufSelmtf => exact unlessFatal_sameConfig (fun _ => (hufSelmtf_lane s).keepsConfig) e
  | frmBlockhdr => exact unlessFatal_sameConfig (fun _ => (frmBlockhdr_lane s).keepsConfig) e
  | emitInuse => exact unlessFatal_sameConfig (fun _ => (emitInuse_lane s).keepsConfig) e
  | emitCounts => exact unlessFatal_sameConfig (fun _ => (emitCounts_lane s).keepsConfig) e
  | emitSelectors => exact unlessFatal_sameConfig (fun _ => (emitSelectors_lane s).keepsConfig) e
  | emitLengths => exact unlessFatal_sameConfig (fun _ => (emitLengths_lane s).keepsConfig) e
  | emitSymbols => exact unlessFatal_sameConfig (fun _ => (emitSymbols_lane s).keepsConfig) e
  | replay => exact unlessFatal_sameConfig (fun _ => replay_keepsConfig s) e

/-- Settles O13, by the operation each instruction runs. -/
theorem onlyOpenConfigures : Obligations.OnlyOpenConfigures := by
  intro i s t hi e
  obtain ⟨hlevel, hownsSink, hlanes⟩ := exec_sameConfig i hi e
  exact ⟨hlevel, hownsSink, hlanes⟩

end Sys2Proof.Machine
end

section
/-! PROOF. O1 and O57: the machine after reset (R48) and the status outputs (R31). -/

namespace Sys2Proof.Machine

/-- R8, R30: `LANES` is within 1..128, whatever is asked for. -/
theorem clampLanes_range (requested : Nat) : 1 ≤ Config.clampLanes requested ∧ Config.clampLanes requested ≤ 128 := by
  unfold Config.clampLanes Config.threadsMin Config.threadsMax
  omega

/-- R30: the register `CFG.lanes` holds `LANES`. -/
theorem reset_cfgLanes_toNat : State.reset.cfgLanes.toNat = Config.lanes := by
  have hl : Config.lanes ≤ 128 := (clampLanes_range _).2
  exact (BitVec.toNat_ofNat _ _).trans (Nat.mod_eq_of_lt (hl.trans_lt (by decide)))

/-- R316: what `STATUS` shows after fatal entry. -/
theorem status_fatalEntry (s : State) (f : HwFault) : (s.fatalEntry f).status =
    { s.status with
      phase := Phase.fatal.number, fatal := true
      faultCode := if s.fatal then s.faultCode else f.code
      faultBlk := if s.fatal then s.faultBlk else s.blkId } := rfl

/-- Settles O1: the reset values by evaluation, but `CFG.lanes`, which holds the free `LANES`. -/
theorem resetValues : Obligations.ResetValues := by
  have hlanes := clampLanes_range Config.compressorThreadCount
  refine ⟨⟨rfl, rfl, rfl, rfl, rfl, rfl, rfl, rfl, rfl, rfl, rfl, rfl, rfl, rfl, rfl, ?_, ?_, rfl, rfl⟩,
    fun s => ⟨?_, rfl, rfl, rfl, rfl, rfl⟩, status_fatalEntry⟩
  · exact hlanes.1.trans_eq reset_cfgLanes_toNat.symm
  · exact reset_cfgLanes_toNat.trans_le hlanes.2
  · show s.phase.number = _
    cases s.phase <;> rfl

theorem reset_inputOk : State.reset.InputOk where
  level := by decide
  cap := rfl
  fits := by decide
  run := by decide
  filled := rfl
  raw := by decide

theorem reset_fatalOk : State.reset.FatalOk := ⟨by decide, by decide⟩

theorem reset_inv : State.reset.Inv where
  stores := reset_storesWf
  input := reset_inputOk
  fatal := reset_fatalOk
  sink := by unfold State.SinkOk; decide

theorem reset_betweenCommands : State.reset.BetweenCommands where
  inv := reset_inv
  phase := fun _ => rfl
  open_ := fun _ h => nomatch h
  level := fun h => nomatch h

/-- Settles O57, field by field of the two invariants at reset. -/
theorem invAtReset : Obligations.InvAtReset := ⟨reset_inv, reset_betweenCommands⟩

end Sys2Proof.Machine
end

section
/-! PROOF. O21: every operation only pushes on `BYTES` (R45, R67), and so does every step. -/

namespace Sys2Proof.Machine

/-- R67: what had been pushed in `s` is the beginning of what has been pushed in `t`. -/
def Pushed (s t : State) : Prop := s.sink.bytes <+: t.sink.bytes

theorem Pushed.of_bytes {s t : State} (h : t.sink.bytes = s.sink.bytes) : Pushed s t := ⟨[], by simp [h]⟩

theorem Pushed.refl (s : State) : Pushed s s := .of_bytes rfl

theorem Pushed.trans {s t u : State} (h : Pushed s t) (h' : Pushed t u) : Pushed s u := List.IsPrefix.trans h h'

theorem SameOutsideLane.pushed {s t : State} (h : SameOutsideLane s t) : Pushed s t :=
  .of_bytes (congrArg BitSink.bytes h.sink)

/-- Completed or not, the operation only pushes; completed, it leaves the flag `fatal` as well, which the operations
after it rely on. -/
abbrev OnlyPushes (s : State) (r : Res) : Prop := r.Post (fun t => Pushed s t ∧ t.fatal = s.fatal) (Pushed s)

theorem OnlyPushes.after {s t : State} {r : Res} (h : Pushed s t) (hf : t.fatal = s.fatal) (hr : OnlyPushes t r) :
    OnlyPushes s r :=
  Res.Post.mono hr (fun _ h' => ⟨h.trans h'.1, h'.2.trans hf⟩) fun _ h' => h.trans h'

theorem OnlyPushes.andThen {s : State} {r : Res} {k : State → Res} (h : OnlyPushes s r)
    (hk : ∀ t, t.fatal = s.fatal → OnlyPushes t (k t)) : OnlyPushes s (r.andThen k) :=
  Res.Post.andThen h fun t ht => OnlyPushes.after ht.1 ht.2 (hk t ht.2)

/-- An operation that completes in a state with the same sink and the same flag `fatal` pushes nothing. -/
theorem onlyPushes_done {s t : State} (hs : t.sink = s.sink) (hf : t.fatal = s.fatal) : OnlyPushes s (.done t) :=
  ⟨.of_bytes (congrArg BitSink.bytes hs), hf⟩

theorem Lane.onlyPushes {cs : List (BitVec 8)} {s : State} {r : Res} (h : Lane cs s r) : OnlyPushes s r :=
  Res.Post.mono h (fun _ ht => ⟨ht.same.pushed, ht.fatal⟩) fun _ ht => ht.same.pushed

/-- Fatal entry pushes nothing (R316). -/
theorem raise_onlyPushes (f : HwFault) (s : State) : OnlyPushes s (raise f s) := Pushed.refl s

/-! ## The BitSink -/

/-- R131: written bits only push. -/
theorem pushed_putBits (s : State) (bs : List Bool) : Pushed s { s with sink := s.sink.putBits bs } := by
  obtain ⟨added, h⟩ := (s.sink.appends_putBits bs).pushed
  exact ⟨added.map SinkMsg.byte, h.symm⟩

theorem sinkWrite_onlyPushes (legal : Bool) (bs : List Bool) (s : State) : OnlyPushes s (sinkWrite legal bs s) := by
  rcases sinkWrite_cases legal bs s with ⟨-, e⟩ | ⟨-, -, e⟩ | ⟨-, -, e⟩ <;> rw [e]
  · exact raise_onlyPushes _ s
  · exact raise_onlyPushes _ s
  · exact ⟨pushed_putBits s bs, rfl⟩

theorem opFlush_onlyPushes (count : BitVec 8) (value : Word32) (s : State) : OnlyPushes s (opFlush count value s) :=
  (sinkWrite_onlyPushes _ _ s).andThen fun _ _ => ⟨.of_bytes rfl, rfl⟩

theorem applyOps_onlyPushes (ops : List BitOp) (s : State) : OnlyPushes s (applyOps ops s) := by
  induction ops generalizing s with
  | nil => exact ⟨.refl s, rfl⟩
  | cons op ops ih =>
    rw [applyOps, BitOp.apply_eq]
    exact (sinkWrite_onlyPushes _ _ s).andThen fun t _ => ih t

/-! ## The input stage -/

theorem blkInit_onlyPushes (s : State) : OnlyPushes s (blkInit s) := by
  unfold blkInit
  split
  · trivial
  · exact onlyPushes_done rfl rfl

theorem flushRun_onlyPushes (s : State) : OnlyPushes s (flushRun s) := by
  refine (flushRun_post s).mono ?_ fun _ h => h.elim
  rintro t (⟨-, rfl⟩ | ⟨-, -, rfl⟩)
  · exact onlyPushes_done rfl rfl
  · exact onlyPushes_done rfl rfl

theorem blkWrite_onlyPushes (v : Byte) (s : State) : OnlyPushes s (blkWrite v s) := by
  unfold blkWrite
  split
  · exact onlyPushes_done rfl rfl
  split
  · exact (flushRun_onlyPushes s).andThen fun _ _ => onlyPushes_done rfl rfl
  split
  · trivial
  split
  · exact onlyPushes_done rfl rfl
  split
  · split
    · exact flushRun_onlyPushes { s.countRaw v with runLen := s.runLen + 1 }
    · exact onlyPushes_done rfl rfl
  · exact OnlyPushes.andThen (s := s) (flushRun_onlyPushes (s.countRaw v)) fun _ _ => onlyPushes_done rfl rfl

theorem blkClose_onlyPushes (s : State) : OnlyPushes s (blkClose s) := by
  unfold blkClose
  split
  · exact raise_onlyPushes _ s
  · exact OnlyPushes.andThen (s := s) (flushRun_onlyPushes { s with closed := true }) fun _ _ =>
      onlyPushes_done rfl rfl

/-! ## The commands -/

theorem replay_onlyPushes (s : State) : OnlyPushes s (replay s) := by
  unfold replay
  split
  · trivial
  · exact (applyOps_onlyPushes _ s).andThen fun _ _ => onlyPushes_done rfl rfl

theorem emitBlock_onlyPushes (p : Params) {s : State} (hf : s.fatal = false) : OnlyPushes s (emitBlock p s) :=
  (blkClose_onlyPushes s).andThen fun t ht =>
    (compress_lane p t (ht.trans hf)).onlyPushes.andThen fun u _ => replay_onlyPushes u

/-- R286: the assignments of OPEN push nothing. -/
theorem pushed_openRegisters (owns : Bool) (level : BitVec 8) (s : State) : Pushed s (s.openRegisters owns level) :=
  .of_bytes rfl

theorem openOp_onlyPushes (owns : Bool) (level : BitVec 8) (s : State) : OnlyPushes s (openOp owns level s) := by
  unfold openOp
  split
  · have hp := pushed_openRegisters owns level s
    have hf := s.openRegisters_fatal owns level
    generalize s.openRegisters owns level = u at hp hf ⊢
    exact OnlyPushes.after hp hf ((applyOps_onlyPushes _ u).andThen fun t _ => (blkInit_onlyPushes t).andThen fun _ _ =>
      onlyPushes_done rfl rfl)
  · exact raise_onlyPushes _ s

theorem wrbOp_onlyPushes (v : Byte) (s : State) : OnlyPushes s (wrbOp v s) :=
  (blkWrite_onlyPushes v s).andThen fun _ _ => by
    split <;> exact onlyPushes_done rfl rfl

theorem closeblkOp_onlyPushes (p : Params) {s : State} (hf : s.fatal = false) : OnlyPushes s (closeblkOp p s) := by
  unfold closeblkOp
  split
  · exact onlyPushes_done rfl rfl
  · exact (emitBlock_onlyPushes p hf).andThen fun t _ => (blkInit_onlyPushes t).andThen fun _ _ =>
      onlyPushes_done rfl rfl

theorem footer_onlyPushes (s : State) : OnlyPushes s (footer s) :=
  (applyOps_onlyPushes _ s).andThen fun t _ => (sinkWrite_onlyPushes _ _ t).andThen fun u _ => opFlush_onlyPushes _ _ u

/-- R289: the end of FINISH pushes the `close` indication, or nothing. -/
theorem pushed_closeStream (s : State) : Pushed s s.closeStream.respondOk := ⟨_, rfl⟩

theorem finishOp_onlyPushes (p : Params) {s : State} (hf : s.fatal = false) : OnlyPushes s (finishOp p s) := by
  refine OnlyPushes.andThen ?_ fun t _ => (footer_onlyPushes t).andThen fun u _ => ⟨pushed_closeStream u, rfl⟩
  split
  · exact onlyPushes_done rfl rfl
  · exact emitBlock_onlyPushes p hf

/-! ## What a step makes of the operation it runs -/

theorem unlessFatal_pushed {op : State → Res} {s t : State} (h : s.fatal = false → OnlyPushes s (op s))
    (e : unlessFatal op s = .next t) : Pushed s t := by
  rcases unlessFatal_eq_next.1 e with ⟨-, rfl⟩ | ⟨hf, hd | hr⟩
  · exact .refl t
  · exact (Res.Post.of_done (h hf) hd).1
  · exact Res.Post.of_raised (h hf) hr

/-- A response pushes nothing. -/
theorem pushed_respond (s : State) (rkind rcode : BitVec 8) : Pushed s (s.respond rkind rcode) := .of_bytes rfl

theorem hostCommand_pushed {ok : Bool} {op : State → Res} {s t : State} (h : s.fatal = false → OnlyPushes s (op s))
    (e : hostCommand ok op s = .next t) : Pushed s t := by
  rcases hostCommand_eq_next.1 e with ⟨-, rfl⟩ | ⟨-, -, rfl⟩ | ⟨hf, -, hd | ⟨u, hr, rfl⟩⟩
  · exact pushed_respond s _ _
  · exact pushed_respond s _ _
  · exact (Res.Post.of_done (h hf) hd).1
  · exact (Res.Post.of_raised (h hf) hr).trans (pushed_respond u _ _)

theorem unlessFatal_sameOutsideLane {op : State → Res} {cs : List (BitVec 8)} {s t : State}
    (h : s.fatal = false → Lane cs s (op s)) (e : unlessFatal op s = .next t) : SameOutsideLane s t := by
  rcases unlessFatal_eq_next.1 e with ⟨-, rfl⟩ | ⟨hf, hd | hr⟩
  · exact .refl t
  · exact (Res.Post.of_done (h hf) hd).same
  · exact (Res.Post.of_raised (h hf) hr).same

/-- `COMPRESS` and the phase operations it runs (R294), with `RLE2.FLUSH`. -/
def isLaneOperation : Instr → Bool
  | .compress | .bwtSort | .bwtRandomise | .bwtSortRetry | .bwtOrigin | .mtfGen | .rle2Flush | .hufNgroups | .hufInit
  | .hufIter | .hufMklen _ | .hufRangechk | .hufAssign _ | .hufSelmtf | .frmBlockhdr | .emitInuse | .emitCounts
  | .emitSelectors | .emitLengths | .emitSymbols => true
  | _ => false

/-- R326: an instruction of the lane leaves everything outside the lane as it was. -/
theorem exec_sameOutsideLane {i : Instr} {s t : State} (hi : isLaneOperation i = true) (e : exec i s = .next t) :
    SameOutsideLane s t := by
  cases i with
  | compress => exact unlessFatal_sameOutsideLane (compress_lane _ s) e
  | bwtSort => exact unlessFatal_sameOutsideLane (bwtSort_lane _ s) e
  | bwtRandomise => exact unlessFatal_sameOutsideLane (fun _ => bwtRandomise_lane s) e
  | bwtSortRetry => exact unlessFatal_sameOutsideLane (bwtSortRetry_lane _ s) e
  | bwtOrigin => exact unlessFatal_sameOutsideLane (bwtOrigin_lane s) e
  | mtfGen => exact unlessFatal_sameOutsideLane (fun _ => mtfGen_lane s) e
  | rle2Flush => exact unlessFatal_sameOutsideLane (fun _ => rle2Flush_lane s) e
  | hufNgroups => exact unlessFatal_sameOutsideLane (fun _ => hufNgroups_lane _ s) e
  | hufInit => exact unlessFatal_sameOutsideLane (fun _ => hufInit_lane s) e
  | hufIter => exact unlessFatal_sameOutsideLane (fun _ => hufIter_lane s) e
  | hufMklen n => exact unlessFatal_sameOutsideLane (fun _ => hufMklen_lane n.toNat s) e
  | hufRangechk => exact unlessFatal_sameOutsideLane (hufRangechk_lane s) e
  | hufAssign n => exact unlessFatal_sameOutsideLane (fun _ => hufAssign_lane n.toNat s) e
  | hufSelmtf => exact unlessFatal_sameOutsideLane (fun _ => hufSelmtf_lane s) e
  | frmBlockhdr => exact unlessFatal_sameOutsideLane (fun _ => frmBlockhdr_lane s) e
  | emitInuse => exact unlessFatal_sameOutsideLane (fun _ => emitInuse_lane s) e
  | emitCounts => exact unlessFatal_sameOutsideLane (fun _ => emitCounts_lane s) e
  | emitSelectors => exact unlessFatal_sameOutsideLane (fun _ => emitSelectors_lane s) e
  | emitLengths => exact unlessFatal_sameOutsideLane (fun _ => emitLengths_lane s) e
  | emitSymbols => exact unlessFatal_sameOutsideLane (fun _ => emitSymbols_lane s) e
  | _ => cases hi

theorem exec_pushed {i : Instr} {s t : State} (e : exec i s = .next t) : Pushed s t := by
  cases i with
  | openStream owns level => exact hostCommand_pushed (fun _ => openOp_onlyPushes owns level s) e
  | wrb v => exact hostCommand_pushed (fun _ => wrbOp_onlyPushes v s) e
  | closeblk => exact hostCommand_pushed (closeblkOp_onlyPushes _) e
  | finish => exact hostCommand_pushed (finishOp_onlyPushes _) e
  | seek | read | setlen | hcReserved0 | hcReserved8F =>
    obtain rfl := Host.Outcome.next.inj e
    exact pushed_respond s _ _
  | bits | boolean | unary | int32 | boReserved00 | boReserved0607 | boReserved080F | boReserved101F | boReserved203F
  | boReserved407F | boReserved80FF =>
    exact unlessFatal_pushed (fun _ => sinkWrite_onlyPushes _ _ s) e
  | flush c v => exact unlessFatal_pushed (fun _ => opFlush_onlyPushes c v s) e
  | blkInit => exact unlessFatal_pushed (fun _ => blkInit_onlyPushes s) e
  | blkWrite v => exact unlessFatal_pushed (fun _ => blkWrite_onlyPushes v s) e
  | rle1Flushrun => exact unlessFatal_pushed (fun _ => flushRun_onlyPushes s) e
  | blkClose => exact unlessFatal_pushed (fun _ => blkClose_onlyPushes s) e
  | replay => exact unlessFatal_pushed (fun _ => replay_onlyPushes s) e
  | _ => exact (exec_sameOutsideLane rfl e).pushed

theorem execMessage_pushed {w : CmdWord} {s t : State} (e : execMessage w s = .next t) : Pushed s t := by
  unfold execMessage at e
  split at e
  · exact exec_pushed e
  · cases e

/-- R24, R25: the sequencer's own operation only pushes. -/
theorem phaseOp_onlyPushes (p : Params) (ph : Phase) {s : State} (hf : s.fatal = false) :
    OnlyPushes s (phaseOp p ph s) := by
  cases ph with
  | idle | filling | fatal => exact onlyPushes_done rfl rfl
  | queued => exact (phaseQueued_lane s hf).onlyPushes
  | sort1 => exact (bwtSort_lane p s hf).onlyPushes
  | randomise => exact (bwtRandomise_lane s).onlyPushes
  | sort2 => exact (bwtSortRetry_lane p s hf).onlyPushes
  | origin => exact (bwtOrigin_lane s hf).onlyPushes
  | mtf => exact (mtfGen_lane s).onlyPushes
  | hufInit => exact (phaseHufInit_lane p s).onlyPushes
  | hufIter => exact (phaseHufIter_lane s).onlyPushes
  | hufAssign => exact (phaseHufAssign_lane s hf).onlyPushes
  | emit => exact (phaseEmit_lane s).onlyPushes
  | compressed => exact replay_onlyPushes s
  | flushed => exact blkInit_onlyPushes s

/-- R350: the reset input leaves `BYTES` as it is. -/
theorem pushed_hardReset (s : State) : Pushed s s.hardReset := .of_bytes rfl

/-- 93 U15: of a command cut by reset the first bytes are out, after what had been pushed. -/
theorem pushed_cutByReset (s t : State) : Pushed s (s.cutByReset t) := ⟨_, rfl⟩

theorem resetDuring_pushed {s t : State} {o : Host.Outcome State Fault Refusal} (e : resetDuring s o = .next t) :
    Pushed s t := by
  cases o with
  | next u =>
    obtain rfl := Host.Outcome.next.inj e
    exact pushed_cutByReset s u
  | fault | refused => cases e

theorem step_pushed {s t : State} (e : step s = .next t) : Pushed s t := by
  unfold step at e
  split at e
  case h_1 => exact unlessFatal_pushed (phaseOp_onlyPushes _ _) e
  case h_2 w rest _ => exact execMessage_pushed (s := { s with inbox := rest }) e
  case h_3 | h_4 =>
    obtain rfl := Host.Outcome.next.inj e
    exact .of_bytes rfl
  case h_5 rest _ =>
    obtain rfl := Host.Outcome.next.inj e
    exact pushed_hardReset { s with inbox := rest }
  case h_6 rest _ => exact resetDuring_pushed (s := { s with inbox := rest }) e

/-- Settles O21, by the inputs a step can take: each pushes only after what had been pushed. -/
theorem bytesOnlyGrow : Obligations.BytesOnlyGrow := by
  intro s t e
  obtain ⟨added, h⟩ := step_pushed e
  exact ⟨added, h.symm⟩

end Sys2Proof.Machine
end

section
/-! PROOF. O37: the inverse walk of a decoder (R99, R103, R202) reads back what `MTF.GEN` has written (R208). -/

namespace Sys2Proof.Machine

/-! ## The digits of a zero run, R103 -/

theorem zeroRunAux_lt_two (fuel r : Nat) : ∀ d ∈ zeroRunAux fuel r, d < 2 := by
  fun_induction zeroRunAux fuel r with
  | case1 => simp
  | case2 => simp
  | case3 _ _ _ _ ih => simpa using ih
  | case4 _ _ _ _ ih => simpa using ih

theorem zeroRun_lt_two (r : Nat) : ∀ d ∈ zeroRun r, d < 2 := zeroRunAux_lt_two r r

theorem zeroRunValue_zeroRunAux (fuel r : Nat) (h : r ≤ fuel) : zeroRunValue (zeroRunAux fuel r) = r := by
  fun_induction zeroRunAux fuel r with
  | case1 => simp only [zeroRunValue]; omega
  | case2 => simp only [zeroRunValue]
  | case3 fuel r h0 hodd ih =>
    have := ih (by omega)
    simp only [zeroRunValue]
    omega
  | case4 fuel r h0 heven ih =>
    have := ih (by omega)
    simp only [zeroRunValue]
    omega

/-- R103: the digits stand for the run. -/
theorem zeroRunValue_zeroRun (r : Nat) : zeroRunValue (zeroRun r) = r := zeroRunValue_zeroRunAux r r le_rfl

theorem length_le_zeroRunValue (ds : List Nat) : ds.length ≤ zeroRunValue ds := by
  induction ds with
  | nil => exact le_rfl
  | cons d ds ih =>
    simp only [zeroRunValue, List.length_cons]
    omega

/-- A run takes no more symbols than it has zeros. -/
theorem length_zeroRun_le (r : Nat) : (zeroRun r).length ≤ r :=
  (length_le_zeroRunValue _).trans_eq (zeroRunValue_zeroRun r)

/-! ## Ranks and move-to-front, R202 -/

theorem rankOf_eq_idxOf (c : Nat) (ys : List Nat) : rankOf c ys = ys.idxOf c := by
  induction ys with
  | nil => rfl
  | cons y ys ih => by_cases h : y = c <;> simp [rankOf, h, ih]

theorem rankOf_lt_length {c : Nat} {ys : List Nat} (h : c ∈ ys) : rankOf c ys < ys.length := by
  rw [rankOf_eq_idxOf]
  exact List.idxOf_lt_length_of_mem h

/-- The element at the rank of `c` is `c`. -/
theorem getD_rankOf {c : Nat} {ys : List Nat} (h : c ∈ ys) : ys.getD (rankOf c ys) 0 = c := by
  rw [List.getD_eq_getElem _ _ (rankOf_lt_length h)]
  simp only [rankOf_eq_idxOf, List.getElem_idxOf]

/-- Only the first element has rank 0. -/
theorem headD_of_rankOf_eq_zero {c : Nat} {ys : List Nat} (h : c ∈ ys) (h0 : rankOf c ys = 0) : ys.headD 0 = c := by
  cases ys with
  | nil => cases h
  | cons y ys =>
    have hy := getD_rankOf h
    rwa [h0, List.getD_cons_zero] at hy

theorem moveToFront_perm {ys : List Nat} {j : Nat} (h : j < ys.length) : (moveToFront ys j).Perm ys := by
  rw [moveToFront, List.getD_eq_getElem _ _ h, ← List.eraseIdx_eq_take_drop_succ]
  exact List.getElem_cons_eraseIdx_perm h

/-! ## The walk and its inverse -/

/-- Digits of a run wait until a symbol that is no digit comes. -/
theorem decodeSymbols_digits (eob : Nat) (ys ds es vs : List Nat) (h : ∀ d ∈ es, d < 2) :
    decodeSymbols eob ys ds (es ++ vs) = decodeSymbols eob ys (ds ++ es) vs := by
  induction es generalizing ds with
  | nil => simp
  | cons e es ih =>
    rw [List.forall_mem_cons] at h
    rw [List.cons_append, decodeSymbols, if_pos h.1, ih _ h.2, List.append_assoc, List.singleton_append]

/-- R103, R203: a zero run and the symbol after it, which is no digit. -/
theorem decodeSymbols_zeroRun (eob : Nat) (ys : List Nat) (z v : Nat) (vs : List Nat) (hv : 2 ≤ v) :
    decodeSymbols eob ys [] (zeroRun z ++ v :: vs) = List.replicate z (ys.headD 0) ++
      (if v = eob then [] else ys.getD (v - 1) 0 :: decodeSymbols eob (moveToFront ys (v - 1)) [] vs) := by
  rw [decodeSymbols_digits eob ys [] _ _ (zeroRun_lt_two z), List.nil_append, decodeSymbols, if_neg (by omega),
    zeroRunValue_zeroRun]

/-- R99, R202 to R205: decoding undoes the walk. The `z` zero ranks pending at its start are read back as the front of
the list; EOB is no digit and lies above every rank symbol. -/
theorem decodeSymbols_mtfWalk {eob : Nat} (he : 2 ≤ eob) (ys : List Nat) (z : Nat) (cs : List Nat)
    (hy : ys.length < eob) (hc : ∀ c ∈ cs, c ∈ ys) :
    decodeSymbols eob ys [] (mtfWalk eob ys z cs).1 = List.replicate z (ys.headD 0) ++ cs := by
  induction cs generalizing ys z with
  | nil => rw [mtfWalk, decodeSymbols_zeroRun _ _ _ _ _ he, if_pos rfl]
  | cons c cs ih =>
    obtain ⟨hcy, hcs⟩ := List.forall_mem_cons.1 hc
    rw [mtfWalk]
    split
    next h0 =>
      rw [ih ys (z + 1) hy hcs, headD_of_rankOf_eq_zero hcy h0, List.replicate_succ', List.append_assoc,
        List.singleton_append]
    next h0 =>
      have hj := rankOf_lt_length hcy
      have hperm := moveToFront_perm hj
      have hrest := ih (moveToFront ys (rankOf c ys)) 0 (hperm.length_eq.trans_lt hy) fun d hd =>
        hperm.mem_iff.2 (hcs d hd)
      rw [decodeSymbols_zeroRun _ _ _ _ _ (by omega), if_neg (by omega), Nat.add_sub_cancel, getD_rankOf hcy, hrest,
        List.replicate_zero, List.nil_append]

/-- R202 to R205: a rank takes one symbol at most, and EOB one. -/
theorem length_mtfWalk_le (eob : Nat) (ys : List Nat) (z : Nat) (cs : List Nat) :
    (mtfWalk eob ys z cs).1.length ≤ z + cs.length + 1 := by
  induction cs generalizing ys z with
  | nil => simpa [mtfWalk] using length_zeroRun_le z
  | cons c cs ih =>
    rw [mtfWalk]
    split
    next => exact (ih ys (z + 1)).trans_eq (by simp only [List.length_cons]; omega)
    next =>
      have hrun := length_zeroRun_le z
      have hrest := ih (moveToFront ys (rankOf c ys)) 0
      simp only [List.length_append, List.length_cons]
      omega

/-- R201: no symbol lies above EOB. -/
theorem mtfWalk_le {eob : Nat} (he : 2 ≤ eob) (ys : List Nat) (z : Nat) (cs : List Nat) (hy : ys.length < eob)
    (hc : ∀ c ∈ cs, c ∈ ys) : ∀ v ∈ (mtfWalk eob ys z cs).1, v ≤ eob := by
  have hrun : ∀ r, ∀ d ∈ zeroRun r, d ≤ eob := fun r d hd => (zeroRun_lt_two r d hd).le.trans he
  induction cs generalizing ys z with
  | nil =>
    rw [mtfWalk, List.forall_mem_append, List.forall_mem_singleton]
    exact ⟨hrun z, le_rfl⟩
  | cons c cs ih =>
    obtain ⟨hcy, hcs⟩ := List.forall_mem_cons.1 hc
    rw [mtfWalk]
    split
    next => exact ih ys (z + 1) hy hcs
    next =>
      have hj := rankOf_lt_length hcy
      have hperm := moveToFront_perm hj
      rw [List.forall_mem_append, List.forall_mem_cons]
      exact ⟨hrun z, by omega, ih _ 0 (hperm.length_eq.trans_lt hy) fun d hd => hperm.mem_iff.2 (hcs d hd)⟩

/-! ## The dense numbering of the byte values, R200 -/

theorem mem_usedBytes {bs : List Byte} {v : Byte} : v ∈ usedBytes bs ↔ v ∈ bs := by
  have hall : v ∈ (List.range 256).map (BitVec.ofNat 8) :=
    List.mem_map.2 ⟨v.toNat, List.mem_range.2 v.isLt, by rw [BitVec.ofNat_toNat, BitVec.setWidth_eq]⟩
  simp only [usedBytes, List.mem_filter, hall, true_and, List.contains_iff_mem]

theorem length_usedBytes_le (bs : List Byte) : (usedBytes bs).length ≤ 256 :=
  (List.length_filter_le _ _).trans_eq (by rw [List.length_map, List.length_range])

/-- A byte of the buffer has a dense index. -/
theorem rankOf_usedBytes_lt {bs : List Byte} {v : Byte} (h : v ∈ bs) :
    rankOf v.toNat ((usedBytes bs).map BitVec.toNat) < (usedBytes bs).length :=
  (rankOf_lt_length (List.mem_map_of_mem (mem_usedBytes.2 h))).trans_eq (List.length_map _)

/-- The dense index of a byte of the buffer leads back to the byte. -/
theorem getD_usedBytes_rankOf {bs : List Byte} {v : Byte} (h : v ∈ bs) :
    (usedBytes bs).getD (rankOf v.toNat ((usedBytes bs).map BitVec.toNat)) 0 = v := by
  have hrank := getD_rankOf (List.mem_map_of_mem (f := BitVec.toNat) (mem_usedBytes.2 h))
  have hlt := rankOf_usedBytes_lt h
  rw [List.getD_eq_getElem _ _ (by rwa [List.length_map]), List.getElem_map] at hrank
  rw [List.getD_eq_getElem _ _ hlt]
  exact BitVec.eq_of_toNat_eq hrank

theorem lastOfRotation_mem {bs : List Byte} (h : bs ≠ []) (z : Nat) : lastOfRotation bs z ∈ bs := by
  have hlt := Nat.mod_lt (z + bs.length - 1) (List.length_pos_iff.2 h)
  rw [lastOfRotation, bwrap, List.getD_eq_getElem _ _ hlt]
  exact List.getElem_mem hlt

/-! ## The symbols of a Block -/

section
variable {bs : List Byte} (h : bs ≠ []) (zs : List Nat)
include h

theorem length_usedBytes_pos : 0 < (usedBytes bs).length := by
  obtain ⟨v, hv⟩ := List.exists_mem_of_ne_nil bs h
  exact List.length_pos_of_mem (mem_usedBytes.2 hv)

theorem lastColumn_mem_range : ∀ c ∈ lastColumn ((usedBytes bs).map BitVec.toNat) bs zs,
    c ∈ List.range (usedBytes bs).length := by
  rw [lastColumn, List.forall_mem_map]
  exact fun z _ => List.mem_range.2 (rankOf_usedBytes_lt (lastOfRotation_mem h z))

/-- R71, R202: the dense indices of the last column lead back to its bytes. -/
theorem map_getD_lastColumn : (lastColumn ((usedBytes bs).map BitVec.toNat) bs zs).map
    (fun k => (usedBytes bs).getD k 0) = zs.map (lastOfRotation bs) := by
  rw [lastColumn, List.map_map]
  exact List.map_congr_left fun z _ => getD_usedBytes_rankOf (lastOfRotation_mem h z)

theorem decodeSymbols_symbolsOf :
    decodeSymbols ((usedBytes bs).length + 1) (List.range (usedBytes bs).length) [] (symbolsOf bs zs).1 =
      lastColumn ((usedBytes bs).map BitVec.toNat) bs zs := by
  have hpos := length_usedBytes_pos h
  simp only [symbolsOf, List.length_map]
  exact decodeSymbols_mtfWalk (by omega) _ 0 _ (by simp) (lastColumn_mem_range h zs)

theorem symbolsOf_le : ∀ v ∈ (symbolsOf bs zs).1, v ≤ (usedBytes bs).length + 1 := by
  have hpos := length_usedBytes_pos h
  simp only [symbolsOf, List.length_map]
  exact mtfWalk_le (by omega) _ 0 _ (by simp) (lastColumn_mem_range h zs)

end

theorem length_symbolsOf_le (bs : List Byte) (zs : List Nat) : (symbolsOf bs zs).1.length ≤ zs.length + 1 :=
  (length_mtfWalk_le _ _ 0 _).trans_eq (by rw [lastColumn, List.length_map, Nat.zero_add])

/-! ## `MTF.GEN` -/

/-- R208: what `MTF.GEN` leaves for a decoder, from the buffer `bs` and the sorted offsets `zs`. -/
structure SymbolTables (bs : List Byte) (zs : List Nat) (t : State) : Prop where
  seqToUnseq : t.seqToUnseq = Store.ofList (usedBytes bs)
  nInUse : t.nInUse = BitVec.ofNat 9 (usedBytes bs).length
  alphaSize : t.alphaSize = BitVec.ofNat 9 ((usedBytes bs).length + 2)
  szptr : t.szptr = Store.ofNats 9 (symbolsOf bs zs).1
  nMTF : t.nMTF = BitVec.ofNat 20 (symbolsOf bs zs).1.length

theorem mtfGen_symbolTables {s : State} {bs : List Byte} {zs : List (BitVec 20)}
    (hb : s.b.readRange 0 s.len.toNat = some bs) (hz : s.zptr.readRange 0 s.len.toNat = some zs) :
    (mtfGen s).Post (fun t => s.len.toNat ≤ s.cap.toNat ∧ SymbolTables bs (natsOf zs) t) fun _ => False := by
  refine withBuffer_post fun bs' hle hb' => withZptr_post fun zs' hz' => ?_
  obtain rfl := Option.some.inj (hb.symm.trans hb')
  obtain rfl := Option.some.inj (hz.symm.trans hz')
  exact ⟨hle, rfl, rfl, rfl, rfl, rfl⟩

theorem exec_mtfGen_eq_next {s t : State} (hf : s.fatal = false) (e : exec .mtfGen s = .next t) :
    mtfGen s = .done t := by
  rcases unlessFatal_eq_next.1 e with ⟨h, -⟩ | ⟨-, hd | hr⟩
  · rw [hf] at h; cases h
  · exact hd
  · exact (not_laneRaised_nil ((mtfGen_lane s).of_raised hr)).elim

theorem SymbolTables.nInUse_toNat {bs : List Byte} {zs : List Nat} {t : State} (h : SymbolTables bs zs t) :
    t.nInUse.toNat = (usedBytes bs).length := by
  have := length_usedBytes_le bs
  rw [h.nInUse, BitVec.toNat_ofNat, Nat.mod_eq_of_lt (by omega)]

theorem SymbolTables.alphaSize_toNat {bs : List Byte} {zs : List Nat} {t : State} (h : SymbolTables bs zs t) :
    t.alphaSize.toNat = (usedBytes bs).length + 2 := by
  have := length_usedBytes_le bs
  rw [h.alphaSize, BitVec.toNat_ofNat, Nat.mod_eq_of_lt (by omega)]

/-- The count of the symbols fits its register on a Block of at most 900000 bytes. -/
theorem SymbolTables.nMTF_toNat {bs : List Byte} {zs : List Nat} {t : State} (h : SymbolTables bs zs t)
    (hz : zs.length ≤ 900000) : t.nMTF.toNat = (symbolsOf bs zs).1.length := by
  have := length_symbolsOf_le bs zs
  rw [h.nMTF, BitVec.toNat_ofNat, Nat.mod_eq_of_lt (by omega)]

/-- Settles O37: `MTF.GEN` leaves the walk over the last column and the numbering of its bytes; decoding undoes both. -/
theorem symbolStreamDecodes : Obligations.SymbolStreamDecodes := by
  intro s t bs zs hf hlen hcap hb hz e
  obtain ⟨hle, ht⟩ := (mtfGen_symbolTables hb hz).of_done (exec_mtfGen_eq_next hf e)
  have hbl := Store.length_of_readRange hb
  have hne : bs ≠ [] := List.length_pos_iff.1 (by omega)
  have hzl : (natsOf zs).length = s.len.toNat := (List.length_map _).trans (Store.length_of_readRange hz)
  have hsyms : natsOf ((symbolsOf bs (natsOf zs)).1.map (BitVec.ofNat 9)) = (symbolsOf bs (natsOf zs)).1 :=
    natsOf_map_ofNat _ fun v hv => by
      have := symbolsOf_le hne _ v hv
      have := length_usedBytes_le bs
      omega
  refine ⟨(symbolsOf bs (natsOf zs)).1.map (BitVec.ofNat 9), usedBytes bs, ?symbols, ?numbering, ?decoded⟩
  case symbols =>
    rw [ht.szptr, ht.nMTF_toNat (by omega), ← List.length_map (BitVec.ofNat 9)]
    exact Store.readRange_ofList _
  case numbering =>
    rw [ht.seqToUnseq, ht.nInUse_toNat]
    exact Store.readRange_ofList _
  case decoded =>
    rw [hsyms, ht.alphaSize_toNat, ht.nInUse_toNat, Nat.add_sub_assoc (by decide), decodeSymbols_symbolsOf hne,
      map_getD_lastColumn hne, natsOf, List.map_map, ← hbl]
    rfl

end Sys2Proof.Machine
end

section
/-! PROOF. O6, O7 and O8: the decoder, one equation per row of R106 and R107 and one for the harness words (log entry 5),
against the encoder. -/

namespace Sys2Proof

/-! ## The fields of a word -/

theorem toNat_hop (w : BitVec 16) : (w.extractLsb' 12 4).toNat = w.toNat / 4096 := by
  rw [BitVec.extractLsb'_toNat, Nat.shiftRight_eq_div_pow]
  omega

theorem toNat_hmod (w : BitVec 16) : (w.extractLsb' 8 4).toNat = w.toNat / 256 % 16 := by
  rw [BitVec.extractLsb'_toNat, Nat.shiftRight_eq_div_pow]

theorem harg_eq_zero {w : BitVec 16} : w.extractLsb' 0 8 = 0#8 ↔ w.toNat % 256 = 0 := by
  rw [BitVec.toNat_eq, BitVec.extractLsb'_toNat, Nat.shiftRight_zero]
  rfl

theorem toNat_kind (w : BitVec 48) : (w.extractLsb' 40 8).toNat = w.toNat / 2 ^ 40 := by
  rw [BitVec.extractLsb'_toNat, Nat.shiftRight_eq_div_pow]
  omega

theorem toNat_append_div {m n : Nat} (p : BitVec m) (a : BitVec n) : (p ++ a).toNat / 2 ^ n = p.toNat := by
  rw [toNat_append_add, Nat.mul_comm, Nat.mul_add_div (by positivity), Nat.div_eq_of_lt a.isLt, Nat.add_zero]

/-- A word is its fixed high part followed by its low field. -/
theorem append_extractLsb'_low {m n : Nat} {p : BitVec m} {w : BitVec (m + n)} (h : w.toNat / 2 ^ n = p.toNat) :
    p ++ w.extractLsb' 0 n = w := by
  apply BitVec.eq_of_toNat_eq
  rw [toNat_append_add, BitVec.extractLsb'_toNat, Nat.shiftRight_zero, ← h, Nat.mul_comm, Nat.div_add_mod]

/-- R107: the fields of a word written as kind, count and value. -/
theorem fields_of_append (k c : BitVec 8) (v : BitVec 32) : (k ++ c ++ v).toNat / 2 ^ 40 = k.toNat ∧
    (k ++ c ++ v).extractLsb' 32 8 = c ∧ (k ++ c ++ v).extractLsb' 0 32 = v := by
  refine ⟨?kind, ?count, BitVec.extractLsb'_append_eq_right⟩
  case kind =>
    rw [toNat_append_add, toNat_append_add]
    omega
  case count =>
    apply BitVec.eq_of_toNat_eq
    rw [BitVec.extractLsb'_toNat, Nat.shiftRight_eq_div_pow, toNat_append_div, toNat_append_add]
    omega

/-- R107: a word is its kind, its count and its value. -/
theorem append_fields {k : BitVec 8} {w : BitVec 48} (h : w.toNat / 2 ^ 40 = k.toNat) :
    k ++ w.extractLsb' 32 8 ++ w.extractLsb' 0 32 = w := by
  apply append_extractLsb'_low (m := 16) (n := 32)
  rw [toNat_append_add, BitVec.extractLsb'_toNat, Nat.shiftRight_eq_div_pow, ← h]
  omega

/-! ## The rows of R106 -/

section
variable {w : BitVec 16}

theorem decodeHc_hcReserved0 (h : w.toNat / 2 ^ 12 = 0) : decodeHc w = .hcReserved0 (w.extractLsb' 0 12) := by
  simp (disch := omega) only [decodeHc, toNat_hop, if_pos]

theorem decodeHc_openStream (h : w.toNat / 2 ^ 9 = 0x08) :
    decodeHc w = .openStream (w.getLsbD 8) (w.extractLsb' 0 8) := by
  simp (disch := omega) only [decodeHc, toNat_hop, toNat_hmod, if_pos, if_neg]

theorem decodeHc_wrb (h : w.toNat / 2 ^ 8 = 0x20) : decodeHc w = .wrb (w.extractLsb' 0 8) := by
  simp (disch := omega) only [decodeHc, toNat_hop, toNat_hmod, if_pos, if_neg]

theorem decodeHc_closeblk (h : w.toNat = 0x3000) : decodeHc w = .closeblk := by
  simp (disch := omega) only [decodeHc, toNat_hop, toNat_hmod, harg_eq_zero, if_pos, if_neg]

theorem decodeHc_finish (h : w.toNat = 0x4000) : decodeHc w = .finish := by
  simp (disch := omega) only [decodeHc, toNat_hop, toNat_hmod, harg_eq_zero, if_pos, if_neg]

theorem decodeHc_seek (h : w.toNat / 2 ^ 12 = 0x5) : decodeHc w = .seek (w.extractLsb' 0 12) := by
  simp (disch := omega) only [decodeHc, toNat_hop, if_pos, if_neg]

theorem decodeHc_read (h : w.toNat / 2 ^ 12 = 0x6) : decodeHc w = .read (w.extractLsb' 0 12) := by
  simp (disch := omega) only [decodeHc, toNat_hop, if_pos, if_neg]

theorem decodeHc_setlen (h : w.toNat / 2 ^ 12 = 0x7) : decodeHc w = .setlen (w.extractLsb' 0 12) := by
  simp (disch := omega) only [decodeHc, toNat_hop, if_pos, if_neg]

/-- R110: a word that violates its row, or whose `hop` has none. -/
theorem decodeHc_hcReserved8F (h : hcSpellingReserved w = true) : decodeHc w = .hcReserved8F w :=
  (Laws.TableRow.hcReserved8F w h).2

/-- Every host word is in a row of R106, or reserved. -/
theorem hc_rows (w : BitVec 16) :
    w.toNat / 2 ^ 12 = 0 ∨ w.toNat / 2 ^ 9 = 0x08 ∨ w.toNat / 2 ^ 8 = 0x20 ∨ w.toNat = 0x3000 ∨ w.toNat = 0x4000 ∨
      w.toNat / 2 ^ 12 = 0x5 ∨ w.toNat / 2 ^ 12 = 0x6 ∨ w.toNat / 2 ^ 12 = 0x7 ∨ hcSpellingReserved w = true := by
  simp only [hcSpellingReserved, Bool.or_eq_true, Bool.and_eq_true, decide_eq_true_eq, beq_iff_eq, bne_iff_ne]
  omega

end

/-- R106: the operand `owns` is bit 8. -/
theorem decodeHc_append_openStream (owns : Bool) (level : BitVec 8) :
    decodeHc (0x1#4 ++ 0#3 ++ BitVec.ofBool owns ++ level) = .openStream owns level := by
  have hp : (0x1#4 ++ 0#3 ++ BitVec.ofBool owns ++ level).toNat / 2 ^ 8 = 16 + owns.toNat := by
    rw [toNat_append_div]
    cases owns <;> rfl
  have hb : (0x1#4 ++ 0#3 ++ BitVec.ofBool owns ++ level).getLsbD 8 = owns := by
    rw [← BitVec.testBit_toNat, Nat.testBit_eq_decide_div_mod_eq, hp]
    cases owns <;> rfl
  have := owns.toNat_le
  exact (decodeHc_openStream (by omega)).trans (congrArg₂ _ hb BitVec.extractLsb'_append_eq_right)

/-- R106: bit 8 is the operand `owns`. -/
theorem append_openStream {w : BitVec 16} (h : w.toNat / 2 ^ 9 = 0x08) :
    0x1#4 ++ 0#3 ++ BitVec.ofBool (w.getLsbD 8) ++ w.extractLsb' 0 8 = w := by
  apply append_extractLsb'_low (m := 8) (n := 8)
  rw [toNat_append_add, ← BitVec.testBit_toNat, Nat.testBit_eq_decide_div_mod_eq, BitVec.toNat_ofBool]
  have : w.toNat / 2 ^ 8 % 2 < 2 := Nat.mod_lt _ (by decide)
  by_cases hb : w.toNat / 2 ^ 8 % 2 = 1
  · rw [decide_eq_true hb, show (0x1#4 ++ 0#3).toNat = 8 from rfl, Bool.toNat_true]
    omega
  · rw [decide_eq_false hb, show (0x1#4 ++ 0#3).toNat = 8 from rfl, Bool.toNat_false]
    omega

/-! ## The rows of R107 -/

section
variable {w : BitVec 48}

theorem decodeBo_boReserved00 (h : w.toNat / 2 ^ 40 = 0) : decodeBo w = .boReserved00 (w.extractLsb' 0 40) := by
  simp (disch := omega) only [decodeBo, toNat_kind, if_pos]

theorem decodeBo_bits (h : w.toNat / 2 ^ 40 = 1) : decodeBo w = .bits (w.extractLsb' 32 8) (w.extractLsb' 0 32) := by
  simp (disch := omega) only [decodeBo, toNat_kind, if_pos, if_neg]

theorem decodeBo_boolean (h : w.toNat / 2 ^ 40 = 2) :
    decodeBo w = .boolean (w.extractLsb' 32 8) (w.extractLsb' 0 32) := by
  simp (disch := omega) only [decodeBo, toNat_kind, if_pos, if_neg]

theorem decodeBo_unary (h : w.toNat / 2 ^ 40 = 3) : decodeBo w = .unary (w.extractLsb' 32 8) (w.extractLsb' 0 32) := by
  simp (disch := omega) only [decodeBo, toNat_kind, if_pos, if_neg]

theorem decodeBo_int32 (h : w.toNat / 2 ^ 40 = 4) : decodeBo w = .int32 (w.extractLsb' 32 8) (w.extractLsb' 0 32) := by
  simp (disch := omega) only [decodeBo, toNat_kind, if_pos, if_neg]

theorem decodeBo_flush (h : w.toNat / 2 ^ 40 = 5) : decodeBo w = .flush (w.extractLsb' 32 8) (w.extractLsb' 0 32) := by
  simp (disch := omega) only [decodeBo, toNat_kind, if_pos, if_neg]

theorem decodeBo_boReserved0607 (h : w.toNat / 2 ^ 41 = 3) : decodeBo w = .boReserved0607 (w.extractLsb' 0 41) := by
  simp (disch := omega) only [decodeBo, toNat_kind, if_pos, if_neg]

theorem decodeBo_boReserved080F (h : w.toNat / 2 ^ 43 = 1) : decodeBo w = .boReserved080F (w.extractLsb' 0 43) := by
  simp (disch := omega) only [decodeBo, toNat_kind, if_pos, if_neg]

theorem decodeBo_boReserved101F (h : w.toNat / 2 ^ 44 = 1) : decodeBo w = .boReserved101F (w.extractLsb' 0 44) := by
  simp (disch := omega) only [decodeBo, toNat_kind, if_pos, if_neg]

theorem decodeBo_boReserved203F (h : w.toNat / 2 ^ 45 = 1) : decodeBo w = .boReserved203F (w.extractLsb' 0 45) := by
  simp (disch := omega) only [decodeBo, toNat_kind, if_pos, if_neg]

theorem decodeBo_boReserved407F (h : w.toNat / 2 ^ 46 = 1) : decodeBo w = .boReserved407F (w.extractLsb' 0 46) := by
  simp (disch := omega) only [decodeBo, toNat_kind, if_pos, if_neg]

theorem decodeBo_boReserved80FF (h : w.toNat / 2 ^ 47 = 1) : decodeBo w = .boReserved80FF (w.extractLsb' 0 47) := by
  simp (disch := omega) only [decodeBo, toNat_kind, if_neg]

end

/-- R112: the rows of the reserved kinds. -/
theorem bo_reserved_rows {w : BitVec 48} (h : w.toNat / 2 ^ 40 = 0 ∨ 6 ≤ w.toNat / 2 ^ 40) :
    w.toNat / 2 ^ 40 = 0 ∨ w.toNat / 2 ^ 41 = 3 ∨ w.toNat / 2 ^ 43 = 1 ∨ w.toNat / 2 ^ 44 = 1 ∨
      w.toNat / 2 ^ 45 = 1 ∨ w.toNat / 2 ^ 46 = 1 ∨ w.toNat / 2 ^ 47 = 1 := by
  omega

/-- Every BitOperation word is in a row of R107. -/
theorem bo_rows (w : BitVec 48) :
    w.toNat / 2 ^ 40 = 1 ∨ w.toNat / 2 ^ 40 = 2 ∨ w.toNat / 2 ^ 40 = 3 ∨ w.toNat / 2 ^ 40 = 4 ∨ w.toNat / 2 ^ 40 = 5 ∨
      w.toNat / 2 ^ 40 = 0 ∨ w.toNat / 2 ^ 41 = 3 ∨ w.toNat / 2 ^ 43 = 1 ∨ w.toNat / 2 ^ 44 = 1 ∨
      w.toNat / 2 ^ 45 = 1 ∨ w.toNat / 2 ^ 46 = 1 ∨ w.toNat / 2 ^ 47 = 1 := by
  omega

/-! ## Harness words -/

theorem decode_poWord (phase step : BitVec 4) (operand : BitVec 8) :
    decode (poWord phase step operand) = phaseOperation phase.toNat step.toNat operand := by
  have hp : (operand ++ step ++ phase).extractLsb' 0 4 = phase := BitVec.extractLsb'_append_eq_right
  have hs : (operand ++ step ++ phase).extractLsb' 4 4 = step := by
    apply BitVec.eq_of_toNat_eq
    rw [BitVec.extractLsb'_toNat, Nat.shiftRight_eq_div_pow, toNat_append_div, toNat_append_add]
    omega
  have ho : (operand ++ step ++ phase).extractLsb' 8 8 = operand := by
    apply BitVec.eq_of_toNat_eq
    rw [BitVec.extractLsb'_toNat, Nat.shiftRight_eq_div_pow, toNat_append_add, toNat_append_add]
    omega
  change decodePo (operand ++ step ++ phase) = _
  rw [decodePo, hp, hs, ho]

/-- R37: the operand byte of a table. -/
theorem withTable_append {table : BitVec 3} (h : table.toNat < Config.nGroupsMax) (f : BitVec 3 → Instr) :
    withTable (0#5 ++ table) f = .ok (f table) := by
  have ht : (0#5 ++ table).extractLsb' 0 3 = table := BitVec.extractLsb'_append_eq_right
  have hn : (0#5 ++ table).toNat = table.toNat := by
    rw [toNat_append_add, BitVec.toNat_ofNat]
    omega
  rw [withTable, ht, if_pos (hn ▸ h)]

theorem wf_of_withoutOperand {v : BitVec 8} {i j : Instr} (hj : j.wf = true) (e : withoutOperand v j = .ok i) :
    i.wf = true := by
  unfold withoutOperand at e
  split at e
  · exact Except.ok.inj e ▸ hj
  · cases e

theorem wf_of_withTable {v : BitVec 8} {i : Instr} {f : BitVec 3 → Instr}
    (hf : ∀ t : BitVec 3, t.toNat < Config.nGroupsMax → (f t).wf = true) (e : withTable v f = .ok i) :
    i.wf = true := by
  unfold withTable at e
  split at e
  · refine Except.ok.inj e ▸ hf _ (lt_of_le_of_lt ?_ ‹_›)
    rw [BitVec.extractLsb'_toNat]
    exact Nat.mod_le _ _
  · cases e

/-- An operation the table of R24 names is well-formed. -/
theorem wf_of_phaseOperation {phase step : Nat} {v : BitVec 8} {i : Instr} (e : phaseOperation phase step v = .ok i) :
    i.wf = true := by
  unfold phaseOperation at e
  split at e
  case h_2 => exact Except.ok.inj e ▸ rfl
  case h_23 => exact wf_of_withTable (fun _ => decide_eq_true) e
  case h_26 => exact wf_of_withTable (fun _ => decide_eq_true) e
  case h_37 => cases e
  case h_38 => split at e <;> cases e
  all_goals exact wf_of_withoutOperand rfl e

/-! ## The round trips -/

theorem decode_hc {w : BitVec 16} {i : Instr} (h : decodeHc w = i) : decode (.hc w) = .ok i := congrArg Except.ok h

theorem decode_bo {w : BitVec 48} {i : Instr} (h : decodeBo w = i) : decode (.bo w) = .ok i := congrArg Except.ok h

/-- A row of R107 whose operands are `count` and `value` gives them back. -/
theorem decode_append_fields {k c : BitVec 8} {v : BitVec 32} {f : BitVec 8 → BitVec 32 → Instr}
    (h : ∀ w : BitVec 48, w.toNat / 2 ^ 40 = k.toNat → decodeBo w = f (w.extractLsb' 32 8) (w.extractLsb' 0 32)) :
    decode (.bo (k ++ c ++ v)) = .ok (f c v) := by
  obtain ⟨hk, hc, hv⟩ := fields_of_append k c v
  exact decode_bo ((h _ hk).trans (congrArg₂ f hc hv))

/-- A row whose one operand is the low field gives it back. -/
theorem decode_append_low {m n : Nat} {D : BitVec (m + n) → Instr} {p : BitVec m} {f : BitVec n → Instr}
    (h : ∀ w, w.toNat / 2 ^ n = p.toNat → D w = f (w.extractLsb' 0 n)) (a : BitVec n) : D (p ++ a) = f a :=
  (h _ (toNat_append_div p a)).trans (congrArg f BitVec.extractLsb'_append_eq_right)

/-- Settles O6, row by row: the fields of the word that `encode` writes are those the decoder reads. -/
theorem decodeEncode : Obligations.DecodeEncode := by
  intro i hi
  cases i
  case openStream owns level => exact decode_hc (decodeHc_append_openStream owns level)
  case wrb v => exact decode_hc (decode_append_low (p := 0x2#4 ++ 0x0#4) (fun _ => decodeHc_wrb) v)
  case closeblk => exact decode_hc (decodeHc_closeblk rfl)
  case finish => exact decode_hc (decodeHc_finish rfl)
  case seek a => exact decode_hc (decode_append_low (p := 0x5#4) (fun _ => decodeHc_seek) a)
  case read a => exact decode_hc (decode_append_low (p := 0x6#4) (fun _ => decodeHc_read) a)
  case setlen a => exact decode_hc (decode_append_low (p := 0x7#4) (fun _ => decodeHc_setlen) a)
  case hcReserved0 a => exact decode_hc (decode_append_low (p := 0x0#4) (fun _ => decodeHc_hcReserved0) a)
  case hcReserved8F w => exact decode_hc (decodeHc_hcReserved8F hi)
  case bits c v => exact decode_append_fields fun _ => decodeBo_bits
  case boolean c v => exact decode_append_fields fun _ => decodeBo_boolean
  case unary c v => exact decode_append_fields fun _ => decodeBo_unary
  case int32 c v => exact decode_append_fields fun _ => decodeBo_int32
  case flush c v => exact decode_append_fields fun _ => decodeBo_flush
  case boReserved00 a => exact decode_bo (decode_append_low (p := 0x00#8) (fun _ => decodeBo_boReserved00) a)
  case boReserved0607 a => exact decode_bo (decode_append_low (p := 0b0000011#7) (fun _ => decodeBo_boReserved0607) a)
  case boReserved080F a => exact decode_bo (decode_append_low (p := 0b00001#5) (fun _ => decodeBo_boReserved080F) a)
  case boReserved101F a => exact decode_bo (decode_append_low (p := 0b0001#4) (fun _ => decodeBo_boReserved101F) a)
  case boReserved203F a => exact decode_bo (decode_append_low (p := 0b001#3) (fun _ => decodeBo_boReserved203F) a)
  case boReserved407F a => exact decode_bo (decode_append_low (p := 0b01#2) (fun _ => decodeBo_boReserved407F) a)
  case boReserved80FF a => exact decode_bo (decode_append_low (p := 0b1#1) (fun _ => decodeBo_boReserved80FF) a)
  case blkWrite v => exact decode_poWord 1 1 v
  case hufMklen t => exact (decode_poWord 9 2 _).trans (withTable_append (of_decide_eq_true hi) _)
  case hufAssign t => exact (decode_poWord 10 2 _).trans (withTable_append (of_decide_eq_true hi) _)
  -- the phase operations without an operand: one word each
  all_goals rfl

/-- A host word is the word of its row. -/
theorem encode_decodeHc (w : BitVec 16) : encode (decodeHc w) = .hc w ∧ (decodeHc w).wf = true := by
  rcases hc_rows w with h | h | h | h | h | h | h | h | h
  · rw [decodeHc_hcReserved0 h]
    exact ⟨congrArg CmdWord.hc (append_extractLsb'_low (p := 0x0#4) h), rfl⟩
  · rw [decodeHc_openStream h]
    exact ⟨congrArg CmdWord.hc (append_openStream h), rfl⟩
  · rw [decodeHc_wrb h]
    exact ⟨congrArg CmdWord.hc (append_extractLsb'_low (p := 0x2#4 ++ 0x0#4) h), rfl⟩
  · rw [decodeHc_closeblk h]
    exact ⟨congrArg CmdWord.hc (BitVec.eq_of_toNat_eq h.symm), rfl⟩
  · rw [decodeHc_finish h]
    exact ⟨congrArg CmdWord.hc (BitVec.eq_of_toNat_eq h.symm), rfl⟩
  · rw [decodeHc_seek h]
    exact ⟨congrArg CmdWord.hc (append_extractLsb'_low (p := 0x5#4) h), rfl⟩
  · rw [decodeHc_read h]
    exact ⟨congrArg CmdWord.hc (append_extractLsb'_low (p := 0x6#4) h), rfl⟩
  · rw [decodeHc_setlen h]
    exact ⟨congrArg CmdWord.hc (append_extractLsb'_low (p := 0x7#4) h), rfl⟩
  · rw [decodeHc_hcReserved8F h]
    exact ⟨rfl, h⟩

/-- A BitOperation word is the word of its row. -/
theorem encode_decodeBo (w : BitVec 48) : encode (decodeBo w) = .bo w ∧ (decodeBo w).wf = true := by
  rcases bo_rows w with h | h | h | h | h | h | h | h | h | h | h | h
  · rw [decodeBo_bits h]
    exact ⟨congrArg CmdWord.bo (append_fields h), rfl⟩
  · rw [decodeBo_boolean h]
    exact ⟨congrArg CmdWord.bo (append_fields h), rfl⟩
  · rw [decodeBo_unary h]
    exact ⟨congrArg CmdWord.bo (append_fields h), rfl⟩
  · rw [decodeBo_int32 h]
    exact ⟨congrArg CmdWord.bo (append_fields h), rfl⟩
  · rw [decodeBo_flush h]
    exact ⟨congrArg CmdWord.bo (append_fields h), rfl⟩
  · rw [decodeBo_boReserved00 h]
    exact ⟨congrArg CmdWord.bo (append_extractLsb'_low (p := 0x00#8) h), rfl⟩
  · rw [decodeBo_boReserved0607 h]
    exact ⟨congrArg CmdWord.bo (append_extractLsb'_low (p := 0b0000011#7) h), rfl⟩
  · rw [decodeBo_boReserved080F h]
    exact ⟨congrArg CmdWord.bo (append_extractLsb'_low (p := 0b00001#5) h), rfl⟩
  · rw [decodeBo_boReserved101F h]
    exact ⟨congrArg CmdWord.bo (append_extractLsb'_low (p := 0b0001#4) h), rfl⟩
  · rw [decodeBo_boReserved203F h]
    exact ⟨congrArg CmdWord.bo (append_extractLsb'_low (p := 0b001#3) h), rfl⟩
  · rw [decodeBo_boReserved407F h]
    exact ⟨congrArg CmdWord.bo (append_extractLsb'_low (p := 0b01#2) h), rfl⟩
  · rw [decodeBo_boReserved80FF h]
    exact ⟨congrArg CmdWord.bo (append_extractLsb'_low (p := 0b1#1) h), rfl⟩

/-- Settles O7: every word is in a row, and the row's word has the same fields. -/
theorem encodeDecode : Obligations.EncodeDecode :=
  ⟨encode_decodeHc, encode_decodeBo, fun _ _ e => wf_of_phaseOperation e⟩

/-- Settles O8: each word is that of the instruction, so the round trip decodes it. -/
theorem writtenWordsDecode : Obligations.WrittenWordsDecode :=
  ⟨decodeEncode (.openStream true 9#8) rfl, decodeEncode (.wrb 0x61#8) rfl, decodeEncode .closeblk rfl,
    decodeEncode .finish rfl, decodeEncode (.bits 5#8 6#32) rfl, decodeEncode (.unary 0#8 3#32) rfl,
    decodeEncode (.flush 0#8 0#32) rfl⟩

end Sys2Proof
end

section
/-! PROOF. O9 and O19: the words that name no command (R110) and the reserved kinds (R112), and what the machine makes of
them. -/

namespace Sys2Proof.Machine

/-! ## Host commands -/

/-- R110: a reserved `hop`, or a word that violates its row. -/
theorem hc_reserved_row {w : BitVec 16}
    (h : (w.extractLsb' 12 4).toNat = 0 ∨ 8 ≤ (w.extractLsb' 12 4).toNat ∨
      ((w.extractLsb' 12 4).toNat = 1 ∧ w.extractLsb' 9 3 ≠ 0#3) ∨
      ((w.extractLsb' 12 4).toNat = 2 ∧ w.extractLsb' 8 4 ≠ 0#4) ∨
      (((w.extractLsb' 12 4).toNat = 3 ∨ (w.extractLsb' 12 4).toNat = 4) ∧ w.extractLsb' 0 12 ≠ 0#12)) :
    w.toNat / 2 ^ 12 = 0 ∨ hcSpellingReserved w = true := by
  simp only [ne_eq, BitVec.toNat_eq, BitVec.extractLsb'_toNat, Nat.shiftRight_eq_div_pow, BitVec.toNat_ofNat] at h
  simp only [hcSpellingReserved, Bool.or_eq_true, Bool.and_eq_true, decide_eq_true_eq, beq_iff_eq, bne_iff_ne]
  omega

/-- R298: a command in the wrong state of the stream. -/
theorem hostCommand_badState {ok : Bool} {op : State → Res} {s : State} (h : s.fatal = false) (hok : ok = false) :
    hostCommand ok op s = .next { s with rsp := s.rsp ++ [0x0242#16] } := by
  unfold hostCommand
  rw [if_neg (by simp [h]), if_neg (by simp [hok])]
  rfl

/-- R110: a word of a reserved row is answered `RESERVED_OP`. -/
theorem exec_decodeHc_reserved {w : BitVec 16} (h : w.toNat / 2 ^ 12 = 0 ∨ hcSpellingReserved w = true) (s : State) :
    exec (decodeHc w) s = .next { s with rsp := s.rsp ++ [0x0243#16] } := by
  rcases h with h | h
  · rw [decodeHc_hcReserved0 h]
    rfl
  · rw [decodeHc_hcReserved8F h]
    rfl

/-- Settles O9: the unsupported and the reserved commands whatever the state, the four stream commands by their check of
the stream, and the words by their rows. -/
theorem localRefusals : Obligations.LocalRefusals := by
  refine ⟨fun a w s => ⟨rfl, rfl, rfl, rfl, rfl⟩, ?badState, ?words⟩
  case badState =>
    intro i s hi hf ho
    cases i
    case openStream owns level => exact hostCommand_badState hf (congrArg Bool.not ho)
    case wrb v => exact hostCommand_badState hf ho
    case closeblk => exact hostCommand_badState hf ho
    case finish => exact hostCommand_badState hf ho
    all_goals cases hi
  case words =>
    intro s rest w hi h
    rw [step_message hi, execMessage_of_decode (i := decodeHc w) rfl]
    exact exec_decodeHc_reserved (hc_reserved_row h) _

/-! ## BitOperations -/

/-- R319, R112: a reserved kind is `SINK_CLOSED` in a closed sink, `BAD_BITOP` in an open one. -/
theorem unlessFatal_opReserved {s : State} (h : s.fatal = false) :
    unlessFatal opReserved s = .next (s.haltedWith (if s.sink.closed then 0x40#8 else 0x41#8)) := by
  apply unlessFatal_of_raised h
  unfold opReserved sinkWrite
  split
  · exact raise_of_not_fatal h .sinkClosed
  · exact raise_of_not_fatal h .badBitop

/-- R112: a word of a reserved kind runs as a reserved BitOperation. -/
theorem exec_decodeBo_reserved {w : BitVec 48} (h : w.toNat / 2 ^ 40 = 0 ∨ 6 ≤ w.toNat / 2 ^ 40) (s : State) :
    exec (decodeBo w) s = unlessFatal opReserved s := by
  rcases bo_reserved_rows h with h | h | h | h | h | h | h
  · rw [decodeBo_boReserved00 h]; rfl
  · rw [decodeBo_boReserved0607 h]; rfl
  · rw [decodeBo_boReserved080F h]; rfl
  · rw [decodeBo_boReserved101F h]; rfl
  · rw [decodeBo_boReserved203F h]; rfl
  · rw [decodeBo_boReserved407F h]; rfl
  · rw [decodeBo_boReserved80FF h]; rfl

/-- Settles O19: all reserved kinds share one operation, and every word of a reserved kind runs it. -/
theorem reservedBitOperations : Obligations.ReservedBitOperations := by
  refine ⟨fun s hf => ?kinds, fun s rest w hf hi h => ?words⟩
  case kinds =>
    have h := unlessFatal_opReserved hf
    exact ⟨fun _ => h, fun _ => h, fun _ => h, fun _ => h, fun _ => h, fun _ => h, fun _ => h⟩
  case words =>
    have hk := toNat_kind w
    rw [step_message hi, execMessage_of_decode (i := decodeBo w) rfl, exec_decodeBo_reserved (hk ▸ h)]
    exact unlessFatal_opReserved hf

end Sys2Proof.Machine
end

section
/-! PROOF. O45: the code of a symbol (R230) is the first code of its length plus its rank among the symbols of that length;
over lengths that satisfy the Kraft inequality (R104, R220) such codes fit and none begins with another. -/

namespace Sys2Proof.Machine

/-! ## The walk of R230 -/

theorem assignLength_cons (n l c vec : Nat) (ls cs : List Nat) :
    assignLength n (l :: ls) (c :: cs) vec =
      ((if l = n then vec else c) :: (assignLength n ls cs (if l = n then vec + 1 else vec)).1,
        (assignLength n ls cs (if l = n then vec + 1 else vec)).2) := by
  by_cases h : l = n <;> simp [assignLength, h]

theorem length_assignLength (n : Nat) (lens codes : List Nat) (vec : Nat) (h : codes.length = lens.length) :
    (assignLength n lens codes vec).1.length = lens.length := by
  induction lens generalizing codes vec with
  | nil => rfl
  | cons l ls ih =>
    obtain ⟨c, cs, rfl⟩ := List.exists_cons_of_length_eq_add_one h
    rw [assignLength_cons, List.length_cons, ih cs _ (by simpa using h), List.length_cons]

/-- After the symbols of length `n`, `vec` has moved on by their number. -/
theorem assignLength_snd (n : Nat) (lens codes : List Nat) (vec : Nat) (h : codes.length = lens.length) :
    (assignLength n lens codes vec).2 = vec + lens.count n := by
  induction lens generalizing codes vec with
  | nil => rfl
  | cons l ls ih =>
    obtain ⟨c, cs, rfl⟩ := List.exists_cons_of_length_eq_add_one h
    rw [assignLength_cons, ih cs _ (by simpa using h)]
    by_cases hl : l = n
    · rw [if_pos hl, hl, List.count_cons_self]
      omega
    · rw [if_neg hl, List.count_cons_of_ne hl]

/-- A symbol of length `n` takes the code at its rank among them; the others keep theirs. -/
theorem getD_assignLength (n : Nat) (lens codes : List Nat) (vec v : Nat) (h : codes.length = lens.length)
    (hv : v < lens.length) :
    (assignLength n lens codes vec).1.getD v 0 =
      if lens.getD v 0 = n then vec + (lens.take v).count n else codes.getD v 0 := by
  induction lens generalizing codes vec v with
  | nil => cases hv
  | cons l ls ih =>
    obtain ⟨c, cs, rfl⟩ := List.exists_cons_of_length_eq_add_one h
    rw [assignLength_cons]
    cases v with
    | zero => rfl
    | succ v =>
      simp only [List.getD_cons_succ, List.take_succ_cons]
      rw [ih cs _ v (by simpa using h) (by simpa using hv)]
      by_cases hl : l = n
      · rw [if_pos hl, hl, List.count_cons_self]
        congr 1
        omega
      · rw [if_neg hl, List.count_cons_of_ne hl]

/-- R230: the first code of the length `k` above the length `least`, where the walk begins. -/
def firstCode (lens : List Nat) (least : Nat) : Nat → Nat
  | 0 => 0
  | k + 1 => (firstCode lens least k + lens.count (least + k)) * 2 % 2 ^ 32

/-- The walk over `k` lengths, `j` lengths above the least. -/
theorem getD_assignFrom (lens : List Nat) (least k j : Nat) (codes : List Nat) (v : Nat)
    (h : codes.length = lens.length) (hv : v < lens.length) :
    (assignFrom lens k (least + j) (firstCode lens least j) codes).getD v 0 =
      if least + j ≤ lens.getD v 0 ∧ lens.getD v 0 < least + j + k then
        firstCode lens least (lens.getD v 0 - least) + (lens.take v).count (lens.getD v 0)
      else codes.getD v 0 := by
  induction k generalizing j codes with
  | zero => rw [if_neg (by omega)]; rfl
  | succ k ih =>
    have hstep : (assignLength (least + j) lens codes (firstCode lens least j)).2 * 2 % 2 ^ 32 =
        firstCode lens least (j + 1) := by
      rw [assignLength_snd _ _ _ _ h]; rfl
    simp only [assignFrom]
    rw [hstep, Nat.add_assoc, ih (j + 1) _ (length_assignLength _ _ _ _ h), getD_assignLength _ _ _ _ _ h hv]
    by_cases hl : lens.getD v 0 = least + j
    · rw [if_neg (by omega), if_pos hl, if_pos (by omega), hl, Nat.add_sub_cancel_left]
    · rw [if_neg hl]
      congr 1
      exact propext (by omega)

theorem getD_mem {lens : List Nat} {v : Nat} (hv : v < lens.length) : lens.getD v 0 ∈ lens := by
  rw [List.getD_eq_getElem _ _ hv]
  exact List.getElem_mem hv

theorem leastLen_le {lens : List Nat} {l : Nat} (h : l ∈ lens) : leastLen lens ≤ l := by
  cases lens with
  | nil => cases h
  | cons a ls =>
    rw [leastLen, List.foldl_min]
    obtain ⟨m, hm⟩ := Option.isSome_iff_exists.1 (List.isSome_min?_of_mem h)
    rw [hm]
    exact (min_le_right _ _).trans ((List.min?_eq_some_iff.1 hm).2 l h)

theorem le_greatestLen {lens : List Nat} {l : Nat} (h : l ∈ lens) : l ≤ greatestLen lens := by
  rw [greatestLen, List.foldl_max]
  obtain ⟨m, hm⟩ := Option.isSome_iff_exists.1 (List.isSome_max?_of_mem h)
  rw [hm]
  exact ((List.max?_eq_some_iff.1 hm).2 l h).trans (le_max_right _ _)

/-- R230: the code of a symbol, for whatever lengths. -/
theorem getD_canonicalCodes {lens : List Nat} {v : Nat} (hv : v < lens.length) :
    (canonicalCodes lens).getD v 0 =
      firstCode lens (leastLen lens) (lens.getD v 0 - leastLen lens) + (lens.take v).count (lens.getD v 0) := by
  have hmin := leastLen_le (getD_mem hv)
  have hmax := le_greatestLen (getD_mem hv)
  have := getD_assignFrom lens (leastLen lens) (greatestLen lens + 1 - leastLen lens) 0
    (List.replicate lens.length 0) v (List.length_replicate ..) hv
  rw [if_pos (by omega)] at this
  exact this

/-! ## The Kraft inequality -/

/-- R220: what the symbols shorter than `n` take of the codes of length 20. -/
def kraftBelow (lens : List Nat) (n : Nat) : Nat := (lens.map fun l => if l < n then 2 ^ (20 - l) else 0).sum

theorem kraftBelow_succ (lens : List Nat) (n : Nat) :
    kraftBelow lens (n + 1) = kraftBelow lens n + lens.count n * 2 ^ (20 - n) := by
  induction lens with
  | nil => simp [kraftBelow]
  | cons l ls ih =>
    simp only [kraftBelow, List.map_cons, List.sum_cons] at ih ⊢
    rcases lt_trichotomy l n with hl | rfl | hl
    · rw [if_pos (by omega), if_pos hl, List.count_cons_of_ne (by omega), ih]
      ring
    · rw [if_pos (by omega), if_neg (by omega), List.count_cons_self, ih]
      ring
    · rw [if_neg (by omega), if_neg (by omega), List.count_cons_of_ne (by omega), ih]
      ring

theorem kraftBelow_le (lens : List Nat) (n : Nat) : kraftBelow lens n ≤ (lens.map fun l => 2 ^ (20 - l)).sum := by
  apply List.sum_le_sum
  intro l _
  split
  · exact le_rfl
  · exact Nat.zero_le _

/-- The codes below the first code of a length are those the shorter symbols take. -/
theorem firstCode_mul_le (lens : List Nat) (least k : Nat) (hk : least + k ≤ 20) :
    firstCode lens least k * 2 ^ (20 - (least + k)) ≤ kraftBelow lens (least + k) := by
  induction k with
  | zero => simp [firstCode]
  | succ k ih =>
    have hp : 2 ^ (20 - (least + k)) = 2 * 2 ^ (20 - (least + (k + 1))) := by
      rw [← Nat.pow_succ']
      congr 1
      omega
    calc firstCode lens least (k + 1) * 2 ^ (20 - (least + (k + 1)))
        ≤ (firstCode lens least k + lens.count (least + k)) * 2 * 2 ^ (20 - (least + (k + 1))) :=
          Nat.mul_le_mul_right _ (Nat.mod_le _ _)
      _ = firstCode lens least k * 2 ^ (20 - (least + k)) + lens.count (least + k) * 2 ^ (20 - (least + k)) := by
          rw [hp]
          ring
      _ ≤ kraftBelow lens (least + k) + lens.count (least + k) * 2 ^ (20 - (least + k)) :=
          Nat.add_le_add_right (ih (by omega)) _
      _ = kraftBelow lens (least + (k + 1)) := (kraftBelow_succ lens (least + k)).symm

section
variable {lens : List Nat} (hkraft : (lens.map fun l => 2 ^ (20 - l)).sum ≤ 2 ^ 20)
include hkraft

/-- The codes of one length fit it. -/
theorem firstCode_add_count_le (least k : Nat) (hk : least + k ≤ 20) :
    firstCode lens least k + lens.count (least + k) ≤ 2 ^ (least + k) := by
  have hb : (firstCode lens least k + lens.count (least + k)) * 2 ^ (20 - (least + k)) ≤
      2 ^ (least + k) * 2 ^ (20 - (least + k)) := by
    calc (firstCode lens least k + lens.count (least + k)) * 2 ^ (20 - (least + k))
        ≤ kraftBelow lens (least + k + 1) := by
          rw [Nat.add_mul, kraftBelow_succ]
          exact Nat.add_le_add_right (firstCode_mul_le lens least k hk) _
      _ ≤ 2 ^ 20 := (kraftBelow_le lens _).trans hkraft
      _ = 2 ^ (least + k) * 2 ^ (20 - (least + k)) := by
          rw [← Nat.pow_add]
          congr 1
          omega
  exact Nat.le_of_mul_le_mul_right hb (by positivity)

/-- Doubling `vec` stays within 32 bits. -/
theorem firstCode_succ (least k : Nat) (hk : least + k ≤ 20) :
    firstCode lens least (k + 1) = (firstCode lens least k + lens.count (least + k)) * 2 := by
  have h := firstCode_add_count_le hkraft least k hk
  have hp : 2 ^ (least + k) ≤ 2 ^ 20 := Nat.pow_le_pow_right (by decide) hk
  exact Nat.mod_eq_of_lt (by omega)

/-- A greater length begins after all extensions of the codes of a smaller one. -/
theorem le_firstCode_add (least k j : Nat) (hk : least + k + j ≤ 20) :
    (firstCode lens least k + lens.count (least + k)) * 2 ^ (j + 1) ≤ firstCode lens least (k + (j + 1)) := by
  induction j with
  | zero => rw [firstCode_succ hkraft least k (by omega), Nat.zero_add, Nat.pow_one]
  | succ j ih =>
    calc (firstCode lens least k + lens.count (least + k)) * 2 ^ (j + 1 + 1)
        = (firstCode lens least k + lens.count (least + k)) * 2 ^ (j + 1) * 2 := by ring
      _ ≤ (firstCode lens least (k + (j + 1)) + lens.count (least + (k + (j + 1)))) * 2 :=
          Nat.mul_le_mul_right _ ((ih (by omega)).trans (Nat.le_add_right _ _))
      _ = firstCode lens least (k + (j + 1) + 1) := (firstCode_succ hkraft least _ (by omega)).symm

end

/-! ## Ranks among the symbols of one length -/

/-- A symbol is counted after itself and not before. -/
theorem count_take_lt {lens : List Nat} {u n : Nat} (hu : u < lens.length) (hl : lens.getD u 0 = n) {v : Nat}
    (huv : u < v) : (lens.take u).count n < (lens.take v).count n := by
  rw [List.getD_eq_getElem _ _ hu] at hl
  have hs : (lens.take (u + 1)).count n = (lens.take u).count n + 1 := by
    rw [List.take_succ_eq_append_getElem hu, List.count_append, hl, List.count_singleton_self]
  have hp : (lens.take (u + 1)).count n ≤ (lens.take v).count n :=
    (List.take_sublist_take_left (l := lens) huv).count_le n
  omega

theorem count_take_lt_count {lens : List Nat} {u n : Nat} (hu : u < lens.length) (hl : lens.getD u 0 = n) :
    (lens.take u).count n < lens.count n := by
  have := count_take_lt hu hl hu
  rwa [List.take_length] at this

section
variable {lens : List Nat} (hlens : ∀ l ∈ lens, 1 ≤ l ∧ l ≤ 20)
  (hkraft : (lens.map fun l => 2 ^ (20 - l)).sum ≤ 2 ^ 20)
include hlens hkraft

/-- A code fits its length. -/
theorem canonicalCodes_lt {v : Nat} (hv : v < lens.length) : (canonicalCodes lens).getD v 0 < 2 ^ lens.getD v 0 := by
  have hmin := leastLen_le (getD_mem hv)
  have hmax := (hlens _ (getD_mem hv)).2
  have hfit := firstCode_add_count_le hkraft (leastLen lens) (lens.getD v 0 - leastLen lens) (by omega)
  rw [Nat.add_sub_cancel' hmin] at hfit
  have hrank := count_take_lt_count hv rfl
  rw [getD_canonicalCodes hv]
  omega

/-- A longer code comes after every extension of a shorter one. -/
theorem canonicalCodes_succ_mul_le {u v : Nat} (hu : u < lens.length) (hv : v < lens.length)
    (huv : lens.getD u 0 < lens.getD v 0) :
    ((canonicalCodes lens).getD u 0 + 1) * 2 ^ (lens.getD v 0 - lens.getD u 0) ≤ (canonicalCodes lens).getD v 0 := by
  have hmin := leastLen_le (getD_mem hu)
  have hmax := (hlens _ (getD_mem hv)).2
  obtain ⟨j, hj⟩ := Nat.exists_eq_add_of_lt huv
  have hext := le_firstCode_add hkraft (leastLen lens) (lens.getD u 0 - leastLen lens) j (by omega)
  rw [Nat.add_sub_cancel' hmin, show lens.getD u 0 - leastLen lens + (j + 1) = lens.getD v 0 - leastLen lens by omega]
    at hext
  have hrank := count_take_lt_count hu rfl
  rw [getD_canonicalCodes hu, getD_canonicalCodes hv, show lens.getD v 0 - lens.getD u 0 = j + 1 by omega]
  exact ((Nat.mul_le_mul_right _ (Nat.add_lt_add_left hrank _)).trans hext).trans (Nat.le_add_right _ _)

end

/-- Codes of one length differ as the ranks do. -/
theorem canonicalCodes_ne {lens : List Nat} {u v : Nat} (hu : u < lens.length) (hv : v < lens.length)
    (hl : lens.getD u 0 = lens.getD v 0) (huv : u ≠ v) :
    (canonicalCodes lens).getD v 0 ≠ (canonicalCodes lens).getD u 0 := by
  rw [getD_canonicalCodes hu, getD_canonicalCodes hv, hl]
  rcases Nat.lt_or_gt_of_ne huv with h | h
  · have := count_take_lt hu hl h
    omega
  · have := count_take_lt hv rfl h
    omega

/-- Settles O45: a code of the same length has another rank, a longer one lies after every extension. -/
theorem canonicalCodesPrefixFree : Obligations.CanonicalCodesPrefixFree := by
  intro lens hlens hkraft
  refine ⟨fun v hv => canonicalCodes_lt hlens hkraft hv, fun u v hu hv huv hle => ?_⟩
  rcases Nat.eq_or_lt_of_le hle with heq | hlt
  · rw [heq, Nat.sub_self, Nat.pow_zero, Nat.div_one]
    exact canonicalCodes_ne hu hv heq huv
  · exact Nat.ne_of_gt ((Nat.le_div_iff_mul_le (by positivity)).2
      (canonicalCodes_succ_mul_le hlens hkraft hu hv hlt))

end Sys2Proof.Machine
end

section
/-! PROOF. O27: the buffer of a Block is a sequence of whole runs (R102), which the reader of R158 gives back one by one;
what a Block has accepted is those runs and the pending one (R151). -/

namespace Sys2Proof

/-- Elements written after a range that begins at 0 extend it, whatever else the store holds. -/
theorem Store.readRange_writeRange_append {w : Nat} {m : Store w} {n : Nat} {xs : List (BitVec w)}
    (h : m.readRange 0 n = some xs) (vs : List (BitVec w)) :
    (m.writeRange n vs).readRange 0 (n + vs.length) = some (xs ++ vs) := by
  have key : (m.writeRange n vs).between 0 (n + vs.length) = m.between 0 n ++ (List.range' n vs.length).zip vs := by
    unfold Store.writeRange Store.between
    have past : m.filter (fun c => (decide (0 ≤ c.1) && decide (c.1 < 0 + (n + vs.length))) &&
        decide (n + vs.length ≤ c.1)) = [] := List.filter_eq_nil_iff.2 (by intro c _; simp)
    rw [List.filter_append, List.filter_append, List.filter_filter, List.filter_filter, past, List.append_nil,
      filter_zip_range'_true vs n (fun k => decide (0 ≤ k) && decide (k < 0 + (n + vs.length))) (by simp +contextual)]
    congr 1
    apply List.filter_congr
    intro c _
    by_cases hc : c.1 < n <;> simp [hc]; omega
  unfold Store.readRange at h ⊢
  split at h
  · rename_i hk
    cases h
    rw [key, List.map_append, List.map_append, hk, map_fst_zip_range', map_snd_zip_range', if_pos]
    simpa using List.range'_append_1 (s := 0) (m := n) (n := vs.length)
  · cases h

namespace Machine

/-! ## The reader of R158 -/

/-- Before any byte is counted the last one does not matter. -/
theorem decodeRuns_zero (a b : Byte) (bs : List Byte) : decodeRuns 0 a bs = decodeRuns 0 b bs := by
  cases bs <;> rfl

/-- Further bytes of a run are counted, up to four. -/
theorem decodeRuns_more (v : Byte) (n k : Nat) (hn : n ≠ 0) (hk : n + k ≤ 4) (rest : List Byte) :
    decodeRuns n v (List.replicate k v ++ rest) = List.replicate k v ++ decodeRuns (n + k) v rest := by
  induction k generalizing n with
  | zero => rfl
  | succ k ih =>
    rw [List.replicate_succ, List.cons_append, List.cons_append, decodeRuns, if_neg (by omega), if_pos ⟨hn, rfl⟩,
      ih (n + 1) (by omega) (by omega), Nat.add_assoc, Nat.add_comm 1 k]

/-- The reader is between two runs, `n < 4` bytes equal to `last` counted: a run of `k + 1 ≤ 4` bytes `v` is counted from
1, if it does not go on with `last`. -/
theorem decodeRuns_run {v last : Byte} {n k : Nat} (hn : n < 4) (hv : n = 0 ∨ last ≠ v) (hk : k + 1 ≤ 4)
    (rest : List Byte) :
    decodeRuns n last (List.replicate (k + 1) v ++ rest) = List.replicate (k + 1) v ++ decodeRuns (k + 1) v rest := by
  have hne : ¬ (n ≠ 0 ∧ v = last) := by
    rintro ⟨h0, rfl⟩
    exact hv.elim h0 fun h => h rfl
  rw [List.replicate_succ, List.cons_append, List.cons_append, decodeRuns, if_neg (by omega), if_neg hne,
    decodeRuns_more v 1 k (by decide) (by omega), Nat.add_comm 1 k]

/-- The bytes the reader has counted after a run of `l` bytes: those of a literal run, none after a count byte. -/
def countAfter (l : Nat) : Nat := if l ≤ 3 then l else 0

/-- R102, R158: the reader gives a whole run back. -/
theorem decodeRuns_runBytes {v last : Byte} {n l : Nat} (hn : n < 4) (hv : n = 0 ∨ last ≠ v) (h1 : 1 ≤ l)
    (h255 : l ≤ 255) (rest : List Byte) :
    decodeRuns n last (runBytes v l ++ rest) = List.replicate l v ++ decodeRuns (countAfter l) v rest := by
  unfold runBytes countAfter
  split
  · obtain ⟨k, rfl⟩ := Nat.exists_eq_add_of_le' h1
    exact decodeRuns_run hn hv (by omega) rest
  · rw [List.append_assoc, Config.runLiterals, decodeRuns_run (k := 3) hn hv (by decide), List.singleton_append,
      decodeRuns, if_pos rfl, BitVec.toNat_ofNat, Nat.mod_eq_of_lt (by omega), decodeRuns_zero 0 v, ← List.append_assoc,
      List.replicate_append_replicate]
    congr 2
    omega

theorem length_runBytes (v : Byte) (l : Nat) : (runBytes v l).length = runCost l := by
  unfold runBytes runCost
  split <;> simp [Config.runLiterals]

/-- R158: the first `len` bytes of `b` read as `xs`, and leave the reader between two runs with `n` bytes `last` counted. -/
structure ReadsAs (b : Store 8) (len : Nat) (xs : List Byte) (n : Nat) (last : Byte) : Prop where
  bytes : ∃ bs, b.readRange 0 len = some bs ∧ ∀ rest, decodeRuns 0 0 (bs ++ rest) = xs ++ decodeRuns n last rest
  count : n < 4

theorem readsAs_empty (b : Store 8) : ReadsAs b 0 [] 0 0 :=
  ⟨⟨[], Store.readRange_zero b 0, fun _ => rfl⟩, by decide⟩

/-- R152: the bytes of a run, written at the end, read as the run. -/
theorem ReadsAs.writeRun {b : Store 8} {len n l : Nat} {xs : List Byte} {last v : Byte} (h : ReadsAs b len xs n last)
    (hv : n = 0 ∨ last ≠ v) (h1 : 1 ≤ l) (h255 : l ≤ 255) :
    ReadsAs (b.writeRange len (runBytes v l)) (len + runCost l) (xs ++ List.replicate l v) (countAfter l) v := by
  obtain ⟨⟨bs, hbs, hread⟩, hn⟩ := h
  refine ⟨⟨bs ++ runBytes v l, ?_, fun rest => ?_⟩, ?_⟩
  · rw [← length_runBytes v l]
    exact Store.readRange_writeRange_append hbs _
  · rw [List.append_assoc, hread, decodeRuns_runBytes hn hv h1 h255, List.append_assoc]
  · unfold countAfter
    split <;> omega

/-! ## `BLK.WRITE`, one equation per case of R151 -/

theorem accepts_eq_true {s : State} {v : Byte} :
    accepts s v = true ↔ s.full = false ∧ writeNeed s v ≤ s.cap.toNat := by
  simp [accepts]

theorem blkWrite_of_not_accepts {s : State} {v : Byte} (h : accepts s v = false) :
    blkWrite v s = if s.full then .done s else (flushRun s).andThen fun t => .done { t with full := true } := by
  unfold blkWrite
  split
  · rfl
  · rw [if_pos]
    simp only [accepts, Bool.and_eq_false_iff] at h
    simp_all

theorem blkWrite_of_wrap {s : State} {v : Byte} (h : accepts s v = true) (hr : s.rawCount = 0xFFFFFFFF#32) :
    blkWrite v s = .refuse (.counterWrap .rawCount) := by
  obtain ⟨hf, hn⟩ := accepts_eq_true.1 h
  rw [blkWrite, if_neg (by simp [hf]), if_neg (by omega), if_pos hr]

section
variable {s : State} {v : Byte} (ha : accepts s v = true) (hr : s.rawCount ≠ 0xFFFFFFFF#32)
include ha hr

/-- R151: the first byte of a run. -/
theorem blkWrite_of_first (h0 : s.runLen = 0) :
    blkWrite v s = .done { s.countRaw v with runByte := v, runLen := 1 } := by
  obtain ⟨hf, hn⟩ := accepts_eq_true.1 ha
  rw [blkWrite, if_neg (by simp [hf]), if_neg (by omega), if_neg hr, if_pos h0]

/-- R151: a further byte of the run. -/
theorem blkWrite_of_same (h0 : s.runLen ≠ 0) (hv : v = s.runByte) :
    blkWrite v s =
      if s.runLen.toNat + 1 = Config.runMax then flushRun { s.countRaw v with runLen := s.runLen + 1 }
      else .done { s.countRaw v with runLen := s.runLen + 1 } := by
  obtain ⟨hf, hn⟩ := accepts_eq_true.1 ha
  rw [blkWrite, if_neg (by simp [hf]), if_neg (by omega), if_neg hr, if_neg h0, if_pos hv]

/-- R151: a byte that ends the run. -/
theorem blkWrite_of_other (h0 : s.runLen ≠ 0) (hv : v ≠ s.runByte) :
    blkWrite v s = (flushRun (s.countRaw v)).andThen fun t => .done { t with runByte := v, runLen := 1 } := by
  obtain ⟨hf, hn⟩ := accepts_eq_true.1 ha
  rw [blkWrite, if_neg (by simp [hf]), if_neg (by omega), if_neg hr, if_neg h0, if_neg hv]

end

theorem flushRun_rawCount (s : State) : (flushRun s).Post (fun t => t.rawCount = s.rawCount) fun _ => False := by
  refine (flushRun_post s).mono ?_ fun _ h => h
  rintro t (⟨-, rfl⟩ | ⟨-, -, rfl⟩) <;> rfl

theorem countRaw_toNat {s : State} (hr : s.rawCount ≠ 0xFFFFFFFF#32) (v : Byte) :
    (s.countRaw v).rawCount.toNat = s.rawCount.toNat + 1 := by
  change (s.rawCount + 1).toNat = _
  bv_omega

/-- R151: the raw count counts the accepted bytes. -/
theorem blkWrite_rawCount (v : Byte) (s : State) :
    (blkWrite v s).Post
      (fun t => t.rawCount.toNat = if accepts s v = true then s.rawCount.toNat + 1 else s.rawCount.toNat)
      fun _ => False := by
  by_cases ha : accepts s v = true
  · simp only [if_pos ha]
    by_cases hr : s.rawCount = 0xFFFFFFFF#32
    · rw [blkWrite_of_wrap ha hr]
      trivial
    have hc := countRaw_toNat hr v
    by_cases h0 : s.runLen = 0
    · rw [blkWrite_of_first ha hr h0]
      exact hc
    by_cases hv : v = s.runByte
    · rw [blkWrite_of_same ha hr h0 hv]
      split
      · exact (flushRun_rawCount _).mono (fun _ ht => (congrArg BitVec.toNat ht).trans hc) fun _ h => h
      · exact hc
    · rw [blkWrite_of_other ha hr h0 hv]
      exact Res.Post.andThen (flushRun_rawCount _) fun _ ht => (congrArg BitVec.toNat ht).trans hc
  · simp only [if_neg ha]
    rw [blkWrite_of_not_accepts (by simpa using ha)]
    split
    · rfl
    · exact Res.Post.andThen (flushRun_rawCount s) fun _ ht => congrArg BitVec.toNat ht

/-! ## What a Block has accepted -/

/-- R151: the bytes `xs` are those the buffer reads as, and the pending run, which does not go on with what the reader is
counting. -/
def Buffered (xs : List Byte) (s : State) : Prop :=
  ∃ ys n last, ReadsAs s.b s.len.toNat ys n last ∧ xs = ys ++ List.replicate s.runLen.toNat s.runByte ∧
    (n = 0 ∨ s.runLen ≠ 0 ∧ last ≠ s.runByte)

/-- R152: the state after the flush of a pending run. -/
def State.runFlushed (s : State) : State :=
  { s with
    b := s.b.writeRange s.len.toNat (runBytes s.runByte s.runLen.toNat)
    len := s.len + BitVec.ofNat 20 (runCost s.runLen.toNat)
    runLen := 0 }

section
variable {s : State} (hfit : s.len.toNat + runCost s.runLen.toNat ≤ s.cap.toNat)
include hfit

theorem flushRun_eq_runFlushed (h0 : s.runLen ≠ 0) : flushRun s = .done s.runFlushed :=
  (flushRun_of hfit).trans (congrArg Res.done (if_neg h0))

theorem runFlushed_len : s.runFlushed.len.toNat = s.len.toNat + runCost s.runLen.toNat := by
  have hcap := s.cap.isLt
  change (s.len + BitVec.ofNat 20 (runCost s.runLen.toNat)).toNat = _
  rw [BitVec.toNat_add, BitVec.toNat_ofNat, Nat.add_mod_mod, Nat.mod_eq_of_lt (by omega)]

/-- R152: the flush moves the pending run into the buffer. -/
theorem Buffered.runFlushed {xs : List Byte} (h : Buffered xs s) (h0 : s.runLen ≠ 0) :
    ReadsAs s.runFlushed.b s.runFlushed.len.toNat xs (countAfter s.runLen.toNat) s.runByte := by
  obtain ⟨ys, n, last, hr, rfl, hn⟩ := h
  have h1 : 1 ≤ s.runLen.toNat := by bv_omega
  rw [runFlushed_len hfit]
  exact hr.writeRun (hn.imp_right And.right) h1 (by bv_omega)

end

section
variable {xs : List Byte} {s : State} (h : Buffered xs s) (v : Byte)
include h

/-- R151: a first byte is a run of its own. -/
theorem Buffered.first (h0 : s.runLen = 0) : Buffered (xs ++ [v]) { s.countRaw v with runByte := v, runLen := 1 } := by
  obtain ⟨ys, n, last, hread, rfl, hn⟩ := h
  refine ⟨ys, n, last, hread, ?_, .inl (hn.resolve_right fun hn => hn.1 h0)⟩
  rw [h0]
  simp

/-- R151: a further byte lengthens the run. -/
theorem Buffered.same (hv : v = s.runByte) (hrun : s.runLen.toNat ≤ 254) :
    Buffered (xs ++ [v]) { s.countRaw v with runLen := s.runLen + 1 } := by
  obtain ⟨ys, n, last, hread, rfl, hn⟩ := h
  have hlen : (s.runLen + 1).toNat = s.runLen.toNat + 1 := by bv_omega
  refine ⟨ys, n, last, hread, ?_, hn.imp_right fun hn => ⟨fun h1 => ?_, hn.2⟩⟩
  · change _ = ys ++ List.replicate (s.runLen + 1).toNat s.runByte
    rw [hlen, List.replicate_succ', hv, List.append_assoc]
  · have h1 : (s.runLen + 1).toNat = 0 := congrArg BitVec.toNat h1
    omega

/-- R151: another byte begins a run after the flushed one, which it does not go on with. -/
theorem Buffered.other (h0 : s.runLen ≠ 0) (hv : v ≠ s.runByte)
    (hfit : s.len.toNat + runCost s.runLen.toNat ≤ s.cap.toNat) :
    Buffered (xs ++ [v]) { (s.countRaw v).runFlushed with runByte := v, runLen := 1 } :=
  ⟨xs, _, _, h.runFlushed hfit h0, rfl, .inr ⟨(by decide : (1#8) ≠ 0#8), hv.symm⟩⟩

end

/-- R151: the raw count and the CRC are those of the bytes `xs`, and the Block is still open. -/
structure Counted (xs : List Byte) (s : State) : Prop where
  fatal : s.fatal = false
  closed : s.closed = false
  raw : s.rawCount.toNat = xs.length
  crc : s.crc = xs.foldl crcStep Config.crcInit

theorem Counted.countRaw {xs : List Byte} {s : State} (h : Counted xs s) (hr : s.rawCount ≠ 0xFFFFFFFF#32) (v : Byte) :
    Counted (xs ++ [v]) (s.countRaw v) where
  fatal := h.fatal
  closed := h.closed
  raw := by rw [countRaw_toNat hr, h.raw, List.length_append, List.length_singleton]
  crc := by
    rw [List.foldl_append, ← h.crc]
    rfl

/-- R151, R155: the Block of `s` has accepted the bytes `xs`, and the pending run fits. -/
structure Accepted (xs : List Byte) (s : State) : Prop where
  counted : Counted xs s
  fits : s.len.toNat + runCost s.runLen.toNat ≤ s.cap.toNat
  run : s.runLen.toNat ≤ 254
  buffered : Buffered xs s

section
variable {xs : List Byte} {s : State} {v : Byte} (h : Accepted xs s) (hr : s.rawCount ≠ 0xFFFFFFFF#32)
include h hr

theorem Accepted.first (h0 : s.runLen = 0) (hneed : s.len.toNat + 1 ≤ s.cap.toNat) :
    Accepted (xs ++ [v]) { s.countRaw v with runByte := v, runLen := 1 } := by
  obtain ⟨hfatal, hclosed, hraw, hcrc⟩ := h.counted.countRaw hr v
  exact ⟨⟨hfatal, hclosed, hraw, hcrc⟩, hneed, (by decide : (1#8).toNat ≤ 254), h.buffered.first v h0⟩

theorem Accepted.other (h0 : s.runLen ≠ 0) (hv : v ≠ s.runByte)
    (hneed : s.len.toNat + runCost s.runLen.toNat + 1 ≤ s.cap.toNat) :
    Accepted (xs ++ [v]) { (s.countRaw v).runFlushed with runByte := v, runLen := 1 } := by
  obtain ⟨hfatal, hclosed, hraw, hcrc⟩ := h.counted.countRaw hr v
  refine ⟨⟨hfatal, hclosed, hraw, hcrc⟩, ?_, (by decide : (1#8).toNat ≤ 254), h.buffered.other v h0 hv h.fits⟩
  exact (congrArg (· + 1) (runFlushed_len (s := s.countRaw v) h.fits)).trans_le hneed

/-- R151: a run of 255 bytes is flushed at once. -/
theorem Accepted.same (hv : v = s.runByte)
    (hneed : s.len.toNat + runCost (s.runLen.toNat + 1) ≤ s.cap.toNat) :
    (if s.runLen.toNat + 1 = Config.runMax then flushRun { s.countRaw v with runLen := s.runLen + 1 }
      else .done { s.countRaw v with runLen := s.runLen + 1 }).Post (Accepted (xs ++ [v])) fun _ => False := by
  obtain ⟨hfatal, hclosed, hraw, hcrc⟩ := h.counted.countRaw hr v
  have hrun := h.run
  have hlen : (s.runLen + 1).toNat = s.runLen.toNat + 1 := by bv_omega
  have hbuf := h.buffered.same v hv hrun
  rw [← hlen] at hneed ⊢
  split
  case isTrue hmax =>
    have h1 : s.runLen + 1 ≠ 0 := fun h1 => by rw [h1] at hmax; cases hmax
    have hread := hbuf.runFlushed hneed h1
    rw [flushRun_eq_runFlushed hneed h1]
    exact ⟨⟨hfatal, hclosed, hraw, hcrc⟩, (runFlushed_len hneed).trans_le hneed, (by decide : (0#8).toNat ≤ 254),
      _, _, _, hread, (List.append_nil _).symm, .inl (congrArg countAfter hmax)⟩
  case isFalse hmax =>
    have hmax : (s.runLen + 1).toNat ≠ 255 := hmax
    exact ⟨⟨hfatal, hclosed, hraw, hcrc⟩, hneed, (by omega : (s.runLen + 1).toNat ≤ 254), hbuf⟩

end

/-- R151: an accepted byte is the next of the bytes accepted. -/
theorem Accepted.blkWrite {xs : List Byte} {s : State} {v : Byte} (h : Accepted xs s) (ha : accepts s v = true) :
    (blkWrite v s).Post (Accepted (xs ++ [v])) fun _ => False := by
  have hneed := (accepts_eq_true.1 ha).2
  unfold writeNeed at hneed
  by_cases hr : s.rawCount = 0xFFFFFFFF#32
  · rw [blkWrite_of_wrap ha hr]
    trivial
  by_cases h0 : s.runLen = 0
  · rw [if_pos (show s.runLen.toNat = 0 from congrArg BitVec.toNat h0)] at hneed
    rw [blkWrite_of_first ha hr h0]
    exact h.first hr h0 hneed
  rw [if_neg fun hz : s.runLen.toNat = 0 => h0 (BitVec.eq_of_toNat_eq hz)] at hneed
  by_cases hv : v = s.runByte
  · rw [if_pos hv] at hneed
    rw [blkWrite_of_same ha hr h0 hv]
    exact h.same hr hv hneed
  · rw [if_neg hv] at hneed
    rw [blkWrite_of_other ha hr h0 hv, flushRun_eq_runFlushed (s := s.countRaw v) h.fits h0]
    exact h.other hr h0 hv hneed

/-! ## The closed Block -/

/-- R156, R158: the buffer reads as the bytes `xs`, and the CRC is over them. -/
def ClosedBlock (xs : List Byte) (t : State) : Prop :=
  ∃ bs, t.b.readRange 0 t.len.toNat = some bs ∧ decodeRuns 0 0 bs = xs ∧
    t.blockCrc = ~~~ (xs.foldl crcStep Config.crcInit) ∧ t.phase = .queued

theorem ReadsAs.decodeRuns {b : Store 8} {len n : Nat} {xs : List Byte} {last : Byte} (h : ReadsAs b len xs n last) :
    ∃ bs, b.readRange 0 len = some bs ∧ decodeRuns 0 0 bs = xs := by
  obtain ⟨⟨bs, hbs, hread⟩, -⟩ := h
  refine ⟨bs, hbs, ?_⟩
  have h := hread []
  rwa [List.append_nil, Machine.decodeRuns, List.append_nil] at h

theorem Accepted.blkClose {xs : List Byte} {s : State} (h : Accepted xs s) :
    (blkClose s).Post (ClosedBlock xs) fun _ => False := by
  obtain ⟨-, hclosed, -, hcrc⟩ := h.counted
  rw [Machine.blkClose, if_neg (by simp [hclosed])]
  by_cases h0 : s.runLen = 0
  · obtain ⟨ys, n, last, hread, hxs, -⟩ := h.buffered
    rw [h0] at hxs
    obtain ⟨bs, hbs, hd⟩ := hread.decodeRuns
    rw [flushRun, if_pos h0]
    exact ⟨bs, hbs, by simpa [hxs] using hd, congrArg (~~~ ·) hcrc, rfl⟩
  · obtain ⟨bs, hbs, hd⟩ := (h.buffered.runFlushed h.fits h0).decodeRuns
    rw [flushRun_eq_runFlushed (s := { s with closed := true }) h.fits h0]
    exact ⟨bs, hbs, hd, congrArg (~~~ ·) hcrc, rfl⟩

/-! ## A run of writes and the close -/

theorem execAll_cons_eq_next {i : Instr} {is : List Instr} {s t : State} :
    execAll (i :: is) s = .next t ↔ ∃ u, exec i s = .next u ∧ execAll is u = .next t := by
  rw [execAll]
  cases exec i s <;> simp

theorem blkClose_rawCount (s : State) :
    (blkClose s).Post (fun t => t.rawCount = s.rawCount) fun t => t.rawCount = s.rawCount := by
  unfold blkClose
  split
  · rfl
  · exact Res.Post.andThen ((flushRun_rawCount _).mono (fun _ ht => ht) fun _ h => h.elim) fun _ ht => ht

/-- Each write counts one byte at most. -/
theorem rawCount_le_of_execAll {xs : List Byte} {s t : State}
    (e : execAll (xs.map .blkWrite ++ [.blkClose]) s = .next t) : t.rawCount.toNat ≤ s.rawCount.toNat + xs.length := by
  induction xs generalizing s with
  | nil =>
    obtain ⟨u, eu, et⟩ := execAll_cons_eq_next.1 e
    cases et
    have h : t.rawCount = s.rawCount :=
      unlessFatal_post (P := fun u => u.rawCount = s.rawCount) rfl (blkClose_rawCount s) eu
    exact (congrArg BitVec.toNat h).le
  | cons v xs ih =>
    obtain ⟨u, eu, et⟩ := execAll_cons_eq_next.1 e
    have hw : (blkWrite v s).Post (fun u => u.rawCount.toNat ≤ s.rawCount.toNat + 1)
        fun u => u.rawCount.toNat ≤ s.rawCount.toNat + 1 :=
      (blkWrite_rawCount v s).mono (fun u hu => by split at hu <;> omega) fun _ h => h.elim
    have hu : u.rawCount.toNat ≤ s.rawCount.toNat + 1 :=
      unlessFatal_post (P := fun u => u.rawCount.toNat ≤ s.rawCount.toNat + 1) (Nat.le_succ _) hw eu
    have := ih et
    rw [List.length_cons]
    omega

/-- A Block that counts every byte written to it has accepted each of them. -/
theorem Accepted.execAll {xs ys : List Byte} {s t : State} (h : Accepted ys s)
    (e : execAll (xs.map .blkWrite ++ [.blkClose]) s = .next t) (hraw : t.rawCount.toNat = ys.length + xs.length) :
    ClosedBlock (ys ++ xs) t := by
  induction xs generalizing ys s with
  | nil =>
    obtain ⟨u, eu, et⟩ := execAll_cons_eq_next.1 e
    cases et
    rw [List.append_nil]
    rcases unlessFatal_eq_next.1 eu with ⟨hf, -⟩ | ⟨-, hd | hr⟩
    · exact absurd hf (by simp [h.counted.fatal])
    · exact h.blkClose.of_done hd
    · exact (h.blkClose.of_raised hr).elim
  | cons v xs ih =>
    obtain ⟨u, eu, et⟩ := execAll_cons_eq_next.1 e
    have hle := rawCount_le_of_execAll et
    rw [List.length_cons] at hraw
    rcases unlessFatal_eq_next.1 eu with ⟨hf, -⟩ | ⟨-, hd | hr⟩
    · exact absurd hf (by simp [h.counted.fatal])
    · by_cases ha : accepts s v = true
      · rw [List.append_cons ys v xs]
        refine ih ((h.blkWrite ha).of_done hd) et ?_
        rw [List.length_append, List.length_singleton]
        omega
      · have hu := (blkWrite_rawCount v s).of_done hd
        rw [if_neg ha, h.counted.raw] at hu
        omega
    · exact ((blkWrite_rawCount v s).of_raised hr).elim

/-- Settles O27: a fresh Block has accepted nothing; each accepted byte is the next one (R151), and the close moves the
pending run into the buffer (R156). -/
theorem blockBufferDecodes : Obligations.BlockBufferDecodes := by
  intro s t xs hf hin hlen hrun hraw hcrc hcl e hcount
  have h : Accepted [] s := by
    refine ⟨⟨hf, hcl, congrArg BitVec.toNat hraw, hcrc⟩, hin.fits, hin.run, [], 0, 0, ?_, ?_, .inl rfl⟩
    · rw [hlen]
      exact readsAs_empty s.b
    · rw [hrun]
      rfl
  exact h.execAll e (hcount.trans (Nat.zero_add _).symm)

end Machine
end Sys2Proof
end

section
/-! PROOF. O5: instructions run one after another are their operations in sequence (R109), and a phase of several operations
is such a sequence, then the transfer (R24, R223, R255, R271). -/

namespace Sys2Proof.Machine

/-! ## Instructions as operations -/

/-- Operations one after another, up to the first that does not complete. -/
def inOrder : List (State → Res) → State → Res
  | [], s => .done s
  | op :: ops, s => (op s).andThen (inOrder ops)

theorem Res.andThen_done_right (r : Res) : r.andThen .done = r := by cases r <;> rfl

theorem inOrder_append (ops ops' : List (State → Res)) (s : State) :
    inOrder (ops ++ ops') s = (inOrder ops s).andThen (inOrder ops') := by
  induction ops generalizing s with
  | nil => rfl
  | cons op ops ih =>
    rw [List.cons_append, inOrder, inOrder, Res.andThen_assoc]
    exact congrArg _ (funext ih)

/-- The instruction `i` runs the operation `op` while `fatal = 0` (R322), and a fault of `op` is the only thing that sets
`fatal`. -/
structure Runs (i : Instr) (op : State → Res) : Prop where
  exec : ∀ s, exec i s = unlessFatal op s
  fatal : ∀ s, s.fatal = false → (op s).Post (fun t => t.fatal = false) fun t => t.fatal = true

/-- A lane operation sets `fatal` by a fault only. -/
theorem Runs.of_lane {cs : List (BitVec 8)} {i : Instr} {op : State → Res} (he : ∀ s, Machine.exec i s = unlessFatal op s)
    (hl : ∀ s, s.fatal = false → Lane cs s (op s)) : Runs i op :=
  ⟨he, fun s hf => Res.Post.mono (hl s hf) (fun _ ht => ht.fatal.trans hf) fun _ ht => ht.fatal⟩

/-- In `FATAL` no operation runs (R322). -/
theorem execAll_of_fatal {is : List Instr} {ops : List (State → Res)} (h : List.Forall₂ Runs is ops) {s : State}
    (hf : s.fatal = true) : execAll is s = .next s := by
  induction h with
  | nil => rfl
  | cons hi _ ih =>
    rw [execAll, hi.exec, unlessFatal, if_pos hf]
    exact ih

/-- Instructions run one after another as their operations do. -/
theorem execAll_eq_inOrder {is : List Instr} {ops : List (State → Res)} (h : List.Forall₂ Runs is ops) {s : State}
    (hf : s.fatal = false) : execAll is s = (inOrder ops s).direct := by
  induction h generalizing s with
  | nil => rfl
  | @cons i op is ops hi his ih =>
    have hp := hi.fatal s hf
    rw [execAll, hi.exec, unlessFatal, if_neg (by simp [hf]), inOrder]
    cases e : op s with
    | done t => exact ih (hp.of_done e)
    | raised t => exact execAll_of_fatal his (hp.of_raised e)
    | stop _ => rfl
    | refuse _ => rfl

theorem runs_hufMklen {n : Nat} (h : n < 8) : Runs (.hufMklen (BitVec.ofNat 3 n)) (hufMklen n) := by
  refine .of_lane (fun s => ?_) fun s _ => hufMklen_lane n s
  rw [exec, execHufMklen, BitVec.toNat_ofNat, Nat.mod_eq_of_lt h]

theorem runs_hufAssign {n : Nat} (h : n < 8) : Runs (.hufAssign (BitVec.ofNat 3 n)) (hufAssign n) := by
  refine .of_lane (fun s => ?_) fun s _ => hufAssign_lane n s
  rw [exec, execHufAssign, BitVec.toNat_ofNat, Nat.mod_eq_of_lt h]

/-- An instruction for each table runs the operation for each table. -/
theorem runs_tables {i : BitVec 3 → Instr} {op : Nat → State → Res} (h : ∀ n, n < 8 → Runs (i (BitVec.ofNat 3 n)) (op n))
    (k : BitVec 3) :
    List.Forall₂ Runs ((List.range k.toNat).map fun n => i (BitVec.ofNat 3 n)) ((List.range k.toNat).map op) := by
  rw [List.forall₂_map_left_iff, List.forall₂_map_right_iff, List.forall₂_same]
  intro n hn
  have := List.mem_range.1 hn
  exact h n (by omega)

/-! ## Phases as sequences of operations -/

theorem makeTables_eq_inOrder (n t : Nat) (s : State) :
    makeTables n t s = inOrder ((List.range' t n).map hufMklen) s := by
  induction n generalizing t s with
  | zero => rfl
  | succ n ih => exact congrArg _ (funext (ih (t + 1)))

theorem assignTables_eq_inOrder (n t : Nat) (s : State) :
    assignTables n t s = inOrder ((List.range' t n).map hufAssign) s := by
  induction n generalizing t s with
  | zero => rfl
  | succ n ih => exact congrArg _ (funext (ih (t + 1)))

/-- What follows an operation matters on the states it completes in only. -/
theorem Res.Post.andThen_congr {r : Res} {P Q : State → Prop} {k l : State → Res} (h : r.Post P Q)
    (hkl : ∀ t, P t → k t = l t) : r.andThen k = r.andThen l := by
  cases r with
  | done t => exact hkl t h
  | raised _ => rfl
  | stop _ => rfl
  | refuse _ => rfl

/-- R224: what `HUF.ITER` writes. -/
theorem hufIter_frame (s : State) :
    (hufIter s).Post
      (fun t => t = { s with nSelectors := t.nSelectors, selector := t.selector, fave := t.fave, cost := t.cost,
                             rfreq := t.rfreq })
      fun _ => True := by
  refine withSymbols_post fun vs _ _ => withRows_post fun rows _ _ _ => ?_
  dsimp only
  split
  · trivial
  · split
    · trivial
    · exact inRange_post fun _ => rfl

/-- R229: the range check changes nothing. -/
theorem hufRangechk_same (s : State) : (hufRangechk s).Post (fun t => t = s) fun _ => True :=
  withRows_post fun rows _ _ _ => by split <;> trivial

/-- R221, R222, R25. -/
theorem phaseHufInit_eq (p : Params) (s : State) :
    phaseHufInit p s =
      (inOrder [hufNgroups p, hufInit] s).andThen fun t => .done { t with phase := .hufIter, iter := 0 } := by
  simp only [inOrder, Res.andThen_assoc, Res.andThen_done]
  rfl

/-- R223: the assignment, then the lengths of each table. -/
def passOps (s : State) : List (State → Res) := hufIter :: (List.range s.nGroups.toNat).map hufMklen

theorem inOrder_passOps (s : State) :
    inOrder (passOps s) s = (hufIter s).andThen (makeTables s.nGroups.toNat 0) := by
  rw [passOps, inOrder, List.range_eq_range']
  exact congrArg _ (funext fun t => (makeTables_eq_inOrder _ 0 t).symm)

theorem phaseHufIter_eq (s : State) :
    phaseHufIter s = (inOrder (passOps s) s).andThen fun t => .done t.nextPass := by
  rw [inOrder_passOps, Res.andThen_assoc]
  refine (hufIter_frame s).andThen_congr fun t ht => ?_
  have hn : t.nGroups = s.nGroups := by rw [ht]
  rw [hn]

/-- R25: the operations of a pass leave the number of the pass. -/
theorem inOrder_passOps_iter (s : State) :
    (inOrder (passOps s) s).Post (fun t => t.iter = s.iter) fun _ => True := by
  rw [inOrder_passOps]
  exact Res.Post.andThen (hufIter_iter s) fun t ht =>
    (makeTables_iter _ 0 t).mono (fun _ hu => hu.trans ht) fun _ h => h

/-- R229, R230 for each table, R231. -/
def assignOps (s : State) : List (State → Res) :=
  hufRangechk :: ((List.range s.nGroups.toNat).map hufAssign ++ [hufSelmtf])

theorem phaseHufAssign_eq (s : State) : phaseHufAssign s = inOrder (assignOps s) s := by
  rw [assignOps, inOrder]
  refine (hufRangechk_same s).andThen_congr fun t ht => ?_
  rw [ht, assignTables_eq_inOrder, ← List.range_eq_range', inOrder_append]
  exact congrArg _ (funext fun u => (Res.andThen_done_right _).symm)

/-- R255, R271: the header, then the five parts of the payload. -/
theorem phaseEmit_eq (s : State) :
    phaseEmit s = inOrder [frmBlockhdr, emitInuse, emitCounts, emitSelectors, emitLengths, emitSymbols] s := by
  simp only [inOrder, Res.andThen_done_right]
  rfl

/-! ## The steps of the phases -/

/-- What is made of the next state, where there is one. -/
def mapNext (f : State → State) : Host.Outcome State Fault Refusal → Host.Outcome State Fault Refusal
  | .next t => .next (f t)
  | .fault x => .fault x
  | .refused x => .refused x

/-- A transfer after operations that take no fault. -/
theorem direct_andThen_done {r : Res} {P : State → Prop} {k : State → Res} {f : State → State}
    (h : r.Post P fun _ => False) (hk : ∀ t, P t → k t = .done (f t)) : (r.andThen k).direct = mapNext f r.direct := by
  cases r with
  | done t => exact congrArg Res.direct (hk t h)
  | raised t => exact h.elim
  | stop _ => rfl
  | refuse _ => rfl

/-- A lane operation with no fault code takes no fault. -/
theorem Lane.never_raised {s : State} {r : Res} {P : State → Prop} (hl : Lane [] s r) (hp : r.Post P fun _ => True) :
    r.Post P fun _ => False :=
  (hl.and_done hp).mono (fun _ ht => ht.2) fun _ ht => not_laneRaised_nil ht

theorem phaseHufInit_direct {s : State} (hf : s.fatal = false) :
    (phaseHufInit Config.params s).direct =
      mapNext (fun t => { t with phase := .hufIter, iter := 0 }) (execAll [.hufNgroups, .hufInit] s) := by
  have hruns : List.Forall₂ Runs [.hufNgroups, .hufInit] [hufNgroups Config.params, hufInit] :=
    .cons (.of_lane (fun _ => rfl) fun s _ => hufNgroups_lane _ s)
      (.cons (.of_lane (fun _ => rfl) fun s _ => hufInit_lane s) .nil)
  have hl : Lane [] s (inOrder [hufNgroups Config.params, hufInit] s) :=
    (hufNgroups_lane _ s).andThen fun t _ => (hufInit_lane t).andThen fun u _ => .refl u
  rw [execAll_eq_inOrder hruns hf, phaseHufInit_eq]
  exact direct_andThen_done (Res.Post.mono hl (fun _ h => h) fun _ h => not_laneRaised_nil h) fun _ _ => rfl

theorem phaseHufIter_direct {s : State} (hf : s.fatal = false) :
    (phaseHufIter s).direct =
      mapNext
        (fun t => if s.iter.toNat < 3 then { t with phase := .hufIter, iter := s.iter + 1 }
          else { t with phase := .hufAssign })
        (execAll (.hufIter :: (List.range s.nGroups.toNat).map fun n => .hufMklen (BitVec.ofNat 3 n)) s) := by
  have hruns : List.Forall₂ Runs (.hufIter :: (List.range s.nGroups.toNat).map fun n => .hufMklen (BitVec.ofNat 3 n))
      (passOps s) :=
    .cons (.of_lane (fun _ => rfl) fun s _ => hufIter_lane s) (runs_tables (fun _ => runs_hufMklen) s.nGroups)
  have hl : Lane [] s (inOrder (passOps s) s) := by
    rw [inOrder_passOps]
    exact (hufIter_lane s).andThen fun t _ => makeTables_lane _ 0 t
  rw [execAll_eq_inOrder hruns hf, phaseHufIter_eq]
  refine direct_andThen_done (hl.never_raised (inOrder_passOps_iter s)) fun t ht => ?_
  rw [State.nextPass_eq, ht]

theorem phaseHufAssign_direct {s : State} (hf : s.fatal = false) :
    (phaseHufAssign s).direct =
      execAll (.hufRangechk :: (((List.range s.nGroups.toNat).map fun n => .hufAssign (BitVec.ofNat 3 n)) ++ [.hufSelmtf]))
        s := by
  have hruns : List.Forall₂ Runs (.hufRangechk ::
      (((List.range s.nGroups.toNat).map fun n => .hufAssign (BitVec.ofNat 3 n)) ++ [.hufSelmtf])) (assignOps s) :=
    .cons (.of_lane (fun _ => rfl) hufRangechk_lane) (List.rel_append (runs_tables (fun _ => runs_hufAssign) s.nGroups)
      (.cons (.of_lane (fun _ => rfl) fun s _ => hufSelmtf_lane s) .nil))
  rw [execAll_eq_inOrder hruns hf, phaseHufAssign_eq]

theorem phaseEmit_direct {s : State} (hf : s.fatal = false) :
    (phaseEmit s).direct =
      execAll [.frmBlockhdr, .emitInuse, .emitCounts, .emitSelectors, .emitLengths, .emitSymbols] s := by
  have hruns : List.Forall₂ Runs [.frmBlockhdr, .emitInuse, .emitCounts, .emitSelectors, .emitLengths, .emitSymbols]
      [frmBlockhdr, emitInuse, emitCounts, emitSelectors, emitLengths, emitSymbols] :=
    .cons (.of_lane (fun _ => rfl) fun s _ => frmBlockhdr_lane s) <|
    .cons (.of_lane (fun _ => rfl) fun s _ => emitInuse_lane s) <|
    .cons (.of_lane (fun _ => rfl) fun s _ => emitCounts_lane s) <|
    .cons (.of_lane (fun _ => rfl) fun s _ => emitSelectors_lane s) <|
    .cons (.of_lane (fun _ => rfl) fun s _ => emitLengths_lane s) <|
    .cons (.of_lane (fun _ => rfl) fun s _ => emitSymbols_lane s) .nil
  rw [execAll_eq_inOrder hruns hf, phaseEmit_eq]

/-- Settles O5, phase by phase: its operation is the sequence of the operations its instructions run, and the transfer. -/
theorem phasesRunTheirOperationsInOrder : Obligations.PhasesRunTheirOperationsInOrder := by
  intro s hi hf
  have hs := step_eq_phaseOp hi hf
  refine ⟨fun hp => ?hufInit, fun hp => ?hufIter, fun hp => ?hufAssign, fun hp => ?emit⟩ <;> rw [hs, hp]
  case hufInit => exact phaseHufInit_direct hf
  case hufIter => exact phaseHufIter_direct hf
  case hufAssign => exact phaseHufAssign_direct hf
  case emit => exact phaseEmit_direct hf

end Sys2Proof.Machine
end

section
/-! PROOF. O34: a list of run symbols, with a 1 put after them, is the binary numeral of the run's length plus 1 (R103). -/

namespace Sys2Proof.Machine

/-- R103: digits with values 1 and 2 are binary digits of a number one greater, with the leading 1 left out. -/
theorem zeroRunValue_add_one (ds : List Nat) : zeroRunValue ds + 1 = Nat.ofDigits 2 (ds ++ [1]) := by
  induction ds with
  | nil => rfl
  | cons d ds ih =>
    rw [List.cons_append, Nat.ofDigits_cons, ← ih, zeroRunValue]
    omega

theorem digits_zeroRunValue_add_one {ds : List Nat} (h : ∀ d ∈ ds, d < 2) :
    Nat.digits 2 (zeroRunValue ds + 1) = ds ++ [1] := by
  rw [zeroRunValue_add_one]
  refine Nat.digits_ofDigits 2 (by decide) _ ?digits ?leading
  case digits =>
    intro d hd
    rcases List.mem_append.1 hd with hd | hd
    · exact h d hd
    · rw [List.mem_singleton.1 hd]
      decide
  case leading =>
    intro hne
    rw [List.getLast_append_singleton]
    decide

/-- R103: run symbols are the binary digits of the length plus 1, without the leading 1. -/
theorem eq_dropLast_digits {ds : List Nat} (h : ∀ d ∈ ds, d < 2) :
    ds = (Nat.digits 2 (zeroRunValue ds + 1)).dropLast := by
  rw [digits_zeroRunValue_add_one h, List.dropLast_concat]

/-- Settles O34: the symbols of a run and any others of its value are the digits of one binary numeral. -/
theorem zeroRunNumeral : Obligations.ZeroRunNumeral := by
  intro r
  have hr : zeroRun r = (Nat.digits 2 (r + 1)).dropLast := by
    have h := eq_dropLast_digits (zeroRun_lt_two r)
    rwa [zeroRunValue_zeroRun] at h
  refine ⟨zeroRun_lt_two r, zeroRunValue_zeroRun r, fun ds hds hv => ?unique, hr⟩
  case unique =>
    rw [hr, ← hv]
    exact eq_dropLast_digits hds

end Sys2Proof.Machine
end

section
/-! PROOF. O14 to O18: the operations of the BitSink (R132 to R136) are writes to it that check its flag and their
operands (R319, R112). -/

namespace Sys2Proof.Machine

/-! ## Legal operands: R112 -/

theorem bitsLegal_iff {c : BitVec 8} : bitsLegal c = true ↔ c.toNat ≤ 32 := decide_eq_true_iff

theorem boolLegal_iff {c : BitVec 8} {v : Word32} : boolLegal c v = true ↔ c = 1#8 ∧ v.extractLsb' 1 31 = 0#31 := by
  rw [boolLegal, Bool.and_eq_true, beq_iff_eq, beq_iff_eq]

/-- R139: a value with bit 31 clear is not negative. -/
theorem unaryLegal_iff {c : BitVec 8} {v : Word32} : unaryLegal c v = true ↔ c = 0#8 ∧ 0 ≤ v.toInt := by
  have hmsb : v.getLsbD 31 = v.msb := rfl
  rw [unaryLegal, hmsb, Bool.and_eq_true, beq_iff_eq, Bool.not_eq_true', BitVec.msb_eq_toInt, decide_eq_false_iff_not,
    not_lt]

theorem int32Legal_iff {c : BitVec 8} : int32Legal c = true ↔ c = 32#8 := beq_iff_eq

theorem flushLegal_iff {c : BitVec 8} {v : Word32} : flushLegal c v = true ↔ c = 0#8 ∧ v = 0#32 := by
  rw [flushLegal, Bool.and_eq_true, beq_iff_eq, beq_iff_eq]

/-! ## The bits of an operation -/

/-- R62: the high part, then the low part. -/
theorem bitsOf_extractLsb'_append (n m : Nat) (v : BitVec (n + m)) :
    bitsOf n (v.extractLsb' m n) ++ bitsOf m (v.extractLsb' 0 m) = bitsOf (n + m) v := by
  rw [bitsOf, bitsOf, bitsOf, List.range_add, List.map_append, List.map_map]
  refine congrArg₂ (· ++ ·) (List.map_congr_left fun k hk => ?high) (List.map_congr_left fun k hk => ?low)
  case high =>
    have hlt := List.mem_range.1 hk
    rw [BitVec.getLsbD_extractLsb', decide_eq_true (by omega), Bool.true_and]
    congr 1
    omega
  case low =>
    have hlt := List.mem_range.1 hk
    rw [BitVec.getLsbD_extractLsb', decide_eq_true (by omega), Bool.true_and, Function.comp_apply]
    congr 1
    omega

/-- R135: "the bits are the same as `BITS 32, v`". -/
theorem int32Bits_eq_bitsOf (v : Word32) : int32Bits v = bitsOf 32 v := bitsOf_extractLsb'_append 16 16 v

/-! ## Writes -/

section
variable {s : State} {legal : Bool} {bs : List Bool}

theorem sinkWrite_closed (hf : s.fatal = false) (hc : s.sink.closed = true) :
    sinkWrite legal bs s = .raised (s.haltedWith 0x40#8) := by
  rw [sinkWrite, if_pos hc]
  exact raise_of_not_fatal hf .sinkClosed

theorem sinkWrite_illegal (hf : s.fatal = false) (hc : s.sink.closed = false) (hl : ¬ legal = true) :
    sinkWrite legal bs s = .raised (s.haltedWith 0x41#8) := by
  rw [sinkWrite, if_neg (by simp [hc]), if_neg hl]
  exact raise_of_not_fatal hf .badBitop

theorem sinkWrite_legal (hc : s.sink.closed = false) (hl : legal = true) :
    sinkWrite legal bs s = .done { s with sink := s.sink.putBits bs } := by
  rw [sinkWrite, if_neg (by simp [hc]), if_pos hl]

theorem unlessFatal_sinkWrite_closed (hf : s.fatal = false) (hc : s.sink.closed = true) :
    unlessFatal (sinkWrite legal bs) s = .next (s.haltedWith 0x40#8) :=
  unlessFatal_of_raised hf (sinkWrite_closed hf hc)

theorem unlessFatal_sinkWrite_illegal (hf : s.fatal = false) (hc : s.sink.closed = false) (hl : ¬ legal = true) :
    unlessFatal (sinkWrite legal bs) s = .next (s.haltedWith 0x41#8) :=
  unlessFatal_of_raised hf (sinkWrite_illegal hf hc hl)

theorem unlessFatal_sinkWrite_legal (hf : s.fatal = false) (hc : s.sink.closed = false) (hl : legal = true) :
    unlessFatal (sinkWrite legal bs) s = .next { s with sink := s.sink.putBits bs } :=
  unlessFatal_of_done hf (sinkWrite_legal hc hl)

theorem unlessFatal_sinkWrite_appends (hf : s.fatal = false) (hc : s.sink.closed = false) (hl : legal = true) :
    ∃ k, s.sink.Appends k bs ∧ unlessFatal (sinkWrite legal bs) s = .next { s with sink := k } :=
  ⟨_, s.sink.appends_putBits bs, unlessFatal_sinkWrite_legal hf hc hl⟩

end

/-- Settles O14: BITS is the write of the low `c` bits of `v`. -/
theorem bitsOperation : Obligations.BitsOperation := fun _ _ _ hf =>
  ⟨unlessFatal_sinkWrite_closed hf,
    fun hc hl => unlessFatal_sinkWrite_illegal hf hc fun h => Nat.not_le_of_lt hl (bitsLegal_iff.1 h),
    fun hc hl => unlessFatal_sinkWrite_appends hf hc (bitsLegal_iff.2 hl)⟩

/-- Settles O15: BOOL is the write of bit 0 of its value. -/
theorem boolOperation : Obligations.BoolOperation := fun _ _ _ hf =>
  ⟨unlessFatal_sinkWrite_closed hf,
    fun hc hl => unlessFatal_sinkWrite_illegal hf hc fun h => not_and_or.2 hl (boolLegal_iff.1 h),
    fun hc h1 h0 => unlessFatal_sinkWrite_appends hf hc (boolLegal_iff.2 ⟨h1, h0⟩)⟩

/-- Settles O16: UNARY is the write of `n` ones and a zero. -/
theorem unaryOperation : Obligations.UnaryOperation := fun _ _ _ hf =>
  ⟨unlessFatal_sinkWrite_closed hf,
    fun hc hl => unlessFatal_sinkWrite_illegal hf hc fun h =>
      not_and_or.2 (hl.imp_right Int.not_le.2) (unaryLegal_iff.1 h),
    fun hc h0 hv => unlessFatal_sinkWrite_appends hf hc (unaryLegal_iff.2 ⟨h0, hv⟩)⟩

/-- Settles O17: INT32 is the write of all bits of `v`; its two halves are `BITS 32, v`. -/
theorem int32Operation : Obligations.Int32Operation := by
  intro c v s hf
  refine ⟨unlessFatal_sinkWrite_closed hf,
    fun hc hl => unlessFatal_sinkWrite_illegal hf hc fun h => hl (int32Legal_iff.1 h), fun hc hl => ?legal⟩
  case legal =>
    obtain ⟨k, happ, he⟩ := unlessFatal_sinkWrite_appends (bs := int32Bits v) hf hc (int32Legal_iff.2 hl)
    rw [int32Bits_eq_bitsOf] at happ
    exact ⟨k, happ, he⟩

/-! ## FLUSH -/

/-- R65: padding leaves no bit pending. -/
theorem BitSink.putBits_padBits_nacc (k : BitSink) : (k.putBits (padBits k.nacc)).nacc = 0#3 := by
  apply BitVec.eq_of_toNat_eq
  have hlen : (padBits k.nacc).length = (8 - k.nacc.toNat) % 8 := List.length_replicate
  have hlt := k.nacc.isLt
  rw [BitSink.putBits_nacc, hlen, BitVec.toNat_ofNat]
  omega

/-- A FLUSH that may not write is halted as any write is. -/
theorem exec_flush_of_raised {c : BitVec 8} {v : Word32} {s t : State} (hf : s.fatal = false)
    (e : sinkWrite (flushLegal c v) (padBits s.sink.nacc) s = .raised t) : exec (.flush c v) s = .next t := by
  apply unlessFatal_of_raised hf
  rw [opFlush, e, Res.andThen_raised]

theorem exec_flush_legal {c : BitVec 8} {v : Word32} {s : State} (hf : s.fatal = false) (hc : s.sink.closed = false)
    (hl : flushLegal c v = true) :
    exec (.flush c v) s =
      .next { s with sink := { s.sink.putBits (padBits s.sink.nacc) with closed := true } } := by
  apply unlessFatal_of_done hf
  rw [opFlush, sinkWrite_legal hc hl, Res.andThen_done]

/-- Settles O18: FLUSH is the write of the zero bits that fill the last byte, then the sink is closed. -/
theorem flushOperation : Obligations.FlushOperation := fun _ _ s hf =>
  ⟨fun hc => exec_flush_of_raised hf (sinkWrite_closed hf hc),
    fun hc hl => exec_flush_of_raised hf (sinkWrite_illegal hf hc fun h => not_and_or.2 hl (flushLegal_iff.1 h)),
    fun hc h0 hv => ⟨_, s.sink.appends_putBits (padBits s.sink.nacc), s.sink.putBits_padBits_nacc,
      exec_flush_legal hf hc (flushLegal_iff.2 ⟨h0, hv⟩)⟩⟩

end Sys2Proof.Machine
end

section
/-! PROOF. O20: a sequence of legal BitOperations is one write of the concatenated bits (R130), and a write to a
byte-aligned sink is laid out in bytes, most significant bit first. -/

namespace Sys2Proof.Machine

/-! ## The layout of a bit string in bytes -/

theorem getD_bitsOf {w n j : Nat} {v : BitVec w} (h : j < n) : (bitsOf n v).getD j false = v.getLsbD (n - 1 - j) := by
  rw [List.getD_eq_getElem?_getD, getElem?_bitsOf h, Option.getD_some]

/-- R60: the bits of bytes, one after another. -/
def bitsOfBytes (bytes : List Byte) : List Bool := bytes.flatMap (bitsOf 8)

@[simp] theorem bitsOfBytes_cons (b : Byte) (bytes : List Byte) :
    bitsOfBytes (b :: bytes) = bitsOf 8 b ++ bitsOfBytes bytes := rfl

theorem length_bitsOfBytes (bytes : List Byte) : (bitsOfBytes bytes).length = 8 * bytes.length := by
  induction bytes with
  | nil => rfl
  | cons b bytes ih =>
    rw [bitsOfBytes_cons, List.length_append, length_bitsOf, ih, List.length_cons]
    omega

/-- Bit `j` of byte `n` in stream order. -/
theorem getD_bitsOfBytes_append {bytes : List Byte} (tail : List Bool) {n j : Nat} (hn : n < bytes.length) (hj : j < 8) :
    (bitsOfBytes bytes ++ tail).getD (8 * n + j) false = (bytes.getD n 0).getLsbD (7 - j) := by
  induction bytes generalizing n with
  | nil => exact absurd hn (Nat.not_lt_zero n)
  | cons b bytes ih =>
    rw [bitsOfBytes_cons, List.append_assoc]
    cases n with
    | zero =>
      rw [List.getD_append _ _ _ _ (by rw [length_bitsOf]; omega), getD_bitsOf (by omega), List.getD_cons_zero]
      congr 1
      omega
    | succ n =>
      rw [List.getD_append_right _ _ _ _ (by rw [length_bitsOf]; omega), length_bitsOf, List.getD_cons_succ,
        ← ih (Nat.lt_of_succ_lt_succ hn)]
      congr 1
      omega

/-- The bits of messages that are all bytes. -/
theorem flatten_bits_byte (bytes : List Byte) :
    ((bytes.map SinkMsg.byte).map SinkMsg.bits).flatten = bitsOfBytes bytes := by
  rw [List.map_map, bitsOfBytes, List.flatMap_def]
  rfl

/-- R130: what is written to a byte-aligned sink is the bits of the pushed bytes, then the pending ones. -/
theorem BitSink.Appends.bits_eq {k k' : BitSink} {bs : List Bool} (h : k.Appends k' bs) (hn : k.nacc = 0#3) :
    ∃ pushed : List Byte, k'.bytes = k.bytes ++ pushed.map SinkMsg.byte ∧
      bs = bitsOfBytes pushed ++ bitsOf k'.nacc.toNat k'.acc := by
  obtain ⟨⟨pushed, hp⟩, hs, -⟩ := h
  have hk : k.stream = (k.bytes.map SinkMsg.bits).flatten := by
    rw [BitSink.stream, hn]
    exact List.append_nil _
  rw [hk, BitSink.stream, hp, List.map_append, List.flatten_append, List.append_assoc, flatten_bits_byte] at hs
  exact ⟨pushed, hp, (List.append_cancel_left hs).symm⟩

/-- R130: the whole bytes of what is written to a byte-aligned sink are pushed, the other bits are kept. -/
theorem BitSink.Appends.layout {k k' : BitSink} {bs : List Bool} (h : k.Appends k' bs) (hn : k.nacc = 0#3) :
    ∃ pushed : List Byte, k'.bytes = k.bytes ++ pushed.map SinkMsg.byte ∧ pushed.length = bs.length / 8 ∧
      (∀ n j, n < pushed.length → j < 8 → (pushed.getD n 0).getLsbD (7 - j) = bs.getD (8 * n + j) false) ∧
      k'.nacc.toNat = bs.length % 8 ∧
      ∀ j, j < bs.length % 8 → k'.acc.getLsbD (bs.length % 8 - 1 - j) = bs.getD (8 * (bs.length / 8) + j) false := by
  obtain ⟨pushed, hp, rfl⟩ := h.bits_eq hn
  have hlen : (bitsOfBytes pushed ++ bitsOf k'.nacc.toNat k'.acc).length = 8 * pushed.length + k'.nacc.toNat := by
    rw [List.length_append, length_bitsOfBytes, length_bitsOf]
  have hlt := k'.nacc.isLt
  have hdiv : (8 * pushed.length + k'.nacc.toNat) / 8 = pushed.length := by omega
  have hmod : (8 * pushed.length + k'.nacc.toNat) % 8 = k'.nacc.toNat := by omega
  rw [hlen, hdiv, hmod]
  refine ⟨pushed, hp, rfl, fun n j hnp hj => (getD_bitsOfBytes_append _ hnp hj).symm, rfl, fun j hj => ?pending⟩
  case pending =>
    rw [← length_bitsOfBytes, List.getD_append_right _ _ _ _ (Nat.le_add_right _ _), Nat.add_sub_cancel_left,
      getD_bitsOf hj]

/-! ## Sequences of operations -/

theorem execAll_cons {i : Instr} {s t : State} (h : exec i s = .next t) (is : List Instr) :
    execAll (i :: is) s = execAll is t := by
  rw [execAll, h]

theorem execAll_append {is : List Instr} {s t : State} (h : execAll is s = .next t) (js : List Instr) :
    execAll (is ++ js) s = execAll js t := by
  induction is generalizing s with
  | nil => cases h; rfl
  | cons i is ih =>
    rw [List.cons_append]
    cases he : exec i s with
    | next u => rw [execAll_cons he] at h ⊢; exact ih h
    | fault f => rw [execAll, he] at h; cases h
    | refused r => rw [execAll, he] at h; cases h

/-- R130: a legal BitOperation writes its bit string. -/
theorem exec_of_bitString {i : Instr} {bs : List Bool} {s : State} (hf : s.fatal = false) (hc : s.sink.closed = false)
    (h : bitString i = some bs) : exec i s = .next { s with sink := s.sink.putBits bs } := by
  cases i
  case bits c v =>
    obtain ⟨hl, ⟨⟩⟩ := Option.ite_none_right_eq_some.1 h
    exact unlessFatal_sinkWrite_legal hf hc (bitsLegal_iff.2 hl)
  case boolean c v =>
    obtain ⟨⟨h1, hv⟩, ⟨⟩⟩ := Option.ite_none_right_eq_some.1 h
    have h0 : v.extractLsb' 1 31 = 0#31 := by
      apply BitVec.eq_of_toNat_eq
      rw [BitVec.extractLsb'_toNat, Nat.shiftRight_eq_div_pow, Nat.div_eq_of_lt hv]
      rfl
    exact unlessFatal_sinkWrite_legal hf hc (boolLegal_iff.2 ⟨h1, h0⟩)
  case unary c v =>
    obtain ⟨hl, ⟨⟩⟩ := Option.ite_none_right_eq_some.1 h
    exact unlessFatal_sinkWrite_legal hf hc (unaryLegal_iff.2 hl)
  case int32 c v =>
    obtain ⟨hl, ⟨⟩⟩ := Option.ite_none_right_eq_some.1 h
    rw [← int32Bits_eq_bitsOf]
    exact unlessFatal_sinkWrite_legal hf hc (int32Legal_iff.2 hl)
  all_goals cases h

/-- R130: a sequence of legal BitOperations is one write of the concatenation of their bit strings. -/
theorem execAll_of_bitStrings {ops : List Instr} {strings : List (List Bool)} {s : State} (hf : s.fatal = false)
    (hc : s.sink.closed = false) (h : ops.map bitString = strings.map some) :
    execAll ops s = .next { s with sink := s.sink.putBits strings.flatten } := by
  induction ops generalizing strings s with
  | nil =>
    cases strings with
    | nil => rfl
    | cons bs strings => cases h
  | cons i ops ih =>
    cases strings with
    | nil => cases h
    | cons bs strings =>
      obtain ⟨hi, hops⟩ := List.cons.inj h
      rw [execAll_cons (exec_of_bitString hf hc hi),
        ih (s := { s with sink := s.sink.putBits bs }) hf (by simpa using hc) hops, List.flatten_cons,
        BitSink.putBits_append]

/-- R130, R65: after a write to a byte-aligned sink, the padding is that of what was written. -/
theorem padBits_putBits_nacc {k : BitSink} (hn : k.nacc = 0#3) (bs : List Bool) :
    padBits (k.putBits bs).nacc = List.replicate ((8 - bs.length % 8) % 8) false := by
  rw [padBits, BitSink.putBits_nacc, hn, BitVec.toNat_ofNat, Nat.zero_mod, Nat.zero_add]

/-- R130: with a FLUSH after them, the sequence is the write of the padded concatenation, and the sink is closed. -/
theorem execAll_flush_of_bitStrings {ops : List Instr} {strings : List (List Bool)} {s : State} (hf : s.fatal = false)
    (hc : s.sink.closed = false) (hn : s.sink.nacc = 0#3) (h : ops.map bitString = strings.map some) :
    execAll (ops ++ [.flush 0#8 0#32]) s =
      .next { s with sink := { s.sink.putBits
        (strings.flatten ++ List.replicate ((8 - strings.flatten.length % 8) % 8) false) with closed := true } } := by
  rw [execAll_append (execAll_of_bitStrings hf hc h),
    execAll_cons (exec_flush_legal (s := { s with sink := s.sink.putBits strings.flatten }) hf (by simpa using hc) rfl),
    execAll, padBits_putBits_nacc hn, BitSink.putBits_append]

/-- Settles O20: the operations are one write, with FLUSH the write of the padded bits, and `BitSink.Appends.layout` lays
each out in bytes. -/
theorem sinkContract : Obligations.SinkContract := by
  intro ops strings s hf hc hn h
  refine ⟨_, execAll_of_bitStrings hf hc h, (s.sink.appends_putBits _).layout hn,
    _, execAll_flush_of_bitStrings hf hc hn h, ?padded⟩
  case padded =>
    obtain ⟨pushed, hbytes, hlen, hbits, -, -⟩ := (s.sink.appends_putBits
      (strings.flatten ++ List.replicate ((8 - strings.flatten.length % 8) % 8) false)).layout hn
    exact ⟨pushed, hbytes, hlen, hbits⟩

end Sys2Proof.Machine
end

section
/-! PROOF. O28: the CRC step is linear, and a byte shifted out is looked up in the table (R153, R154). -/

namespace Sys2Proof.Machine

/-- R153: a bit step shifts, and adds the polynomial where a 1 is shifted out. -/
theorem crcBit_eq (c : Word32) : crcBit c = (c <<< 1) ^^^ if c.getLsbD 31 then Config.crcPoly else 0#32 := by
  unfold crcBit
  split
  · rfl
  · exact BitVec.xor_zero.symm

theorem crcBit_xor (a b : Word32) : crcBit (a ^^^ b) = crcBit a ^^^ crcBit b := by
  have hpoly : ∀ x y : Bool, (if x ^^ y then Config.crcPoly else 0#32) =
      (if x then Config.crcPoly else 0#32) ^^^ if y then Config.crcPoly else 0#32 := by decide
  rw [crcBit_eq, crcBit_eq a, crcBit_eq b, BitVec.getLsbD_xor, BitVec.shiftLeft_xor_distrib, hpoly]
  ac_rfl

theorem crcBit_iterate_xor (n : Nat) (a b : Word32) : crcBit^[n] (a ^^^ b) = crcBit^[n] a ^^^ crcBit^[n] b := by
  induction n generalizing a b with
  | zero => rfl
  | succ n ih => rw [Function.iterate_succ_apply, crcBit_xor, ih, Function.iterate_succ_apply, Function.iterate_succ_apply]

/-- Where only zeros are shifted out, the bit steps shift. -/
theorem crcBit_iterate_of_clear {n : Nat} {c : Word32} (h : ∀ j < n, c.getLsbD (31 - j) = false) :
    crcBit^[n] c = c <<< n := by
  induction n with
  | zero => exact (BitVec.shiftLeft_zero c).symm
  | succ n ih =>
    have hout : (c <<< n).getLsbD 31 = false := by
      rw [BitVec.getLsbD_shiftLeft, h n (Nat.lt_succ_self n), Bool.and_false]
    rw [Function.iterate_succ_apply', ih fun j hj => h j (Nat.lt_succ_of_lt hj), crcBit_eq, hout,
      BitVec.shiftLeft_add]
    exact BitVec.xor_zero

/-- R153: eight bit steps. -/
theorem crcStep_eq_iterate (c : Word32) (v : Byte) : crcStep c v = crcBit^[8] (c ^^^ (v ++ 0#24)) := rfl

/-- The register with a byte added: its low 24 bits, and above them the byte that is shifted out. -/
theorem xor_byte_eq (c : Word32) (v : Byte) :
    c ^^^ (v ++ 0#24) = (0#8 ++ c.extractLsb' 0 24) ^^^ ((c.extractLsb' 24 8 ^^^ v) ++ 0#24) := by
  apply BitVec.eq_of_getLsbD_eq
  intro j hj
  simp only [BitVec.getLsbD_xor, BitVec.getLsbD_append, BitVec.getLsbD_extractLsb']
  by_cases hlow : j < 24
  · simp [hlow]
  · simp [hlow, show j - 24 < 8 by omega, show 24 + (j - 24) = j by omega]

/-- The low 24 bits are shifted only, and the shift moves the other ones out. -/
theorem crcBit_iterate_low (c : Word32) : crcBit^[8] (0#8 ++ c.extractLsb' 0 24) = c <<< 8 := by
  have hclear : ∀ j < 8, (0#8 ++ c.extractLsb' 0 24).getLsbD (31 - j) = false := by
    intro j hj
    rw [BitVec.getLsbD_append, if_neg (by omega)]
    exact BitVec.getLsbD_zero
  rw [crcBit_iterate_of_clear hclear]
  apply BitVec.eq_of_getLsbD_eq
  intro j hj
  simp only [BitVec.getLsbD_shiftLeft, BitVec.getLsbD_append, BitVec.getLsbD_extractLsb']
  by_cases hlow : j < 8
  · simp [hlow]
  · simp [hlow, show j - 8 < 24 by omega]

/-- R154: the byte-wise form. -/
theorem crcStep_eq_crcTab (c : Word32) (v : Byte) :
    crcStep c v = (c <<< 8) ^^^ crcTab (c.extractLsb' 24 8 ^^^ v) := by
  rw [crcTab, crcStep_eq_iterate, crcStep_eq_iterate, xor_byte_eq, crcBit_iterate_xor, crcBit_iterate_low,
    BitVec.zero_xor]

/-- Settles O28: the byte-wise form from the linearity of a bit step, the named entries by evaluation. -/
theorem crcTableForm : Obligations.CrcTableForm :=
  ⟨crcStep_eq_crcTab, by decide, by decide, by decide, by decide, by decide, by decide⟩

end Sys2Proof.Machine
end

section
/-! PROOF. O22, O23, O24 and O29: the operations of the input stage (R150, R151, R152, R156). -/

namespace Sys2Proof.Machine

theorem unlessFatal_of_refuse {op : State → Res} {s : State} {r : Refusal} (h : s.fatal = false) (e : op s = .refuse r) :
    unlessFatal op s = .refused r := by
  simp [unlessFatal, h, e, Res.direct]

/-! ## BLK.INIT -/

/-- R150: the capacity of a level fits its register. -/
theorem capacity_toNat {level : BitVec 4} (h : level.toNat ≤ 9) : (capacity level).toNat = 100000 * level.toNat := by
  have hlt : 100000 * level.toNat < 2 ^ 20 := by omega
  exact (BitVec.toNat_ofNat _ _).trans (Nat.mod_eq_of_lt hlt)

theorem blkInit_of_wrap {s : State} (h : s.nextId = 0xFFFFFFFF#32) : blkInit s = .refuse (.counterWrap .nextId) :=
  if_pos h

theorem blkInit_of_not_wrap {s : State} (h : s.nextId ≠ 0xFFFFFFFF#32) : blkInit s = .done s.newBlock := if_neg h

/-- Settles O22: BLK.INIT is refused on a wrap, and otherwise leaves `State.newBlock`, field by field. -/
theorem blkInitOperation : Obligations.BlkInitOperation := by
  intro s hf hl
  refine ⟨fun hw => unlessFatal_of_refuse hf (blkInit_of_wrap hw), fun hw =>
    ⟨s.newBlock, unlessFatal_of_done hf (blkInit_of_not_wrap hw), ?fields⟩⟩
  case fields =>
    exact ⟨rfl, rfl, capacity_toNat hl, rfl, rfl, rfl, rfl, rfl, rfl, rfl, rfl, rfl, rfl, rfl, rfl, hf, rfl, rfl, rfl,
      rfl, rfl, rfl, rfl, rfl, rfl⟩

/-! ## RLE1.FLUSHRUN -/

/-- R102: the bytes of a run, one by one. -/
theorem getElem?_runBytes {v : Byte} {l k : Nat} (h : k < runCost l) :
    (runBytes v l)[k]? = some (if 4 ≤ l ∧ k = 4 then BitVec.ofNat 8 (l - 4) else v) := by
  unfold runCost at h
  unfold runBytes Config.runLiterals
  split
  case isTrue hl =>
    rw [if_pos hl] at h
    rw [if_neg (by omega), List.getElem?_replicate, if_pos h]
  case isFalse hl =>
    rw [if_neg hl] at h
    by_cases hk : k = 4
    · rw [if_pos (by omega), hk]
      rfl
    · rw [if_neg (by omega), List.getElem?_append_left (by simp; omega), List.getElem?_replicate, if_pos (by omega)]

section
variable {s : State} (hfit : s.len.toNat + runCost s.runLen.toNat ≤ s.cap.toNat)
include hfit

/-- R152: the flush of a run that fits completes, and changes the buffer, its length and the run only. -/
theorem flushRun_completes : ∃ t, flushRun s = .done t ∧ t = { s with b := t.b, len := t.len, runLen := 0 } := by
  by_cases h0 : s.runLen = 0
  · refine ⟨s, if_pos h0, ?_⟩
    rw [← h0]
  · exact ⟨s.runFlushed, flushRun_eq_runFlushed hfit h0, rfl⟩

/-- R152: the bytes of the run stand after those of `B`. -/
theorem runFlushed_read (a : Nat) :
    s.runFlushed.b.read a =
      if a < s.len.toNat ∨ s.runFlushed.len.toNat ≤ a then s.b.read a
      else if 4 ≤ s.runLen.toNat ∧ a = s.len.toNat + 4 then some (BitVec.ofNat 8 (s.runLen.toNat - 4))
      else some s.runByte := by
  rw [runFlushed_len hfit]
  change (s.b.writeRange s.len.toNat (runBytes s.runByte s.runLen.toNat)).read a = _
  rw [Store.read_writeRange, length_runBytes]
  by_cases ha : s.len.toNat ≤ a ∧ a < s.len.toNat + runCost s.runLen.toNat
  · have hk : a - s.len.toNat = 4 ↔ a = s.len.toNat + 4 := by omega
    rw [if_pos ha, if_neg (by omega), getElem?_runBytes (by omega), apply_ite some]
    simp only [hk]
  · rw [if_neg ha, if_pos (by omega)]

end

/-- Settles O23: with no run pending nothing changes, otherwise the bytes of the run are written at the end. -/
theorem flushRunOperation : Obligations.FlushRunOperation := by
  intro s hf hfit
  by_cases h0 : s.runLen = 0
  · have hz : s.runLen.toNat = 0 := congrArg BitVec.toNat h0
    refine ⟨s, unlessFatal_of_done hf (if_pos h0), ?frame, ?len, fun a => ?reads⟩
    case frame =>
      rw [← show s.runLen = 0#8 from h0]
    case len =>
      rw [hz]
      rfl
    case reads => rw [if_pos (Nat.lt_or_ge a _)]
  · exact ⟨s.runFlushed, unlessFatal_of_done hf (flushRun_eq_runFlushed hfit h0), rfl, runFlushed_len hfit,
      runFlushed_read hfit⟩

/-! ## BLK.WRITE -/

theorem writeNeed_of_first {s : State} (h0 : s.runLen = 0) (v : Byte) : writeNeed s v = s.len.toNat + 1 :=
  if_pos (congrArg BitVec.toNat h0)

theorem writeNeed_of_same {s : State} {v : Byte} (h0 : s.runLen ≠ 0) (hv : v = s.runByte) :
    writeNeed s v = s.len.toNat + runCost (s.runLen.toNat + 1) := by
  rw [writeNeed, if_neg fun hz : s.runLen.toNat = 0 => h0 (BitVec.eq_of_toNat_eq hz), if_pos hv]

theorem writeNeed_of_other {s : State} {v : Byte} (h0 : s.runLen ≠ 0) (hv : v ≠ s.runByte) :
    writeNeed s v = s.len.toNat + runCost s.runLen.toNat + 1 := by
  rw [writeNeed, if_neg fun hz : s.runLen.toNat = 0 => h0 (BitVec.eq_of_toNat_eq hz), if_neg hv]

/-- Settles O24, by the cases of R151. -/
theorem blkWriteOperation : Obligations.BlkWriteOperation := by
  intro v s hf hfit hrun need u
  have accepted (hfull : s.full = false) (hneed : need ≤ s.cap.toNat) : accepts s v = true :=
    accepts_eq_true.2 ⟨hfull, hneed⟩
  refine ⟨accepts_eq_true, fun hfull => ?full, fun hfull hneed => ?rejected, fun hfull hneed hr => ?wrap,
    fun hfull hneed hr => ⟨fun h0 => ?first, fun h0 hv hlt => ?same, fun h0 hv hmax => ?longest, fun h0 hv => ?other⟩⟩
  case full =>
    exact unlessFatal_of_done hf (if_pos hfull)
  case rejected =>
    obtain ⟨t, ht, hframe⟩ := flushRun_completes hfit
    have hreject : accepts s v = false := Bool.eq_false_iff.2 fun ha => Nat.not_le_of_lt hneed (accepts_eq_true.1 ha).2
    refine ⟨t, unlessFatal_of_done hf ht, unlessFatal_of_done hf ?_, by rw [hframe], by rw [hframe]⟩
    rw [blkWrite_of_not_accepts hreject, if_neg (by simp [hfull]), ht, Res.andThen_done]
  case wrap =>
    exact unlessFatal_of_refuse hf (blkWrite_of_wrap (accepted hfull hneed) hr)
  case first =>
    exact unlessFatal_of_done hf (blkWrite_of_first (accepted hfull hneed) hr h0)
  case same =>
    have hne : s.runLen.toNat + 1 ≠ Config.runMax := by
      rw [Config.runMax]
      omega
    refine unlessFatal_of_done hf ?_
    rw [blkWrite_of_same (accepted hfull hneed) hr h0 hv, if_neg hne]
    rfl
  case longest =>
    have hlen : s.runLen + 1 = 255#8 := by bv_omega
    have hrunMax : s.runLen.toNat + 1 = Config.runMax := congrArg (· + 1) hmax
    have hfit' : writeNeed s v ≤ s.cap.toNat := hneed
    rw [writeNeed_of_same h0 hv, hmax] at hfit'
    obtain ⟨t, ht, hframe⟩ := flushRun_completes (s := { u with runLen := 255#8 }) hfit'
    refine ⟨t, unlessFatal_of_done hf ht, unlessFatal_of_done hf ?_, by rw [hframe]; rfl⟩
    rw [blkWrite_of_same (accepted hfull hneed) hr h0 hv, if_pos hrunMax, hlen]
    exact ht
  case other =>
    obtain ⟨t, ht, -⟩ := flushRun_completes (s := u) hfit
    refine ⟨t, unlessFatal_of_done hf ht, unlessFatal_of_done hf ?_⟩
    rw [blkWrite_of_other (accepted hfull hneed) hr h0 hv]
    exact congrArg (Res.andThen · _) ht

/-! ## BLK.CLOSE -/

/-- Settles O29: the flag is tested first; the flush of an open Block leaves the CRC as it is. -/
theorem blkCloseOperation : Obligations.BlkCloseOperation := by
  intro s hf
  refine ⟨fun hc => ?again, fun hc hfit => ?close⟩
  case again =>
    refine unlessFatal_of_raised hf ?_
    rw [blkClose, if_pos hc]
    exact raise_of_not_fatal hf .doubleClose
  case close =>
    obtain ⟨t, ht, hframe⟩ := flushRun_completes (s := { s with closed := true }) hfit
    have hcrc : t.crc = s.crc := by rw [hframe]
    refine ⟨t, unlessFatal_of_done hf ht, unlessFatal_of_done hf ?_⟩
    rw [blkClose, if_neg (by simp [hc]), ht, Res.andThen_done, hcrc]

end Sys2Proof.Machine
end

section
/-! PROOF. O26: of run-free input all bytes but the last stand in the buffer, and the last one is the pending run (R151,
R155). -/

namespace Sys2Proof.Machine

/-- A Block of capacity `cap` has taken the bytes `ys` and then `x`, no two adjacent ones equal: `ys` fills the buffer, `x`
is a pending run of one byte. -/
structure RunFree (cap : BitVec 20) (ys : List Byte) (x : Byte) (s : State) : Prop where
  fatal : s.fatal = false
  full : s.full = false
  cap : s.cap = cap
  raw : s.rawCount.toNat = ys.length + 1
  runByte : s.runByte = x
  runLen : s.runLen = 1
  len : s.len.toNat = ys.length
  bytes : s.b.readRange 0 ys.length = some ys

/-- R155: a single byte takes one byte of the buffer. -/
theorem runCost_one : runCost 1 = 1 := rfl

section
variable {cap : BitVec 20} {ys : List Byte} {x v : Byte} {s : State} (h : RunFree cap ys x s)
include h

theorem RunFree.runLen_ne : s.runLen ≠ 0 := by
  rw [h.runLen]
  decide

theorem RunFree.runLen_toNat : s.runLen.toNat = 1 := congrArg BitVec.toNat h.runLen

theorem RunFree.fits (hfit : ys.length + 1 ≤ cap.toNat) : s.len.toNat + runCost s.runLen.toNat ≤ s.cap.toNat := by
  rwa [h.runLen_toNat, h.len, h.cap]

/-- R152: the flush puts the pending byte after the others. -/
theorem RunFree.flushRun (hfit : ys.length + 1 ≤ cap.toNat) :
    flushRun s = .done s.runFlushed ∧ s.runFlushed.len.toNat = ys.length + 1 ∧
      s.runFlushed.b.readRange 0 (ys.length + 1) = some (ys ++ [x]) := by
  have hfit' := h.fits hfit
  refine ⟨flushRun_eq_runFlushed hfit' h.runLen_ne, ?len, ?bytes⟩
  case len => rw [runFlushed_len hfit', h.runLen_toNat, h.len, runCost_one]
  case bytes =>
    change (s.b.writeRange s.len.toNat (runBytes s.runByte s.runLen.toNat)).readRange 0 _ = _
    rw [h.runLen_toNat, h.runByte, h.len]
    exact Store.readRange_writeRange_append h.bytes [x]

/-- R151: a byte that differs from the pending one needs two bytes more than the buffer holds. -/
theorem RunFree.accepts_iff (hv : v ≠ x) : accepts s v = true ↔ ys.length + 2 ≤ cap.toNat := by
  have hneed : writeNeed s v = ys.length + 2 := by
    rw [writeNeed_of_other h.runLen_ne (h.runByte ▸ hv), h.runLen_toNat, h.len, runCost_one]
  rw [accepts_eq_true, hneed, h.cap]
  exact and_iff_right h.full

/-- R151: another byte is accepted while there is room for it. -/
theorem RunFree.write (hv : v ≠ x) (hfit : ys.length + 2 ≤ cap.toNat) :
    ∃ t, exec (.blkWrite v) s = .next t ∧ RunFree cap (ys ++ [x]) v t := by
  have hcap := cap.isLt
  have hr : s.rawCount ≠ 0xFFFFFFFF#32 := fun hr => by
    have := h.raw
    rw [hr, BitVec.toNat_ofNat] at this
    omega
  have hfit' : ys.length + 1 ≤ cap.toNat := by omega
  have he : blkWrite v s = .done { (s.countRaw v).runFlushed with runByte := v, runLen := 1 } := by
    rw [blkWrite_of_other ((h.accepts_iff hv).2 hfit) hr h.runLen_ne (h.runByte ▸ hv),
      flushRun_eq_runFlushed (s := s.countRaw v) (h.fits hfit') h.runLen_ne, Res.andThen_done]
  obtain ⟨-, hlen, hbytes⟩ := h.flushRun hfit'
  have hraw : (s.countRaw v).rawCount.toNat = ys.length + 1 + 1 := (countRaw_toNat hr v).trans (congrArg (· + 1) h.raw)
  have hlength : (ys ++ [x]).length = ys.length + 1 := List.length_append
  rw [← hlength] at hlen hbytes hraw
  exact ⟨_, unlessFatal_of_done h.fatal he, h.fatal, h.full, h.cap, hraw, rfl, rfl, hlen, hbytes⟩

/-- R151, R155: the byte after the last that fits is rejected, and the Block is full to its last byte. -/
theorem RunFree.reject (hv : v ≠ x) (hfull : ys.length + 1 = cap.toNat) :
    ∃ u, exec (.blkWrite v) s = .next u ∧ u.full = true ∧ u.rawCount = s.rawCount ∧ u.len = u.cap ∧ u.cap = cap ∧
      u.b.readRange 0 u.len.toNat = some (ys ++ [x]) := by
  obtain ⟨hflush, hlen, hbytes⟩ := h.flushRun hfull.le
  have ha : accepts s v = false := Bool.eq_false_iff.2 fun ha => by
    have := (h.accepts_iff hv).1 ha
    omega
  have he : blkWrite v s = .done { s.runFlushed with full := true } := by
    rw [blkWrite_of_not_accepts ha, if_neg (by simp [h.full]), hflush, Res.andThen_done]
  refine ⟨_, unlessFatal_of_done h.fatal he, rfl, rfl, ?len, h.cap, ?bytes⟩
  case len => exact BitVec.eq_of_toNat_eq (hlen.trans (hfull.trans (congrArg BitVec.toNat h.cap.symm)))
  case bytes => exact (congrArg _ hlen).trans hbytes

/-- R293: run-free bytes are all accepted while there is room for them. -/
theorem RunFree.execAll {zs : List Byte} (hfit : ys.length + 1 + zs.length ≤ cap.toNat)
    (hchain : (x :: zs).IsChain fun a b => a ≠ b) :
    ∃ t ws w, execAll (zs.map .blkWrite) s = .next t ∧ RunFree cap ws w t ∧ ws ++ [w] = ys ++ x :: zs := by
  induction zs generalizing ys x s with
  | nil => exact ⟨s, ys, x, rfl, h, rfl⟩
  | cons z zs ih =>
    rw [List.isChain_cons_cons] at hchain
    rw [List.length_cons] at hfit
    obtain ⟨u, hu, hfree⟩ := h.write hchain.1.symm (by omega)
    obtain ⟨t, ws, w, ht, hw, hws⟩ := ih hfree (by rw [List.length_append, List.length_singleton]; omega) hchain.2
    refine ⟨t, ws, w, (execAll_cons hu _).trans ht, hw, ?_⟩
    rw [hws, List.append_assoc, List.singleton_append]

end

/-- R151: a fresh Block takes a first byte. -/
theorem RunFree.first {s : State} {x : Byte} (hf : s.fatal = false) (hlen : s.len = 0) (hrun : s.runLen = 0)
    (hraw : s.rawCount = 0) (hfull : s.full = false) (hcap : 1 ≤ s.cap.toNat) :
    ∃ t, exec (.blkWrite x) s = .next t ∧ RunFree s.cap [] x t := by
  have hr : s.rawCount ≠ 0xFFFFFFFF#32 := by
    rw [hraw]
    decide
  have hneed : writeNeed s x = 1 := by
    rw [writeNeed_of_first hrun, hlen]
    rfl
  have ha : accepts s x = true := accepts_eq_true.2 ⟨hfull, hneed.trans_le hcap⟩
  exact ⟨_, unlessFatal_of_done hf (blkWrite_of_first ha hr hrun), hf, hfull, rfl,
    (countRaw_toNat hr x).trans (by rw [hraw]; rfl), rfl, rfl, congrArg BitVec.toNat hlen,
    Store.readRange_zero _ 0⟩

/-- Settles O26: the bytes before the last fill the buffer, the last one is pending until the next byte is rejected. -/
theorem runFreeBlockFillsExactly : Obligations.RunFreeBlockFillsExactly := by
  intro s xs v hf hin hlevel hlen hrun hraw hfull hxs hchain
  cases xs with
  | nil =>
    rw [List.length_nil] at hxs
    omega
  | cons x zs =>
    have hcap : (x :: zs).length = s.cap.toNat := hxs.trans hin.cap.symm
    rw [List.length_cons] at hcap
    obtain ⟨r, hr, hfirst⟩ := RunFree.first (x := x) hf hlen hrun hraw hfull (by omega)
    obtain ⟨t, ws, w, ht, hw, hws⟩ := hfirst.execAll (zs := zs) (by simp; omega) hchain.left_of_append
    rw [List.nil_append] at hws
    have hlast : v ≠ w := by
      rw [← hws, List.append_assoc] at hchain
      exact (List.isChain_pair.1 hchain.right_of_append).symm
    have hlength : ws.length + 1 = (x :: zs).length := by rw [← hws, List.length_append, List.length_singleton]
    obtain ⟨u, hu, hufull, huraw, hulen, hucap, hbytes⟩ := hw.reject hlast (hlength.trans hcap)
    exact ⟨t, u, (execAll_cons hr _).trans ht, hw.raw.trans hlength, hw.full, hu, hufull, huraw, hulen, hucap,
      hws ▸ hbytes⟩

end Sys2Proof.Machine
end

section
/-! PROOF. O58: every operation keeps the invariant, and so does every step. -/

namespace Sys2Proof.Machine

/-- The invariant of a machine that has taken no fatal fault (R316). -/
structure State.Live (s : State) : Prop extends s.StoresWf, s.InputOk where
  fatal : s.fatal = false
  phase : s.phase ≠ .fatal
  noFault : s.faultCode = 0
  pending : s.SinkOk

theorem State.Live.inv {s : State} (h : s.Live) : s.Inv where
  stores := h.toStoresWf
  input := h.toInputOk
  fatal := ⟨iff_of_false (by simp [h.fatal]) h.phase, iff_of_false (by simp [h.fatal]) (not_not_intro h.noFault)⟩
  sink := h.pending

theorem State.Inv.live {s : State} (h : s.Inv) (hf : s.fatal = false) : s.Live :=
  have hne : ¬ s.fatal = true := by simp [hf]
  { h.stores, h.input with
    fatal := hf
    phase := hne ∘ h.fatal.phase.2
    noFault := not_not.1 (hne ∘ h.fatal.code.2)
    pending := h.sink }

/-- An operation that completes leaves no fatal fault, and whether it completes or not it leaves the invariant. -/
abbrev Res.KeepsInv (r : Res) : Prop := r.Post State.Live State.Inv

theorem Res.KeepsInv.andThen {r : Res} {k : State → Res} (h : r.KeepsInv) (hk : ∀ t : State, t.Live → (k t).KeepsInv) :
    (r.andThen k).KeepsInv :=
  Res.Post.andThen h hk

/-- R310: no fault has the code 0. -/
theorem HwFault.code_ne_zero (f : HwFault) : f.code ≠ 0 := by
  cases f <;> decide

theorem State.Live.raise {s : State} (h : s.Live) (f : HwFault) : (raise f s).KeepsInv := by
  rw [raise_of_not_fatal h.fatal]
  exact ⟨{ h.toStoresWf with }, { h.toInputOk with }, ⟨iff_of_true rfl rfl, iff_of_true rfl f.code_ne_zero⟩, h.pending⟩

/-! ## The BitSink -/

theorem sinkWrite_keepsInv {s : State} (h : s.Live) (legal : Bool) (bs : List Bool) :
    (sinkWrite legal bs s).KeepsInv := by
  rcases sinkWrite_cases legal bs s with ⟨-, e⟩ | ⟨-, -, e⟩ | ⟨-, -, e⟩ <;> rw [e]
  · exact h.raise _
  · exact h.raise _
  · exact { h with pending := BitSink.putBits_acc h.pending bs }

theorem opFlush_keepsInv {s : State} (h : s.Live) (count : BitVec 8) (value : Word32) :
    (opFlush count value s).KeepsInv :=
  (sinkWrite_keepsInv h _ _).andThen fun _ h => { h with }

theorem applyOps_keepsInv (ops : List BitOp) {s : State} (h : s.Live) : (applyOps ops s).KeepsInv := by
  induction ops generalizing s with
  | nil => exact h
  | cons op ops ih =>
    rw [applyOps, BitOp.apply_eq]
    exact (sinkWrite_keepsInv h _ _).andThen fun _ h => ih h

/-! ## The input stage -/

/-- R150: a new Block is empty, whatever the old one was. -/
theorem newBlock_live {s : State} (hl : s.cfgLevel.toNat ≤ 9) (hf : s.fatal = false) (hc : s.faultCode = 0)
    (hp : s.SinkOk) : s.newBlock.Live where
  toStoresWf := by constructor <;> exact Store.wf_nil
  level := hl
  cap := capacity_toNat hl
  fits := Nat.zero_le _
  run := Nat.zero_le _
  filled := rfl
  raw := iff_of_true rfl ⟨rfl, rfl⟩
  fatal := hf
  phase := nofun
  noFault := hc
  pending := hp

theorem blkInit_keepsInv {s : State} (h : s.Live) : (blkInit s).KeepsInv := by
  unfold blkInit
  split
  · trivial
  · exact newBlock_live h.level h.fatal h.noFault h.pending

theorem runCost_pos {l : Nat} (h : l ≠ 0) : 0 < runCost l := by
  unfold runCost
  split <;> omega

/-- R152: the flush of a run that fits, of whatever length. -/
theorem State.Live.runFlushed {s : State} (h : s.Live) {n : BitVec 8} (hn : n ≠ 0) (hr : s.rawCount ≠ 0)
    (hfit : s.len.toNat + runCost n.toNat ≤ s.cap.toNat) : ({ s with runLen := n } : State).runFlushed.Live := by
  have hlen := runFlushed_len (s := { s with runLen := n }) hfit
  have hpos := runCost_pos fun hz : n.toNat = 0 => hn (BitVec.eq_of_toNat_eq hz)
  obtain ⟨bs, hbs⟩ := Option.isSome_iff_exists.1 h.filled
  have hread := Store.readRange_writeRange_append hbs (runBytes s.runByte n.toNat)
  rw [length_runBytes] at hread
  refine { h with b := Store.wf_writeRange h.b _ _, fits := hlen.trans_le hfit, run := Nat.zero_le _, filled := ?filled,
                  raw := iff_of_false hr ?raw }
  case filled =>
    rw [hlen]
    exact Option.isSome_iff_exists.2 ⟨_, hread⟩
  case raw =>
    rintro ⟨hz, -⟩
    rw [hz] at hlen
    exact absurd hlen (by simp; omega)

/-- R21: with a run pending a byte has been counted. -/
theorem State.Live.rawCount_ne {s : State} (h : s.Live) (h0 : s.runLen ≠ 0) : s.rawCount ≠ 0 :=
  fun hr => h0 (h.raw.1 hr).2

theorem flushRun_keepsInv {s : State} (h : s.Live) : (flushRun s).KeepsInv := by
  by_cases h0 : s.runLen = 0
  · rw [flushRun, if_pos h0]
    exact h
  · rw [flushRun_eq_runFlushed h.fits h0]
    exact h.runFlushed h0 (h.rawCount_ne h0) h.fits

/-- The raw count does not wrap to 0. -/
theorem countRaw_ne_zero {s : State} (hr : s.rawCount ≠ 0xFFFFFFFF#32) : s.rawCount + 1 ≠ 0 := by
  bv_omega

/-- R151: a byte is counted that does not begin the first run. -/
theorem State.Live.countRaw {s : State} (h : s.Live) (hr : s.rawCount ≠ 0xFFFFFFFF#32) (h0 : s.runLen ≠ 0) (v : Byte) :
    (s.countRaw v).Live :=
  { h with raw := iff_of_false (countRaw_ne_zero hr) fun hz => h0 hz.2 }

/-- R151: a run begins, with the CRC and the count as they then are. -/
theorem State.Live.startRun {s : State} (h : s.Live) {r : BitVec 32} (hr : r ≠ 0) (c : Word32) (v : Byte)
    (hfit : s.len.toNat + 1 ≤ s.cap.toNat) :
    ({ s with crc := c, rawCount := r, runByte := v, runLen := 1 } : State).Live :=
  { h with fits := hfit, run := (by decide : (1#8).toNat ≤ 254),
           raw := iff_of_false hr fun hz => absurd hz.2 (by decide : (1#8) ≠ 0) }

/-- R151: a further byte of the run; a run of 255 bytes is flushed at once. -/
theorem State.Live.sameRun {s : State} (h : s.Live) (hr : s.rawCount ≠ 0)
    (hfit : s.len.toNat + runCost (s.runLen.toNat + 1) ≤ s.cap.toNat) :
    (if s.runLen.toNat + 1 = Config.runMax then flushRun { s with runLen := s.runLen + 1 }
      else .done { s with runLen := s.runLen + 1 }).KeepsInv := by
  have hrun := h.run
  have hlen : (s.runLen + 1).toNat = s.runLen.toNat + 1 := by bv_omega
  have hne : s.runLen + 1 ≠ 0 := by bv_omega
  rw [← hlen] at hfit ⊢
  split
  case isTrue =>
    rw [flushRun_eq_runFlushed (s := { s with runLen := s.runLen + 1 }) hfit hne]
    exact h.runFlushed hne hr hfit
  case isFalse hmax =>
    have hmax : (s.runLen + 1).toNat ≠ 255 := hmax
    exact { h with fits := hfit, run := (by omega : (s.runLen + 1).toNat ≤ 254), raw := iff_of_false hr fun hz => hne hz.2 }

theorem blkWrite_keepsInv {s : State} (h : s.Live) (v : Byte) : (blkWrite v s).KeepsInv := by
  by_cases ha : accepts s v = true
  case neg =>
    rw [blkWrite_of_not_accepts (by simpa using ha)]
    split
    · exact h
    · exact (flushRun_keepsInv h).andThen fun _ h => { h with }
  case pos =>
    have hneed := (accepts_eq_true.1 ha).2
    by_cases hr : s.rawCount = 0xFFFFFFFF#32
    · rw [blkWrite_of_wrap ha hr]
      trivial
    by_cases h0 : s.runLen = 0
    · rw [writeNeed_of_first h0] at hneed
      rw [blkWrite_of_first ha hr h0]
      exact h.startRun (countRaw_ne_zero hr) _ v hneed
    have hc := h.countRaw hr h0 v
    by_cases hv : v = s.runByte
    · rw [writeNeed_of_same h0 hv] at hneed
      rw [blkWrite_of_same ha hr h0 hv]
      exact hc.sameRun (countRaw_ne_zero hr) hneed
    · rw [writeNeed_of_other h0 hv] at hneed
      rw [blkWrite_of_other ha hr h0 hv, flushRun_eq_runFlushed (s := s.countRaw v) h.fits h0]
      exact (hc.runFlushed h0 (countRaw_ne_zero hr) h.fits).startRun (countRaw_ne_zero hr) _ v
        ((congrArg (· + 1) (runFlushed_len (s := s.countRaw v) h.fits)).trans_le hneed)

theorem blkClose_keepsInv {s : State} (h : s.Live) : (blkClose s).KeepsInv := by
  unfold blkClose
  split
  · exact h.raise _
  · exact Res.KeepsInv.andThen (flushRun_keepsInv { h with }) fun _ h => { h with phase := nofun }

/-! ## The sort -/

theorem bwtSort_keepsInv (p : Params) {s : State} (h : s.Live) : (bwtSort p s).KeepsInv := by
  refine withBuffer_post fun bs _ _ => ?_
  dsimp only
  split
  · refine State.Live.raise ?_ _
    exact { h with zptr := Store.wf_nil }
  · split
    · exact { h with zptr := Store.wf_nil, phase := nofun }
    · exact { h with zptr := Store.wf_ofNats _ _, phase := nofun }

theorem length_randomiseBytes (toGo tPos : Nat) (bs : List Byte) : (randomiseBytes toGo tPos bs).length = bs.length := by
  induction bs generalizing toGo tPos with
  | nil => rfl
  | cons b bs ih => exact congrArg (· + 1) (ih _ _)

/-- R175: as many bytes are written as were read. -/
theorem bwtRandomise_keepsInv {s : State} (h : s.Live) : (bwtRandomise s).KeepsInv := by
  refine withBuffer_post fun bs _ hbs => ?_
  have hlen : (randomiseBytes 0 0 bs).length = s.len.toNat :=
    (length_randomiseBytes 0 0 bs).trans (Store.length_of_readRange hbs)
  have hread := Store.readRange_writeRange_same s.b 0 (randomiseBytes 0 0 bs)
  rw [hlen] at hread
  exact { h with b := Store.wf_writeRange h.b _ _, filled := Option.isSome_iff_exists.2 ⟨_, hread⟩, phase := nofun }

theorem bwtSortRetry_keepsInv (p : Params) {s : State} (h : s.Live) : (bwtSortRetry p s).KeepsInv := by
  refine withBuffer_post fun bs _ _ => ?_
  dsimp only
  split
  · refine State.Live.raise ?_ _
    exact { h with zptr := Store.wf_nil }
  · exact { h with zptr := Store.wf_ofNats _ _, phase := nofun }

theorem bwtOrigin_keepsInv {s : State} (h : s.Live) : (bwtOrigin s).KeepsInv := by
  refine withZptr_post fun zs _ => ?_
  split
  · exact { h with phase := nofun }
  · exact h.raise _

theorem sortBlock_keepsInv (p : Params) {s : State} (h : s.Live) : (sortBlock p s).KeepsInv := by
  refine (bwtSort_keepsInv p h).andThen fun t h => ?_
  split
  · exact (bwtRandomise_keepsInv h).andThen fun _ h => bwtSortRetry_keepsInv p h
  · exact h

/-! ## The symbol stream -/

theorem mtfGen_keepsInv {s : State} (h : s.Live) : (mtfGen s).KeepsInv :=
  withBuffer_post fun bs _ _ => withZptr_post fun _ _ =>
    { h with
      inUse := Store.wf_ofList _
      seqToUnseq := Store.wf_ofList _
      unseqToSeq := wf_unseqToSeq bs
      yy := Store.wf_ofNats _ _
      szptr := Store.wf_ofNats _ _
      mtfFreq := Store.wf_ofNats _ _
      phase := nofun }

theorem putSymbols_keepsInv (syms : List Nat) {s : State} (h : s.Live) : (putSymbols syms s).KeepsInv := by
  induction syms generalizing s with
  | nil => exact h
  | cons sym syms ih =>
    refine Res.KeepsInv.andThen (inRange_post fun _ => readOr_post fun _ _ => ?_) fun _ h => ih h
    exact { h with szptr := Store.wf_write h.szptr _ _, mtfFreq := Store.wf_write h.mtfFreq _ _ }

theorem rle2Flush_keepsInv {s : State} (h : s.Live) : (rle2Flush s).KeepsInv :=
  (putSymbols_keepsInv _ h).andThen fun _ h => { h with }

/-! ## The coding tables -/

theorem hufNgroups_keepsInv (p : Params) {s : State} (h : s.Live) : (hufNgroups p s).KeepsInv :=
  { h with }

theorem length_of_mem_initLens {freq row : List Nat} {nGroups nMTF : Nat} (h : row ∈ initLens freq nGroups nMTF) :
    row.length = freq.length := by
  obtain ⟨r, -, rfl⟩ := List.mem_map.1 h
  simp [initRow]

theorem length_tally (n : Nat) (syms : List Nat) : (tally n syms).length = n := by
  simp [tally]

/-- R222: a row has a length for each symbol, at most 258. -/
theorem hufInit_keepsInv {s : State} (h : s.Live) : (hufInit s).KeepsInv := by
  refine inRange_post fun _ => inRange_post fun halpha => readOr_post fun freq hfreq => ?_
  have hlen : (natsOf freq).length = s.alphaSize.toNat :=
    (List.length_map _).trans (Store.length_of_readRange hfreq)
  have hrows := Store.wf_ofRows 5 (initLens (natsOf freq) s.nGroups.toNat s.nMTF.toNat) fun row hrow =>
    ((length_of_mem_initLens hrow).trans hlen).trans_le (of_decide_eq_true halpha)
  exact { h with lens := hrows }

/-- R225: a row has a frequency for each symbol, at most 258. -/
theorem hufIter_keepsInv {s : State} (h : s.Live) : (hufIter s).KeepsInv := by
  refine withSymbols_post fun vs _ _ => withRows_post fun rows _ halpha _ => ?_
  dsimp only
  split
  · trivial
  split
  · trivial
  refine inRange_post fun _ => ?_
  refine { h with selector := Store.wf_ofNats _ _, fave := Store.wf_ofNats _ _, cost := ?cost,
                  rfreq := Store.wf_ofRows _ _ ?rows }
  case cost =>
    dsimp only
    split
    · exact Store.wf_ofNats _ _
    · exact h.cost
  case rows =>
    intro row hrow
    obtain ⟨t, -, rfl⟩ := List.mem_map.1 hrow
    exact (length_tally _ _).trans_le halpha

theorem hufMklen_keepsInv (n : Nat) {s : State} (h : s.Live) : (hufMklen n s).KeepsInv :=
  inRange_post fun _ => inRange_post fun _ => readOr_post fun _ _ =>
    { h with
      lens := Store.wf_writeRow h.lens _ _
      heap := Store.wf_writeRange h.heap _ _
      weight := Store.wf_writeRange h.weight _ _
      parent := Store.wf_writeRange h.parent _ _ }

theorem hufRangechk_keepsInv {s : State} (h : s.Live) : (hufRangechk s).KeepsInv := by
  refine withRows_post fun rows _ _ _ => ?_
  split
  · exact h
  · exact h.raise _

theorem hufAssign_keepsInv (n : Nat) {s : State} (h : s.Live) : (hufAssign n s).KeepsInv :=
  inRange_post fun _ => readOr_post fun _ _ => { h with code := Store.wf_writeRow h.code _ _ }

theorem hufSelmtf_keepsInv {s : State} (h : s.Live) : (hufSelmtf s).KeepsInv :=
  inRange_post fun _ => withSelectors_post fun _ _ _ => inRange_post fun _ =>
    { h with selectorMtf := Store.wf_ofNats _ _, pos := Store.wf_ofNats _ _, phase := nofun }

theorem makeTables_keepsInv (n t : Nat) {s : State} (h : s.Live) : (makeTables n t s).KeepsInv := by
  induction n generalizing t s with
  | zero => exact h
  | succ n ih => exact (hufMklen_keepsInv t h).andThen fun _ h => ih (t + 1) h

theorem assignTables_keepsInv (n t : Nat) {s : State} (h : s.Live) : (assignTables n t s).KeepsInv := by
  induction n generalizing t s with
  | zero => exact h
  | succ n ih => exact (hufAssign_keepsInv t h).andThen fun _ h => ih (t + 1) h

/-! ## The emission -/

/-- R138: recording BitOperations. -/
theorem State.Live.emit {s : State} (h : s.Live) (ops : List BitOp) : (s.emit ops).Live := { h with }

theorem frmBlockhdr_keepsInv {s : State} (h : s.Live) : (frmBlockhdr s).KeepsInv := h.emit _

theorem emitInuse_keepsInv {s : State} (h : s.Live) : (emitInuse s).KeepsInv :=
  readOr_post fun _ _ => h.emit _

theorem emitCounts_keepsInv {s : State} (h : s.Live) : (emitCounts s).KeepsInv := h.emit _

theorem emitSelectors_keepsInv {s : State} (h : s.Live) : (emitSelectors s).KeepsInv :=
  inRange_post fun _ => readOr_post fun _ _ => h.emit _

theorem emitLengths_keepsInv {s : State} (h : s.Live) : (emitLengths s).KeepsInv := by
  refine withRows_post fun rows _ _ _ => ?_
  split
  · trivial
  · exact h.emit _

theorem emitSymbols_keepsInv {s : State} (h : s.Live) : (emitSymbols s).KeepsInv :=
  withSymbols_post fun _ _ _ => inRange_post fun _ => readOr_post fun _ _ => readOr_post fun _ _ =>
    { h with phase := nofun }

/-! ## The phases and `COMPRESS` -/

theorem phaseQueued_keepsInv {s : State} (h : s.Live) : (phaseQueued s).KeepsInv := by
  unfold phaseQueued
  split
  · exact h.raise _
  · exact { h with phase := nofun }

theorem phaseHufInit_keepsInv (p : Params) {s : State} (h : s.Live) : (phaseHufInit p s).KeepsInv :=
  (hufNgroups_keepsInv p h).andThen fun _ h => (hufInit_keepsInv h).andThen fun _ h => { h with phase := nofun }

theorem State.Live.nextPass {s : State} (h : s.Live) : s.nextPass.Live := by
  rw [State.nextPass_eq]
  split <;> exact { h with phase := nofun }

theorem phaseHufIter_keepsInv {s : State} (h : s.Live) : (phaseHufIter s).KeepsInv :=
  (hufIter_keepsInv h).andThen fun _ h => (makeTables_keepsInv _ 0 h).andThen fun _ h => h.nextPass

theorem phaseHufAssign_keepsInv {s : State} (h : s.Live) : (phaseHufAssign s).KeepsInv :=
  (hufRangechk_keepsInv h).andThen fun _ h => (assignTables_keepsInv _ 0 h).andThen fun _ h => hufSelmtf_keepsInv h

theorem phaseEmit_keepsInv {s : State} (h : s.Live) : (phaseEmit s).KeepsInv :=
  (frmBlockhdr_keepsInv h).andThen fun _ h => (emitInuse_keepsInv h).andThen fun _ h =>
    (emitCounts_keepsInv h).andThen fun _ h => (emitSelectors_keepsInv h).andThen fun _ h =>
      (emitLengths_keepsInv h).andThen fun _ h => emitSymbols_keepsInv h

theorem compress_keepsInv (p : Params) {s : State} (h : s.Live) : (compress p s).KeepsInv :=
  (phaseQueued_keepsInv h).andThen fun _ h => (sortBlock_keepsInv p h).andThen fun _ h =>
    (bwtOrigin_keepsInv h).andThen fun _ h => (mtfGen_keepsInv h).andThen fun _ h =>
      (phaseHufInit_keepsInv p h).andThen fun _ h => (phaseHufIter_keepsInv h).andThen fun _ h =>
        (phaseHufIter_keepsInv h).andThen fun _ h => (phaseHufIter_keepsInv h).andThen fun _ h =>
          (phaseHufIter_keepsInv h).andThen fun _ h => (phaseHufAssign_keepsInv h).andThen fun _ h =>
            phaseEmit_keepsInv h

theorem replay_keepsInv {s : State} (h : s.Live) : (replay s).KeepsInv := by
  unfold replay
  split
  · trivial
  · exact (applyOps_keepsInv _ h).andThen fun _ h => { h with phase := nofun }

/-- R24, R25: the sequencer's own operation. -/
theorem phaseOp_keepsInv (p : Params) (ph : Phase) {s : State} (h : s.Live) : (phaseOp p ph s).KeepsInv := by
  cases ph with
  | idle | filling | fatal => exact h
  | queued => exact phaseQueued_keepsInv h
  | sort1 => exact bwtSort_keepsInv p h
  | randomise => exact bwtRandomise_keepsInv h
  | sort2 => exact bwtSortRetry_keepsInv p h
  | origin => exact bwtOrigin_keepsInv h
  | mtf => exact mtfGen_keepsInv h
  | hufInit => exact phaseHufInit_keepsInv p h
  | hufIter => exact phaseHufIter_keepsInv h
  | hufAssign => exact phaseHufAssign_keepsInv h
  | emit => exact phaseEmit_keepsInv h
  | compressed => exact replay_keepsInv h
  | flushed => exact blkInit_keepsInv h

/-! ## The host commands -/

theorem emitBlock_keepsInv (p : Params) {s : State} (h : s.Live) : (emitBlock p s).KeepsInv :=
  (blkClose_keepsInv h).andThen fun _ h => (compress_keepsInv p h).andThen fun _ h => replay_keepsInv h

theorem State.Live.respond {s : State} (h : s.Live) (rkind rcode : BitVec 8) : (s.respond rkind rcode).Live := { h with }

theorem clampLevel_le (requested : BitVec 8) : (clampLevel requested).toNat ≤ 9 := by
  unfold clampLevel Config.levelMax Config.levelMin
  rw [BitVec.toNat_ofNat, Nat.mod_eq_of_lt (by omega)]
  omega

theorem headerBytes_legal (level : BitVec 4) : ∀ op ∈ headerBytes level, op.legal = true := by
  simp [headerBytes, BitOp.legal, bitsLegal]

/-- R286: between the new configuration and the new Block the capacity is that of the old one; the header goes to an open
sink, so that no fault is taken there. -/
theorem openOp_keepsInv {s : State} (h : s.Live) (owns : Bool) (level : BitVec 8) : (openOp owns level s).KeepsInv := by
  unfold openOp
  split
  case isFalse => exact h.raise _
  case isTrue =>
    dsimp only
    rw [applyOps_eq_done rfl (headerBytes_legal _), Res.andThen_done, blkInit_of_not_wrap (by decide : (0#32) ≠ _)]
    have hp : (s.openRegisters owns level).SinkOk := Nat.one_pos
    refine State.Live.respond (newBlock_live ?_ ?_ ?_ ?_) _ _
    · exact clampLevel_le level
    · exact h.fatal
    · exact h.noFault
    · exact BitSink.putBits_acc hp _

theorem wrbOp_keepsInv {s : State} (h : s.Live) (v : Byte) : (wrbOp v s).KeepsInv :=
  (blkWrite_keepsInv h v).andThen fun _ h => by
    split <;> exact h.respond _ _

theorem closeblkOp_keepsInv (p : Params) {s : State} (h : s.Live) : (closeblkOp p s).KeepsInv := by
  unfold closeblkOp
  split
  · exact h.respond _ _
  · exact (emitBlock_keepsInv p h).andThen fun _ h => (blkInit_keepsInv h).andThen fun _ h => h.respond _ _

theorem footer_keepsInv {s : State} (h : s.Live) : (footer s).KeepsInv :=
  (applyOps_keepsInv _ h).andThen fun _ h => (sinkWrite_keepsInv h _ _).andThen fun _ h => opFlush_keepsInv h _ _

theorem State.Live.closeStream {s : State} (h : s.Live) : s.closeStream.Live := { h with phase := nofun }

theorem finishOp_keepsInv (p : Params) {s : State} (h : s.Live) : (finishOp p s).KeepsInv := by
  refine Res.KeepsInv.andThen ?_ fun _ h => (footer_keepsInv h).andThen fun _ h => h.closeStream.respond _ _
  split
  · exact h
  · exact emitBlock_keepsInv p h

/-! ## Instructions and steps -/

/-- The invariant does not read the channels and the platform's inputs. -/
theorem State.Inv.withInputs {s : State} (h : s.Inv) (inbox : List Input) (rsp : List (BitVec 16)) (writable : Bool)
    (fails : List Word32) :
    ({ s with inbox := inbox, rsp := rsp, sinkWritable := writable, laneFails := fails } : State).Inv :=
  ⟨{ h.stores with }, { h.input with }, { h.fatal with }, h.sink⟩

theorem State.Inv.respond {s : State} (h : s.Inv) (rkind rcode : BitVec 8) : (s.respond rkind rcode).Inv :=
  h.withInputs _ _ _ _

theorem unlessFatal_inv {op : State → Res} {s t : State} (h : s.Inv) (hop : s.Live → (op s).KeepsInv)
    (e : unlessFatal op s = .next t) : t.Inv := by
  rcases unlessFatal_eq_next.1 e with ⟨-, rfl⟩ | ⟨hf, hd | hr⟩
  · exact h
  · exact (Res.Post.of_done (hop (h.live hf)) hd).inv
  · exact Res.Post.of_raised (hop (h.live hf)) hr

theorem hostCommand_inv {ok : Bool} {op : State → Res} {s t : State} (h : s.Inv) (hop : s.Live → (op s).KeepsInv)
    (e : hostCommand ok op s = .next t) : t.Inv := by
  rcases hostCommand_eq_next.1 e with ⟨-, rfl⟩ | ⟨-, -, rfl⟩ | ⟨hf, -, hd | ⟨u, hr, rfl⟩⟩
  · exact h.respond _ _
  · exact h.respond _ _
  · exact (Res.Post.of_done (hop (h.live hf)) hd).inv
  · exact (Res.Post.of_raised (hop (h.live hf)) hr).respond _ _

theorem exec_inv {i : Instr} {s t : State} (h : s.Inv) (e : exec i s = .next t) : t.Inv := by
  cases i with
  | openStream owns level => exact hostCommand_inv h (openOp_keepsInv · owns level) e
  | wrb v => exact hostCommand_inv h (wrbOp_keepsInv · v) e
  | closeblk => exact hostCommand_inv h (closeblkOp_keepsInv _) e
  | finish => exact hostCommand_inv h (finishOp_keepsInv _) e
  | seek | read | setlen | hcReserved0 | hcReserved8F =>
    obtain rfl := Host.Outcome.next.inj e
    exact h.respond _ _
  | bits | boolean | unary | int32 | boReserved00 | boReserved0607 | boReserved080F | boReserved101F | boReserved203F
  | boReserved407F | boReserved80FF =>
    exact unlessFatal_inv h (sinkWrite_keepsInv · _ _) e
  | flush c v => exact unlessFatal_inv h (opFlush_keepsInv · c v) e
  | blkInit => exact unlessFatal_inv h blkInit_keepsInv e
  | blkWrite v => exact unlessFatal_inv h (blkWrite_keepsInv · v) e
  | rle1Flushrun => exact unlessFatal_inv h flushRun_keepsInv e
  | blkClose => exact unlessFatal_inv h blkClose_keepsInv e
  | compress => exact unlessFatal_inv h (compress_keepsInv _) e
  | bwtSort => exact unlessFatal_inv h (bwtSort_keepsInv _) e
  | bwtRandomise => exact unlessFatal_inv h bwtRandomise_keepsInv e
  | bwtSortRetry => exact unlessFatal_inv h (bwtSortRetry_keepsInv _) e
  | bwtOrigin => exact unlessFatal_inv h bwtOrigin_keepsInv e
  | mtfGen => exact unlessFatal_inv h mtfGen_keepsInv e
  | rle2Flush => exact unlessFatal_inv h rle2Flush_keepsInv e
  | hufNgroups => exact unlessFatal_inv h (hufNgroups_keepsInv _) e
  | hufInit => exact unlessFatal_inv h hufInit_keepsInv e
  | hufIter => exact unlessFatal_inv h hufIter_keepsInv e
  | hufMklen n => exact unlessFatal_inv h (hufMklen_keepsInv n.toNat) e
  | hufRangechk => exact unlessFatal_inv h hufRangechk_keepsInv e
  | hufAssign n => exact unlessFatal_inv h (hufAssign_keepsInv n.toNat) e
  | hufSelmtf => exact unlessFatal_inv h hufSelmtf_keepsInv e
  | frmBlockhdr => exact unlessFatal_inv h frmBlockhdr_keepsInv e
  | emitInuse => exact unlessFatal_inv h emitInuse_keepsInv e
  | emitCounts => exact unlessFatal_inv h emitCounts_keepsInv e
  | emitSelectors => exact unlessFatal_inv h emitSelectors_keepsInv e
  | emitLengths => exact unlessFatal_inv h emitLengths_keepsInv e
  | emitSymbols => exact unlessFatal_inv h emitSymbols_keepsInv e
  | replay => exact unlessFatal_inv h replay_keepsInv e

theorem execMessage_inv {w : CmdWord} {s t : State} (h : s.Inv) (e : execMessage w s = .next t) : t.Inv := by
  unfold execMessage at e
  split at e
  · exact exec_inv h e
  · cases e

/-- R350: reset leads to the invariant from any state. -/
theorem hardReset_inv (s : State) : s.hardReset.Inv :=
  ⟨{ reset_inv.stores with }, { reset_inv.input with }, { reset_inv.fatal with }, reset_inv.sink⟩

theorem resetDuring_inv {s t : State} {o : Host.Outcome State Fault Refusal} (e : resetDuring s o = .next t) : t.Inv := by
  cases o with
  | next u =>
    obtain rfl := Host.Outcome.next.inj e
    exact hardReset_inv _
  | fault | refused => cases e

/-- Settles O58, by the inputs a step can take. -/
theorem stepKeepsInv : Obligations.StepKeepsInv := by
  intro s t h e
  unfold step at e
  split at e
  case h_1 => exact unlessFatal_inv h (phaseOp_keepsInv _ _) e
  case h_2 => exact execMessage_inv (h.withInputs _ _ _ _) e
  case h_3 | h_4 =>
    obtain rfl := Host.Outcome.next.inj e
    exact h.withInputs _ _ _ _
  case h_5 =>
    obtain rfl := Host.Outcome.next.inj e
    exact hardReset_inv _
  case h_6 => exact resetDuring_inv e

end Sys2Proof.Machine
end

section
/-! PROOF. O30 to O33: the sort of the rotations (R170 to R178). The order of the sort comes from an oriented and
transitive comparison, so the library's insertion sort sorts by it; the countdown of the randomisation reads 1 at the
last but one offset of each gap. -/

namespace Sys2Proof.Machine

/-! ## The order of the sort -/

theorem lexCompare_eq_compareLex (us vs : List Byte) :
    lexCompare us vs = List.compareLex (compareOn BitVec.toNat) us vs := by
  induction us generalizing vs with
  | nil => cases vs <;> rfl
  | cons u us ih =>
    cases vs with
    | nil => rfl
    | cons v vs =>
      rw [lexCompare, List.compareLex_cons_cons, ← ih, compareOn]
      rcases lt_trichotomy u.toNat v.toNat with h | h | h
      · rw [if_pos h, compare_lt_iff_lt.2 h]; rfl
      · rw [if_neg h.not_lt, if_neg h.not_gt, compare_eq_iff_eq.2 h]; rfl
      · rw [if_neg h.not_gt, if_pos h, compare_gt_iff_gt.2 h]; rfl

/-- The comparison behind `offsetLe`: rotations, then places among equal rotations, then offsets. -/
def offsetCompare (p : Params) (bs : List Byte) : Nat → Nat → Ordering :=
  compareLex (fun i j => lexCompare (rotation bs i) (rotation bs j)) (compareLex (compareOn (p.tieOrder bs)) compare)

theorem transCmp_offsetCompare (p : Params) (bs : List Byte) : Std.TransCmp (offsetCompare p bs) := by
  have : Std.TransCmp fun i j => lexCompare (rotation bs i) (rotation bs j) := by
    simp only [lexCompare_eq_compareLex]
    exact
      { eq_swap := Std.OrientedCmp.eq_swap (cmp := List.compareLex (compareOn BitVec.toNat))
        isLE_trans := Std.TransCmp.isLE_trans (cmp := List.compareLex (compareOn BitVec.toNat)) }
  unfold offsetCompare
  exact inferInstance

theorem offsetLe_eq_isLE (p : Params) (bs : List Byte) (i j : Nat) :
    offsetLe p bs i j = (offsetCompare p bs i j).isLE := by
  simp only [offsetLe, offsetCompare, compareLex, compareOn]
  cases lexCompare (rotation bs i) (rotation bs j) with
  | lt => rfl
  | gt => rfl
  | eq =>
    rcases lt_trichotomy (p.tieOrder bs i) (p.tieOrder bs j) with h | h | h
    · simp [compare_lt_iff_lt.2 h, h]
    · simp [h, ← Nat.isLE_compare]
    · simp [compare_gt_iff_gt.2 h, h, h.not_gt]

/-- R171: the offsets in the order of the sort. -/
theorem pairwise_sortOffsets (p : Params) (bs : List Byte) :
    (sortOffsets p bs).Pairwise fun i j => offsetLe p bs i j = true := by
  have := transCmp_offsetCompare p bs
  have : IsTrans Nat fun i j => offsetLe p bs i j = true :=
    ⟨fun i j k hij hjk => by
      rw [offsetLe_eq_isLE] at *
      exact Std.TransCmp.isLE_trans hij hjk⟩
  have : Std.Total fun i j => offsetLe p bs i j = true :=
    ⟨fun i j => by
      rw [offsetLe_eq_isLE, offsetLe_eq_isLE, ← Std.OrientedCmp.isGE_iff_isLE (cmp := offsetCompare p bs) (a := i)]
      cases offsetCompare p bs i j <;> simp⟩
  exact List.pairwise_insertionSort _ _

theorem perm_sortOffsets (p : Params) (bs : List Byte) : (sortOffsets p bs).Perm (List.range bs.length) :=
  List.perm_insertionSort _ _

/-! ## What the order says of rotations -/

theorem wrapped_eq_rotation {bs : List Byte} {i : Nat} (h : i ≤ bs.length) : wrapped bs i = rotation bs i := by
  rw [rotation, ← List.rotate_eq_drop_append_take h]
  refine List.ext_getElem (by simp [wrapped]) fun j hj _ => ?_
  have hj : j < bs.length := by simpa [wrapped] using hj
  have hlt : (i + j) % bs.length < bs.length := Nat.mod_lt _ (by omega)
  simp [wrapped, bwrap, List.getElem_rotate, hlt, Nat.add_comm j i]

/-- R13: strings of equal length that do not compare greater are in lexicographic order. -/
theorem lexLe_of_lexCompare {us vs : List Byte} (hlen : us.length = vs.length) (h : lexCompare us vs ≠ .gt) :
    LexLe us vs := by
  induction us generalizing vs with
  | nil => exact .inl (List.length_eq_zero_iff.1 hlen.symm).symm
  | cons u us ih =>
    obtain _ | ⟨v, vs⟩ := vs
    · cases hlen
    · rw [lexCompare] at h
      split at h
      case isTrue hlt => exact .inr ⟨0, by simp, by simp, hlt⟩
      split at h
      case isTrue => exact absurd rfl h
      obtain rfl : u = v := BitVec.eq_of_toNat_eq (by omega)
      obtain rfl | ⟨k, hk, heq, hlt⟩ := ih (Nat.succ.inj hlen) h
      · exact .inl rfl
      · refine .inr ⟨k + 1, Nat.succ_lt_succ hk, fun j hj => ?_, hlt⟩
        cases j with
        | zero => rfl
        | succ j => exact heq j (Nat.lt_of_succ_lt_succ hj)

theorem lexLe_wrapped_of_offsetLe {p : Params} {bs : List Byte} {i j : Nat} (hi : i ≤ bs.length) (hj : j ≤ bs.length)
    (h : offsetLe p bs i j = true) : LexLe (wrapped bs i) (wrapped bs j) := by
  rw [wrapped_eq_rotation hi, wrapped_eq_rotation hj]
  refine lexLe_of_lexCompare (by simp [rotation]; omega) fun hgt => ?_
  rw [offsetLe, hgt] at h
  cases h

/-- R171, as a sort leaves it in `zptr`. -/
theorem sortOffsets_spec (p : Params) (bs : List Byte) :
    ∃ zs : List Nat, zs.Perm (List.range bs.length) ∧
      (∀ i, i + 1 < bs.length → LexLe (wrapped bs (zs.getD i 0)) (wrapped bs (zs.getD (i + 1) 0))) ∧
      (Store.ofNats 20 (sortOffsets p bs)).readRange 0 bs.length = some (zs.map (BitVec.ofNat 20)) := by
  have hperm := perm_sortOffsets p bs
  have hlen : (sortOffsets p bs).length = bs.length := hperm.length_eq.trans List.length_range
  refine ⟨sortOffsets p bs, hperm, fun i hi => ?_, ?_⟩
  · have hle {k : Nat} (hk : k < (sortOffsets p bs).length) : (sortOffsets p bs)[k] ≤ bs.length :=
      (List.mem_range.1 (hperm.mem_iff.1 (List.getElem_mem hk))).le
    rw [List.getD_eq_getElem _ _ (by omega), List.getD_eq_getElem _ _ (by omega)]
    exact lexLe_wrapped_of_offsetLe (hle _) (hle _)
      (List.pairwise_iff_getElem.1 (pairwise_sortOffsets p bs) _ _ _ _ (Nat.lt_succ_self i))
  · have h := Store.readRange_ofList ((sortOffsets p bs).map (BitVec.ofNat 20))
    rwa [List.length_map, hlen] at h

/-! ## BWT.SORT -/

/-- R172: the registers as a first attempt on the buffer `bs` sets them. -/
def State.firstAttempted (s : State) (p : Params) (bs : List Byte) : State :=
  { s with
    firstAttempt := true
    randomised := false
    workDone := p.sortWork true bs
    workLimit := some (BitVec.ofNat 32 (50 * s.len.toNat)) }

section
variable {s : State} {bs : List Byte} (hcap : s.len.toNat ≤ s.cap.toNat)
  (hb : s.b.readRange 0 s.len.toNat = some bs) (p : Params)
include hcap hb

theorem bwtSort_of_stackExceeded (hf : s.fatal = false) (h : stackExceeded p bs = true) :
    bwtSort p s = .raised (({ s.firstAttempted p bs with zptr := [] } : State).haltedWith 0x02#8) :=
  (withBuffer_of hcap hb).trans ((if_pos h).trans (raise_of_not_fatal (by exact hf) .sortStack))

theorem bwtSort_of_workExceeded (hbs : bs.isEmpty = false) (h : stackExceeded p bs = false)
    (hw : workExceeded p bs = true) :
    bwtSort p s = .done { s.firstAttempted p bs with zptr := [], phase := .randomise } := by
  refine (withBuffer_of hcap hb).trans ?_
  simp only [h, hw, hbs, Bool.false_eq_true, if_false]
  rfl

theorem bwtSort_of_sorted (h : stackExceeded p bs = false) (hw : workExceeded p bs = false) :
    bwtSort p s =
      .done { s.firstAttempted p bs with zptr := Store.ofNats 20 (sortOffsets p bs), phase := .origin } := by
  refine (withBuffer_of hcap hb).trans ?_
  simp only [h, hw, Bool.and_false, Bool.false_eq_true, if_false]
  rfl

theorem bwtSortRetry_of_stackExceeded (hf : s.fatal = false) (h : stackExceeded p bs = true) :
    bwtSortRetry p s =
      .raised (({ s with workDone := p.sortWork false bs, zptr := [] } : State).haltedWith 0x02#8) :=
  (withBuffer_of hcap hb).trans ((if_pos h).trans (raise_of_not_fatal (by exact hf) .sortStack))

theorem bwtSortRetry_of_sorted (h : stackExceeded p bs = false) :
    bwtSortRetry p s =
      .done { s with workDone := p.sortWork false bs, zptr := Store.ofNats 20 (sortOffsets p bs), phase := .origin } :=
  (withBuffer_of hcap hb).trans (if_neg (Bool.eq_false_iff.1 h))

end

/-- Settles O30, by the outcome of the attempt: the stack, the work limit, or the sorted offsets. -/
theorem bwtSortOperation : Obligations.BwtSortOperation := by
  intro s bs hf hlen hcap hb
  have hbl := Store.length_of_readRange hb
  cases hst : stackExceeded Config.params bs with
  | true => exact ⟨_, unlessFatal_of_raised hf (bwtSort_of_stackExceeded hcap hb _ hf hst), rfl, rfl, rfl, rfl, rfl⟩
  | false =>
    cases hw : workExceeded Config.params bs with
    | true =>
      have hbs : bs.isEmpty = false := by
        rw [List.isEmpty_eq_false_iff, ← List.length_pos_iff]
        omega
      exact ⟨_, unlessFatal_of_done hf (bwtSort_of_workExceeded hcap hb _ hbs hst hw), rfl, hf, rfl, rfl, rfl⟩
    | false =>
      refine ⟨_, unlessFatal_of_done hf (bwtSort_of_sorted hcap hb _ hst hw), rfl, hf, rfl, rfl, rfl, ?_⟩
      rw [← hbl]
      exact sortOffsets_spec Config.params bs

/-- Settles O31, by the outcome of the retry: the stack or the sorted offsets. -/
theorem bwtRetryOperation : Obligations.BwtRetryOperation := by
  intro s bs hf _ hcap hb
  cases hst : stackExceeded Config.params bs with
  | true =>
    exact ⟨_, unlessFatal_of_raised hf (bwtSortRetry_of_stackExceeded hcap hb _ hf hst), rfl, rfl, rfl, rfl, rfl⟩
  | false =>
    refine ⟨_, unlessFatal_of_done hf (bwtSortRetry_of_sorted hcap hb _ hst), rfl, hf, rfl, rfl, rfl, ?_⟩
    rw [← Store.length_of_readRange hb]
    exact sortOffsets_spec Config.params bs

/-! ## BWT.RANDOMISE -/

/-- R176: every gap leaves room for its flip, the byte before its last. -/
theorem two_le_gap (k : Nat) : 2 ≤ Config.rnums.getD (k % 512) 0 := by
  have hall : ∀ gap ∈ Config.rnums, 2 ≤ gap := by decide +kernel
  have hlen : Config.rnums.length = 512 := by decide +kernel
  have hk : k % 512 < Config.rnums.length := by
    rw [hlen]
    exact Nat.mod_lt k (by decide)
  rw [List.getD_eq_getElem _ _ hk]
  exact hall _ (List.getElem_mem hk)

theorem gapSum_add_two_le (k : Nat) : gapSum k + 2 ≤ gapSum (k + 1) := Nat.add_le_add_left (two_le_gap k) _

theorem gapSum_strictMono : StrictMono gapSum :=
  strictMono_nat_of_lt_succ fun k => Nat.lt_of_succ_lt (gapSum_add_two_le k)

/-- R175: the offset before the last of a gap. -/
def FlippedAt (a : Nat) : Prop := ∃ k, a + 2 = gapSum (k + 1)

/-- R175: the byte `c` that the randomisation makes of the byte `b` at offset `a`. -/
def Randomised (a : Nat) (b c : Byte) : Prop := (FlippedAt a → c = b ^^^ 1#8) ∧ (¬ FlippedAt a → c = b)

/-- An offset of gap `k` is flipped exactly where it is the last but one of this gap. -/
theorem flippedAt_iff {a k : Nat} (hle : gapSum k ≤ a) (hlt : a < gapSum (k + 1)) :
    FlippedAt a ↔ a + 2 = gapSum (k + 1) := by
  refine ⟨fun ⟨j, hj⟩ => ?_, fun h => ⟨k, h⟩⟩
  have hnext : gapSum (k + 1) + 2 ≤ gapSum (k + 2) := gapSum_add_two_le (k + 1)
  have hkj : k < j + 1 := gapSum_strictMono.lt_iff_lt.1 (by omega)
  have hjk : j + 1 < k + 2 := gapSum_strictMono.lt_iff_lt.1 (by omega)
  rw [hj, show j = k by omega]

/-- R175, before the byte at offset `a`: `toGo` bytes remain of the gaps before gap `k`, the next one to load. -/
structure GapCountdown (a toGo k : Nat) : Prop where
  remaining : a + toGo = gapSum k
  begun : gapSum (k - 1) ≤ a

/-- One byte of the randomisation: `left` bytes of its gap `j` follow it, and it is flipped where one byte does. -/
theorem randomiseBytes_cons {a toGo k : Nat} (h : GapCountdown a toGo k) (b : Byte) (bs : List Byte) :
    ∃ left j, gapSum j ≤ a ∧ a + 1 + left = gapSum (j + 1) ∧
      randomiseBytes toGo (k % 512) (b :: bs) =
        (if left = 1 then b ^^^ 1#8 else b) :: randomiseBytes left ((j + 1) % 512) bs := by
  obtain ⟨hrem, hbegun⟩ := h
  by_cases h0 : toGo = 0
  · have hgap := two_le_gap k
    refine ⟨Config.rnums.getD (k % 512) 0 - 1, k, by omega, by rw [gapSum]; omega, ?_⟩
    rw [randomiseBytes, if_pos h0, if_pos h0, Config.randTableLen, Nat.mod_add_mod]
  · obtain _ | j := k
    · exact absurd hrem (by rw [gapSum]; omega)
    · refine ⟨toGo - 1, j, hbegun, by omega, ?_⟩
      rw [randomiseBytes, if_neg h0, if_neg h0]

theorem randomised_randomiseBytes {bs : List Byte} {a toGo k : Nat} (h : GapCountdown a toGo k) {i : Nat}
    (hi : i < bs.length) : Randomised (a + i) (bs.getD i 0) ((randomiseBytes toGo (k % 512) bs).getD i 0) := by
  induction bs generalizing a toGo k i with
  | nil => cases hi
  | cons b bs ih =>
    obtain ⟨left, j, hle, hleft, heq⟩ := randomiseBytes_cons h b bs
    rw [heq]
    cases i with
    | zero =>
      rw [Nat.add_zero, Randomised, flippedAt_iff hle (by omega)]
      exact ⟨fun h => if_pos (by omega), fun h => if_neg (by omega)⟩
    | succ i =>
      have hrest : Randomised (a + 1 + i) _ _ := ih ⟨hleft, Nat.le_succ_of_le hle⟩ (Nat.lt_of_succ_lt_succ hi)
      rwa [Nat.add_right_comm] at hrest

theorem read_writeRange_zero {w : Nat} (m : Store w) (vs : List (BitVec w)) (a : Nat) :
    (m.writeRange 0 vs).read a = if a < vs.length then some (vs.getD a 0) else m.read a := by
  rw [Store.read_writeRange, Nat.zero_add, Nat.sub_zero]
  by_cases ha : a < vs.length
  · rw [if_pos ⟨Nat.zero_le a, ha⟩, if_pos ha, List.getD_eq_getElem _ _ ha, List.getElem?_eq_getElem]
  · rw [if_neg fun h => ha h.2, if_neg ha]

/-- Settles O32: every byte is written back as `Randomised` says, from the countdown at offset 0. -/
theorem bwtRandomiseOperation : Obligations.BwtRandomiseOperation := by
  intro s bs hf hcap hb
  have hbl := Store.length_of_readRange hb
  have hread := read_writeRange_zero s.b (randomiseBytes 0 0 bs)
  simp only [length_randomiseBytes, hbl] at hread
  refine ⟨_, unlessFatal_of_done hf (withBuffer_of hcap hb), rfl, fun a ha => ?outside, fun a ha => ?inside⟩
  case outside => exact (hread a).trans (if_neg (Nat.not_lt_of_le ha))
  case inside =>
    have hstart : GapCountdown 0 0 0 := ⟨rfl, Nat.le_refl 0⟩
    obtain ⟨hflip, hkeep⟩ := randomised_randomiseBytes hstart (i := a) (by rwa [hbl])
    rw [Nat.zero_add] at hflip hkeep
    have hnew := (hread a).trans (if_pos ha)
    exact ⟨fun h => hnew.trans (congrArg some (hflip h)), fun h => hnew.trans (congrArg some (hkeep h))⟩

/-! ## BWT.ORIGIN -/

theorem originPosition_eq_idxOf? (ns : List Nat) : originPosition ns = ns.idxOf? 0 := by
  induction ns with
  | nil => rfl
  | cons n ns ih => simp [originPosition, ih, List.idxOf?_cons]

theorem idxOf?_natsOf {w : Nat} (zs : List (BitVec w)) : (natsOf zs).idxOf? 0 = zs.idxOf? 0#w := by
  induction zs with
  | nil => rfl
  | cons z zs ih =>
    have hz : z.toNat = 0 ↔ z = 0#w := BitVec.toNat_inj (y := 0#w)
    rw [natsOf, List.map_cons, List.idxOf?_cons, List.idxOf?_cons, ← natsOf, ih]
    simp only [beq_iff_eq, hz]

section
variable {s : State} {zs : List (BitVec 20)} (hcap : s.len.toNat ≤ s.cap.toNat)
  (hz : s.zptr.readRange 0 s.len.toNat = some zs)
include hcap hz

theorem bwtOrigin_of_found {i : Nat} (h : zs.idxOf? 0#20 = some i) :
    bwtOrigin s = .done { s with origPtr := BitVec.ofNat 24 i, phase := .mtf } := by
  rw [bwtOrigin, withZptr_of hcap hz, originPosition_eq_idxOf?, idxOf?_natsOf, h]

theorem bwtOrigin_of_absent (hf : s.fatal = false) (h : zs.idxOf? 0#20 = none) :
    bwtOrigin s = .raised (s.haltedWith 0x01#8) := by
  rw [bwtOrigin, withZptr_of hcap hz, originPosition_eq_idxOf?, idxOf?_natsOf, h]
  exact raise_of_not_fatal hf .originNotFound

end

/-- Settles O33, by what the search for offset 0 answers. -/
theorem bwtOriginOperation : Obligations.BwtOriginOperation := by
  intro s zs hf hcap hz
  refine ⟨fun hmem => ?found, fun hmem => ?absent⟩
  case found =>
    obtain ⟨i, hidx⟩ := Option.isSome_iff_exists.1 (List.isSome_idxOf?.2 hmem)
    obtain ⟨hi, hzero, hfirst⟩ := List.idxOf?_eq_some_iff.1 hidx
    have hlt : i < 2 ^ 24 := by
      have := Store.length_of_readRange hz
      have := s.len.isLt
      omega
    refine ⟨i, hzero ▸ List.getElem?_eq_getElem hi, fun j hj hj0 => ?_, _, ?_,
      unlessFatal_of_done hf (bwtOrigin_of_found hcap hz hidx)⟩
    · exact hfirst j hj (List.getElem_of_getElem? hj0).2
    · exact Nat.mod_eq_of_lt hlt
  case absent =>
    exact unlessFatal_of_raised hf (bwtOrigin_of_absent hcap hz hf (List.idxOf?_eq_none_iff.2 hmem))

end Sys2Proof.Machine
end

section
/-! PROOF. O35 and O36: the symbols that `RLE2.FLUSH` puts (R204), and the tables that `MTF.GEN` leaves (R208). -/

namespace Sys2Proof

/-- A table in canonical form holds one value for an index. -/
theorem Store.read_of_mem {w : Nat} {m : Store w} (hm : m.wf) {i : Nat} {v : BitVec w} (h : (i, v) ∈ m) :
    m.read i = some v := by
  induction m with
  | nil => cases h
  | cons c m ih =>
    rcases List.mem_cons.1 h with rfl | h
    · exact if_pos rfl
    · have hlt : c.1 < i := List.rel_of_pairwise_cons hm (List.mem_map_of_mem (f := Prod.fst) h)
      exact (if_neg (by omega)).trans (ih (List.Pairwise.of_cons hm) h)

end Sys2Proof

namespace Sys2Proof.Machine

/-! ## Putting symbols, R202 -/

/-- R202: `syms` follow the symbols of `szptr` and are counted; nothing else changes. -/
structure SymbolsPut (syms : List Nat) (s t : State) : Prop where
  frame : t = { s with szptr := t.szptr, nMTF := t.nMTF, mtfFreq := t.mtfFreq }
  nMTF : t.nMTF.toNat = s.nMTF.toNat + syms.length
  szptr : ∀ a, t.szptr.read a =
    if s.nMTF.toNat ≤ a ∧ a < t.nMTF.toNat then some (BitVec.ofNat 9 (syms.getD (a - s.nMTF.toNat) 0))
    else s.szptr.read a
  mtfFreq : ∀ v, t.mtfFreq.read v = (s.mtfFreq.read v).map (· + BitVec.ofNat 20 (syms.count v))

theorem SymbolsPut.nil (s : State) : SymbolsPut [] s s where
  frame := rfl
  nMTF := rfl
  szptr _ := (if_neg (by omega)).symm
  mtfFreq v := by simp

theorem SymbolsPut.append {xs ys : List Nat} {s t u : State} (h1 : SymbolsPut xs s t) (h2 : SymbolsPut ys t u) :
    SymbolsPut (xs ++ ys) s u where
  frame := by
    rw [h2.frame, h1.frame]
  nMTF := by rw [h2.nMTF, h1.nMTF, List.length_append, Nat.add_assoc]
  szptr a := by
    have ht := h1.nMTF
    have hu := h2.nMTF
    rw [h2.szptr, h1.szptr]
    by_cases hys : t.nMTF.toNat ≤ a
    · rw [List.getD_append_right _ _ _ _ (by omega), if_neg (c := _ ∧ a < t.nMTF.toNat) (by omega), Nat.sub_sub, ← ht]
      simp only [hys, show s.nMTF.toNat ≤ a by omega]
    · rw [if_neg fun h => hys h.1]
      by_cases hxs : s.nMTF.toNat ≤ a
      · rw [if_pos (by omega), if_pos (by omega), List.getD_append _ _ _ _ (by omega)]
      · rw [if_neg fun h => hxs h.1, if_neg fun h => hxs h.1]
  mtfFreq v := by
    rw [h2.mtfFreq, h1.mtfFreq, Option.map_map, List.count_append, BitVec.ofNat_add]
    simp only [Function.comp_def, BitVec.add_assoc]

theorem putSymbol_completes {s : State} {v : Nat} (hcap : s.cap.toNat ≤ 900000)
    (hfit : s.nMTF.toNat < s.cap.toNat + 1) (hfreq : (s.mtfFreq.read v).isSome) :
    ∃ t, putSymbol v s = .done t ∧ SymbolsPut [v] s t := by
  obtain ⟨f, hf⟩ := Option.isSome_iff_exists.1 hfreq
  have hnMTF : (s.nMTF + 1).toNat = s.nMTF.toNat + 1 :=
    (BitVec.toNat_add ..).trans (Nat.mod_eq_of_lt (show s.nMTF.toNat + 1 < 2 ^ 20 by omega))
  refine ⟨_, (inRange_of (decide_eq_true hfit) _).trans (by rw [hf, readOr_some]), rfl, hnMTF, fun a => ?szptr,
    fun u => ?mtfFreq⟩
  case szptr =>
    rw [Store.read_write, hnMTF]
    by_cases ha : a = s.nMTF.toNat
    · simp [ha]
    · rw [if_neg ha, if_neg (by omega)]
  case mtfFreq =>
    rw [Store.read_write]
    by_cases hu : u = v
    · simp [hu, hf]
    · simp [hu, Ne.symm hu]

/-- Symbols that fit and have a count are put. -/
theorem putSymbols_completes {s : State} {syms : List Nat} (hcap : s.cap.toNat ≤ 900000)
    (hfit : s.nMTF.toNat + syms.length ≤ s.cap.toNat + 1) (hfreq : ∀ v ∈ syms, (s.mtfFreq.read v).isSome) :
    ∃ t, putSymbols syms s = .done t ∧ SymbolsPut syms s t := by
  induction syms generalizing s with
  | nil => exact ⟨s, rfl, .nil s⟩
  | cons v syms ih =>
    rw [List.length_cons] at hfit
    obtain ⟨hv, hsyms⟩ := List.forall_mem_cons.1 hfreq
    obtain ⟨t, ht, hput⟩ := putSymbol_completes hcap (by omega) hv
    have hcapt : t.cap = s.cap := by rw [hput.frame]
    have hnMTF : t.nMTF.toNat = s.nMTF.toNat + 1 := hput.nMTF
    obtain ⟨u, hu, hrest⟩ := ih (s := t) (by rwa [hcapt]) (by rw [hcapt]; omega) fun w hw => by
      rw [hput.mtfFreq, Option.isSome_map]
      exact hsyms w hw
    exact ⟨u, by rw [putSymbols, ht, Res.andThen_done, hu], hput.append hrest⟩

/-! ## `RLE2.FLUSH` -/

/-- Settles O35: the symbols put are the digits of the run, RUNA and RUNB only. -/
theorem rle2FlushOperation : Obligations.Rle2FlushOperation := by
  intro s f0 f1 hf hcap h0 h1 ds hfit
  have hdigit : ∀ d ∈ ds, d < 2 := zeroRun_lt_two _
  have hfreq : ∀ d ∈ ds, (s.mtfFreq.read d).isSome := fun d hd => by
    obtain rfl | rfl : d = 0 ∨ d = 1 := by have := hdigit d hd; omega
    · exact Option.isSome_of_eq_some h0
    · exact Option.isSome_of_eq_some h1
  obtain ⟨t, ht, hput⟩ := putSymbols_completes hcap hfit hfreq
  have hdone : rle2Flush s = .done { t with zpend := 0 } := by rw [rle2Flush, ht, Res.andThen_done]
  refine ⟨_, unlessFatal_of_done hf hdone, ?frame, hput.nMTF, hput.szptr, ?runA, ?runB, fun a ha => ?others⟩
  case frame => exact congrArg (fun u : State => { u with zpend := 0 }) hput.frame
  case runA => exact (hput.mtfFreq 0).trans (by rw [h0, Option.map_some])
  case runB => exact (hput.mtfFreq 1).trans (by rw [h1, Option.map_some])
  case others =>
    have hnone : ds.count a = 0 := List.count_eq_zero.2 fun h => by have := hdigit a h; omega
    exact (hput.mtfFreq a).trans (by simp [hnone])

/-! ## The end of the stream, R205 -/

/-- R201, R205: EOB comes last, and every symbol before it is smaller. -/
theorem mtfWalk_eq_append_eob {eob : Nat} (he : 2 ≤ eob) (ys : List Nat) (z : Nat) (cs : List Nat)
    (hy : ys.length < eob) (hc : ∀ c ∈ cs, c ∈ ys) :
    ∃ front, (mtfWalk eob ys z cs).1 = front ++ [eob] ∧ ∀ v ∈ front, v < eob := by
  have hrun : ∀ r, ∀ d ∈ zeroRun r, d < eob := fun r d hd => (zeroRun_lt_two r d hd).trans_le he
  induction cs generalizing ys z with
  | nil => exact ⟨zeroRun z, by rw [mtfWalk], hrun z⟩
  | cons c cs ih =>
    obtain ⟨hcy, hcs⟩ := List.forall_mem_cons.1 hc
    rw [mtfWalk]
    split
    next => exact ih ys (z + 1) hy hcs
    next =>
      have hj := rankOf_lt_length hcy
      have hperm := moveToFront_perm hj
      obtain ⟨front, heq, hlt⟩ := ih (moveToFront ys (rankOf c ys)) 0 (hperm.length_eq.trans_lt hy) fun d hd =>
        hperm.mem_iff.2 (hcs d hd)
      refine ⟨zeroRun z ++ (rankOf c ys + 1) :: front, by simp [heq], ?_⟩
      rw [List.forall_mem_append, List.forall_mem_cons]
      exact ⟨hrun z, by omega, hlt⟩

section
variable {bs : List Byte} (h : bs ≠ []) (zs : List Nat)
include h

theorem symbolsOf_eq_append_eob : ∃ front, (symbolsOf bs zs).1 = front ++ [(usedBytes bs).length + 1] ∧
    ∀ v ∈ front, v < (usedBytes bs).length + 1 := by
  have hpos := length_usedBytes_pos h
  simp only [symbolsOf, List.length_map]
  exact mtfWalk_eq_append_eob (by omega) _ 0 _ (by simp) (lastColumn_mem_range h zs)

/-- R205: the last symbol, and only it, is EOB. -/
theorem getD_symbolsOf_eq_eob_iff {k : Nat} (hk : k < (symbolsOf bs zs).1.length) :
    (symbolsOf bs zs).1.getD k 0 = (usedBytes bs).length + 1 ↔ k + 1 = (symbolsOf bs zs).1.length := by
  obtain ⟨front, heq, hlt⟩ := symbolsOf_eq_append_eob h zs
  rw [heq, List.length_append, List.length_singleton] at hk ⊢
  by_cases hlast : k = front.length
  · simp [hlast]
  · have hfront : k < front.length := by omega
    have := hlt _ (List.getElem_mem hfront)
    rw [List.getD_append _ _ _ _ hfront, List.getD_eq_getElem _ _ hfront]
    omega

/-- A stream of EOB alone decodes to nothing, so rotations need a symbol before it. -/
theorem two_le_length_symbolsOf (hz : zs ≠ []) : 2 ≤ (symbolsOf bs zs).1.length := by
  obtain ⟨front, heq, -⟩ := symbolsOf_eq_append_eob h zs
  have hdecode := decodeSymbols_symbolsOf h zs
  have hpos := length_usedBytes_pos h
  have hfront : front ≠ [] := by
    rintro rfl
    rw [heq, List.nil_append, decodeSymbols, if_neg (by omega), if_pos rfl, lastColumn, zeroRunValue,
      List.replicate_zero] at hdecode
    exact hz (List.map_eq_nil_iff.1 hdecode.symm)
  have := List.length_pos_iff.2 hfront
  rw [heq, List.length_append, List.length_singleton]
  omega

end

/-! ## The tables of `MTF.GEN`, R200 and R206 -/

theorem pairwise_usedBytes (bs : List Byte) : (usedBytes bs).Pairwise fun a b => a.toNat < b.toNat :=
  List.pairwise_map.1 (sorted_usedBytes bs)

/-- R208: all that `MTF.GEN` leaves but the final list, from the buffer `bs` and the sorted offsets `zs`. -/
structure GeneratedTables (bs : List Byte) (zs : List Nat) (t : State) : Prop extends SymbolTables bs zs t where
  inUse : t.inUse = Store.ofList ((List.range 256).map fun v => BitVec.ofBool (bs.contains (BitVec.ofNat 8 v)))
  unseqToSeq : t.unseqToSeq = (usedBytes bs).zipIdx.map fun v => (v.1.toNat, BitVec.ofNat 8 v.2)
  mtfFreq : t.mtfFreq = Store.ofNats 20 (tally ((usedBytes bs).length + 2) (symbolsOf bs zs).1)

theorem mtfGen_completes {s : State} {bs : List Byte} {zs : List (BitVec 20)} (hle : s.len.toNat ≤ s.cap.toNat)
    (hb : s.b.readRange 0 s.len.toNat = some bs) (hz : s.zptr.readRange 0 s.len.toNat = some zs) :
    ∃ t, mtfGen s = .done t ∧ GeneratedTables bs (natsOf zs) t ∧
      t = { s with
              inUse := t.inUse, seqToUnseq := t.seqToUnseq, unseqToSeq := t.unseqToSeq, nInUse := t.nInUse
              alphaSize := t.alphaSize, yy := t.yy, zpend := 0#20, szptr := t.szptr, nMTF := t.nMTF
              mtfFreq := t.mtfFreq, phase := .hufInit } :=
  ⟨_, (withBuffer_of hle hb).trans (withZptr_of hle hz), ⟨⟨rfl, rfl, rfl, rfl, rfl⟩, rfl, rfl, rfl⟩, rfl⟩

section
variable {bs : List Byte} {zs : List Nat} {t : State} (h : GeneratedTables bs zs t)
include h

theorem GeneratedTables.read_inUse (v : Byte) : t.inUse.read v.toNat = some (BitVec.ofBool (bs.contains v)) := by
  rw [h.inUse, Store.read_ofList, List.getElem?_map, List.getElem?_range v.isLt, Option.map_some, BitVec.ofNat_toNat,
    BitVec.setWidth_eq]

theorem GeneratedTables.read_seqToUnseq {k : Nat} (hk : k < (usedBytes bs).length) :
    t.seqToUnseq.read k = some ((usedBytes bs).getD k 0) := by
  rw [h.seqToUnseq, Store.read_ofList, List.getElem?_eq_getElem hk, List.getD_eq_getElem _ _ hk]

theorem GeneratedTables.read_unseqToSeq {k : Nat} (hk : k < (usedBytes bs).length) :
    t.unseqToSeq.read ((usedBytes bs).getD k 0).toNat = some (BitVec.ofNat 8 k) := by
  rw [h.unseqToSeq, List.getD_eq_getElem _ _ hk]
  exact Store.read_of_mem (wf_unseqToSeq bs) (List.mem_map.2
    ⟨((usedBytes bs)[k], k), List.mem_zipIdx_iff_getElem?.2 (List.getElem?_eq_getElem hk), rfl⟩)

theorem GeneratedTables.readRange_szptr :
    t.szptr.readRange 0 (symbolsOf bs zs).1.length = some ((symbolsOf bs zs).1.map (BitVec.ofNat 9)) := by
  rw [h.szptr, ← List.length_map (BitVec.ofNat 9)]
  exact Store.readRange_ofList _

theorem GeneratedTables.read_mtfFreq {v : Nat} (hv : v < (usedBytes bs).length + 2) :
    t.mtfFreq.read v = some (BitVec.ofNat 20 ((symbolsOf bs zs).1.count v)) := by
  rw [h.mtfFreq, Store.read_ofNats, tally, List.getElem?_map, List.getElem?_range hv, Option.map_some, Option.map_some]

end

/-- Settles O36: the bytes in use are `usedBytes`, and the symbols are those of the walk over the last column. -/
theorem mtfGenOperation : Obligations.MtfGenOperation := by
  intro s bs zs hf hlen hle hcap hb hz
  have hbl := Store.length_of_readRange hb
  have hzl : (natsOf zs).length = s.len.toNat := (List.length_map _).trans (Store.length_of_readRange hz)
  have hbs : bs ≠ [] := List.length_pos_iff.1 (by omega)
  have hzs : natsOf zs ≠ [] := List.length_pos_iff.1 (by omega)
  obtain ⟨t, hdone, ht, hframe⟩ := mtfGen_completes hle hb hz
  exact ⟨t, usedBytes bs, (symbolsOf bs (natsOf zs)).1, unlessFatal_of_done hf hdone, hframe,
    fun _ => mem_usedBytes, pairwise_usedBytes bs, ht.read_inUse,
    fun _ hk => ⟨ht.read_seqToUnseq hk, ht.read_unseqToSeq hk⟩,
    ht.nInUse_toNat, ht.alphaSize_toNat, ht.nMTF_toNat (by omega),
    two_le_length_symbolsOf hbs _ hzs, (length_symbolsOf_le bs _).trans (by omega),
    ht.readRange_szptr, symbolsOf_le hbs _, fun _ hk => getD_symbolsOf_eq_eob_iff hbs _ hk,
    fun _ hv => ht.read_mtfFreq hv⟩

end Sys2Proof.Machine
end

section
/-! PROOF. O44: the first code of a length (R230) is what the shorter codes take of the codes of that length, so a symbol's
code is its `codeValue`, up to the 32 bits of `vec` and the 20 of `code`. The rows of the two-dimensional tables (R37 to
R39) are read and written as ranges of 258 elements. -/

namespace Sys2Proof

/-! ## Rows of a table -/

theorem Store.readRow_eq {w : Nat} (m : Store w) (t n : Nat) : m.readRow t n = m.readRange (258 * t) n := rfl

theorem Store.read_writeRow {w : Nat} (m : Store w) (t : Nat) (ns : List Nat) (a : Nat) :
    (m.writeRow t (ns.map (BitVec.ofNat w))).read a =
      if 258 * t ≤ a ∧ a < 258 * t + ns.length then some (BitVec.ofNat w (ns.getD (a - 258 * t) 0)) else m.read a := by
  refine (Store.read_writeRange m (258 * t) _ a).trans ?_
  rw [List.length_map]
  split
  case isTrue h => rw [List.getElem?_map, List.getElem?_eq_getElem (by omega), List.getD_eq_getElem _ _ (by omega),
    Option.map_some]
  case isFalse => rfl

end Sys2Proof

namespace Sys2Proof.Machine

/-! ## What the shorter codes take -/

/-- R104, R230: what the symbols shorter than `n` take of the codes of length `n`. -/
def takenByShorter (lens : List Nat) (n : Nat) : Nat := (lens.map fun l => if l < n then 2 ^ (n - l) else 0).sum

theorem takenByShorter_succ (lens : List Nat) (n : Nat) :
    takenByShorter lens (n + 1) = (takenByShorter lens n + lens.count n) * 2 := by
  induction lens with
  | nil => rfl
  | cons l ls ih =>
    simp only [takenByShorter, List.map_cons, List.sum_cons] at ih ⊢
    rcases lt_trichotomy l n with hl | rfl | hl
    · rw [if_pos (by omega), if_pos hl, List.count_cons_of_ne (by omega), ih, Nat.sub_add_comm hl.le]
      ring
    · rw [if_pos (by omega), if_neg (by omega), List.count_cons_self, ih, Nat.add_sub_cancel_left]
      ring
    · rw [if_neg (by omega), if_neg (by omega), List.count_cons_of_ne (by omega), ih]
      ring

theorem takenByShorter_of_le {lens : List Nat} {n : Nat} (h : ∀ l ∈ lens, n ≤ l) : takenByShorter lens n = 0 :=
  List.sum_eq_zero fun x hx => by
    obtain ⟨l, hl, rfl⟩ := List.mem_map.1 hx
    exact if_neg (h l hl).not_gt

/-- R230: `vec` before the symbols of a length, in its 32 bits. -/
theorem firstCode_eq_takenByShorter {lens : List Nat} {least : Nat} (h : ∀ l ∈ lens, least ≤ l) (k : Nat) :
    firstCode lens least k = takenByShorter lens (least + k) % 2 ^ 32 := by
  induction k with
  | zero => rw [Nat.add_zero, takenByShorter_of_le h]; rfl
  | succ k ih =>
    rw [firstCode, ih, ← Nat.add_assoc, takenByShorter_succ]
    omega

/-- The sum of `codeValue`, with the length `n` of the symbol `v` held fixed. -/
theorem sum_filter_range_eq (lens : List Nat) (n v : Nat) :
    (((List.range lens.length).filter fun u =>
        decide (lens.getD u 0 < n) || (decide (lens.getD u 0 = n) && decide (u < v))).map
      fun u => 2 ^ (n - lens.getD u 0)).sum = takenByShorter lens n + (lens.take v).count n := by
  induction lens generalizing v with
  | nil => simp [takenByShorter]
  | cons l ls ih =>
    have htail := ih (v - 1)
    have hlt : ∀ u, u + 1 < v ↔ u < v - 1 := fun u => by omega
    have hcount : ((l :: ls).take v).count n = (ls.take (v - 1)).count n + if l = n ∧ 0 < v then 1 else 0 := by
      cases v <;> simp [List.count_cons]
    rw [List.length_cons, List.range_succ_eq_map, List.filter_cons, List.filter_map, hcount]
    simp only [takenByShorter, List.map_cons, List.sum_cons, List.getD_cons_zero, Function.comp_def,
      List.getD_cons_succ, hlt, apply_ite (List.map _), apply_ite List.sum, List.map_map] at htail ⊢
    rw [htail]
    rcases lt_trichotomy l n with hl | rfl | hl
    · simp [hl, hl.ne]; omega
    · by_cases hv : 0 < v <;> simp [hv]; omega
    · simp [hl.not_gt, hl.ne']

theorem codeValue_eq (lens : List Nat) (v : Nat) :
    codeValue lens v = takenByShorter lens (lens.getD v 0) + (lens.take v).count (lens.getD v 0) :=
  sum_filter_range_eq lens _ v

theorem length_assignFrom (lens : List Nat) (k n vec : Nat) (codes : List Nat) (h : codes.length = lens.length) :
    (assignFrom lens k n vec codes).length = lens.length := by
  induction k generalizing n vec codes with
  | zero => exact h
  | succ k ih => exact ih _ _ _ (length_assignLength n lens codes vec h)

theorem length_canonicalCodes (lens : List Nat) : (canonicalCodes lens).length = lens.length :=
  length_assignFrom _ _ _ _ _ List.length_replicate

/-- R230, R38: the code of a symbol in 20 bits. -/
theorem ofNat_canonicalCodes {lens : List Nat} {v : Nat} (hv : v < lens.length) :
    BitVec.ofNat 20 ((canonicalCodes lens).getD v 0) = BitVec.ofNat 20 (codeValue lens v) := by
  have hleast : leastLen lens + (lens.getD v 0 - leastLen lens) = lens.getD v 0 :=
    Nat.add_sub_cancel' (leastLen_le (getD_mem hv))
  rw [getD_canonicalCodes hv, firstCode_eq_takenByShorter fun _ => leastLen_le, hleast, codeValue_eq]
  refine BitVec.eq_of_toNat_eq ?_
  simp only [BitVec.toNat_ofNat]
  omega

/-! ## `HUF.ASSIGN` -/

theorem hufAssign_of {s : State} {n : Nat} {ls : List (BitVec 5)} (hn : n < 6) (halpha : s.alphaSize.toNat ≤ 258)
    (hls : s.lens.readRange (258 * n) s.alphaSize.toNat = some ls) :
    hufAssign n s =
      .done { s with code := s.code.writeRow n ((canonicalCodes (natsOf ls)).map (BitVec.ofNat 20)) } :=
  (inRange_of (by simp [Config.nGroupsMax, Config.alphaMax, hn, halpha]) _).trans <| by
    rw [Store.readRow_eq, hls, readOr_some]

/-- Settles O44: the codes written are those of the lengths read, symbol by symbol. -/
theorem hufAssignOperation : Obligations.HufAssignOperation := by
  intro n s ls hf hn halpha hls
  have hlen : (natsOf ls).length = s.alphaSize.toNat := (List.length_map _).trans (Store.length_of_readRange hls)
  refine ⟨_, unlessFatal_of_done hf (hufAssign_of hn halpha hls), rfl, fun a => ?_⟩
  dsimp only
  rw [Store.read_writeRow, length_canonicalCodes, hlen]
  split
  case isTrue h => rw [ofNat_canonicalCodes (by omega)]
  case isFalse => rfl

end Sys2Proof.Machine
end

section
/-! PROOF. O38, O43 and O46: the number of tables (R221), the range check (R229) and the move-to-front coding of the selectors
(R231). -/

namespace Sys2Proof.Machine

/-! ## `HUF.NGROUPS` -/

theorem ofNat_groupsFor (th : Vector Nat 4) (n : Nat) :
    BitVec.ofNat 3 (groupsFor th n) =
      if n < th[0] then 2#3 else if n < th[1] then 3#3 else if n < th[2] then 4#3 else if n < th[3] then 5#3 else 6#3 := by
  simp only [groupsFor, apply_ite (BitVec.ofNat 3)]

theorem hufNgroups_eq (p : Params) (s : State) :
    hufNgroups p s = .done { s with
      nGroups :=
        if s.nMTF.toNat < p.ngroupThresh[0] then 2#3
        else if s.nMTF.toNat < p.ngroupThresh[1] then 3#3
        else if s.nMTF.toNat < p.ngroupThresh[2] then 4#3
        else if s.nMTF.toNat < p.ngroupThresh[3] then 5#3
        else 6#3 } := by
  rw [hufNgroups, ofNat_groupsFor]

/-- Settles O38: one equation for every value of the parameter, at that of the hardware and at the default of R221. -/
theorem hufNgroupsOperation : Obligations.HufNgroupsOperation :=
  ⟨fun s hf => unlessFatal_of_done hf (hufNgroups_eq Config.params s),
   fun p s hp => by simpa [hp] using hufNgroups_eq p s⟩

/-! ## `HUF.RANGECHK` -/

theorem lengthLegal_iff {l : Nat} : lengthLegal l = true ↔ 1 ≤ l ∧ l ≤ 20 := by
  rw [lengthLegal, Bool.and_eq_true, decide_eq_true_iff, decide_eq_true_iff]
  rfl

/-- R229: the check on rows of 5-bit lengths. -/
theorem all_lengthLegal_iff {rows : List (List (BitVec 5))} :
    ((rows.map natsOf).all fun row => row.all lengthLegal) = true ↔
      ∀ row ∈ rows, ∀ l ∈ row, 1 ≤ l.toNat ∧ l.toNat ≤ 20 := by
  simp only [natsOf, List.all_map, List.all_eq_true, Function.comp_apply, lengthLegal_iff]

/-- Settles O43: the check passes exactly when every length read is legal. -/
theorem hufRangechkOperation : Obligations.HufRangechkOperation := by
  intro s rows hf hgroups halpha hlen hrows
  have hread : hufRangechk s = _ := withRows_of hgroups halpha (readRows_eq_some.2 ⟨hlen, hrows⟩)
  constructor
  · intro hlegal
    exact unlessFatal_of_done hf (hread.trans (if_pos (all_lengthLegal_iff.2 hlegal)))
  · rintro ⟨row, hrow, l, hl, hbad⟩
    have hnot : ¬ ∀ row ∈ rows, ∀ l ∈ row, 1 ≤ l.toNat ∧ l.toNat ≤ 20 := fun h => by
      have := h row hrow l hl
      omega
    exact unlessFatal_of_raised hf
      ((hread.trans (if_neg (mt all_lengthLegal_iff.1 hnot))).trans (raise_of_not_fatal hf .codelenRange))

/-! ## `HUF.SELMTF` -/

theorem length_selectorWalk (pos ts : List Nat) : (selectorWalk pos ts).1.length = ts.length := by
  induction ts generalizing pos with
  | nil => rfl
  | cons t ts ih => exact congrArg (· + 1) (ih _)

/-- R231: every position of a selector in the list is below the list's length. -/
theorem selectorWalk_lt (pos ts : List Nat) (h : ∀ t ∈ ts, t ∈ pos) : ∀ j ∈ (selectorWalk pos ts).1, j < pos.length := by
  induction ts generalizing pos with
  | nil => nofun
  | cons t ts ih =>
    obtain ⟨ht, hts⟩ := List.forall_mem_cons.1 h
    have hperm := moveToFront_perm (rankOf_lt_length ht)
    refine List.forall_mem_cons.2 ⟨rankOf_lt_length ht, fun j hj => ?_⟩
    exact (ih _ (fun u hu => hperm.mem_iff.2 (hts u hu)) j hj).trans_eq hperm.length_eq

/-- R231 read backwards. -/
theorem decodeSelectors_selectorWalk (pos ts : List Nat) (h : ∀ t ∈ ts, t ∈ pos) :
    decodeSelectors pos (selectorWalk pos ts).1 = ts := by
  induction ts generalizing pos with
  | nil => rfl
  | cons t ts ih =>
    obtain ⟨ht, hts⟩ := List.forall_mem_cons.1 h
    have hperm := moveToFront_perm (rankOf_lt_length ht)
    rw [selectorWalk, decodeSelectors, getD_rankOf ht, ih _ fun u hu => hperm.mem_iff.2 (hts u hu)]

theorem hufSelmtf_of {s : State} {sels : List (BitVec 3)} (hgroups : s.nGroups.toNat ≤ 6)
    (hn : s.nSelectors.toNat ≤ 18002) (hread : s.selector.readRange 0 s.nSelectors.toNat = some sels)
    (hsels : ∀ n ∈ sels, n.toNat < s.nGroups.toNat) :
    hufSelmtf s = .done { s with
      selectorMtf := Store.ofNats 3 (selectorWalk (List.range s.nGroups.toNat) (natsOf sels)).1
      pos := Store.ofNats 3 (selectorWalk (List.range s.nGroups.toNat) (natsOf sels)).2
      phase := .emit } := by
  have hall : ((natsOf sels).all fun t => t < s.nGroups.toNat) = true := by
    simpa [natsOf] using hsels
  exact (inRange_of (decide_eq_true hgroups) _).trans <| (withSelectors_of hn hread).trans (inRange_of hall _)

/-- Settles O46: the walk from the list of all tables, and its inverse. -/
theorem hufSelmtfOperation : Obligations.HufSelmtfOperation := by
  intro s sels hf hgroups hn hread hsels
  have hmem : ∀ t ∈ natsOf sels, t ∈ List.range s.nGroups.toNat := by
    simpa [natsOf] using hsels
  have hlen : (selectorWalk (List.range s.nGroups.toNat) (natsOf sels)).1.length = s.nSelectors.toNat := by
    rw [length_selectorWalk, natsOf, List.length_map, Store.length_of_readRange hread]
  refine ⟨_, _, unlessFatal_of_done hf (hufSelmtf_of hgroups hn hread hsels), rfl, ?_,
    fun j hj => (selectorWalk_lt _ _ hmem j hj).trans_eq List.length_range, decodeSelectors_selectorWalk _ _ hmem⟩
  rw [← hlen, ← List.length_map (BitVec.ofNat 3)]
  exact Store.readRange_ofList _

end Sys2Proof.Machine
end

section
/-! PROOF. O39: the initial ranges (R222). A range grows by one symbol at a time, so its frequency is a difference of two sums
from the lowest symbol on, and what remains for the tables below is the rest. -/

namespace Sys2Proof

/-- A table whose rows have been regenerated, element by element. -/
theorem Store.read_ofRows (w : Nat) {rows : List (List Nat)} (h : ∀ r ∈ rows, r.length ≤ 258) {t v : Nat}
    (ht : t < rows.length) (hv : v < (rows.getD t []).length) :
    (Store.ofRows w rows).read (258 * t + v) = some (BitVec.ofNat w ((rows.getD t []).getD v 0)) := by
  rw [List.getD_eq_getElem _ _ ht] at hv ⊢
  rw [List.getD_eq_getElem _ _ hv]
  refine Store.read_of_mem (Store.wf_ofRows w rows h) (List.mem_flatten.2
    ⟨_, List.mem_map_of_mem (a := (rows[t], t)) (List.mem_zipIdx_iff_getElem?.2 (List.getElem?_eq_getElem ht)), ?_⟩)
  refine List.mem_iff_getElem.2 ⟨v, by simpa using hv, ?_⟩
  simp [tableIndex, Config.alphaMax]

end Sys2Proof

namespace Sys2Proof.Machine

/-! ## One range -/

/-- R222: the frequency of the symbols below `k`. -/
def freqBelow (freq : List Nat) (k : Nat) : Int := ((freq.take k).sum : Nat)

theorem freqBelow_succ {freq : List Nat} {k : Nat} (h : k < freq.length) :
    freqBelow freq (k + 1) = freqBelow freq k + (freq.getD k 0 : Nat) := by
  rw [freqBelow, freqBelow, List.sum_take_succ _ _ h, List.getD_eq_getElem _ _ h, Nat.cast_add]

/-- R222: from the symbol `gs` on, `reach` is the end of the least range that holds the share, or the end of the symbols. -/
structure Reaches (freq : List Nat) (share : Int) (gs reach : Nat) : Prop where
  le : gs ≤ reach
  le_length : reach ≤ freq.length
  short : ∀ k, gs ≤ k → k < reach → freqBelow freq k - freqBelow freq gs < share
  enough : share ≤ freqBelow freq reach - freqBelow freq gs ∨ reach = freq.length

/-- R222: the inner loop, when the symbols `gs .. hi - 1` have been taken. -/
theorem growRange_reaches {freq : List Nat} {share : Int} {gs : Nat} (fuel hi : Nat) (hfuel : freq.length ≤ hi + fuel)
    (hgs : gs ≤ hi) (hhi : hi ≤ freq.length)
    (hshort : ∀ k, gs ≤ k → k < hi → freqBelow freq k - freqBelow freq gs < share) :
    ∃ reach, growRange freq share fuel hi (freqBelow freq hi - freqBelow freq gs) =
      (reach, freqBelow freq reach - freqBelow freq gs) ∧ Reaches freq share gs reach := by
  induction fuel generalizing hi with
  | zero => exact ⟨hi, rfl, hgs, hhi, hshort, .inr (by omega)⟩
  | succ fuel ih =>
    rw [growRange]
    split
    case isTrue hmore =>
      obtain ⟨hless, hlt⟩ := hmore
      rw [sub_add_eq_add_sub, ← freqBelow_succ hlt]
      refine ih (hi + 1) (by omega) (by omega) hlt fun k hk hk' => ?_
      rcases Nat.lt_succ_iff_lt_or_eq.1 hk' with hk' | rfl
      · exact hshort k hk hk'
      · exact hless
    case isFalse hstop => exact ⟨hi, rfl, hgs, hhi, hshort, by omega⟩

/-! ## All ranges -/

/-- R222: the condition on which table `n` gives its last symbol back. -/
abbrev GivesBack (nGroups n gs reach : Nat) : Prop :=
  gs + 1 < reach ∧ n + 1 ≠ nGroups ∧ n + 1 ≠ 1 ∧ (nGroups - (n + 1)) % 2 = 1

/-- R222: table `n` gets the symbols from `gs` on, up to `hi - 1`. -/
def GetsRange (freq : List Nat) (nGroups nMTF n gs hi : Nat) : Prop :=
  ∃ reach, Reaches freq (((nMTF : Int) - freqBelow freq gs) / ((n : Int) + 1)) gs reach ∧
    hi = if GivesBack nGroups n gs reach then reach - 1 else reach

/-- One round of the outer loop: what remains for the tables below is what lies from the end of the range on. -/
theorem initRanges_succ {freq : List Nat} (nGroups nMTF n : Nat) {gs : Nat} (hgs : gs ≤ freq.length) :
    ∃ hi, GetsRange freq nGroups nMTF n gs hi ∧ hi ≤ freq.length ∧
      initRanges freq nGroups (n + 1) (nMTF - freqBelow freq gs) gs =
        initRanges freq nGroups n (nMTF - freqBelow freq hi) hi ++ [(gs, hi)] := by
  obtain ⟨reach, hgrow, hreach⟩ := growRange_reaches (freq := freq) (gs := gs)
    (share := ((nMTF : Int) - freqBelow freq gs) / ((n + 1 : Nat) : Int)) freq.length gs
    (Nat.le_add_left _ _) le_rfl hgs fun k hk hk' => absurd hk' (by omega)
  rw [sub_self] at hgrow
  have hle := hreach.le_length
  refine ⟨_, ⟨reach, by simpa using hreach, rfl⟩, by split <;> omega, ?_⟩
  rw [initRanges, hgrow]
  dsimp only
  split
  case isTrue hback =>
    obtain ⟨r, rfl⟩ : ∃ r, reach = r + 1 := ⟨reach - 1, by omega⟩
    rw [Nat.add_sub_cancel, freqBelow_succ hle, sub_sub, add_sub_assoc]
    congr 2
    ring
  case isFalse => rw [sub_sub, add_sub_cancel]

/-- R222: the ranges follow one another, the highest numbered table first. -/
theorem initRanges_contiguous {freq : List Nat} (nGroups nMTF n : Nat) {gs : Nat} (hgs : gs ≤ freq.length) :
    ∃ hi : Nat → Nat, hi n = gs ∧
      initRanges freq nGroups n (nMTF - freqBelow freq gs) gs = (List.range n).map (fun k => (hi (k + 1), hi k)) ∧
      ∀ k, k < n → GetsRange freq nGroups nMTF k (hi (k + 1)) (hi k) := by
  induction n generalizing gs with
  | zero => exact ⟨fun _ => gs, rfl, rfl, nofun⟩
  | succ n ih =>
    obtain ⟨top, htop, hle, hstep⟩ := initRanges_succ nGroups nMTF n hgs
    obtain ⟨hi, rfl, hranges, hgets⟩ := ih hle
    have hold : ∀ k, k ≤ n → Function.update hi (n + 1) gs k = hi k := fun k hk =>
      Function.update_of_ne (by omega) _ _
    refine ⟨Function.update hi (n + 1) gs, Function.update_self .., ?_, fun k hk => ?_⟩
    · rw [hstep, hranges, List.range_succ, List.map_append, List.map_singleton, Function.update_self, hold n le_rfl]
      congr 1
      refine List.map_congr_left fun k hk => ?_
      have := List.mem_range.1 hk
      rw [hold k (by omega), hold (k + 1) (by omega)]
    · rcases Nat.lt_succ_iff_lt_or_eq.1 hk with hk | rfl
      · rw [hold k (by omega), hold (k + 1) (by omega)]
        exact hgets k hk
      · rwa [Function.update_self, hold k le_rfl]

/-! ## `HUF.INIT` -/

theorem length_initRow (alpha : Nat) (r : Nat × Nat) : (initRow alpha r).length = alpha := by simp [initRow]

theorem getD_initRow {alpha v : Nat} (r : Nat × Nat) (hv : v < alpha) :
    (initRow alpha r).getD v 0 = if r.1 ≤ v ∧ v < r.2 then 0 else 15 := by
  rw [List.getD_eq_getElem _ _ (by rwa [length_initRow])]
  simp [initRow, Config.icostIn, Config.icostOut]

/-- The element of a symbol in the initial table of a range. -/
theorem read_initLens {freq : List Nat} {nGroups nMTF : Nat} {hi : Nat → Nat} (halpha : freq.length ≤ 258)
    (hranges : initRanges freq nGroups nGroups nMTF 0 = (List.range nGroups).map fun k => (hi (k + 1), hi k))
    {n v : Nat} (hn : n < nGroups) (hv : v < freq.length) :
    (Store.ofRows 5 (initLens freq nGroups nMTF)).read (258 * n + v) =
      some (if hi (n + 1) ≤ v ∧ v < hi n then 0#5 else 15#5) := by
  have hrow : (initLens freq nGroups nMTF).getD n [] = initRow freq.length (hi (n + 1), hi n) := by
    simp [initLens, hranges, List.getD_eq_getElem?_getD, hn]
  rw [Store.read_ofRows 5 (fun row h => (length_of_mem_initLens h).trans_le halpha)
    (by simpa [initLens, hranges] using hn) (by rwa [hrow, length_initRow]), hrow, getD_initRow _ hv]
  split <;> rfl

/-- Settles O39: the ranges are those of the outer loop, from symbol 0 on. -/
theorem hufInitOperation : Obligations.HufInitOperation := by
  intro s fs hf hgroups halpha hread
  have hlen : (natsOf fs).length = s.alphaSize.toNat := (List.length_map _).trans (Store.length_of_readRange hread)
  obtain ⟨hi, htop, hranges, hgets⟩ :=
    initRanges_contiguous (freq := natsOf fs) s.nGroups.toNat s.nMTF.toNat s.nGroups.toNat (Nat.zero_le _)
  rw [show freqBelow (natsOf fs) 0 = 0 from rfl, sub_zero] at hranges
  refine ⟨_, hi, unlessFatal_of_done hf (hufInit_of hgroups halpha hread), rfl, htop, fun n hn => ?_, fun n v hn hv => ?_⟩
  · obtain ⟨reach, hreach, hhi⟩ := hgets n hn
    rw [← hlen]
    exact ⟨reach, hreach.le, hreach.le_length, ⟨hreach.short, hreach.enough⟩, hhi⟩
  · exact read_initLens (hlen.trans_le halpha) hranges hn (by rwa [hlen])

end Sys2Proof.Machine
end

section
/-! PROOF. O40: one assignment pass (R224, R225). The coding groups are the ranges of 50 symbols, and the table of a group is
the first of least cost. -/

namespace Sys2Proof.Machine

/-! ## The coding groups -/

theorem groupsOf_eq_map (fuel : Nat) (syms : List Nat) (h : syms.length ≤ fuel) :
    groupsOf fuel syms = (List.range ((syms.length + 49) / 50)).map (groupSymbols syms) := by
  induction fuel generalizing syms with
  | zero =>
    obtain rfl := List.length_eq_zero_iff.1 (Nat.le_zero.1 h)
    rfl
  | succ fuel ih =>
    cases syms with
    | nil => rfl
    | cons v vs =>
      have hdrop : ((v :: vs).drop 50).length = (v :: vs).length - 50 := List.length_drop
      have hpos : 0 < (v :: vs).length := Nat.succ_pos _
      have hcount : ((v :: vs).length + 49) / 50 = ((v :: vs).length - 50 + 49) / 50 + 1 := by omega
      rw [groupsOf, List.isEmpty_cons, if_neg Bool.false_ne_true, Config.gSize, ih _ (by omega), hdrop, hcount,
        List.range_succ_eq_map, List.map_cons, List.map_map]
      congr 1
      refine List.map_congr_left fun g _ => ?_
      simp only [groupSymbols, Function.comp_apply, List.drop_drop, Nat.mul_succ, Nat.add_comm]

theorem symbolGroups_eq (syms : List Nat) :
    symbolGroups syms = (List.range ((syms.length + 49) / 50)).map (groupSymbols syms) :=
  groupsOf_eq_map _ _ le_rfl

/-! ## The table of a group -/

theorem leastIndex_eq (costs : List Nat) : leastIndex costs = rankOf (leastLen costs) costs := rfl

theorem leastLen_mem {costs : List Nat} (h : costs ≠ []) : leastLen costs ∈ costs := by
  obtain ⟨a, cs, rfl⟩ := List.exists_cons_of_ne_nil h
  rw [leastLen, List.headD_cons, List.foldl_cons, min_self]
  exact List.min?_mem (List.min?_cons' ..)

theorem getD_ne_of_lt_rankOf {c n : Nat} {ys : List Nat} (h : n < rankOf c ys) : ys.getD n 0 ≠ c := by
  induction ys generalizing n with
  | nil => cases h
  | cons y ys ih =>
    rw [rankOf] at h
    split at h
    · cases h
    · cases n with
      | zero => assumption
      | succ n => exact ih (Nat.lt_of_succ_lt_succ h)

/-- R224: the least table of least cost. -/
theorem leastIndex_spec {costs : List Nat} (h : costs ≠ []) :
    leastIndex costs < costs.length ∧ ∀ n, n < costs.length →
      costs.getD (leastIndex costs) 0 ≤ costs.getD n 0 ∧
        (n < leastIndex costs → costs.getD (leastIndex costs) 0 < costs.getD n 0) := by
  rw [leastIndex_eq, getD_rankOf (leastLen_mem h)]
  refine ⟨rankOf_lt_length (leastLen_mem h), fun n hn => ?_⟩
  have hle := leastLen_le (getD_mem hn)
  exact ⟨hle, fun hlt => lt_of_le_of_ne hle (getD_ne_of_lt_rankOf hlt).symm⟩

theorem getD_groupCosts {rows : List (List Nat)} {n : Nat} (hn : n < rows.length) (g : List Nat) :
    (groupCosts rows g).getD n 0 = bitCost (rows.getD n []) g := by
  rw [groupCosts, List.getD_eq_getElem _ _ (by rwa [List.length_map]), List.getElem_map, List.getD_eq_getElem _ _ hn]
  rfl

/-! ## The frequencies of a table, R225 -/

theorem count_selected (groups : List (List Nat)) (sel : List Nat → Nat) (t v : Nat) :
    (((groups.zip (groups.map sel)).filter fun p => p.2 = t).map Prod.fst).flatten.count v =
      (groups.map fun g => if sel g = t then g.count v else 0).sum := by
  induction groups with
  | nil => rfl
  | cons g gs ih =>
    by_cases h : sel g = t <;> simp [h, ih]

theorem getD_tally {n v : Nat} (hv : v < n) (syms : List Nat) : (tally n syms).getD v 0 = syms.count v := by
  rw [List.getD_eq_getElem _ _ (by rwa [length_tally])]
  simp [tally]

/-! ## `HUF.ITER` -/

/-- R224, R225: the registers after a pass over the symbols `syms` with the lengths `rows`. -/
def State.assigned (s : State) (rows : List (List Nat)) (syms : List Nat) : State :=
  let groups := symbolGroups syms
  let sels := selectTables rows groups
  { s with
    nSelectors := BitVec.ofNat 15 groups.length
    selector := Store.ofNats 3 sels
    fave := Store.ofNats 15 (tally s.nGroups.toNat sels)
    cost :=
      match groups.getLast? with
      | some g => Store.ofNats 11 (groupCosts rows g)
      | none => s.cost
    rfreq := Store.ofRows 20 ((List.range s.nGroups.toNat).map (tableFreqs s.alphaSize.toNat groups sels)) }

theorem hufIter_of {s : State} {syms : List (BitVec 9)} {rows : List (List (BitVec 5))}
    (hfit : s.nMTF.toNat ≤ s.cap.toNat + 1) (hcap : s.cap.toNat ≤ 900000) (hpos : 1 ≤ s.nGroups.toNat)
    (hgroups : s.nGroups.toNat ≤ 6) (halpha : s.alphaSize.toNat ≤ 258)
    (hread : s.szptr.readRange 0 s.nMTF.toNat = some syms) (hsyms : ∀ v ∈ syms, v.toNat < s.alphaSize.toNat)
    (hlen : rows.length = s.nGroups.toNat)
    (hrows : ∀ n, n < s.nGroups.toNat → s.lens.readRange (258 * n) s.alphaSize.toNat = some (rows.getD n [])) :
    hufIter s = .done (s.assigned (rows.map natsOf) (natsOf syms)) := by
  have hall : ((natsOf syms).all fun v => v < s.alphaSize.toNat) = true := by simpa [natsOf] using hsyms
  have htable : (rows.map natsOf).isEmpty = false := by
    rw [List.isEmpty_eq_false_iff, ← List.length_pos_iff, List.length_map]
    omega
  have hcount : (symbolGroups (natsOf syms)).length ≤ 18002 := by
    have := Store.length_of_readRange hread
    rw [symbolGroups_eq, List.length_map, List.length_range, natsOf, List.length_map]
    omega
  refine (withSymbols_of hfit hread).trans ((withRows_of hgroups halpha (readRows_eq_some.2 ⟨hlen, hrows⟩)).trans ?_)
  exact (if_neg (not_not.2 hall)).trans <| (if_neg (by simp [htable])).trans (inRange_of (decide_eq_true hcount) _)

section
variable {s : State} {rows : List (List Nat)} {syms : List Nat}

theorem selectTables_eq : selectTables rows (symbolGroups syms) =
    (List.range ((syms.length + 49) / 50)).map fun g => leastIndex (groupCosts rows (groupSymbols syms g)) := by
  rw [selectTables, symbolGroups_eq, List.map_map]
  rfl

theorem getD_selectTables {g : Nat} (hg : g < (syms.length + 49) / 50) :
    (selectTables rows (symbolGroups syms)).getD g 0 = leastIndex (groupCosts rows (groupSymbols syms g)) := by
  simp [selectTables_eq, List.getD_eq_getElem?_getD, hg]

theorem length_selectTables : (selectTables rows (symbolGroups syms)).length = (syms.length + 49) / 50 := by
  rw [selectTables_eq, List.length_map, List.length_range]

theorem assigned_selector : (s.assigned rows syms).selector.readRange 0 ((syms.length + 49) / 50) =
    some ((selectTables rows (symbolGroups syms)).map (BitVec.ofNat 3)) := by
  rw [← length_selectTables (rows := rows), ← List.length_map (BitVec.ofNat 3)]
  exact Store.readRange_ofList _

theorem assigned_fave {n : Nat} (hn : n < s.nGroups.toNat) : (s.assigned rows syms).fave.read n =
    some (BitVec.ofNat 15 ((selectTables rows (symbolGroups syms)).count n)) := by
  refine (Store.read_ofNats 15 _ n).trans ?_
  rw [List.getElem?_eq_getElem (by rwa [length_tally]), ← List.getD_eq_getElem _ 0, getD_tally hn, Option.map_some]

theorem assigned_cost (hsyms : 1 ≤ (syms.length + 49) / 50) {n : Nat} (hn : n < rows.length) :
    (s.assigned rows syms).cost.read n =
      some (BitVec.ofNat 11 (bitCost (rows.getD n []) (groupSymbols syms ((syms.length + 49) / 50 - 1)))) := by
  have hlast : (symbolGroups syms).getLast? = some (groupSymbols syms ((syms.length + 49) / 50 - 1)) := by
    rw [symbolGroups_eq, List.getLast?_map, List.getLast?_range, if_neg (by omega), Option.map_some]
  simp only [State.assigned, hlast]
  rw [Store.read_ofNats, List.getElem?_eq_getElem (by simpa [groupCosts] using hn), ← List.getD_eq_getElem _ 0,
    getD_groupCosts hn, Option.map_some]

theorem assigned_rfreq (halpha : s.alphaSize.toNat ≤ 258) {n v : Nat} (hn : n < s.nGroups.toNat)
    (hv : v < s.alphaSize.toNat) : (s.assigned rows syms).rfreq.read (258 * n + v) =
      some (BitVec.ofNat 20 (((List.range ((syms.length + 49) / 50)).map fun g =>
        if (selectTables rows (symbolGroups syms)).getD g 0 = n then (groupSymbols syms g).count v else 0).sum)) := by
  have hrow : ((List.range s.nGroups.toNat).map (tableFreqs s.alphaSize.toNat (symbolGroups syms)
      (selectTables rows (symbolGroups syms)))).getD n [] =
      tableFreqs s.alphaSize.toNat (symbolGroups syms) (selectTables rows (symbolGroups syms)) n := by
    simp [List.getD_eq_getElem?_getD, hn]
  refine (Store.read_ofRows 20 (fun row hrow => ?_) (by simpa using hn) (by rwa [hrow, tableFreqs, length_tally])).trans ?_
  · obtain ⟨t, -, rfl⟩ := List.mem_map.1 hrow
    exact (length_tally _ _).trans_le halpha
  · rw [hrow, tableFreqs, getD_tally hv, selectTables, count_selected, symbolGroups_eq, List.map_map]
    congr 3
    refine List.map_congr_left fun g hg => ?_
    rw [← symbolGroups_eq, ← selectTables, getD_selectTables (List.mem_range.1 hg)]
    rfl

end

/-- Settles O40, register by register. -/
theorem hufIterOperation : Obligations.HufIterOperation := by
  intro s syms rows hf hfit hcap hpos hgroups halpha hread hsyms hlen hrows
  have hcount : (natsOf syms).length = s.nMTF.toNat := (List.length_map _).trans (Store.length_of_readRange hread)
  have hrow : ∀ n, n < s.nGroups.toNat → (rows.map natsOf).getD n [] = natsOf (rows.getD n []) := fun n hn => by
    simp [List.getD_eq_getElem?_getD, hlen, hn]
  have hcosts : ∀ g, (groupCosts (rows.map natsOf) g).length = s.nGroups.toNat := fun g => by
    rw [groupCosts, List.length_map, List.length_map, hlen]
  refine ⟨_, selectTables (rows.map natsOf) (symbolGroups (natsOf syms)),
    unlessFatal_of_done hf (hufIter_of hfit hcap hpos hgroups halpha hread hsyms hlen hrows), rfl, ?_⟩
  rw [← hcount]
  refine ⟨?nSelectors, length_selectTables, assigned_selector, fun g hg => ?table, fun n hn =>
    ⟨assigned_fave hn, fun h => ?cost, fun v hv => assigned_rfreq halpha hn hv⟩⟩
  case nSelectors =>
    rw [State.assigned, BitVec.toNat_ofNat, symbolGroups_eq, List.length_map, List.length_range, hcount]
    omega
  case table =>
    obtain ⟨hlt, hleast⟩ := leastIndex_spec (costs := groupCosts (rows.map natsOf) (groupSymbols (natsOf syms) g))
      (List.length_pos_iff.1 (by rwa [hcosts]))
    rw [hcosts] at hlt hleast
    rw [getD_selectTables hg]
    refine ⟨hlt, fun n hn => ?_⟩
    have := hleast n hn
    rwa [getD_groupCosts (by simpa [hlen] using hlt), getD_groupCosts (by simpa [hlen] using hn), hrow n hn,
      hrow _ hlt] at this
  case cost => rw [assigned_cost h (by simpa [hlen] using hn), hrow n hn]

end Sys2Proof.Machine
end

section
/-! PROOF. The heap of R227: a sift is a sequence of swaps, each of which leaves at most one place where the order of the heap
can fail. So an entered node joins the nodes on the heap, and the root taken off is one of least weight. -/

namespace Sys2Proof.Machine

namespace Forest

/-! ## Positions of the heap -/

/-- The node `n` at heap position `z`. -/
def put (f : Forest) (z n : Nat) : Forest := { f with heap := f.heap.set z n }

/-- Exchange two positions of the heap. -/
def swap (f : Forest) (i j : Nat) : Forest := (f.put i (f.at_ j)).put j (f.at_ i)

/-- R227: what the order of the heap compares. -/
def key (f : Forest) (z : Nat) : Nat := f.wt (f.at_ z)

/-- The nodes on the heap, `heap[1..nHeap]`. -/
def live (f : Forest) : List Nat := f.heap.tail.take f.nHeap

@[simp] theorem put_nHeap (f : Forest) (z n : Nat) : (f.put z n).nHeap = f.nHeap := rfl
@[simp] theorem put_wt (f : Forest) (z n : Nat) : (f.put z n).wt = f.wt := rfl
@[simp] theorem swap_nHeap (f : Forest) (i j : Nat) : (f.swap i j).nHeap = f.nHeap := rfl

theorem put_at_same {f : Forest} {z : Nat} (hz : z < f.heap.length) (n : Nat) : (f.put z n).at_ z = n := by
  simp [put, at_, List.getD_eq_getElem?_getD, hz]

theorem put_at_of_ne {f : Forest} {z y : Nat} (h : y ≠ z) (n : Nat) : (f.put z n).at_ y = f.at_ y := by
  simp [put, at_, List.getD_eq_getElem?_getD, List.getElem?_set_ne h.symm]

theorem put_put (f : Forest) (z m n : Nat) : (f.put z m).put z n = f.put z n := by
  simp [put, List.set_set]

theorem put_at_self (f : Forest) (z : Nat) : f.put z (f.at_ z) = f := by
  by_cases hz : z < f.heap.length
  · rw [put, at_, List.getD_eq_getElem _ _ hz, List.set_getElem_self]
  · simp [put, List.set_eq_of_length_le (not_lt.1 hz)]

theorem put_key_of_ne {f : Forest} {z y : Nat} (h : y ≠ z) (n : Nat) : (f.put z n).key y = f.key y := by
  rw [key, put_at_of_ne h, put_wt, key]

/-- The element that rises or sinks moves on as in an exchange. -/
theorem swap_put {f : Forest} {z y : Nat} (hz : z < f.heap.length) (h : y ≠ z) (tmp : Nat) :
    (f.put z tmp).swap z y = (f.put z (f.at_ y)).put y tmp := by
  rw [swap, put_put, put_at_of_ne h, put_at_same hz]

theorem swap_key {f : Forest} {i j : Nat} (hi : i < f.heap.length) (hj : j < f.heap.length) (y : Nat) :
    (f.swap i j).key y = if y = j then f.key i else if y = i then f.key j else f.key y := by
  have hj' : j < (f.put i (f.at_ j)).heap.length := by simpa [put] using hj
  rw [key, swap, put_wt, put_wt]
  by_cases h : y = j
  · rw [if_pos h, h, put_at_same hj', key]
  · rw [if_neg h, put_at_of_ne h]
    by_cases h' : y = i
    · rw [if_pos h', h', put_at_same hi, key]
    · rw [if_neg h', put_at_of_ne h', key]

theorem live_cons {a : Nat} {xs : List Nat} (f : Forest) (h : f.heap = a :: xs) : f.live = xs.take f.nHeap := by
  rw [live, h, List.tail_cons]

theorem at_succ {f : Forest} {y : Nat} (h : y + 1 < f.heap.length) : f.at_ (y + 1) = f.heap.tail[y]'(by simp; omega) := by
  rw [at_, List.getD_eq_getElem _ _ h, List.getElem_tail]

/-- The nodes on the heap are those at its positions. -/
theorem mem_live {f : Forest} (hroom : f.nHeap < f.heap.length) {n : Nat} :
    n ∈ f.live ↔ ∃ y, 1 ≤ y ∧ y ≤ f.nHeap ∧ f.at_ y = n := by
  rw [live, List.mem_take_iff_getElem]
  constructor
  · rintro ⟨y, hy, rfl⟩
    rw [List.length_tail] at hy
    exact ⟨y + 1, by omega, by omega, at_succ (by omega)⟩
  · rintro ⟨y, hy, hle, rfl⟩
    obtain ⟨y, rfl⟩ := Nat.exists_eq_add_of_le' hy
    exact ⟨y, by simp; omega, (at_succ (by omega)).symm⟩

theorem live_swap {f : Forest} {i j : Nat} (hroom : f.nHeap < f.heap.length) (hi : 1 ≤ i) (hi' : i ≤ f.nHeap) (hj : 1 ≤ j)
    (hj' : j ≤ f.nHeap) : (f.swap i j).live.Perm f.live := by
  obtain ⟨i, rfl⟩ := Nat.exists_eq_add_of_le' hi
  obtain ⟨j, rfl⟩ := Nat.exists_eq_add_of_le' hj
  obtain ⟨a, xs, hheap⟩ := List.exists_cons_of_ne_nil (List.length_pos_iff.1 (Nat.zero_lt_of_lt hroom))
  have hlen : f.heap.length = xs.length + 1 := by rw [hheap, List.length_cons]
  have hat : ∀ k, k < f.nHeap → f.at_ (k + 1) = (xs.take f.nHeap).getD k 0 := fun k hk => by
    simp [at_, hheap, List.getD_eq_getElem?_getD, hk]
  have hleni : i < (xs.take f.nHeap).length := by rw [List.length_take]; omega
  have hlenj : j < (xs.take f.nHeap).length := by rw [List.length_take]; omega
  rw [live_cons f hheap, live_cons (f.swap _ _) (a := a) (xs := (xs.set i (f.at_ (j + 1))).set j (f.at_ (i + 1)))
    (by simp [swap, put, hheap]), swap_nHeap, List.take_set, List.take_set, hat i hi', hat j hj',
    List.getD_eq_getElem _ _ hleni, List.getD_eq_getElem _ _ hlenj]
  exact List.set_set_perm hleni hlenj

/-- The forest after a sift: the positions of some nodes on the heap are exchanged. -/
structure SameNodes (f g : Forest) : Prop where
  frame : g = { f with heap := g.heap }
  length : g.heap.length = f.heap.length
  sentinel : g.at_ 0 = f.at_ 0
  live : g.live.Perm f.live

theorem SameNodes.refl (f : Forest) : f.SameNodes f := ⟨rfl, rfl, rfl, .refl _⟩

theorem SameNodes.trans {f g h : Forest} (hfg : f.SameNodes g) (hgh : g.SameNodes h) : f.SameNodes h :=
  ⟨by rw [hgh.frame, hfg.frame], hgh.length.trans hfg.length, hgh.sentinel.trans hfg.sentinel, hgh.live.trans hfg.live⟩

theorem swap_sameNodes {f : Forest} {i j : Nat} (hroom : f.nHeap < f.heap.length) (hi : 1 ≤ i) (hi' : i ≤ f.nHeap)
    (hj : 1 ≤ j) (hj' : j ≤ f.nHeap) : f.SameNodes (f.swap i j) where
  frame := rfl
  length := by simp [swap, put]
  sentinel := by rw [swap, put_at_of_ne (by omega), put_at_of_ne (by omega)]
  live := live_swap hroom hi hi' hj hj'

/-! ## The order of the heap -/

/-- R227: no node is lighter than its parent. -/
def Ordered (f : Forest) : Prop := ∀ y, 2 ≤ y → y ≤ f.nHeap → f.key (y / 2) ≤ f.key y

/-- The order fails at most between position `z` and its parent. -/
structure RisesAt (f : Forest) (z : Nat) : Prop where
  others : ∀ y, 2 ≤ y → y ≤ f.nHeap → y ≠ z → f.key (y / 2) ≤ f.key y
  below : ∀ y, y ≤ f.nHeap → y / 2 = z → 2 ≤ z → f.key (z / 2) ≤ f.key y

/-- The order fails at most between position `z` and its children. -/
structure SinksAt (f : Forest) (z : Nat) : Prop where
  others : ∀ y, 2 ≤ y → y ≤ f.nHeap → y / 2 ≠ z → f.key (y / 2) ≤ f.key y
  below : ∀ y, y ≤ f.nHeap → y / 2 = z → 2 ≤ z → f.key (z / 2) ≤ f.key y

theorem Ordered.root_le {f : Forest} (h : f.Ordered) (y : Nat) (hy : 1 ≤ y) (hle : y ≤ f.nHeap) : f.key 1 ≤ f.key y := by
  induction y using Nat.strong_induction_on with
  | _ y ih =>
    rcases eq_or_lt_of_le hy with rfl | hy
    · exact le_rfl
    · exact (ih (y / 2) (by omega) (by omega) (by omega)).trans (h y hy hle)

theorem RisesAt.ordered {f : Forest} {z : Nat} (h : f.RisesAt z) (hz : 2 ≤ z → f.key (z / 2) ≤ f.key z) : f.Ordered :=
  fun y hy hle => by
    by_cases hyz : y = z
    · exact hyz ▸ hz (hyz ▸ hy)
    · exact h.others y hy hle hyz

theorem SinksAt.ordered {f : Forest} {z : Nat} (h : f.SinksAt z)
    (hz : ∀ y, 2 ≤ y → y ≤ f.nHeap → y / 2 = z → f.key z ≤ f.key y) : f.Ordered := fun y hy hle => by
  by_cases hyz : y / 2 = z
  · exact hyz ▸ hz y hy hle hyz
  · exact h.others y hy hle hyz

/-- An element lighter than its parent changes places with it. -/
theorem RisesAt.swap {f : Forest} {z : Nat} (h : f.RisesAt z) (hroom : f.nHeap < f.heap.length) (hz : 2 ≤ z)
    (hle : z ≤ f.nHeap) (hlt : f.key z < f.key (z / 2)) : (f.swap z (z / 2)).RisesAt (z / 2) := by
  have hkey := swap_key (f := f) (i := z) (j := z / 2) (by omega) (by omega)
  constructor
  · intro y hy hyle hne
    rw [hkey, hkey, if_neg hne]
    by_cases hyz : y = z
    · rw [if_pos (by omega), if_pos hyz]
      exact hlt.le
    · rw [if_neg hyz]
      have hup := h.others y hy hyle hyz
      split
      case isTrue hp => exact hlt.le.trans (hp ▸ hup)
      case isFalse =>
        split
        case isTrue hc => exact h.below y hyle hc hz
        case isFalse => exact hup
  · intro y hyle hy hp
    have hup := h.others (z / 2) hp (by omega) (by omega)
    rw [hkey, hkey, if_neg (by omega), if_neg (by omega), if_neg (by omega)]
    split
    case isTrue => exact hup
    case isFalse hyz => exact hup.trans (hy ▸ h.others y (by omega) hyle hyz)

/-- An element not lighter than its least child `c` changes places with it. -/
theorem SinksAt.swap {f : Forest} {z c : Nat} (h : f.SinksAt z) (hroom : f.nHeap < f.heap.length) (_ : 1 ≤ z)
    (hc : c / 2 = z) (hcle : c ≤ f.nHeap) (hleast : ∀ y, y ≤ f.nHeap → y / 2 = z → f.key c ≤ f.key y)
    (hle : f.key c ≤ f.key z) : (f.swap z c).SinksAt c := by
  have hkey := swap_key (f := f) (i := z) (j := c) (by omega) (by omega)
  constructor
  · intro y hy hyle hne
    rw [hkey, hkey, if_neg hne]
    split
    case isTrue hp =>
      split
      case isTrue => exact hle
      case isFalse =>
        rw [if_neg (by omega)]
        exact hleast y hyle hp
    case isFalse hp =>
      rw [if_neg (by omega)]
      split
      case isTrue hyz => exact hyz ▸ h.below c hcle hc (by omega)
      case isFalse => exact h.others y hy hyle hp
  · intro y hyle hy hc2
    rw [hkey, hkey, if_neg (by omega), if_pos hc, if_neg (by omega), if_neg (by omega)]
    exact hy ▸ h.others y (by omega) hyle (by omega)

/-! ## The sifts -/

theorem upheapFrom_spec {tmp : Nat} (fuel z : Nat) (f : Forest) (hfuel : z ≤ fuel) (hz : 1 ≤ z) (hle : z ≤ f.nHeap)
    (hroom : f.nHeap < f.heap.length) (hsentinel : f.key 0 = 0) (h : (f.put z tmp).RisesAt z) :
    (f.put z tmp).SameNodes (upheapFrom tmp fuel z f) ∧ (upheapFrom tmp fuel z f).Ordered := by
  have hroom' : (f.put z tmp).nHeap < (f.put z tmp).heap.length := by simpa [put] using hroom
  have hkey : (f.put z tmp).key z = f.wt tmp := by rw [key, put_at_same (by omega), put_wt]
  induction fuel generalizing z f with
  | zero => omega
  | succ fuel ih =>
    rw [upheapFrom]
    have hparent : (f.put z tmp).key (z / 2) = f.wt (f.at_ (z / 2)) := put_key_of_ne (by omega) _
    split
    case isTrue hlt =>
      have hz2 : 2 ≤ z := by
        by_contra hz1
        rw [show z / 2 = 0 by omega, show f.wt (f.at_ 0) = 0 from hsentinel] at hlt
        exact Nat.not_lt_zero _ hlt
      have hmoved := swap_put (f := f) (z := z) (y := z / 2) (by omega) (by omega) tmp
      have hsame := swap_sameNodes (i := z) (j := z / 2) hroom' hz hle (by omega) (by simp; omega)
      have hrises := h.swap hroom' hz2 hle (by rwa [hkey, hparent])
      rw [hmoved] at hsame hrises
      obtain ⟨hnodes, hordered⟩ := ih (z / 2) (f.put z (f.at_ (z / 2))) (by omega) (by omega) (by simp; omega)
        (by simpa [put] using hroom) (by rwa [put_key_of_ne (by omega)]) hrises (by simpa [put] using hroom)
        (by rw [key, put_at_same (by simp [put]; omega)]; rfl)
      exact ⟨hsame.trans hnodes, hordered⟩
    case isFalse hnot =>
      exact ⟨.refl _, h.ordered fun _ => by rw [hkey, hparent]; omega⟩

theorem upheap_spec {f : Forest} {z : Nat} (hz : 1 ≤ z) (hle : z ≤ f.nHeap) (hroom : f.nHeap < f.heap.length)
    (hsentinel : f.key 0 = 0) (h : f.RisesAt z) : f.SameNodes (f.upheap z) ∧ (f.upheap z).Ordered := by
  have := upheapFrom_spec (tmp := f.at_ z) z z f le_rfl hz hle hroom hsentinel
  rw [put_at_self] at this
  exact this h

/-- R227: the child taken is one of least weight. -/
theorem child_spec {f : Forest} {z : Nat} (hz : 2 * z ≤ f.nHeap) : f.child z / 2 = z ∧ f.child z ≤ f.nHeap ∧
    ∀ y, y ≤ f.nHeap → y / 2 = z → f.key (f.child z) ≤ f.key y := by
  rw [child]
  split
  case isTrue h =>
    refine ⟨by omega, by omega, fun y _ hyz => ?_⟩
    obtain rfl | rfl : y = 2 * z ∨ y = 2 * z + 1 := by omega
    · exact h.2.le
    · exact le_rfl
  case isFalse h =>
    refine ⟨by omega, hz, fun y hy hyz => ?_⟩
    obtain rfl | rfl : y = 2 * z ∨ y = 2 * z + 1 := by omega
    · exact le_rfl
    · exact not_lt.1 fun hlt => h ⟨by omega, hlt⟩

theorem child_put {f : Forest} {z : Nat} (hz : 1 ≤ z) (tmp : Nat) : (f.put z tmp).child z = f.child z := by
  simp only [child, put_nHeap, put_wt, put_at_of_ne (show 2 * z + 1 ≠ z by omega), put_at_of_ne (show 2 * z ≠ z by omega)]

theorem downheapFrom_spec {tmp : Nat} (fuel z : Nat) (f : Forest) (hfuel : f.nHeap < z + fuel) (hz : 1 ≤ z)
    (hzroom : z < f.heap.length) (hroom : f.nHeap < f.heap.length) (h : (f.put z tmp).SinksAt z) :
    (f.put z tmp).SameNodes (downheapFrom tmp fuel z f) ∧ (downheapFrom tmp fuel z f).Ordered := by
  induction fuel generalizing z f with
  | zero => exact ⟨.refl _, h.ordered fun y _ hy hyz => by simp at hy; omega⟩
  | succ fuel ih =>
    rw [downheapFrom]
    split
    case isTrue hnone => exact ⟨.refl _, h.ordered fun y _ hy hyz => by simp at hy; omega⟩
    case isFalse hsome =>
      have hroom' : (f.put z tmp).nHeap < (f.put z tmp).heap.length := by simpa [put] using hroom
      have hkey : (f.put z tmp).key z = f.wt tmp := by rw [key, put_at_same hzroom, put_wt]
      obtain ⟨hchild, hcle, hleast⟩ := child_spec (f := f.put z tmp) (z := z) (by simp; omega)
      rw [child_put hz] at hchild hcle hleast
      have hckey : (f.put z tmp).key (f.child z) = f.wt (f.at_ (f.child z)) := put_key_of_ne (by omega) _
      split
      case isTrue hlt => exact ⟨.refl _, h.ordered fun y _ hy hyz => by
        have := hleast y hy hyz
        omega⟩
      case isFalse hnot =>
        have hmoved := swap_put (y := f.child z) hzroom (by omega) tmp
        have hsame := swap_sameNodes (i := z) (j := f.child z) hroom' hz (by omega) (by omega) hcle
        have hsinks := h.swap hroom' hz hchild hcle hleast (by omega)
        rw [hmoved] at hsame hsinks
        obtain ⟨hnodes, hordered⟩ := ih (f.child z) (f.put z (f.at_ (f.child z))) (by simp; omega) (by omega)
          (by simp [put] at hcle ⊢; omega) (by simpa [put] using hroom) hsinks
        exact ⟨hsame.trans hnodes, hordered⟩

theorem downheap_spec {f : Forest} (hone : 1 < f.heap.length) (hroom : f.nHeap < f.heap.length) (h : f.SinksAt 1) :
    f.SameNodes (f.downheap 1) ∧ (f.downheap 1).Ordered := by
  have := downheapFrom_spec (tmp := f.at_ 1) f.nHeap 1 f (by omega) le_rfl hone hroom
  rw [put_at_self] at this
  exact this h

/-! ## Entering a node, and taking the root off -/

/-- R227: a min-heap with its sentinel. -/
structure Heaped (f : Forest) : Prop where
  room : f.nHeap < f.heap.length
  sentinel : f.at_ 0 = 0
  weight : f.wt 0 = 0
  ordered : f.Ordered

theorem Heaped.length_live {f : Forest} (h : f.Heaped) : f.live.length = f.nHeap := by
  have := h.room
  rw [live, List.length_take, List.length_tail]
  omega

theorem Heaped.key_zero {f : Forest} (h : f.Heaped) : f.key 0 = 0 := by rw [key, h.sentinel, h.weight]

/-- The root has the least weight of the nodes on the heap. -/
theorem Heaped.root_le {f : Forest} (h : f.Heaped) {n : Nat} (hn : n ∈ f.live) : f.wt (f.at_ 1) ≤ f.wt n := by
  obtain ⟨y, hy, hle, rfl⟩ := (mem_live h.room).1 hn
  exact h.ordered.root_le y hy hle

/-- A sift that restores the order restores the heap. -/
theorem SameNodes.heaped {f g : Forest} (h : f.SameNodes g) (hroom : f.nHeap < f.heap.length) (hsentinel : f.at_ 0 = 0)
    (hweight : f.wt 0 = 0) (hordered : g.Ordered) : g.Heaped where
  room := by rw [h.length, h.frame]; exact hroom
  sentinel := h.sentinel.trans hsentinel
  weight := by rw [h.frame]; exact hweight
  ordered := hordered

/-- A node put after the last one, before it rises. -/
def append (f : Forest) (n : Nat) : Forest := { f with nHeap := f.nHeap + 1, heap := f.heap.set (f.nHeap + 1) n }

/-- R226: put node `n` on the heap. -/
def push (f : Forest) (n : Nat) : Forest := (f.append n).upheap (f.nHeap + 1)

theorem live_append {f : Forest} (hroom : f.nHeap + 1 < f.heap.length) (n : Nat) : (f.append n).live = f.live ++ [n] := by
  obtain ⟨a, xs, hheap⟩ := List.exists_cons_of_ne_nil (List.length_pos_iff.1 (Nat.zero_lt_of_lt hroom))
  have hlen : f.nHeap < xs.length := by simpa [hheap] using hroom
  rw [live_cons f hheap, live_cons (f.append n) (a := a) (xs := xs.set f.nHeap n) (by simp [append, hheap])]
  exact (List.take_succ_eq_append_getElem (by simpa using hlen)).trans (by simp [List.take_set_of_le])

/-- What entering a node does. -/
structure Pushed (f : Forest) (n : Nat) (g : Forest) : Prop where
  heaped : g.Heaped
  frame : g = { f with heap := g.heap, nHeap := f.nHeap + 1 }
  length : g.heap.length = f.heap.length
  live : g.live.Perm (n :: f.live)

theorem Heaped.push {f : Forest} (h : f.Heaped) (hroom : f.nHeap + 1 < f.heap.length) (n : Nat) : f.Pushed n (f.push n) := by
  have hroom' : (f.append n).nHeap < (f.append n).heap.length := by simpa [append] using hroom
  have hkey : ∀ y, y ≤ f.nHeap → (f.append n).key y = f.key y := fun y hy => put_key_of_ne (f := f) (by omega) n
  have hzero : (f.append n).at_ 0 = 0 := (put_at_of_ne (f := f) (by omega) n).trans h.sentinel
  have hrises : (f.append n).RisesAt (f.nHeap + 1) := by
    constructor
    · intro y hy hle hne
      change y ≤ f.nHeap + 1 at hle
      rw [hkey _ (by omega), hkey _ (by omega)]
      exact h.ordered y hy (by omega)
    · intro y hle hy
      change y ≤ f.nHeap + 1 at hle
      omega
  obtain ⟨hsame, hordered⟩ := upheap_spec (Nat.le_add_left 1 _) le_rfl hroom' ((hkey 0 (by omega)).trans h.key_zero) hrises
  exact ⟨hsame.heaped hroom' hzero h.weight hordered, hsame.frame,
    hsame.length.trans (by simp [append]), hsame.live.trans (by rw [live_append hroom]; exact List.perm_append_singleton ..)⟩

/-- The last node put in the place of the root, before it sinks. -/
def cutRoot (f : Forest) : Forest := { f with heap := f.heap.set 1 (f.at_ f.nHeap), nHeap := f.nHeap - 1 }

/-- What taking the root off does. -/
structure Dropped (f g : Forest) : Prop where
  heaped : g.Heaped
  frame : g = { f with heap := g.heap, nHeap := f.nHeap - 1 }
  length : g.heap.length = f.heap.length
  live : f.live.Perm (f.at_ 1 :: g.live)

theorem live_cutRoot {f : Forest} (h : f.Heaped) (hpos : 1 ≤ f.nHeap) : f.live.Perm (f.at_ 1 :: f.cutRoot.live) := by
  have hroom := h.room
  have hlast : f.swap 1 f.nHeap = f.cutRoot.append (f.at_ 1) := by
    simp [Forest.swap, put, append, cutRoot, Nat.sub_add_cancel hpos]
  have hswap := live_swap (f := f) (i := 1) (j := f.nHeap) hroom le_rfl hpos hpos le_rfl
  rw [hlast, live_append (by simp [cutRoot]; omega)] at hswap
  exact hswap.symm.trans (List.perm_append_singleton ..)

theorem Heaped.dropRoot {f : Forest} (h : f.Heaped) (hpos : 1 ≤ f.nHeap) : f.Dropped f.dropRoot := by
  have hroom := h.room
  have hroom' : f.cutRoot.nHeap < f.cutRoot.heap.length := by simp [cutRoot]; omega
  have hkey : ∀ y, y ≠ 1 → f.cutRoot.key y = f.key y := fun y hy => put_key_of_ne (f := f) hy _
  have hzero : f.cutRoot.at_ 0 = 0 := (put_at_of_ne (f := f) (by omega) _).trans h.sentinel
  have hsinks : f.cutRoot.SinksAt 1 := by
    constructor
    · intro y hy hle hne
      change y ≤ f.nHeap - 1 at hle
      rw [hkey _ hne, hkey _ (by omega)]
      exact h.ordered y hy (by omega)
    · intro y _ _ h2
      omega
  obtain ⟨hsame, hordered⟩ := downheap_spec (by simp [cutRoot]; omega) hroom' hsinks
  exact ⟨hsame.heaped hroom' hzero h.weight hordered, hsame.frame, hsame.length.trans (by simp [cutRoot]),
    (live_cutRoot h hpos).trans (hsame.live.symm.cons _)⟩

end Forest

end Sys2Proof.Machine
end

section
/-! PROOF. O41 and O42: the code lengths (R226 to R228). The nodes on the heap are the roots of a forest of binary trees; each
join takes the two lightest. So the lengths are the depths of the leaves of one binary tree, and a tree of height `h`
has at least the weight `fib (h + 2)`, which bounds the height. -/

namespace Sys2Proof.Machine

/-! ## Binary trees over the leaves -/

/-- A binary tree, by node numbers. -/
inductive HuffTree where
  | leaf (i : Nat)
  | node (n : Nat) (l r : HuffTree)

namespace HuffTree

def root : HuffTree → Nat
  | leaf i => i
  | node n _ _ => n

def height : HuffTree → Nat
  | leaf _ => 0
  | node _ l r => max l.height r.height + 1

def leaves : HuffTree → List Nat
  | leaf i => [i]
  | node _ l r => l.leaves ++ r.leaves

/-- The frequency of a tree whose leaf `i` has the frequency `φ i`. -/
def freq (φ : Nat → Nat) (t : HuffTree) : Nat := (t.leaves.map φ).sum

/-- The depths of the leaves, when the root has depth `d`. -/
def depths : HuffTree → Nat → List Nat
  | leaf _, d => [d]
  | node _ l r, d => l.depths (d + 1) ++ r.depths (d + 1)

/-- The parent links within the tree stand in `parent`, and no node number exceeds `m`. -/
def Linked (parent : List Int) (m : Nat) : HuffTree → Prop
  | leaf i => i ≤ m
  | node n l r => n ≤ m ∧ (parent.getD l.root (-1) = n ∧ l.Linked parent m) ∧ parent.getD r.root (-1) = n ∧ r.Linked parent m

theorem freq_node (φ : Nat → Nat) (n : Nat) (l r : HuffTree) : (node n l r).freq φ = l.freq φ + r.freq φ := by
  rw [freq, leaves, List.map_append, List.sum_append, freq, freq]

theorem height_lt_length_leaves (t : HuffTree) : t.height < t.leaves.length := by
  induction t with
  | leaf i => exact Nat.one_pos
  | node n l r ihl ihr =>
    rw [height, leaves, List.length_append]
    omega

/-- The deepest leaf lies at the height of the tree. -/
theorem height_mem_depths (t : HuffTree) (d : Nat) : d + t.height ∈ t.depths d := by
  induction t generalizing d with
  | leaf i => exact List.mem_singleton_self _
  | node n l r ihl ihr =>
    have hl := ihl (d + 1)
    have hr := ihr (d + 1)
    rw [Nat.add_right_comm] at hl hr
    rw [height, depths, List.mem_append]
    rcases le_total l.height r.height with h | h
    · rw [max_eq_right h]
      exact .inr hr
    · rw [max_eq_left h]
      exact .inl hl

theorem mem_depths {t : HuffTree} {d e : Nat} (h : e ∈ t.depths d) : d ≤ e ∧ e ≤ d + t.height := by
  induction t generalizing d with
  | leaf i => rw [List.mem_singleton.1 h]; exact ⟨le_rfl, le_rfl⟩
  | node n l r ihl ihr =>
    rw [height]
    rcases List.mem_append.1 h with h | h
    · have := ihl h
      omega
    · have := ihr h
      omega

/-- R220: the leaves of a binary tree have the Kraft sum 1. -/
theorem kraft_depths (t : HuffTree) (d m : Nat) (h : d + t.height ≤ m) :
    ((t.depths d).map fun e => 2 ^ (m - e)).sum = 2 ^ (m - d) := by
  induction t generalizing d with
  | leaf i => simp [depths]
  | node n l r ihl ihr =>
    rw [height] at h
    rw [depths, List.map_append, List.sum_append, ihl (d + 1) (by omega), ihr (d + 1) (by omega), ← Nat.two_mul,
      ← Nat.pow_succ']
    congr 1
    omega

theorem Linked.root_le {parent : List Int} {m : Nat} {t : HuffTree} (h : t.Linked parent m) : t.root ≤ m := by
  cases t with
  | leaf i => exact h
  | node n l r => exact h.1

/-- Links survive where no node that has a parent gets another. -/
theorem Linked.mono {parent parent' : List Int} {m m' : Nat} {t : HuffTree} (h : t.Linked parent m) (hm : m ≤ m')
    (hkeep : ∀ k, k ≤ m → 0 ≤ parent.getD k (-1) → parent'.getD k (-1) = parent.getD k (-1)) : t.Linked parent' m' := by
  induction t with
  | leaf i => exact le_trans h hm
  | node n l r ihl ihr =>
    obtain ⟨hn, ⟨hl, hll⟩, hr, hrl⟩ := h
    exact ⟨hn.trans hm, ⟨by rw [hkeep _ hll.root_le (by rw [hl]; exact Int.natCast_nonneg n), hl], ihl hll⟩,
      by rw [hkeep _ hrl.root_le (by rw [hr]; exact Int.natCast_nonneg n), hr], ihr hrl⟩

/-- The walk from node `k` to its root takes `d` steps. -/
def AtDepth (parent : List Int) (k d : Nat) : Prop := ∀ fuel, d ≤ fuel → depthOf parent fuel k = d

theorem atDepth_root {parent : List Int} {k : Nat} (h : parent.getD k (-1) = -1) : AtDepth parent k 0 := by
  intro fuel _
  cases fuel with
  | zero => rfl
  | succ fuel => rw [depthOf, h, if_neg (by decide)]

theorem AtDepth.child {parent : List Int} {k n d : Nat} (hn : AtDepth parent n d) (h : parent.getD k (-1) = n) :
    AtDepth parent k (d + 1) := by
  intro fuel hfuel
  obtain ⟨fuel, rfl⟩ := Nat.exists_eq_add_of_le' (Nat.one_le_of_lt hfuel)
  rw [depthOf, h, if_pos (Int.natCast_nonneg n), Int.toNat_natCast, hn fuel (Nat.le_of_succ_le_succ hfuel)]

/-- R226: the walk up the parent links finds the depth of every leaf. -/
theorem map_depthOf_leaves {parent : List Int} {m fuel : Nat} (t : HuffTree) (d : Nat) (h : t.Linked parent m)
    (hroot : AtDepth parent t.root d) (hfuel : d + t.height ≤ fuel) :
    t.leaves.map (depthOf parent fuel) = t.depths d := by
  induction t generalizing d with
  | leaf i => exact congrArg (fun e => [e]) (hroot fuel hfuel)
  | node n l r ihl ihr =>
    obtain ⟨-, ⟨hl, hll⟩, hr, hrl⟩ := h
    rw [height] at hfuel
    rw [leaves, depths, List.map_append, ihl (d + 1) hll (hroot.child hl) (by omega),
      ihr (d + 1) hrl (hroot.child hr) (by omega)]

end HuffTree

open HuffTree

/-! ## Weights -/

theorem toNat_low (w : Word32) : (w &&& 0xFF#32).toNat = w.toNat % 256 := by
  rw [BitVec.toNat_and]
  exact Nat.and_two_pow_sub_one_eq_mod w.toNat 8

theorem toNat_high (w : Word32) : (w &&& 0xFFFFFF00#32).toNat = 256 * (w.toNat / 256) := by
  have hmask : ∀ i < 32, (0xFFFFFF00#32).getLsbD i = decide (8 ≤ i) := by decide
  have hshift : w &&& 0xFFFFFF00#32 = w >>> 8 <<< 8 := by
    refine BitVec.eq_of_getLsbD_eq fun i hi => ?_
    rw [BitVec.getLsbD_and, hmask i hi, BitVec.getLsbD_shiftLeft, BitVec.getLsbD_ushiftRight]
    by_cases h : 8 ≤ i <;> simp [h, hi]
  rw [hshift, BitVec.toNat_shiftLeft, BitVec.toNat_ushiftRight, Nat.shiftLeft_eq, Nat.shiftRight_eq_div_pow]
  omega

/-- R226: frequencies add up in bits 31:8, the depth of the deeper tree, plus 1, stands in bits 7:0. -/
theorem toNat_joinWeight {a b : Word32} {p q g h : Nat} (ha : a.toNat = 256 * p + g) (hb : b.toNat = 256 * q + h)
    (hg : g < 255) (hh : h < 255) (hpq : p + q < 2 ^ 24) :
    (joinWeight a b).toNat = 256 * (p + q) + (max g h + 1) := by
  have hlow : (1#32 + if (a &&& 0xFF#32).toNat < (b &&& 0xFF#32).toNat then b &&& 0xFF#32 else a &&& 0xFF#32).toNat =
      max g h + 1 := by
    rw [toNat_low, toNat_low, BitVec.toNat_add]
    split
    · rw [toNat_low, BitVec.toNat_ofNat]; omega
    · rw [toNat_low, BitVec.toNat_ofNat]; omega
  have hhigh : ((a &&& 0xFFFFFF00#32) + (b &&& 0xFFFFFF00#32)).toNat = 2 ^ 8 * (p + q) := by
    rw [BitVec.toNat_add, toNat_high, toNat_high]
    omega
  rw [joinWeight, BitVec.toNat_or, hlow, hhigh, ← Nat.two_pow_add_eq_or_of_lt (by omega)]

theorem toNat_leafWeight {n : Nat} (h : n < 2 ^ 24) : (leafWeight n).toNat = 256 * if n = 0 then 1 else n := by
  have hlt : (if n = 0 then 1 else n) < 2 ^ 24 := by split <;> omega
  rw [leafWeight, BitVec.toNat_shiftLeft, BitVec.toNat_ofNat, Nat.shiftLeft_eq]
  omega

theorem toNat_halveWeight {w : Word32} {n : Nat} (hw : w.toNat = 256 * n) (_ : n < 2 ^ 24) :
    (halveWeight w).toNat = 256 * (1 + n / 2) := by
  rw [halveWeight, BitVec.toNat_shiftLeft, BitVec.toNat_ofNat, Nat.shiftLeft_eq, BitVec.toNat_ushiftRight,
    Nat.shiftRight_eq_div_pow]
  omega

end Sys2Proof.Machine
end

section
/-! PROOF. The forest of R226: it starts as one tree per symbol, and a join puts a new root over the two lightest trees, so
that in the end one tree holds all symbols. -/

namespace Sys2Proof.Machine

open HuffTree

theorem getD_set {α : Type} {l : List α} {i : Nat} (hi : i < l.length) (j : Nat) (a d : α) :
    (l.set i a).getD j d = if j = i then a else l.getD j d := by
  by_cases h : j = i
  · subst h; simp [List.getD_eq_getElem?_getD, hi]
  · simp [List.getD_eq_getElem?_getD, List.getElem?_set_ne (Ne.symm h), h]

/-- One element taken out of a list, by its image. -/
theorem exists_perm_cons_of_map {α β : Type} {g : α → β} {as : List α} {b : β} {bs : List β}
    (h : (b :: bs).Perm (as.map g)) : ∃ a cs, as.Perm (a :: cs) ∧ g a = b ∧ bs.Perm (cs.map g) := by
  obtain ⟨a, ha, rfl⟩ := List.mem_map.1 (h.subset List.mem_cons_self)
  obtain ⟨xs, ys, rfl⟩ := List.append_of_mem ha
  exact ⟨a, xs ++ ys, List.perm_middle, rfl, (h.trans (List.perm_middle.map g)).cons_inv⟩

/-! ## The height of the trees -/

/-- What the order of the joins gives: a tree is at least as heavy as its height asks, and every tree is at least as heavy
as the two below the root of any other. -/
structure Balanced (φ : Nat → Nat) (ts : List HuffTree) : Prop where
  own : ∀ t ∈ ts, Nat.fib (t.height + 2) ≤ t.freq φ
  other : ∀ t ∈ ts, ∀ u ∈ ts, Nat.fib (t.height + 1) ≤ u.freq φ

theorem Balanced.perm {φ : Nat → Nat} {ts us : List HuffTree} (h : Balanced φ ts) (hp : ts.Perm us) : Balanced φ us where
  own t ht := h.own t (hp.mem_iff.2 ht)
  other t ht u hu := h.other t (hp.mem_iff.2 ht) u (hp.mem_iff.2 hu)

/-- Joining the two lightest trees. -/
theorem Balanced.join {φ : Nat → Nat} {a b : HuffTree} {ts : List HuffTree} (h : Balanced φ (a :: b :: ts)) (n : Nat)
    (hleast : ∀ u ∈ ts, a.freq φ ≤ u.freq φ ∧ b.freq φ ≤ u.freq φ) : Balanced φ (.node n a b :: ts) := by
  have ha : a ∈ a :: b :: ts := List.mem_cons_self
  have hb : b ∈ a :: b :: ts := List.mem_cons_of_mem _ List.mem_cons_self
  have hts : ∀ u ∈ ts, u ∈ a :: b :: ts := fun u hu => List.mem_cons_of_mem _ (List.mem_cons_of_mem _ hu)
  have hown : Nat.fib (max a.height b.height + 3) ≤ a.freq φ + b.freq φ := by
    rw [show Nat.fib (max a.height b.height + 3) = Nat.fib (max a.height b.height + 1) +
      Nat.fib (max a.height b.height + 2) from Nat.fib_add_two]
    rcases le_total a.height b.height with hle | hle
    · rw [max_eq_right hle]
      exact Nat.add_le_add (h.other b hb a ha) (h.own b hb)
    · rw [max_eq_left hle, Nat.add_comm]
      exact Nat.add_le_add (h.own a ha) (h.other a ha b hb)
  have hnew : ∀ u ∈ ts, Nat.fib (max a.height b.height + 2) ≤ u.freq φ := fun u hu => by
    rcases le_total a.height b.height with hle | hle
    · rw [max_eq_right hle]
      exact (h.own b hb).trans (hleast u hu).2
    · rw [max_eq_left hle]
      exact (h.own a ha).trans (hleast u hu).1
  constructor
  · refine List.forall_mem_cons.2 ⟨?_, fun t ht => h.own t (hts t ht)⟩
    rwa [freq_node, height]
  · refine List.forall_mem_cons.2 ⟨List.forall_mem_cons.2 ⟨?_, hnew⟩,
      fun t ht => List.forall_mem_cons.2 ⟨?_, fun u hu => h.other t (hts t ht) u (hts u hu)⟩⟩
    · rw [freq_node, height]
      exact (Nat.fib_mono (Nat.le_succ _)).trans hown
    · rw [freq_node]
      exact (h.other t (hts t ht) a ha).trans (Nat.le_add_right _ _)

/-- A tree of the frequencies of a Block has a height below 29. -/
theorem height_lt_of_fib_le {h n : Nat} (hfib : Nat.fib (h + 2) ≤ n) (hn : n ≤ 900259) : h < 29 := by
  by_contra hge
  have hmono : Nat.fib 31 ≤ Nat.fib (h + 2) := Nat.fib_mono (by omega)
  have : Nat.fib 31 = 1346269 := by norm_num
  omega

/-- A tree of few frequencies has a height of at most 20. -/
theorem height_le_of_fib_le {h n : Nat} (hfib : Nat.fib (h + 2) ≤ n) (hn : n < 28657) : h ≤ 20 := by
  by_contra hge
  have hmono : Nat.fib 23 ≤ Nat.fib (h + 2) := Nat.fib_mono (by omega)
  have : Nat.fib 23 = 28657 := by norm_num
  omega

/-! ## Entering the leaves, and joining -/

namespace Forest

/-- R226: a new node over the nodes `a` and `b`, before it is put on the heap. -/
def link (f : Forest) (a b : Nat) : Forest :=
  { f with
    nNodes := f.nNodes + 1
    parent := ((f.parent.set a (f.nNodes + 1 : Nat)).set b (f.nNodes + 1 : Nat)).set (f.nNodes + 1) (-1)
    weight := f.weight.set (f.nNodes + 1) (joinWeight (f.weight.getD a 0) (f.weight.getD b 0)) }

theorem join_eq (f : Forest) : f.join =
    (f.dropRoot.dropRoot.link (f.at_ 1) (f.dropRoot.at_ 1)).push (f.dropRoot.dropRoot.nNodes + 1) := rfl

theorem enterLeaf_eq (f : Forest) (i : Nat) : f.enterLeaf i = { f with parent := f.parent.set i (-1) }.push i := rfl

theorem link_parent {f : Forest} {a b : Nat} (hroom : f.nNodes + 1 < f.parent.length) (ha : a ≤ f.nNodes)
    (hb : b ≤ f.nNodes) (k : Nat) : (f.link a b).parent.getD k (-1) =
      if k = f.nNodes + 1 then -1 else if k = a ∨ k = b then ((f.nNodes + 1 : Nat) : Int) else f.parent.getD k (-1) := by
  rw [link, getD_set (by simpa using hroom), getD_set (by rw [List.length_set]; omega), getD_set (by omega)]
  by_cases hka : k = a <;> by_cases hkb : k = b <;> simp [hka, hkb]

/-- A join leaves the links of the nodes that have a parent. -/
theorem link_parent_of_nonneg {f : Forest} {a b k : Nat} (hroom : f.nNodes + 1 < f.parent.length) (ha : a ≤ f.nNodes)
    (hb : b ≤ f.nNodes) (hatop : f.parent.getD a (-1) = -1) (hbtop : f.parent.getD b (-1) = -1) (hk : k ≤ f.nNodes)
    (hpos : 0 ≤ f.parent.getD k (-1)) : (f.link a b).parent.getD k (-1) = f.parent.getD k (-1) := by
  rw [link_parent hroom ha hb, if_neg (by omega), if_neg]
  rintro (rfl | rfl) <;> omega

theorem link_weight_of_ne {f : Forest} {k : Nat} (h : k ≠ f.nNodes + 1) (a b : Nat) :
    (f.link a b).weight.getD k 0 = f.weight.getD k 0 := by
  simp [link, List.getD_eq_getElem?_getD, List.getElem?_set_ne h.symm]

theorem link_wt_of_ne {f : Forest} {k : Nat} (h : k ≠ f.nNodes + 1) (a b : Nat) : (f.link a b).wt k = f.wt k :=
  congrArg BitVec.toNat (link_weight_of_ne h a b)

theorem link_wt_new {f : Forest} (hroom : f.nNodes + 1 < f.weight.length) (a b : Nat) :
    (f.link a b).wt (f.nNodes + 1) = (joinWeight (f.weight.getD a 0) (f.weight.getD b 0)).toNat := by
  rw [wt, link, getD_set hroom, if_pos rfl]

theorem Heaped.link {f : Forest} (h : f.Heaped) (hlive : ∀ n ∈ f.live, n ≤ f.nNodes) (a b : Nat) :
    (f.link a b).Heaped where
  room := h.room
  sentinel := h.sentinel
  weight := (link_wt_of_ne (Nat.succ_ne_zero _).symm a b).trans h.weight
  ordered y hy hle := by
    have hkey : ∀ z, 1 ≤ z → z ≤ f.nHeap → (f.link a b).key z = f.key z := fun z hz hz' =>
      link_wt_of_ne (Nat.lt_succ_of_le (hlive _ ((mem_live h.room).2 ⟨z, hz, hz', rfl⟩))).ne a b
    have hle : y ≤ f.nHeap := hle
    rw [hkey _ (by omega) (by omega), hkey _ (by omega) hle]
    exact h.ordered y hy hle

/-- The tree `t` stands in the forest, with its weight packed (R226) and no parent. -/
structure Holds (f : Forest) (φ : Nat → Nat) (t : HuffTree) : Prop where
  weight : f.wt t.root = 256 * t.freq φ + t.height
  linked : t.Linked f.parent f.nNodes
  top : f.parent.getD t.root (-1) = -1

/-- A tree stays when two others are joined. -/
theorem Holds.link {f : Forest} {φ : Nat → Nat} {t : HuffTree} {a b : Nat} (h : f.Holds φ t)
    (hroom : f.nNodes + 1 < f.parent.length) (ha : a ≤ f.nNodes) (hb : b ≤ f.nNodes)
    (hatop : f.parent.getD a (-1) = -1) (hbtop : f.parent.getD b (-1) = -1) (hta : t.root ≠ a) (htb : t.root ≠ b) :
    (f.link a b).Holds φ t where
  weight := (link_wt_of_ne (by have := h.linked.root_le; omega) a b).trans h.weight
  linked := h.linked.mono (Nat.le_succ _) fun _ => link_parent_of_nonneg hroom ha hb hatop hbtop
  top := by
    have := h.linked.root_le
    rw [link_parent hroom ha hb, if_neg (by omega), if_neg (by simp [hta, htb]), h.top]

/-- The two trees joined. -/
theorem Holds.join {f : Forest} {φ : Nat → Nat} {t u : HuffTree} (ht : f.Holds φ t) (hu : f.Holds φ u)
    (hroom : f.nNodes + 1 < f.parent.length) (hroom' : f.nNodes + 1 < f.weight.length) (hth : t.height < 29)
    (huh : u.height < 29) (htotal : t.freq φ + u.freq φ ≤ 900259) :
    (f.link t.root u.root).Holds φ (.node (f.nNodes + 1) t u) := by
  have htr := ht.linked.root_le
  have hur := hu.linked.root_le
  have hparent := link_parent hroom htr hur
  have hlinked : ∀ v : HuffTree, v.Linked f.parent f.nNodes →
      v.Linked (f.link t.root u.root).parent (f.nNodes + 1) := fun v hv =>
    hv.mono (Nat.le_succ _) fun _ => link_parent_of_nonneg hroom htr hur ht.top hu.top
  constructor
  · rw [freq_node, height]
    exact (link_wt_new hroom' _ _).trans
      (toNat_joinWeight ht.weight hu.weight (by omega) (by omega) (by omega))
  · exact ⟨le_rfl, ⟨by rw [hparent, if_neg (by omega), if_pos (.inl rfl)], hlinked t ht.linked⟩,
      by rw [hparent, if_neg (by omega), if_pos (.inr rfl)], hlinked u hu.linked⟩
  · rw [root, hparent, if_pos rfl]

/-- Two forests that differ in the heap alone. -/
structure SameTrees (f g : Forest) : Prop where
  weight : g.weight = f.weight
  parent : g.parent = f.parent
  nNodes : g.nNodes = f.nNodes

theorem SameTrees.trans {f g h : Forest} (hfg : f.SameTrees g) (hgh : g.SameTrees h) : f.SameTrees h :=
  ⟨hgh.weight.trans hfg.weight, hgh.parent.trans hfg.parent, hgh.nNodes.trans hfg.nNodes⟩

theorem Pushed.sameTrees {f g : Forest} {n : Nat} (h : f.Pushed n g) : f.SameTrees g :=
  ⟨by rw [h.frame], by rw [h.frame], by rw [h.frame]⟩

theorem Dropped.sameTrees {f g : Forest} (h : f.Dropped g) : f.SameTrees g :=
  ⟨by rw [h.frame], by rw [h.frame], by rw [h.frame]⟩

theorem SameTrees.wt {f g : Forest} (h : f.SameTrees g) (n : Nat) : g.wt n = f.wt n := by
  rw [Forest.wt, h.weight, Forest.wt]

theorem SameTrees.holds {f g : Forest} {φ : Nat → Nat} {t : HuffTree} (h : f.SameTrees g) (ht : f.Holds φ t) :
    g.Holds φ t where
  weight := (h.wt _).trans ht.weight
  linked := by rw [h.parent, h.nNodes]; exact ht.linked
  top := by rw [h.parent]; exact ht.top

end Forest

end Sys2Proof.Machine
end

section
/-! PROOF. O41 and O42: the tree that R226 builds, the loop of R228, and the lengths it ends with. -/

namespace Sys2Proof.Machine

open HuffTree

/-! ## The forest while R226 runs -/

/-- R226: the first weights of the leaves `1 .. alpha`, of frequencies `φ`. -/
structure LeafWeights (alpha : Nat) (φ : Nat → Nat) (weights : List Word32) : Prop where
  length : weights.length = 2 * alpha + 1
  leaf : ∀ i, 1 ≤ i → i ≤ alpha → (weights.getD i 0).toNat = 256 * φ i

/-- The frequencies of all leaves. -/
def totalFreq (alpha : Nat) (φ : Nat → Nat) : Nat := ((List.range' 1 alpha).map φ).sum

/-- The trees `ts` over the leaves `1 .. alpha` stand in the forest, whatever its heap holds. -/
structure Standing (alpha : Nat) (φ : Nat → Nat) (f : Forest) (ts : List HuffTree) : Prop where
  parentLength : f.parent.length = 2 * alpha + 1
  weights : LeafWeights alpha φ f.weight
  leaves : (ts.flatMap leaves).Perm (List.range' 1 alpha)
  distinct : (ts.map root).Nodup
  trees : ∀ t ∈ ts, f.Holds φ t
  balanced : Balanced φ ts
  leNodes : alpha ≤ f.nNodes
  count : f.nNodes + ts.length = 2 * alpha

/-- The heap compares frequencies first (R226). -/
theorem Forest.Holds.freq_le {f : Forest} {φ : Nat → Nat} {t u : HuffTree} (ht : f.Holds φ t) (hu : f.Holds φ u)
    (huh : u.height < 29) (h : f.wt t.root ≤ f.wt u.root) : t.freq φ ≤ u.freq φ := by
  rw [ht.weight, hu.weight] at h
  omega

theorem sum_map_flatMap_leaves (φ : Nat → Nat) (ts : List HuffTree) :
    ((ts.flatMap leaves).map φ).sum = (ts.map (freq φ)).sum := by
  induction ts with
  | nil => rfl
  | cons t ts ih => rw [List.flatMap_cons, List.map_append, List.sum_append, ih, List.map_cons, List.sum_cons, freq]

section
variable {alpha : Nat} {φ : Nat → Nat} {f : Forest}

theorem Standing.perm {ts us : List HuffTree} (h : Standing alpha φ f ts) (hp : ts.Perm us) : Standing alpha φ f us :=
  { h with
    leaves := (hp.flatMap_right HuffTree.leaves).symm.trans h.leaves
    distinct := (hp.map root).nodup_iff.1 h.distinct
    trees := fun t ht => h.trees t (hp.mem_iff.2 ht)
    balanced := h.balanced.perm hp
    count := hp.length_eq ▸ h.count }

theorem Standing.of_sameTrees {g : Forest} {ts : List HuffTree} (h : Standing alpha φ f ts) (hg : f.SameTrees g) :
    Standing alpha φ g ts :=
  { h with
    parentLength := hg.parent ▸ h.parentLength
    weights := hg.weight ▸ h.weights
    trees := fun t ht => hg.holds (h.trees t ht)
    leNodes := hg.nNodes ▸ h.leNodes
    count := hg.nNodes ▸ h.count }

theorem Standing.sum_freq {ts : List HuffTree} (h : Standing alpha φ f ts) :
    (ts.map (freq φ)).sum = totalFreq alpha φ := by
  rw [totalFreq, ← (h.leaves.map φ).sum_eq, sum_map_flatMap_leaves]

theorem Standing.height_lt {ts : List HuffTree} (h : Standing alpha φ f ts) (htotal : totalFreq alpha φ ≤ 900259)
    {t : HuffTree} (ht : t ∈ ts) : t.height < 29 := by
  have hle := List.single_le_sum (fun _ _ => Nat.zero_le _) _ (List.mem_map_of_mem (f := freq φ) ht)
  rw [h.sum_freq] at hle
  exact height_lt_of_fib_le (h.balanced.own t ht) (hle.trans htotal)

/-- A join numbers a node above the leaves, so their weights stay. -/
theorem LeafWeights.link (h : LeafWeights alpha φ f.weight) (hle : alpha ≤ f.nNodes) (a b : Nat) :
    LeafWeights alpha φ (f.link a b).weight where
  length := by rw [Forest.link, List.length_set, h.length]
  leaf i hi hi' := by rw [Forest.link_weight_of_ne (by omega), h.leaf i hi hi']

/-- R226: the first two trees joined. -/
theorem Standing.link {a b : HuffTree} {us : List HuffTree} (h : Standing alpha φ f (a :: b :: us))
    (htotal : totalFreq alpha φ ≤ 900259) (hleast : ∀ u ∈ us, a.freq φ ≤ u.freq φ ∧ b.freq φ ≤ u.freq φ) :
    Standing alpha φ (f.link a.root b.root) (.node (f.nNodes + 1) a b :: us) := by
  have hcount := h.count
  have hsum := h.sum_freq
  have hdistinct := h.distinct
  simp only [List.length_cons, List.map_cons, List.sum_cons, List.nodup_cons, List.mem_cons, List.mem_map, not_or,
    not_exists, not_and] at hcount hsum hdistinct
  obtain ⟨⟨-, hna⟩, hnb, hrest⟩ := hdistinct
  obtain ⟨ha, hb, hus⟩ : f.Holds φ a ∧ f.Holds φ b ∧ ∀ u ∈ us, f.Holds φ u := by simpa using h.trees
  have hroom : f.nNodes + 1 < f.parent.length := by rw [h.parentLength]; omega
  have hroom' : f.nNodes + 1 < f.weight.length := by rw [h.weights.length]; omega
  exact
    { parentLength := by simpa [Forest.link] using h.parentLength
      weights := h.weights.link h.leNodes _ _
      leaves := by simpa [HuffTree.leaves] using h.leaves
      distinct := List.nodup_cons.2 ⟨fun hmem => by
        obtain ⟨u, hu, hroot⟩ := List.mem_map.1 hmem
        have := (hus u hu).linked.root_le
        rw [hroot, root] at this
        omega, hrest⟩
      trees := List.forall_mem_cons.2
        ⟨ha.join hb hroom hroom' (h.height_lt htotal (by simp)) (h.height_lt htotal (by simp)) (by omega), fun u hu =>
          (hus u hu).link hroom ha.linked.root_le hb.linked.root_le ha.top hb.top (hna u hu) (hnb u hu)⟩
      balanced := h.balanced.join _ hleast
      leNodes := Nat.le_succ_of_le h.leNodes
      count := show f.nNodes + 1 + (us.length + 1) = 2 * alpha by omega }

/-- The trees `ts` stand in the forest, and their roots are on its heap. -/
structure Grown (alpha : Nat) (φ : Nat → Nat) (f : Forest) (ts : List HuffTree) : Prop extends Standing alpha φ f ts where
  heaped : f.Heaped
  heapLength : f.heap.length = alpha + 1
  live : f.live.Perm (ts.map root)

theorem Grown.nHeap_eq {ts : List HuffTree} (h : Grown alpha φ f ts) : f.nHeap = ts.length := by
  rw [← h.heaped.length_live, h.live.length_eq, List.length_map]

/-- The two nodes taken off are the roots of two lightest trees. -/
theorem Grown.takeTwo {ts : List HuffTree} (h : Grown alpha φ f ts) (htotal : totalFreq alpha φ ≤ 900259)
    (hmore : 1 < f.nHeap) : ∃ a b us, ts.Perm (a :: b :: us) ∧ a.root = f.at_ 1 ∧ b.root = f.dropRoot.at_ 1 ∧
      f.dropRoot.dropRoot.live.Perm (us.map root) ∧ ∀ u ∈ us, a.freq φ ≤ u.freq φ ∧ b.freq φ ≤ u.freq φ := by
  have hd := h.heaped.dropRoot (by omega)
  have hd' := hd.heaped.dropRoot (by rw [hd.frame]; exact Nat.le_sub_one_of_lt hmore)
  obtain ⟨a, vs, hp, ha, hvs⟩ := exists_perm_cons_of_map (hd.live.symm.trans h.live)
  obtain ⟨b, us, hq, hb, hus⟩ := exists_perm_cons_of_map (hd'.live.symm.trans hvs)
  have hperm := hp.trans (hq.cons a)
  refine ⟨a, b, us, hperm, ha, hb, hus, fun u hu => ?_⟩
  have hs := h.toStanding.perm hperm
  have hmem : u ∈ a :: b :: us := List.mem_cons_of_mem _ (List.mem_cons_of_mem _ hu)
  have hlive : u.root ∈ f.dropRoot.live :=
    hd'.live.mem_iff.2 (List.mem_cons_of_mem _ (hus.mem_iff.2 (List.mem_map_of_mem hu)))
  have hleast : ∀ t ∈ a :: b :: us, f.wt t.root ≤ f.wt u.root → t.freq φ ≤ u.freq φ := fun t ht =>
    (hs.trees t ht).freq_le (hs.trees u hmem) (hs.height_lt htotal hmem)
  have hbroot := hd.heaped.root_le hlive
  rw [hd.sameTrees.wt, hd.sameTrees.wt, ← hb] at hbroot
  exact ⟨hleast a (by simp) (ha ▸ h.heaped.root_le (hd.live.mem_iff.2 (List.mem_cons_of_mem _ hlive))),
    hleast b (by simp) hbroot⟩

/-- R226: the new root of two lightest trees is put on the heap. -/
theorem Grown.join {ts : List HuffTree} (h : Grown alpha φ f ts) (htotal : totalFreq alpha φ ≤ 900259)
    (hmore : 1 < f.nHeap) : ∃ us, Grown alpha φ f.join us ∧ us.length + 1 = ts.length := by
  obtain ⟨a, b, us, hperm, ha, hb, hlive, hleast⟩ := h.takeTwo htotal hmore
  have hd := h.heaped.dropRoot (by omega)
  have hd' := hd.heaped.dropRoot (by rw [hd.frame]; exact Nat.le_sub_one_of_lt hmore)
  have hs := (h.toStanding.perm hperm).of_sameTrees (hd.sameTrees.trans hd'.sameTrees)
  have hroom : f.dropRoot.dropRoot.nHeap + 1 < f.dropRoot.dropRoot.heap.length := by
    have := h.heaped.room
    rw [hd'.length, hd.length, show f.dropRoot.dropRoot.nHeap = f.nHeap - 1 - 1 by rw [hd'.frame, hd.frame]]
    omega
  have hnodes : ∀ n ∈ f.dropRoot.dropRoot.live, n ≤ f.dropRoot.dropRoot.nNodes := fun n hn => by
    obtain ⟨u, hu, rfl⟩ := List.mem_map.1 (hlive.mem_iff.1 hn)
    exact (hs.trees u (List.mem_cons_of_mem _ (List.mem_cons_of_mem _ hu))).linked.root_le
  have hpush := (hd'.heaped.link hnodes a.root b.root).push hroom (f.dropRoot.dropRoot.nNodes + 1)
  refine ⟨.node (f.dropRoot.dropRoot.nNodes + 1) a b :: us, ?_, by rw [hperm.length_eq]; rfl⟩
  rw [Forest.join_eq, ← ha, ← hb]
  exact
    { (hs.link htotal hleast).of_sameTrees hpush.sameTrees with
      heaped := hpush.heaped
      heapLength := (hpush.length.trans (hd'.length.trans hd.length)).trans h.heapLength
      live := hpush.live.trans (hlive.cons _) }

/-- R226: the joins leave one tree. -/
theorem Grown.joinAll {ts : List HuffTree} (fuel : Nat) (h : Grown alpha φ f ts) (htotal : totalFreq alpha φ ≤ 900259)
    (hpos : 1 ≤ ts.length) (hfuel : ts.length ≤ fuel + 1) : ∃ t, Grown alpha φ (joinAll fuel f) [t] := by
  have hn := h.nHeap_eq
  induction fuel generalizing f ts with
  | zero =>
    obtain ⟨t, rfl⟩ := List.length_eq_one_iff.1 (Nat.le_antisymm hfuel hpos)
    exact ⟨t, h⟩
  | succ fuel ih =>
    rw [Machine.joinAll]
    split
    case isTrue hmore =>
      obtain ⟨us, hus, hlen⟩ := h.join htotal hmore
      exact ih hus (by omega) (by omega) hus.nHeap_eq
    case isFalse hone =>
      obtain ⟨t, rfl⟩ := List.length_eq_one_iff.1 (show ts.length = 1 by omega)
      exact ⟨t, h⟩

/-! ## The leaves -/

/-- R226: the leaves `is` have been entered. -/
structure Entered (alpha : Nat) (weights : List Word32) (is : List Nat) (f : Forest) : Prop where
  heaped : f.Heaped
  heapLength : f.heap.length = alpha + 1
  parentLength : f.parent.length = 2 * alpha + 1
  weight : f.weight = weights
  nNodes : f.nNodes = alpha
  live : f.live.Perm is
  top : ∀ i ∈ is, f.parent.getD i (-1) = -1

theorem Entered.enterLeaf {weights : List Word32} {is : List Nat} (h : Entered alpha weights is f) {i : Nat}
    (hi : i ≤ alpha) (hroom : is.length < alpha) : Entered alpha weights (is ++ [i]) (f.enterLeaf i) := by
  have hn : f.nHeap = is.length := by rw [← h.heaped.length_live, h.live.length_eq]
  have hlen := h.heapLength
  have hp := Forest.Heaped.push (f := { f with parent := f.parent.set i (-1) }) { h.heaped with }
    (show f.nHeap + 1 < f.heap.length by omega) i
  rw [← Forest.enterLeaf_eq] at hp
  have hparent : (f.enterLeaf i).parent = f.parent.set i (-1) := by rw [hp.frame]
  exact
    { heaped := hp.heaped
      heapLength := hp.length.trans hlen
      parentLength := by rw [hparent, List.length_set, h.parentLength]
      weight := by rw [hp.frame]; exact h.weight
      nNodes := by rw [hp.frame]; exact h.nNodes
      live := hp.live.trans ((h.live.cons i).trans (List.perm_append_singleton i is).symm)
      top := fun j hj => by
        rw [hparent, getD_set (by rw [h.parentLength]; omega)]
        split
        case isTrue => rfl
        case isFalse hne => exact h.top j (by simpa [hne] using hj) }

theorem Entered.foldl {weights : List Word32} {is : List Nat} (js : List Nat) (h : Entered alpha weights is f)
    (hjs : ∀ j ∈ js, j ≤ alpha) (hroom : is.length + js.length ≤ alpha) :
    Entered alpha weights (is ++ js) (js.foldl Forest.enterLeaf f) := by
  induction js generalizing is f with
  | nil => rwa [List.append_nil]
  | cons j js ih =>
    rw [List.length_cons] at hroom
    obtain ⟨hj, hjs⟩ := List.forall_mem_cons.1 hjs
    have := ih (h.enterLeaf hj (by omega)) hjs (by rw [List.length_append, List.length_singleton]; omega)
    rwa [List.append_assoc] at this

/-- The forest of the leaves alone. -/
theorem Entered.grown {weights : List Word32} (h : Entered alpha weights (List.range' 1 alpha) f)
    (hw : LeafWeights alpha φ weights) (hpos : ∀ i, 1 ≤ φ i) : Grown alpha φ f ((List.range' 1 alpha).map leaf) := by
  have hroots : ((List.range' 1 alpha).map leaf).map root = List.range' 1 alpha := by
    rw [List.map_map]
    exact List.map_id _
  have hfreq : ∀ i, (leaf i).freq φ = φ i := fun i => by simp [freq, leaves]
  exact
    { heaped := h.heaped
      heapLength := h.heapLength
      parentLength := h.parentLength
      weights := h.weight ▸ hw
      live := by rw [hroots]; exact h.live
      leaves := by rw [List.flatMap_map]; simp [leaves]
      distinct := by rw [hroots]; exact List.nodup_range'
      trees := List.forall_mem_map.2 fun i hi => by
        have hmem := List.mem_range'_1.1 hi
        refine ⟨?_, ?_, h.top i hi⟩
        · rw [Forest.wt, h.weight, hfreq]
          exact hw.leaf i hmem.1 (by omega)
        · rw [h.nNodes, Linked]; omega
      balanced :=
        { own := List.forall_mem_map.2 fun i _ => by rw [hfreq]; exact hpos i
          other := List.forall_mem_map.2 fun i _ => List.forall_mem_map.2 fun j _ => by rw [hfreq]; exact hpos j }
      leNodes := h.nNodes.ge
      count := by rw [h.nNodes, List.length_map, List.length_range']; omega }

end

/-- The sentinel takes the place of node 0. -/
theorem LeafWeights.setSentinel {alpha : Nat} {φ : Nat → Nat} {weights : List Word32} (h : LeafWeights alpha φ weights) :
    LeafWeights alpha φ (weights.set 0 0) where
  length := by rw [List.length_set, h.length]
  leaf i hi hi' := by rw [getD_set (by rw [h.length]; omega), if_neg (by omega), h.leaf i hi hi']

/-- R226: the forest before the first leaf is entered. -/
def startForest (alpha : Nat) (weights : List Word32) : Forest where
  heap := List.replicate (alpha + 1) 0
  weight := weights
  parent := (List.replicate (2 * alpha + 1) 0).set 0 (-2)
  nHeap := 0
  nNodes := alpha

theorem buildTree_eq (alpha : Nat) (weights : List Word32) : buildTree alpha weights =
    joinAll alpha ((List.range' 1 alpha).foldl Forest.enterLeaf (startForest alpha (weights.set 0 0))) := rfl

theorem entered_startForest {alpha : Nat} {weights : List Word32} (h : (weights.getD 0 0).toNat = 0) :
    Entered alpha weights [] (startForest alpha weights) where
  heaped :=
    { room := by simp [startForest]
      sentinel := by simp [startForest, Forest.at_]
      weight := h
      ordered := fun y hy hle => absurd (show 2 ≤ 0 from hy.trans hle) (by decide) }
  heapLength := by simp [startForest]
  parentLength := by simp [startForest]
  weight := rfl
  nNodes := rfl
  live := by simp [startForest, Forest.live]
  top := nofun

/-- R226: the tree that is built. -/
theorem buildTree_grown {alpha : Nat} {φ : Nat → Nat} {weights : List Word32} (hw : LeafWeights alpha φ weights)
    (hpos : ∀ i, 1 ≤ φ i) (halpha : 1 ≤ alpha) (htotal : totalFreq alpha φ ≤ 900259) :
    ∃ t, Grown alpha φ (buildTree alpha weights) [t] := by
  have hw0 := hw.setSentinel
  have hempty := entered_startForest (weights := weights.set 0 0) (alpha := alpha) (by
    rw [getD_set (by rw [hw.length]; omega), if_pos rfl]
    rfl)
  have hentered := hempty.foldl (List.range' 1 alpha) (fun i hi => by have := List.mem_range'_1.1 hi; omega) (by simp)
  rw [buildTree_eq]
  exact (hentered.grown hw0 hpos).joinAll alpha htotal (by simpa using halpha) (by simp)

end Sys2Proof.Machine
end

section
/-! PROOF. O41 and O42: the lengths are the depths of the leaves of the tree, and halving the frequencies ends the loop (R228):
what exceeds two per symbol halves each time, and few frequencies make a low tree. -/

namespace Sys2Proof.Machine

open HuffTree

/-! ## The lengths of a tree -/

/-- R220, items 3 and 4. -/
structure LegalLengths (alpha : Nat) (ls : List Nat) : Prop where
  length : ls.length = alpha
  range : ∀ l ∈ ls, 1 ≤ l ∧ l ≤ 20
  kraft : (ls.map fun l => 2 ^ (20 - l)).sum = 2 ^ 20

theorem length_leafDepths (alpha : Nat) (f : Forest) : (leafDepths alpha f).length = alpha := by
  rw [leafDepths, List.length_map, List.length_range']

section
variable {alpha : Nat} {φ : Nat → Nat} {f : Forest} {t : HuffTree} (h : Grown alpha φ f [t])
include h

theorem Grown.leaves_perm : t.leaves.Perm (List.range' 1 alpha) := by
  simpa using h.leaves

theorem Grown.leafDepths_perm : (leafDepths alpha f).Perm (t.depths 0) := by
  have ht := h.trees t (List.mem_singleton_self t)
  have hheight := t.height_lt_length_leaves
  rw [h.leaves_perm.length_eq, List.length_range'] at hheight
  rw [← map_depthOf_leaves (fuel := 2 * alpha) t 0 ht.linked (atDepth_root ht.top) (by omega)]
  exact (h.leaves_perm.map _).symm

/-- A tree over more than one leaf has no leaf at its root. -/
theorem Grown.one_le_of_mem (halpha : 2 ≤ alpha) {l : Nat} (hl : l ∈ leafDepths alpha f) : 1 ≤ l := by
  have hlen := h.leaves_perm.length_eq
  rw [List.length_range'] at hlen
  have hmem := h.leafDepths_perm.mem_iff.1 hl
  cases t with
  | leaf i =>
    rw [HuffTree.leaves, List.length_singleton] at hlen
    omega
  | node n a b =>
    rcases List.mem_append.1 hmem with hmem | hmem
    · exact (mem_depths hmem).1
    · exact (mem_depths hmem).1

theorem Grown.legalLengths (halpha : 2 ≤ alpha) (hheight : t.height ≤ 20) :
    LegalLengths alpha (leafDepths alpha f) where
  length := length_leafDepths alpha f
  range l hl := by
    have := mem_depths (h.leafDepths_perm.mem_iff.1 hl)
    exact ⟨h.one_le_of_mem halpha hl, by omega⟩
  kraft := by
    rw [(h.leafDepths_perm.map _).sum_eq]
    exact t.kraft_depths 0 20 (by omega)

/-- R226: the test for lengths that are too long is one for the height of the tree. -/
theorem Grown.height_le (hall : ((leafDepths alpha f).all fun l => l ≤ 20) = true) : t.height ≤ 20 := by
  have hmem := t.height_mem_depths 0
  rw [Nat.zero_add] at hmem
  exact of_decide_eq_true (List.all_eq_true.1 hall _ (h.leafDepths_perm.mem_iff.2 hmem))

theorem Grown.fib_le : Nat.fib (t.height + 2) ≤ totalFreq alpha φ := by
  have hsum := h.sum_freq
  rw [List.map_singleton, List.sum_singleton] at hsum
  exact hsum ▸ h.balanced.own t (List.mem_singleton_self t)

end

/-! ## The loop, R228 -/

theorem totalFreq_halve_le (alpha : Nat) (φ : Nat → Nat) :
    2 * totalFreq alpha (fun i => 1 + φ i / 2) ≤ 2 * alpha + totalFreq alpha φ := by
  suffices ∀ is : List Nat, 2 * (is.map fun i => 1 + φ i / 2).sum ≤ 2 * is.length + (is.map φ).sum by
    simpa [totalFreq] using this (List.range' 1 alpha)
  intro is
  induction is with
  | nil => exact le_rfl
  | cons i is ih =>
    rw [List.map_cons, List.sum_cons, List.map_cons, List.sum_cons, List.length_cons]
    omega

theorem le_totalFreq {alpha i : Nat} (φ : Nat → Nat) (hi : 1 ≤ i) (hi' : i ≤ alpha) : φ i ≤ totalFreq alpha φ :=
  List.single_le_sum (fun _ _ => Nat.zero_le _) _ (List.mem_map_of_mem (List.mem_range'_1.2 ⟨hi, by omega⟩))

theorem LeafWeights.halve {alpha : Nat} {φ : Nat → Nat} {weights : List Word32} (h : LeafWeights alpha φ weights)
    (_ : totalFreq alpha φ ≤ 900259) :
    LeafWeights alpha (fun i => 1 + φ i / 2) (halveLeaves alpha weights) where
  length := by rw [halveLeaves, List.length_map, List.length_zipIdx, h.length]
  leaf i hi hi' := by
    have hlen : i < weights.length := by rw [h.length]; omega
    have hleaf := h.leaf i hi hi'
    have hfreq := le_totalFreq φ hi hi'
    rw [List.getD_eq_getElem _ _ hlen] at hleaf
    rw [halveLeaves, List.getD_eq_getElem _ _ (by simpa using hlen), List.getElem_map, List.getElem_zipIdx, Nat.zero_add,
      if_pos ⟨hi, hi'⟩, toNat_halveWeight hleaf (by omega)]

/-- R228: the loop ends, and with legal lengths. -/
theorem lengthLoop_legal {alpha : Nat} (h2 : 2 ≤ alpha) (h258 : alpha ≤ 258) (fuel : Nat) {φ : Nat → Nat}
    {weights : List Word32} (hw : LeafWeights alpha φ weights) (hpos : ∀ i, 1 ≤ φ i)
    (htotal : totalFreq alpha φ ≤ 900259) (hfuel : totalFreq alpha φ ≤ 516 + 2 ^ fuel) :
    LegalLengths alpha (lengthLoop alpha 20 fuel weights).1 := by
  induction fuel generalizing φ weights with
  | zero =>
    obtain ⟨t, ht⟩ := buildTree_grown hw hpos (by omega) htotal
    exact ht.legalLengths h2 (height_le_of_fib_le ht.fib_le (by omega))
  | succ fuel ih =>
    obtain ⟨t, ht⟩ := buildTree_grown hw hpos (by omega) htotal
    rw [lengthLoop]
    split
    case isTrue hall => exact ht.legalLengths h2 (ht.height_le hall)
    case isFalse =>
      have hhalf := totalFreq_halve_le alpha φ
      rw [Nat.pow_succ] at hfuel
      exact ih (ht.weights.halve htotal) (fun i => Nat.le_add_right 1 _) (by omega) (by omega)

theorem length_lengthLoop (alpha maxLen fuel : Nat) (weights : List Word32) :
    (lengthLoop alpha maxLen fuel weights).1.length = alpha := by
  induction fuel generalizing weights with
  | zero => exact length_leafDepths _ _
  | succ fuel ih =>
    rw [lengthLoop]
    split
    · exact length_leafDepths _ _
    · exact ih _

/-! ## `HUF.MKLEN` -/

/-- R226: a zero frequency counts as 1. -/
def countedFreq (freq : List Nat) (i : Nat) : Nat := if freq.getD (i - 1) 0 = 0 then 1 else freq.getD (i - 1) 0

theorem totalFreq_countedFreq_le (freq : List Nat) : totalFreq freq.length (countedFreq freq) ≤ freq.length + freq.sum := by
  have hshift : (List.range' 1 freq.length).map (countedFreq freq) = freq.map fun n => if n = 0 then 1 else n := by
    refine List.ext_getElem (by simp) fun k hk hk' => ?_
    have hk : k < freq.length := by simpa using hk
    rw [List.getElem_map, List.getElem_map, List.getElem_range', countedFreq, Nat.one_mul, Nat.add_sub_cancel_left,
      List.getD_eq_getElem _ _ hk]
  rw [totalFreq, hshift]
  clear hshift
  induction freq with
  | nil => exact le_rfl
  | cons n ns ih =>
    rw [List.map_cons, List.sum_cons, List.sum_cons, List.length_cons]
    split <;> omega

theorem leafWeights_initial {freq : List Nat} (h : ∀ n ∈ freq, n < 2 ^ 24) :
    LeafWeights freq.length (countedFreq freq)
      (0#32 :: (freq.map leafWeight ++ List.replicate freq.length 0#32)) where
  length := by
    rw [List.length_cons, List.length_append, List.length_map, List.length_replicate, Nat.two_mul]
  leaf i hi hi' := by
    obtain ⟨k, rfl⟩ := Nat.exists_eq_add_of_le' hi
    have hk : k < (freq.map leafWeight).length := by rwa [List.length_map]
    rw [List.getD_cons_succ, List.getD_append _ _ _ _ hk, List.getD_eq_getElem _ _ hk, List.getElem_map,
      toNat_leafWeight (h _ (List.getElem_mem _)), countedFreq, Nat.add_sub_cancel,
      List.getD_eq_getElem _ _ (by rwa [List.length_map] at hk)]

theorem length_makeLengths (maxLen : Nat) (freq : List Nat) : (makeLengths maxLen freq).1.length = freq.length :=
  length_lengthLoop _ _ _ _

/-- Settles O42: the loop of R228 on the first weights of the frequencies. -/
theorem codeLengthsLegal : Obligations.CodeLengthsLegal := by
  intro freq h3 h258 hsum
  have hle : ∀ n ∈ freq, n < 2 ^ 24 := fun n hn => by
    have := List.single_le_sum (fun _ _ => Nat.zero_le _) n hn
    omega
  have hpos : ∀ i, 1 ≤ countedFreq freq i := fun i => by
    rw [countedFreq]
    split <;> omega
  have htotal := totalFreq_countedFreq_le freq
  have hlegal := lengthLoop_legal (by omega) h258 32 (leafWeights_initial hle) hpos (by omega) (by omega)
  exact ⟨hlegal.length, hlegal.range, hlegal.kraft⟩

theorem hufMklen_of {s : State} {n : Nat} {freq : List (BitVec 20)} (hn : n < 6) (halpha : s.alphaSize.toNat ≤ 258)
    (hread : s.rfreq.readRange (258 * n) s.alphaSize.toNat = some freq) :
    ∃ t, hufMklen n s = .done t ∧
      t = { s with lens := t.lens, heap := t.heap, weight := t.weight, parent := t.parent } ∧
      t.lens = s.lens.writeRow n ((makeLengths 20 (natsOf freq)).1.map (BitVec.ofNat 5)) :=
  ⟨_, (inRange_of (decide_eq_true hn) _).trans <| (inRange_of (decide_eq_true halpha) _).trans <| by
    rw [Store.readRow_eq, hread, readOr_some], rfl, rfl⟩

/-- Settles O41: one length per frequency is written to the row. -/
theorem hufMklenOperation : Obligations.HufMklenOperation := by
  intro n s freq hf hn halpha hread
  obtain ⟨t, hdone, hframe, hlens⟩ := hufMklen_of hn halpha hread
  have hlen : (makeLengths 20 (natsOf freq)).1.length = s.alphaSize.toNat := by
    rw [length_makeLengths, natsOf, List.length_map, Store.length_of_readRange hread]
  refine ⟨t, _, unlessFatal_of_done hf hdone, hframe, rfl, hlen, fun a => ?_⟩
  rw [hlens, Store.read_writeRow, hlen]

end Sys2Proof.Machine
end

section
/-! PROOF. O48, O49 and O50: the bits of the in-use map (R250), the operations of the selectors and the symbols (R252, R254)
and the bits of the code lengths (R253). -/

namespace Sys2Proof.Machine

/-! ## The stream of recorded operations -/

@[simp] theorem streamOf_nil : streamOf [] = [] := rfl

@[simp] theorem streamOf_cons (op : BitOp) (ops : List BitOp) : streamOf (op :: ops) = op.stream ++ streamOf ops := rfl

@[simp] theorem streamOf_append (ops ops' : List BitOp) : streamOf (ops ++ ops') = streamOf ops ++ streamOf ops' := by
  rw [streamOf, List.map_append, List.flatten_append, streamOf, streamOf]

theorem streamOf_flatten (opss : List (List BitOp)) : streamOf opss.flatten = (opss.map streamOf).flatten := by
  induction opss with
  | nil => rfl
  | cons ops opss ih => rw [List.flatten_cons, streamOf_append, ih, List.map_cons, List.flatten_cons]

theorem streamOf_replicate (n : Nat) (op : BitOp) :
    streamOf (List.replicate n op) = (List.replicate n op.stream).flatten := by
  rw [streamOf, List.map_replicate]

/-! ## `EMIT.INUSE` -/

theorem word16_append (bs : List Bool) (b : Bool) : word16 (bs ++ [b]) = Nat.bit b (word16 bs) := by
  rw [word16, List.foldl_append, Nat.bit_val]
  cases b <;> rfl

theorem bitsOf_ofNat_bit {w n : Nat} (h : n < w) (b : Bool) (m : Nat) :
    bitsOf (n + 1) (BitVec.ofNat w (Nat.bit b m)) = bitsOf n (BitVec.ofNat w m) ++ [b] := by
  rw [bitsOf, List.range_succ, List.map_append]
  congr 1
  · refine List.map_congr_left fun k hk => ?_
    have hk : k < n := List.mem_range.1 hk
    rw [show n + 1 - 1 - k = n - 1 - k + 1 by omega, BitVec.getLsbD_ofNat, BitVec.getLsbD_ofNat, Nat.testBit_bit_succ,
      decide_eq_true (by omega), decide_eq_true (by omega)]
  · rw [List.map_singleton, Nat.add_sub_cancel, Nat.sub_self, BitVec.getLsbD_ofNat, Nat.testBit_bit_zero,
      decide_eq_true (by omega), Bool.true_and]

/-- R250: the bits of the word are the flags in their order. -/
theorem bitsOf_word16 {w : Nat} (bs : List Bool) (h : bs.length ≤ w) :
    bitsOf bs.length (BitVec.ofNat w (word16 bs)) = bs := by
  induction bs using List.reverseRecOn with
  | nil => rfl
  | append_singleton bs b ih =>
    rw [List.length_append, List.length_singleton] at h ⊢
    rw [word16_append, bitsOf_ofNat_bit h, ih (by omega)]

theorem stream_bits_word16 {bs : List Bool} (h : bs.length = 16) :
    (BitOp.bits 16#8 (BitVec.ofNat 32 (word16 bs))).stream = bs :=
  (congrArg (bitsOf · _) h.symm).trans (bitsOf_word16 bs (by omega))

theorem inUseGroup_eq_map {used : List Bool} {i : Nat} (h : 16 * i + 16 ≤ used.length) :
    inUseGroup used i = (List.range 16).map fun j => used.getD (16 * i + j) false := by
  refine List.ext_getElem ?_ fun j hj hj' => ?_
  · rw [inUseGroup, List.length_take, List.length_drop, List.length_map, List.length_range]
    omega
  · have hj : j < 16 := by simpa using hj'
    rw [List.getElem_map, List.getElem_range, List.getD_eq_getElem _ _ (by omega)]
    simp only [inUseGroup, List.getElem_take, List.getElem_drop]

theorem streamOf_inUseOps {used : List Bool} (h : used.length = 256) :
    streamOf (inUseOps used) = ((List.range 16).map fun i => (inUseGroup used i).any id) ++
      (((List.range 16).filter fun i => (inUseGroup used i).any id).map (inUseGroup used)).flatten := by
  have hgroup : ∀ i < 16, (inUseGroup used i).length = 16 := fun i hi => by
    rw [inUseGroup_eq_map (by omega), List.length_map, List.length_range]
  rw [inUseOps, streamOf_cons, stream_bits_word16 (by rw [List.length_map, List.length_range]), streamOf, List.map_map]
  refine congrArg (_ ++ List.flatten ·) (List.map_congr_left fun i hi => ?_)
  exact stream_bits_word16 (hgroup i (List.mem_range.1 (List.mem_filter.1 hi).1))

theorem exists_bits16_of_mem_inUseOps {used : List Bool} {op : BitOp} (h : op ∈ inUseOps used) :
    ∃ v, op = .bits 16#8 v := by
  rcases List.mem_cons.1 h with rfl | h
  · exact ⟨_, rfl⟩
  · obtain ⟨i, -, rfl⟩ := List.mem_map.1 h
    exact ⟨_, rfl⟩

theorem emitInuse_of {s : State} {bits : List (BitVec 1)} (hread : s.inUse.readRange 0 256 = some bits) :
    emitInuse s = .done (s.emit (inUseOps (bits.map fun b => b == 1#1))) := by
  rw [emitInuse, hread, readOr_some]

/-- Settles O48: the group word and the words of the active groups, read back bit by bit. -/
theorem emitInuseOperation : Obligations.EmitInuseOperation := by
  intro s bits hf hread
  have hlen : (bits.map fun b => b == 1#1).length = 256 := by rw [List.length_map, Store.length_of_readRange hread]
  have hgroup : ∀ i ∈ List.range 16, inUseGroup (bits.map fun b => b == 1#1) i =
      (List.range 16).map fun j => bits.getD (16 * i + j) 0#1 == 1#1 := fun i hi => by
    have hi : i < 16 := List.mem_range.1 hi
    rw [inUseGroup_eq_map (by omega)]
    exact List.map_congr_left fun j _ => List.getD_map bits 0#1 (n := 16 * i + j) fun b => b == 1#1
  refine ⟨_, unlessFatal_of_done hf (emitInuse_of hread), fun op => exists_bits16_of_mem_inUseOps, ?_⟩
  rw [streamOf_inUseOps hlen, List.map_congr_left fun i hi => congrArg (List.any · id) (hgroup i hi),
    List.filter_congr fun i hi => congrArg (List.any · id) (hgroup i hi),
    List.map_congr_left fun i hi => hgroup i (List.mem_filter.1 hi).1]

/-! ## `EMIT.SELECTORS` and `EMIT.SYMBOLS` -/

theorem emitSelectors_of {s : State} {js : List (BitVec 3)} (hn : s.nSelectors.toNat ≤ 18002)
    (hread : s.selectorMtf.readRange 0 s.nSelectors.toNat = some js) :
    emitSelectors s = .done (s.emit (js.map fun j => .unary (j.setWidth 32))) :=
  (inRange_of (decide_eq_true hn) _).trans <| by rw [hread, readOr_some]

theorem symbolOp_of {s : State} {t v : Nat} {l : BitVec 5} {c : BitVec 20} (ht : t < 6) (hv : v < 258)
    (hl : s.lens.read (258 * t + v) = some l) (hc : s.code.read (258 * t + v) = some c) :
    symbolOp s t v = some (.bits (l.setWidth 8) (c.setWidth 32)) := by
  rw [symbolOp, if_pos ⟨ht, hv⟩, tableIndex, Config.alphaMax, hl, hc]

/-- R254: the operation of every symbol, when each has one under the table of its group of 50. -/
theorem symbolOps_eq_some {s : State} {sels syms : List Nat} {op : Nat → BitOp}
    (h : ∀ k (hk : k < syms.length), symbolOp s (sels.getD (k / 50) 0) syms[k] = some (op k)) :
    symbolOps s sels syms = some ((List.range syms.length).map op) := by
  refine readAll_eq_some.2 (List.ext_getElem (by simp) fun k hk hk' => ?_)
  simpa [Config.gSize] using h k (by simpa using hk)

theorem emitSymbols_of {s : State} {syms : List (BitVec 9)} {sels : List (BitVec 3)} {ops : List BitOp}
    (hfit : s.nMTF.toNat ≤ s.cap.toNat + 1) (hcap : s.cap.toNat ≤ 900000)
    (hsyms : s.szptr.readRange 0 s.nMTF.toNat = some syms)
    (hsels : s.selector.readRange 0 ((s.nMTF.toNat + 49) / 50) = some sels)
    (hops : symbolOps s (natsOf sels) (natsOf syms) = some ops) :
    emitSymbols s = .done { s.emit ops with phase := .compressed } := by
  have hlen : (natsOf syms).length = s.nMTF.toNat := (List.length_map _).trans (Store.length_of_readRange hsyms)
  have hgroups : (s.nMTF.toNat + 49) / 50 ≤ 18002 := by omega
  rw [emitSymbols, withSymbols_of hfit hsyms, hlen]
  exact (inRange_of (decide_eq_true hgroups) _).trans <| by
    rw [Config.gSize, hsels, readOr_some, hops, readOr_some]

theorem getD_natsOf {w : Nat} (vs : List (BitVec w)) (k : Nat) : (natsOf vs).getD k 0 = (vs.getD k 0).toNat :=
  List.getD_map (f := BitVec.toNat) (d := 0#w) ..

/-- Settles O49: every symbol has its operation in the table that the selector of its group of 50 names. -/
theorem emitSelectorsAndSymbols : Obligations.EmitSelectorsAndSymbols := by
  refine ⟨fun s js hf hn hread => unlessFatal_of_done hf (emitSelectors_of hn hread), ?symbols⟩
  intro s syms sels len code hf hfit hcap hsyms hsels hsel6 hsym258 htables hwidth
  refine unlessFatal_of_done hf ?_
  have hlen := Store.length_of_readRange hsyms
  have hnsels := Store.length_of_readRange hsels
  rw [← List.length_map BitVec.toNat, ← natsOf]
  refine emitSymbols_of hfit hcap hsyms hsels (symbolOps_eq_some fun k hk => ?_)
  have hk : k < syms.length := by simpa [natsOf] using hk
  have hgroup : k / 50 < sels.length := by omega
  have hsel : sels.getD (k / 50) 0 ∈ sels := List.getD_eq_getElem sels 0 hgroup ▸ List.getElem_mem _
  have hsym : syms.getD k 0 ∈ syms := List.getD_eq_getElem syms 0 hk ▸ List.getElem_mem _
  obtain ⟨hl, hc⟩ := htables _ hsel _ hsym
  obtain ⟨hlenlt, hcodelt⟩ := hwidth (sels.getD (k / 50) 0).toNat (syms.getD k 0).toNat
  rw [← List.getD_eq_getElem _ 0, getD_natsOf, getD_natsOf,
    symbolOp_of (hsel6 _ hsel) (hsym258 _ hsym) hl hc, BitVec.setWidth_ofNat_of_le_of_lt (by omega) hlenlt,
    BitVec.setWidth_ofNat_of_le_of_lt (by omega) hcodelt]

/-! ## `EMIT.LENGTHS` -/

theorem streamOf_stepOps (cur target : Nat) :
    streamOf (stepOps cur target) = (List.replicate (target - cur) [true, false]).flatten ++
      (List.replicate (cur - target) [true, true]).flatten := by
  rw [stepOps]
  split
  case isTrue h =>
    rw [Nat.sub_eq_zero_of_le (Nat.le_of_lt h), streamOf_replicate, List.replicate_zero, List.flatten_nil, List.append_nil]
    rfl
  case isFalse h =>
    rw [Nat.sub_eq_zero_of_le (Nat.le_of_not_lt h), streamOf_replicate, List.replicate_zero, List.flatten_nil,
      List.nil_append]
    rfl

/-- R253: each symbol's bits lead from the length before it, which is `cur` for the first. -/
theorem streamOf_deltaOps (cur : Nat) (row : List Nat) :
    streamOf (deltaOps cur row) =
      ((List.range row.length).map fun v => deltaBits ((cur :: row).getD v 0) (row.getD v 0)).flatten := by
  induction row generalizing cur with
  | nil => rfl
  | cons l ls ih =>
    rw [deltaOps, streamOf_append, streamOf_cons, streamOf_stepOps, ih, List.length_cons, List.range_succ_eq_map,
      List.map_cons, List.map_map, List.flatten_cons, ← List.append_assoc]
    rfl

theorem legal_stepOps {cur target : Nat} {op : BitOp} (h : op ∈ stepOps cur target) : op.legal = true := by
  rw [stepOps] at h
  split at h <;> rw [List.eq_of_mem_replicate h] <;> rfl

theorem legal_deltaOps {cur : Nat} {row : List Nat} {op : BitOp} (h : op ∈ deltaOps cur row) : op.legal = true := by
  induction row generalizing cur with
  | nil => cases h
  | cons l ls ih =>
    rw [deltaOps, List.mem_append, List.mem_cons] at h
    rcases h with h | rfl | h
    · exact legal_stepOps h
    · rfl
    · exact ih h

theorem legal_lengthsOps {row : List Nat} {op : BitOp} (h : op ∈ lengthsOps row) : op.legal = true := by
  rcases List.mem_cons.1 h with rfl | h
  · rfl
  · exact legal_deltaOps h

theorem stream_bits5 (l : BitVec 5) :
    (BitOp.bits 5#8 (BitVec.ofNat 32 l.toNat)).stream = (List.range 5).map fun j => l.getLsbD (4 - j) := by
  change bitsOf 5 (BitVec.ofNat 32 l.toNat) = _
  rw [bitsOf]
  refine List.map_congr_left fun j _ => ?_
  rw [BitVec.getLsbD_ofNat, decide_eq_true (by omega), Bool.true_and, BitVec.testBit_toNat]

theorem streamOf_lengthsOps (row : List (BitVec 5)) :
    streamOf (lengthsOps (natsOf row)) =
      ((List.range 5).map fun j => (row.getD 0 0).getLsbD (4 - j)) ++
        ((List.range row.length).map fun v =>
          deltaBits (row.getD (v - 1) 0).toNat (row.getD v 0).toNat).flatten := by
  have hhead : (natsOf row).headD 0 = (row.getD 0 0).toNat := by cases row <;> rfl
  rw [lengthsOps, hhead, streamOf_cons, stream_bits5, streamOf_deltaOps, natsOf, List.length_map, ← natsOf]
  refine congrArg (_ ++ List.flatten ·) (List.map_congr_left fun v _ => ?_)
  cases v with
  | zero => rw [List.getD_cons_zero, getD_natsOf]
  | succ v => rw [List.getD_cons_succ, getD_natsOf, getD_natsOf, Nat.add_sub_cancel]

theorem emitLengths_of {s : State} {rows : List (List (BitVec 5))} (hgroups : s.nGroups.toNat ≤ 6)
    (halpha : s.alphaSize.toNat ≤ 258)
    (hrows : readRows s.lens s.nGroups.toNat s.alphaSize.toNat = some rows) (hne : [] ∉ rows) :
    emitLengths s = .done (s.emit ((rows.map natsOf).map lengthsOps).flatten) := by
  have hany : ¬ (rows.map natsOf).any List.isEmpty = true := by
    simpa [natsOf] using hne
  exact (withRows_of hgroups halpha hrows).trans (if_neg hany)

/-- Settles O50, table by table. -/
theorem emitLengthsOperation : Obligations.EmitLengthsOperation := by
  intro s rows hf hgroups hone halpha hlen hread
  have hne : [] ∉ rows := fun hmem => by
    obtain ⟨n, hn, hnil⟩ := List.mem_iff_getElem.1 hmem
    have hcount := Store.length_of_readRange (hread n (by omega))
    rw [List.getD_eq_getElem _ _ hn, hnil, List.length_nil] at hcount
    omega
  refine ⟨_, unlessFatal_of_done hf (emitLengths_of hgroups halpha (readRows_eq_some.2 ⟨hlen, hread⟩) hne),
    fun op hop => ?legal, ?stream⟩
  case legal =>
    obtain ⟨ops, hops, hop⟩ := List.mem_flatten.1 hop
    obtain ⟨row, -, rfl⟩ := List.mem_map.1 hops
    exact legal_lengthsOps hop
  case stream =>
    rw [streamOf_flatten, List.map_map, List.map_map]
    exact congrArg List.flatten (List.map_congr_left fun row _ => streamOf_lengthsOps row)

end Sys2Proof.Machine
end

section
/-! PROOF. O47: what `FRM.BLOCKHDR` (R270) and `EMIT.COUNTS` (R251) record, and that every operation COMPRESS records is a
legal one (R112, R138), so that `REPLAY` finds no illegal operation. -/

namespace Sys2Proof.Machine

/-- R270, R105, R117: the operations of the block header, with the halves of the magic as numbers. -/
theorem headerOps_eq (s : State) : headerOps s =
    [.bits 24#8 0x314159#32, .bits 24#8 0x265359#32, .bits 16#8 ((s.blockCrc.extractLsb' 16 16).setWidth 32),
      .bits 16#8 ((s.blockCrc.extractLsb' 0 16).setWidth 32), .bool s.randomised,
      .bits 24#8 (s.origPtr.setWidth 32)] := rfl

/-- Settles O47: both operations complete and only record. -/
theorem headerAndCounts : Obligations.HeaderAndCounts := by
  intro s hf
  refine ⟨unlessFatal_of_done hf ?header, unlessFatal_of_done hf rfl⟩
  case header => rw [frmBlockhdr, headerOps_eq, State.emit]

/-! ## The recorded operations are legal -/

/-- R138, R112: every recorded operation is legal. -/
def State.RecordsLegal (s : State) : Prop := ∀ op ∈ s.bopq, op.legal = true

theorem State.RecordsLegal.emit {s : State} {ops : List BitOp} (h : s.RecordsLegal) (hops : ∀ op ∈ ops, op.legal = true) :
    (s.emit ops).RecordsLegal :=
  fun op hop => (List.mem_append.1 hop).elim (h op) (hops op)

theorem legal_headerOps {s : State} {op : BitOp} (h : op ∈ headerOps s) : op.legal = true := by
  rw [headerOps_eq] at h
  fin_cases h <;> rfl

theorem legal_inUseOps {used : List Bool} {op : BitOp} (h : op ∈ inUseOps used) : op.legal = true := by
  obtain ⟨v, rfl⟩ := exists_bits16_of_mem_inUseOps h
  rfl

/-- R252: a position has 3 bits, so bit 31 of its value is clear. -/
theorem legal_unary_position (j : BitVec 3) : (BitOp.unary (j.setWidth 32)).legal = true := by
  simp [BitOp.legal, unaryLegal]

/-- R254: a length has 5 bits, so at most 31 bits are written. -/
theorem legal_bits_length (l : BitVec 5) (c : Word32) : (BitOp.bits (l.setWidth 8) c).legal = true := by
  have hl := l.isLt
  rw [BitOp.legal, bitsLegal_iff, BitVec.toNat_setWidth]
  omega

theorem legal_of_symbolOp {s : State} {t v : Nat} {op : BitOp} (h : symbolOp s t v = some op) : op.legal = true := by
  unfold symbolOp at h
  split at h
  case isFalse => cases h
  case isTrue =>
    split at h
    · obtain rfl := Option.some.inj h
      exact legal_bits_length _ _
    · cases h

theorem legal_symbolOps {s : State} {sels syms : List Nat} {ops : List BitOp} (h : symbolOps s sels syms = some ops)
    {op : BitOp} (hop : op ∈ ops) : op.legal = true := by
  have hmem : some op ∈ ops.map some := List.mem_map_of_mem hop
  rw [← readAll_eq_some.1 h] at hmem
  obtain ⟨x, -, hx⟩ := List.mem_map.1 hmem
  exact legal_of_symbolOp hx

/-! ## Operations that complete keep the recording legal -/

/-- An operation that completes leaves every recorded operation legal. -/
abbrev Res.KeepsLegal (r : Res) : Prop := r.Post State.RecordsLegal fun _ => True

theorem Res.KeepsLegal.andThen {r : Res} {k : State → Res} (h : r.KeepsLegal)
    (hk : ∀ t : State, t.RecordsLegal → (k t).KeepsLegal) : (r.andThen k).KeepsLegal :=
  Res.Post.andThen h hk

section
variable {s : State} (h : s.RecordsLegal)
include h

theorem phaseQueued_keepsLegal : (phaseQueued s).KeepsLegal := by
  unfold phaseQueued
  split
  · trivial
  · exact h

theorem bwtSort_keepsLegal (p : Params) : (bwtSort p s).KeepsLegal := by
  refine withBuffer_post fun bs _ _ => ?_
  dsimp only
  split
  · trivial
  · split <;> exact h

theorem bwtRandomise_keepsLegal : (bwtRandomise s).KeepsLegal := withBuffer_post fun _ _ _ => h

theorem bwtSortRetry_keepsLegal (p : Params) : (bwtSortRetry p s).KeepsLegal := by
  refine withBuffer_post fun bs _ _ => ?_
  dsimp only
  split
  · trivial
  · exact h

theorem sortBlock_keepsLegal (p : Params) : (sortBlock p s).KeepsLegal := by
  refine (bwtSort_keepsLegal h p).andThen fun t h => ?_
  split
  · exact (bwtRandomise_keepsLegal h).andThen fun _ h => bwtSortRetry_keepsLegal h p
  · exact h

theorem bwtOrigin_keepsLegal : (bwtOrigin s).KeepsLegal := by
  refine withZptr_post fun zs _ => ?_
  split
  · exact h
  · trivial

theorem mtfGen_keepsLegal : (mtfGen s).KeepsLegal := withBuffer_post fun _ _ _ => withZptr_post fun _ _ => h

theorem phaseHufInit_keepsLegal (p : Params) : (phaseHufInit p s).KeepsLegal := by
  refine Res.KeepsLegal.andThen (r := hufNgroups p s) h fun t h => Res.KeepsLegal.andThen ?_ fun _ h => h
  exact inRange_post fun _ => inRange_post fun _ => readOr_post fun _ _ => h

theorem hufIter_keepsLegal : (hufIter s).KeepsLegal := by
  refine withSymbols_post fun vs _ _ => withRows_post fun rows _ _ _ => ?_
  dsimp only
  split
  · trivial
  · split
    · trivial
    · exact inRange_post fun _ => h

theorem makeTables_keepsLegal (n t : Nat) : (makeTables n t s).KeepsLegal := by
  induction n generalizing t s with
  | zero => exact h
  | succ n ih =>
    refine Res.KeepsLegal.andThen ?_ fun _ h => ih h (t + 1)
    exact inRange_post fun _ => inRange_post fun _ => readOr_post fun _ _ => h

theorem State.RecordsLegal.nextPass : s.nextPass.RecordsLegal := by
  rw [State.nextPass_eq]
  split <;> exact h

theorem phaseHufIter_keepsLegal : (phaseHufIter s).KeepsLegal :=
  (hufIter_keepsLegal h).andThen fun _ h => (makeTables_keepsLegal h _ 0).andThen fun _ h => h.nextPass

theorem hufRangechk_keepsLegal : (hufRangechk s).KeepsLegal := by
  refine withRows_post fun rows _ _ _ => ?_
  split
  · exact h
  · trivial

theorem assignTables_keepsLegal (n t : Nat) : (assignTables n t s).KeepsLegal := by
  induction n generalizing t s with
  | zero => exact h
  | succ n ih =>
    refine Res.KeepsLegal.andThen ?_ fun _ h => ih h (t + 1)
    exact inRange_post fun _ => readOr_post fun _ _ => h

theorem phaseHufAssign_keepsLegal : (phaseHufAssign s).KeepsLegal :=
  (hufRangechk_keepsLegal h).andThen fun _ h => (assignTables_keepsLegal h _ 0).andThen fun _ h =>
    inRange_post fun _ => withSelectors_post fun _ _ _ => inRange_post fun _ => h

theorem emitInuse_keepsLegal : (emitInuse s).KeepsLegal :=
  readOr_post fun _ _ => h.emit fun _ => legal_inUseOps

theorem emitCounts_keepsLegal : (emitCounts s).KeepsLegal :=
  h.emit fun op hop => by fin_cases hop <;> rfl

theorem emitSelectors_keepsLegal : (emitSelectors s).KeepsLegal :=
  inRange_post fun _ => readOr_post fun _ _ => h.emit fun _ hop => by
    obtain ⟨j, -, rfl⟩ := List.mem_map.1 hop
    exact legal_unary_position j

theorem emitLengths_keepsLegal : (emitLengths s).KeepsLegal := by
  refine withRows_post fun rows _ _ _ => ?_
  split
  · trivial
  · refine h.emit fun op hop => ?_
    obtain ⟨ops, hops, hop⟩ := List.mem_flatten.1 hop
    obtain ⟨row, -, rfl⟩ := List.mem_map.1 hops
    exact legal_lengthsOps hop

theorem emitSymbols_keepsLegal : (emitSymbols s).KeepsLegal :=
  withSymbols_post fun _ _ _ => inRange_post fun _ => readOr_post fun _ _ => readOr_post fun _ hops =>
    h.emit fun _ => legal_symbolOps hops

/-- R270, R250 to R254: the header and the five parts of the payload. -/
theorem phaseEmit_keepsLegal : (phaseEmit s).KeepsLegal :=
  Res.KeepsLegal.andThen (r := frmBlockhdr s) (h.emit fun _ => legal_headerOps) fun _ h =>
    (emitInuse_keepsLegal h).andThen fun _ h => (emitCounts_keepsLegal h).andThen fun _ h =>
      (emitSelectors_keepsLegal h).andThen fun _ h => (emitLengths_keepsLegal h).andThen fun _ h =>
        emitSymbols_keepsLegal h

theorem passesAndEmit_keepsLegal (n : Nat) : (passesAndEmit n s).KeepsLegal := by
  induction n generalizing s with
  | zero => exact (phaseHufAssign_keepsLegal h).andThen fun _ h => phaseEmit_keepsLegal h
  | succ n ih => exact (phaseHufIter_keepsLegal h).andThen fun _ h => ih h

theorem compress_keepsLegal (p : Params) : (compress p s).KeepsLegal :=
  (phaseQueued_keepsLegal h).andThen fun _ h => (sortBlock_keepsLegal h p).andThen fun _ h =>
    (bwtOrigin_keepsLegal h).andThen fun _ h => (mtfGen_keepsLegal h).andThen fun _ h =>
      (phaseHufInit_keepsLegal h p).andThen fun _ h => passesAndEmit_keepsLegal h Config.nIters

end

end Sys2Proof.Machine
end

section
/-! PROOF. O59: from a state between commands no host command takes `DOUBLE_CLOSE`, `SINK_CLOSED`, `BAD_BITOP` or
`ORIGIN_NOT_FOUND` (R273, R112, R352, R311). The Block it closes is open and not empty, so the sort finds offset 0; the sink
is open, and what is recorded is legal. -/

namespace Sys2Proof.Machine

/-! ## A sorted Block has an origin, R311 -/

/-- R171, R178: the offsets of the Block are in `zptr`, and 0 is one of them. -/
def State.HasOrigin (s : State) : Prop :=
  s.len.toNat ≤ s.cap.toNat ∧ ∃ zs, s.zptr.readRange 0 s.len.toNat = some zs ∧ 0#20 ∈ zs

/-- R171: the sorted offsets of a buffer that is not empty. -/
theorem hasOrigin_of_sorted {s : State} {bs : List Byte} (p : Params) (hcap : s.len.toNat ≤ s.cap.toNat)
    (hlen : bs.length = s.len.toNat) (hne : s.len ≠ 0) (hz : s.zptr = Store.ofNats 20 (sortOffsets p bs)) :
    s.HasOrigin := by
  obtain ⟨zs, hperm, -, hread⟩ := sortOffsets_spec p bs
  have hpos : 0 < bs.length := by
    rw [hlen]
    exact Nat.pos_of_ne_zero fun h => hne (BitVec.eq_of_toNat_eq h)
  have hmem : 0 ∈ zs := hperm.mem_iff.2 (List.mem_range.2 hpos)
  rw [hlen, ← hz] at hread
  exact ⟨hcap, _, hread, List.mem_map_of_mem (f := BitVec.ofNat 20) hmem⟩

theorem bwtSort_hasOrigin (p : Params) {s : State} (hne : s.len ≠ 0) :
    (bwtSort p s).Post (fun t => t.phase = .randomise ∨ t.HasOrigin) fun _ => True := by
  refine withBuffer_post fun bs hcap hbs => ?_
  have hlen := Store.length_of_readRange hbs
  dsimp only
  split
  · trivial
  split
  · exact .inl rfl
  · exact .inr (hasOrigin_of_sorted p hcap hlen hne rfl)

theorem bwtSortRetry_hasOrigin (p : Params) {s : State} (hne : s.len ≠ 0) :
    (bwtSortRetry p s).Post State.HasOrigin fun _ => True := by
  refine withBuffer_post fun bs hcap hbs => ?_
  have hlen := Store.length_of_readRange hbs
  dsimp only
  split
  · trivial
  · exact hasOrigin_of_sorted p hcap hlen hne rfl

theorem sortBlock_hasOrigin (p : Params) {s : State} (hf : s.fatal = false) (hne : s.len ≠ 0) :
    (sortBlock p s).Post State.HasOrigin fun _ => True := by
  refine (((bwtSort_lane p s hf).and_done (bwtSort_hasOrigin p hne)).mono (fun _ h => h) fun _ _ => trivial).andThen ?_
  rintro t ⟨ht, horigin⟩
  split
  case isTrue =>
    refine (Res.Post.mono (bwtRandomise_lane t) (fun _ h => h) fun _ _ => trivial).andThen fun u hu => ?_
    exact bwtSortRetry_hasOrigin p (by rwa [hu.same.len, ht.same.len])
  case isFalse hphase => exact horigin.resolve_left hphase

/-- R178: with offset 0 among the offsets no fault is taken. -/
theorem bwtOrigin_lane_of_hasOrigin {s : State} (h : s.HasOrigin) : Lane [] s (bwtOrigin s) := by
  obtain ⟨hcap, zs, hz, hmem⟩ := h
  obtain ⟨i, hi⟩ := Option.isSome_iff_exists.1 (List.isSome_idxOf?.2 hmem)
  rw [bwtOrigin_of_found hcap hz hi]
  exact ⟨by constructor <;> rfl, rfl, rfl, rfl⟩

/-! ## `COMPRESS` on a Block that is not empty -/

theorem passesAndEmit_lane (n : Nat) (s : State) (hf : s.fatal = false) : Lane [0x03#8] s (passesAndEmit n s) := by
  induction n generalizing s with
  | zero => exact Lane.andThen (phaseHufAssign_lane s hf) fun t _ => (phaseEmit_lane t).mono (by simp)
  | succ n ih =>
    exact Lane.andThen ((phaseHufIter_lane s).mono (by simp)) fun t ht => ih t (ht.fatal.trans hf)

theorem fromOrigin_lane (p : Params) {s : State} (hf : s.fatal = false) (h : s.HasOrigin) :
    Lane [0x03#8] s (fromOrigin p s) := by
  refine Lane.andThen ((bwtOrigin_lane_of_hasOrigin h).mono (by simp)) fun t ht => ?_
  refine Lane.andThen ((mtfGen_lane t).mono (by simp)) fun u hu => ?_
  refine Lane.andThen ((phaseHufInit_lane p u).mono (by simp)) fun v hv => ?_
  exact passesAndEmit_lane _ v ((ht.trans (hu.trans hv)).fatal.trans hf)

/-- A lane operation, and one after it that relies on what the first leaves when it completes. -/
theorem Lane.andThen_of_post {cs : List (BitVec 8)} {s : State} {r : Res} {k : State → Res} {P : State → Prop}
    (h : Lane cs s r) (hp : r.Post P fun _ => True) (hk : ∀ t, LaneDone s t → P t → Lane cs t (k t)) :
    Lane cs s (r.andThen k) :=
  Res.Post.andThen (h.and_done hp) fun t ht =>
    Res.Post.mono (hk t ht.1 ht.2) (fun _ hu => ht.1.trans hu) fun _ hu => .of_done ht.1 hu

/-- R311: of the codes in `compress_lane` a Block that is not empty cannot take `ORIGIN_NOT_FOUND`. -/
theorem compress_lane_of_nonempty (p : Params) {s : State} (hf : s.fatal = false) (hne : s.len ≠ 0) :
    Lane [0x02#8, 0x03#8, 0x20#8] s (compress p s) := by
  rw [compress_eq]
  refine Lane.andThen ((phaseQueued_lane s hf).mono (by simp)) fun t ht => ?_
  have htf := ht.fatal.trans hf
  have htne : t.len ≠ 0 := by rwa [ht.same.len]
  refine ((sortBlock_lane p t htf).mono (by simp)).andThen_of_post (sortBlock_hasOrigin p htf htne) fun u hu horigin => ?_
  exact (fromOrigin_lane p (hu.fatal.trans htf) horigin).mono (by simp)

/-! ## What the commands leave -/

/-- The faults a host command can take: `SORT_STACK`, `CODELEN_RANGE`, `CONFIG`, `WORKER_FAIL` (R310). -/
def commandFaults : List (BitVec 8) := [0x02#8, 0x03#8, 0x10#8, 0x20#8]

/-- No fatal fault has been taken, and the sink of the open stream is open. -/
structure State.Streaming (s : State) : Prop where
  fatal : s.fatal = false
  stream : s.streamOpen = true
  sink : s.sink.closed = false
  level : 1 ≤ s.cfgLevel.toNat

/-- `BetweenCommands` without the invariant, where no fatal fault has been taken. -/
structure State.Awaiting (s : State) : Prop where
  fatal : s.fatal = false
  phase : s.phase = if s.streamOpen then .filling else .idle
  open_ : s.streamOpen = true → s.sink.closed = false ∧ s.closed = false ∧ s.bopq = []
  level : s.streamOpen = true → 1 ≤ s.cfgLevel.toNat

/-- `BetweenCommands` without the invariant, where a command has taken a fatal fault. -/
structure State.HaltedByCommand (s : State) : Prop where
  fatal : s.fatal = true
  level : s.streamOpen = true → 1 ≤ s.cfgLevel.toNat
  code : s.faultCode ∈ commandFaults

/-- What a command's operation leaves, completed or not. -/
abbrev Res.EndsCommand (r : Res) : Prop := r.Post State.Awaiting State.HaltedByCommand

theorem State.BetweenCommands.awaiting {s : State} (h : s.BetweenCommands) (hf : s.fatal = false) : s.Awaiting :=
  ⟨hf, h.phase hf, h.open_ hf, h.level⟩

theorem State.Awaiting.streaming {s : State} (h : s.Awaiting) (ho : s.streamOpen = true) : s.Streaming :=
  ⟨h.fatal, ho, (h.open_ ho).1, h.level ho⟩

theorem State.Awaiting.respond {s : State} (h : s.Awaiting) (rkind rcode : BitVec 8) : (s.respond rkind rcode).Awaiting :=
  { h with }

theorem State.BetweenCommands.respond {s : State} (h : s.BetweenCommands) (rkind rcode : BitVec 8) :
    (s.respond rkind rcode).BetweenCommands :=
  { h with inv := h.inv.respond rkind rcode }

theorem LaneDone.streaming {s t : State} (h : LaneDone s t) (hs : s.Streaming) : t.Streaming :=
  ⟨h.fatal.trans hs.fatal, h.same.streamOpen.trans hs.stream, by rw [h.same.sink, hs.sink],
    by rw [h.same.cfgLevel]; exact hs.level⟩

/-- R316: a fault of the lane leaves the configuration. -/
theorem LaneRaised.haltedByCommand {cs : List (BitVec 8)} {s t : State} (h : LaneRaised cs s t) (hs : s.Streaming)
    (hcs : ∀ c ∈ cs, c ∈ commandFaults) : t.HaltedByCommand :=
  ⟨h.fatal, fun _ => by rw [h.same.cfgLevel]; exact hs.level, hcs _ h.faultCode⟩

/-! ## Writes to the open sink -/

/-- R131: written bits leave the sink open. -/
theorem State.Streaming.putBits {s : State} (h : s.Streaming) (bs : List Bool) :
    ({ s with sink := s.sink.putBits bs } : State).Streaming :=
  { h with sink := (s.sink.appends_putBits bs).closed.trans h.sink }

theorem sinkWrite_streaming {s : State} (h : s.Streaming) {legal : Bool} (hl : legal = true) (bs : List Bool) :
    (sinkWrite legal bs s).Post State.Streaming State.HaltedByCommand := by
  rw [sinkWrite_legal h.sink hl]
  exact h.putBits bs

theorem applyOps_streaming {s : State} (h : s.Streaming) {ops : List BitOp} (hl : ∀ op ∈ ops, op.legal = true) :
    (applyOps ops s).Post State.Streaming State.HaltedByCommand := by
  rw [applyOps_eq_done h.sink hl]
  exact h.putBits _

/-- R291: what is recorded goes to the open sink. -/
theorem replay_streaming {s : State} (h : s.Streaming) (hlegal : s.RecordsLegal) :
    (replay s).Post State.Streaming State.HaltedByCommand := by
  unfold replay
  split
  · trivial
  · exact (applyOps_streaming h hlegal).andThen fun _ h => { h with }

/-- R289: the footer goes to the open sink. -/
theorem footer_notFatal {s : State} (h : s.Streaming) :
    (footer s).Post (fun t => t.fatal = false) State.HaltedByCommand :=
  (applyOps_streaming h (by decide)).andThen fun _ h => (sinkWrite_streaming h rfl _).andThen fun _ h =>
    (sinkWrite_streaming h rfl _).andThen fun _ h => h.fatal

/-! ## The Block that ends -/

/-- R156, R21: BLK.CLOSE on an open Block that has raw bytes leaves bytes in the buffer. -/
theorem blkClose_nonempty {s : State} (h : s.Live) (hs : s.Streaming) (hc : s.closed = false) (hr : s.rawCount ≠ 0) :
    (blkClose s).Post (fun t => t.Streaming ∧ t.len ≠ 0 ∧ t.bopq = s.bopq) fun _ => False := by
  obtain ⟨t, ht, hframe⟩ := flushRun_completes (s := { s with closed := true }) h.fits
  have hlive := blkClose_keepsInv h
  rw [blkClose, if_neg (by simp [hc]), ht, Res.andThen_done] at hlive ⊢
  have hlen : t.len ≠ 0 := fun h0 => by
    have hraw := hlive.raw.2 ⟨h0, by rw [hframe]⟩
    rw [hframe] at hraw
    exact hr hraw
  refine ⟨?_, hlen, by rw [hframe]⟩
  rw [hframe]
  exact { hs with }

/-- R156, R294, R291, for a Block with raw bytes in an open stream. -/
theorem emitBlock_streaming (p : Params) {s : State} (h : s.Live) (ha : s.Awaiting) (ho : s.streamOpen = true)
    (hr : s.rawCount ≠ 0) : (emitBlock p s).Post State.Streaming State.HaltedByCommand := by
  obtain ⟨-, hclosed, hempty⟩ := ha.open_ ho
  refine ((blkClose_nonempty h (ha.streaming ho) hclosed hr).mono (fun _ h => h) fun _ h => h.elim).andThen ?_
  rintro t ⟨ht, hne, hbopq⟩
  have hlegal : t.RecordsLegal := by simp [State.RecordsLegal, hbopq, hempty]
  have hcompress := (compress_lane_of_nonempty p ht.fatal hne).and_done (compress_keepsLegal hlegal p)
  refine (hcompress.mono (fun _ h => h) fun _ hu => hu.haltedByCommand ht (by decide)).andThen ?_
  rintro u ⟨hu, hlegal⟩
  exact replay_streaming (hu.streaming ht) hlegal

/-! ## The host commands -/

/-- R150: the new Block of an open stream. -/
theorem blkInit_endsCommand {s : State} (h : s.Streaming) : (blkInit s).EndsCommand := by
  unfold blkInit
  split
  · trivial
  · exact ⟨h.fatal, (if_pos h.stream).symm, fun _ => ⟨h.sink, rfl, rfl⟩, fun _ => h.level⟩

theorem one_le_clampLevel (requested : BitVec 8) : 1 ≤ (clampLevel requested).toNat := by
  unfold clampLevel Config.levelMax Config.levelMin
  rw [BitVec.toNat_ofNat, Nat.mod_eq_of_lt (by omega)]
  omega

/-- R286, R137: OPEN opens the sink and clamps the level. -/
theorem openRegisters_streaming {s : State} (hf : s.fatal = false) (owns : Bool) (level : BitVec 8) :
    (s.openRegisters owns level).Streaming :=
  ⟨hf, rfl, rfl, one_le_clampLevel level⟩

theorem openOp_endsCommand {s : State} (h : s.Awaiting) (owns : Bool) (level : BitVec 8) :
    (openOp owns level s).EndsCommand := by
  unfold openOp
  split
  case isTrue =>
    have hs := openRegisters_streaming h.fatal owns level
    generalize s.openRegisters owns level = u at hs ⊢
    exact (applyOps_streaming hs (headerBytes_legal _)).andThen fun _ h =>
      Res.Post.andThen (blkInit_endsCommand h) fun _ h => h.respond _ _
  case isFalse =>
    rw [raise_of_not_fatal h.fatal]
    exact ⟨rfl, h.level, (by decide : (0x10#8) ∈ commandFaults)⟩

theorem flushRun_awaiting {s : State} (h : s.Awaiting) : (flushRun s).EndsCommand := by
  refine (flushRun_post s).mono ?_ fun _ h => h.elim
  rintro t (⟨-, rfl⟩ | ⟨-, -, rfl⟩)
  · exact h
  · exact { h with }

/-- R151: a written byte changes the input stage only. -/
theorem blkWrite_awaiting {s : State} (h : s.Awaiting) (v : Byte) : (blkWrite v s).EndsCommand := by
  have hcount : (s.countRaw v).Awaiting := { h with }
  unfold blkWrite
  split
  · exact h
  split
  · exact Res.Post.andThen (flushRun_awaiting h) fun _ h => { h with }
  split
  · trivial
  split
  · exact { h with }
  split
  · split
    · exact flushRun_awaiting { hcount with }
    · exact { h with }
  · exact Res.Post.andThen (flushRun_awaiting hcount) fun _ h => { h with }

theorem wrbOp_endsCommand {s : State} (h : s.Awaiting) (v : Byte) : (wrbOp v s).EndsCommand :=
  Res.Post.andThen (blkWrite_awaiting h v) fun _ h => by
    split <;> exact h.respond _ _

theorem closeblkOp_endsCommand (p : Params) {s : State} (hl : s.Live) (h : s.Awaiting) (ho : s.streamOpen = true) :
    (closeblkOp p s).EndsCommand := by
  unfold closeblkOp
  split
  case isTrue => exact h.respond _ _
  case isFalse hr =>
    exact Res.Post.andThen (emitBlock_streaming p hl h ho hr) fun _ h =>
      Res.Post.andThen (blkInit_endsCommand h) fun _ h => h.respond _ _

theorem finishOp_endsCommand (p : Params) {s : State} (hl : s.Live) (h : s.Awaiting) (ho : s.streamOpen = true) :
    (finishOp p s).EndsCommand := by
  have hblock : (if s.rawCount = 0 then .done s else emitBlock p s : Res).Post State.Streaming State.HaltedByCommand := by
    split
    case isTrue => exact h.streaming ho
    case isFalse hr => exact emitBlock_streaming p hl h ho hr
  exact hblock.andThen fun _ h => (footer_notFatal h).andThen fun _ hf => ⟨hf, rfl, nofun, nofun⟩

/-! ## The answer of a command -/

/-- O59, for the state `t` a command leaves. -/
def EndsBetweenCommands (s t : State) : Prop :=
  t.BetweenCommands ∧ (s.fatal = false → t.fatal = true → t.faultCode ∈ commandFaults)

theorem endsBetweenCommands_respond {s : State} (h : s.BetweenCommands) (rkind rcode : BitVec 8) :
    EndsBetweenCommands s (s.respond rkind rcode) :=
  ⟨h.respond rkind rcode, fun hf ht => absurd ht (by simp [hf])⟩

theorem hostCommand_endsBetweenCommands {ok : Bool} {op : State → Res} {s t : State} (h : s.BetweenCommands)
    (hinv : t.Inv) (hop : s.Live → s.Awaiting → ok = true → (op s).EndsCommand) (e : hostCommand ok op s = .next t) :
    EndsBetweenCommands s t := by
  rcases hostCommand_eq_next.1 e with ⟨-, rfl⟩ | ⟨-, -, rfl⟩ | ⟨hf, hok, hend⟩
  · exact endsBetweenCommands_respond h _ _
  · exact endsBetweenCommands_respond h _ _
  have hop := hop (h.inv.live hf) (h.awaiting hf) hok
  rcases hend with hd | ⟨u, hr, rfl⟩
  case inl =>
    have ht := Res.Post.of_done hop hd
    exact ⟨⟨hinv, fun _ => ht.phase, fun _ => ht.open_, ht.level⟩, fun _ htf => absurd htf (by simp [ht.fatal])⟩
  case inr =>
    have hu := Res.Post.of_raised hop hr
    have hne : ¬ u.respondFatal.fatal = false := by simp [State.respondFatal, hu.fatal]
    exact ⟨⟨hinv, fun hf => absurd hf hne, fun hf => absurd hf hne, hu.level⟩, fun _ _ => hu.code⟩

theorem exec_endsBetweenCommands {i : Instr} {s t : State} (hi : isHostCommand i = true) (h : s.BetweenCommands)
    (e : exec i s = .next t) : EndsBetweenCommands s t := by
  have hinv := exec_inv h.inv e
  cases i with
  | openStream owns level => exact hostCommand_endsBetweenCommands h hinv (fun _ ha _ => openOp_endsCommand ha owns level) e
  | wrb v => exact hostCommand_endsBetweenCommands h hinv (fun _ ha _ => wrbOp_endsCommand ha v) e
  | closeblk => exact hostCommand_endsBetweenCommands h hinv (closeblkOp_endsCommand _) e
  | finish => exact hostCommand_endsBetweenCommands h hinv (finishOp_endsCommand _) e
  | seek | read | setlen | hcReserved0 | hcReserved8F =>
    obtain rfl := Host.Outcome.next.inj e
    exact endsBetweenCommands_respond h _ _
  | _ => cases hi

/-- Settles O59, by the outcome of each command's operation: the four codes are not among those a command can latch. -/
theorem commandsTakeNoHarnessFault : Obligations.CommandsTakeNoHarnessFault := by
  intro i s t hi h e
  obtain ⟨hbetween, hcode⟩ := exec_endsBetweenCommands hi h e
  have hother : ∀ c ∈ commandFaults, c ≠ 0x01#8 ∧ c ≠ 0x04#8 ∧ c ≠ 0x40#8 ∧ c ≠ 0x41#8 := by decide
  exact ⟨hbetween, fun hf ht => hother _ (hcode hf ht)⟩

end Sys2Proof.Machine
end

section
/-! PROOF. Ranges of a table in canonical form, read element by element (R37 to R39), for the operations that read whole
rows. -/

namespace Sys2Proof

/-- An element of a table in canonical form, read as a range. -/
theorem Store.readRange_one {w : Nat} {m : Store w} (hm : m.wf) {i : Nat} {v : BitVec w} (h : m.read i = some v) :
    m.readRange i 1 = some [v] := by
  have hbetween : m.between i 1 = [(i, v)] := by
    unfold Store.between
    induction m with
    | nil => cases h
    | cons c m ih =>
      have hlater : ∀ d ∈ m, c.1 < d.1 := fun d hd =>
        List.rel_of_pairwise_cons hm (List.mem_map_of_mem (f := Prod.fst) hd)
      by_cases hc : c.1 = i
      · have hv : c.2 = v := Option.some.inj ((if_pos hc).symm.trans h)
        rw [List.filter_cons_of_pos (by simp; omega), List.filter_eq_nil_iff.2, ← hc, ← hv]
        intro d hd
        have := hlater d hd
        simp; omega
      · rw [List.filter_cons_of_neg (by simp; omega)]
        exact ih (List.Pairwise.of_cons hm) ((if_neg hc).symm.trans h)
  rw [Store.readRange, hbetween, List.range'_one]
  exact if_pos rfl

/-- Elements of a table in canonical form, read as a range. -/
theorem Store.readRange_of_read {w : Nat} {m : Store w} (hm : m.wf) {i : Nat} {vs : List (BitVec w)}
    (h : ∀ k (hk : k < vs.length), m.read (i + k) = some vs[k]) : m.readRange i vs.length = some vs := by
  induction vs using List.reverseRecOn with
  | nil => exact Store.readRange_zero m i
  | append_singleton vs v ih =>
    have hinit : m.readRange i vs.length = some vs := ih fun k hk => by
      rw [h k (by simp; omega), List.getElem_append_left hk]
    have hlast : m.readRange (i + vs.length) 1 = some [v] := Store.readRange_one hm (by
      rw [h vs.length (by simp), List.getElem_append_right (le_refl _)]
      simp)
    rw [List.length_append, List.length_singleton]
    exact Store.readRange_add hm hinit hlast

/-- A row of a table whose rows have been regenerated. -/
theorem Store.readRange_ofRows (w : Nat) {rows : List (List Nat)} (h : ∀ r ∈ rows, r.length ≤ 258) {t : Nat}
    (ht : t < rows.length) :
    (Store.ofRows w rows).readRange (258 * t) rows[t].length = some (rows[t].map (BitVec.ofNat w)) := by
  rw [← List.length_map (BitVec.ofNat w)]
  refine Store.readRange_of_read (Store.wf_ofRows w rows h) fun k hk => ?_
  have hk : k < rows[t].length := by simpa using hk
  have hrow : rows.getD t [] = rows[t] := List.getD_eq_getElem _ _ ht
  rw [Store.read_ofRows w h ht (by rwa [hrow]), hrow, List.getD_eq_getElem _ _ hk, List.getElem_map]

end Sys2Proof
end

section
/-! PROOF. The coding phases complete on the symbols of a Block (R220 to R231, R250 to R255): each leaves the elements
that the next one reads. -/

namespace Sys2Proof.Machine

/-! ## What the coding phases read -/

/-- What `FRM.BLOCKHDR` reads (R270), with the sorted Block it speaks of and the operations recorded so far. -/
structure SameHeader (s t : State) : Prop where
  b : t.b = s.b
  zptr : t.zptr = s.zptr
  origPtr : t.origPtr = s.origPtr
  randomised : t.randomised = s.randomised
  blockCrc : t.blockCrc = s.blockCrc
  bopq : t.bopq = s.bopq

theorem SameHeader.trans {s t u : State} (h : SameHeader s t) (h' : SameHeader t u) : SameHeader s u :=
  ⟨h'.b.trans h.b, h'.zptr.trans h.zptr, h'.origPtr.trans h.origPtr, h'.randomised.trans h.randomised,
    h'.blockCrc.trans h.blockCrc, h'.bopq.trans h.bopq⟩

theorem SameHeader.headerOps_eq {s t : State} (h : SameHeader s t) : headerOps t = headerOps s := by
  rw [headerOps, headerOps, h.blockCrc, h.randomised, h.origPtr]

/-- R220, R232: the symbols of a Block and the alphabet they are from, with 1 to 6 tables to code them. -/
structure State.Codable (s : State) : Prop where
  fits : s.nMTF.toNat ≤ s.cap.toNat + 1
  cap : s.cap.toNat ≤ 900000
  oneGroup : 1 ≤ s.nGroups.toNat
  groups : s.nGroups.toNat ≤ 6
  alphaMin : 3 ≤ s.alphaSize.toNat
  alphaMax : s.alphaSize.toNat ≤ 258
  symbols : ∃ syms, s.szptr.readRange 0 s.nMTF.toNat = some syms ∧ ∀ v ∈ syms, v.toNat < s.alphaSize.toNat
  inUse : ∃ bits, s.inUse.readRange 0 256 = some bits

/-- Row `n` of the code lengths holds a length for every symbol, each with the property `P`. -/
def State.LensRow (s : State) (P : BitVec 5 → Prop) (n : Nat) : Prop :=
  ∃ row, s.lens.readRange (258 * n) s.alphaSize.toNat = some row ∧ ∀ l ∈ row, P l

/-- R229: a length that the range check passes. -/
def InLengthRange (l : BitVec 5) : Prop := 1 ≤ l.toNat ∧ l.toNat ≤ 20

/-- R222: what a pass of `HUF_ITER` begins with. -/
structure State.HasLengths (s : State) : Prop extends s.Codable where
  lens : ∀ n, n < s.nGroups.toNat → s.LensRow (fun _ => True) n

/-- R224, R225: what the assignment part of a pass leaves. -/
structure State.Assigned (s : State) : Prop extends s.Codable where
  nSelectors : s.nSelectors.toNat = (s.nMTF.toNat + 49) / 50
  selectors : ∃ sels, s.selector.readRange 0 s.nSelectors.toNat = some sels ∧ ∀ n ∈ sels, n.toNat < s.nGroups.toNat
  freqs : ∀ n, n < s.nGroups.toNat →
    ∃ freq, s.rfreq.readRange (258 * n) s.alphaSize.toNat = some freq ∧ (natsOf freq).sum ≤ 900001

/-- R226 to R228: what a pass leaves. -/
structure State.Refined (s : State) : Prop extends s.Assigned where
  legal : ∀ n, n < s.nGroups.toNat → s.LensRow InLengthRange n

/-- R230, R231: what the emission begins with. -/
structure State.Emittable (s : State) : Prop extends s.Refined where
  codes : ∀ n, n < s.nGroups.toNat → ∀ v, v < s.alphaSize.toNat → ∃ c, s.code.read (258 * n + v) = some c
  positions : ∃ js, s.selectorMtf.readRange 0 s.nSelectors.toNat = some js

theorem State.LensRow.mono {s : State} {P Q : BitVec 5 → Prop} {n : Nat} (h : s.LensRow P n) (hpq : ∀ l, P l → Q l) :
    s.LensRow Q n :=
  h.imp fun _ hrow => ⟨hrow.1, fun l hl => hpq l (hrow.2 l hl)⟩

theorem State.Refined.hasLengths {s : State} (h : s.Refined) : s.HasLengths :=
  ⟨h.toCodable, fun n hn => (h.legal n hn).mono fun _ _ => trivial⟩

/-- The rows of the code lengths as one list. -/
theorem exists_lens_rows {s : State} {P : BitVec 5 → Prop} (h : ∀ n, n < s.nGroups.toNat → s.LensRow P n) :
    ∃ rows : List (List (BitVec 5)), rows.length = s.nGroups.toNat ∧
      (∀ n, n < s.nGroups.toNat → s.lens.readRange (258 * n) s.alphaSize.toNat = some (rows.getD n [])) ∧
      ∀ row ∈ rows, ∀ l ∈ row, P l := by
  refine ⟨(List.range s.nGroups.toNat).map fun n => (s.lens.readRange (258 * n) s.alphaSize.toNat).getD [],
    by simp, fun n hn => ?_, fun row hrow => ?_⟩
  · obtain ⟨row, hread, -⟩ := h n hn
    simp [List.getD_eq_getElem?_getD, hn, hread]
  · obtain ⟨n, hn, rfl⟩ := List.mem_map.1 hrow
    obtain ⟨row, hread, hrow⟩ := h n (List.mem_range.1 hn)
    rwa [hread]

/-! ## `HUF_INIT` -/

theorem length_initRanges (freq : List Nat) (nGroups n : Nat) (remF : Int) (gs : Nat) :
    (initRanges freq nGroups n remF gs).length = n := by
  induction n generalizing remF gs with
  | zero => rfl
  | succ n ih => rw [initRanges, List.length_append, ih, List.length_singleton]

theorem length_initLens (freq : List Nat) (nGroups nMTF : Nat) : (initLens freq nGroups nMTF).length = nGroups := by
  rw [initLens, List.length_map, length_initRanges]

/-- R222: the rows of the initial tables hold a pseudo-length for each symbol. -/
theorem readRange_initLens {freq : List Nat} (halpha : freq.length ≤ 258) {nGroups n : Nat} (hn : n < nGroups)
    (nMTF : Nat) :
    ∃ row, (Store.ofRows 5 (initLens freq nGroups nMTF)).readRange (258 * n) freq.length = some row := by
  have hlt : n < (initLens freq nGroups nMTF).length := by rwa [length_initLens]
  have hread := Store.readRange_ofRows 5 (fun row h => (length_of_mem_initLens h).trans_le halpha) hlt
  rw [length_of_mem_initLens (List.getElem_mem hlt)] at hread
  exact ⟨_, hread⟩

/-! ## One pass of `HUF_ITER` -/

theorem sum_tally (n : Nat) (syms : List Nat) : (tally n syms).sum = syms.countP (· < n) := by
  induction n with
  | zero => simp [tally]
  | succ n ih =>
    have hsplit : syms.countP (· < n + 1) = syms.countP (· < n) + syms.count n := by
      clear ih
      induction syms with
      | nil => rfl
      | cons v vs ih => simp only [List.countP_cons, List.count_cons, ih]; grind
    rw [tally, List.range_succ, List.map_append, List.sum_append, ← tally, ih, hsplit, List.map_singleton,
      List.sum_singleton]

theorem length_flatten_groupsOf_le (fuel : Nat) (syms : List Nat) :
    (groupsOf fuel syms).flatten.length ≤ syms.length := by
  induction fuel generalizing syms with
  | zero => exact Nat.zero_le _
  | succ fuel ih =>
    rw [groupsOf]
    split
    · exact Nat.zero_le _
    · have hrest := ih (syms.drop Config.gSize)
      rw [List.length_drop] at hrest
      rw [List.flatten_cons, List.length_append, List.length_take]
      omega

/-- R225: no more symbols are counted for a table than there are. -/
theorem sum_tableFreqs_le (alpha : Nat) {syms sels : List Nat} (h : (symbolGroups syms).length ≤ sels.length)
    (n : Nat) :
    (tableFreqs alpha (symbolGroups syms) sels n).sum ≤ syms.length := by
  have hsub : ((((symbolGroups syms).zip sels).filter (fun p => p.2 = n)).map Prod.fst).Sublist
      (symbolGroups syms) := by
    have hsub := List.filter_sublist (p := fun p => p.2 = n) (l := (symbolGroups syms).zip sels) |>.map Prod.fst
    rwa [List.map_fst_zip h] at hsub
  rw [tableFreqs, sum_tally]
  exact List.countP_le_length.trans (hsub.flatten.length_le.trans (length_flatten_groupsOf_le _ _))

theorem selectTables_length (rows groups : List (List Nat)) : (selectTables rows groups).length = groups.length :=
  List.length_map _

/-- R224: the table of a group is one of the tables. -/
theorem selectTables_lt {rows : List (List Nat)} (h : 1 ≤ rows.length) {groups : List (List Nat)} :
    ∀ n ∈ selectTables rows groups, n < rows.length := by
  intro n hn
  obtain ⟨g, -, rfl⟩ := List.mem_map.1 hn
  have hlen : (groupCosts rows g).length = rows.length := List.length_map _
  exact (leastIndex_spec (List.length_pos_iff.1 (by omega))).1.trans_eq hlen

/-- R225: the frequencies of a table, read as a row. -/
theorem assigned_rfreq_row {s : State} (halpha : s.alphaSize.toNat ≤ 258) {rows : List (List Nat)} {syms : List Nat}
    (hsyms : syms.length ≤ 900001) {n : Nat} (hn : n < s.nGroups.toNat) :
    ∃ freq, (s.assigned rows syms).rfreq.readRange (258 * n) s.alphaSize.toNat = some freq ∧
      (natsOf freq).sum ≤ 900001 := by
  have hread := Store.readRange_ofRows 20 (rows := (List.range s.nGroups.toNat).map
      (tableFreqs s.alphaSize.toNat (symbolGroups syms) (selectTables rows (symbolGroups syms)))) (t := n)
    (fun row hrow => by
      obtain ⟨t, -, rfl⟩ := List.mem_map.1 hrow
      exact (length_tally _ _).trans_le halpha) (by simpa using hn)
  rw [List.getElem_map, List.getElem_range, tableFreqs, length_tally, ← tableFreqs] at hread
  have hsum := (sum_tableFreqs_le s.alphaSize.toNat (selectTables_length rows (symbolGroups syms)).ge n).trans hsyms
  refine ⟨_, hread, ?_⟩
  rwa [natsOf_map_ofNat]
  intro f hf
  have := List.single_le_sum (fun _ _ => Nat.zero_le _) f hf
  omega

/-- R224, R225: the assignment part of a pass. -/
theorem hufIter_assigns {s : State} (h : s.HasLengths) :
    ∃ t, hufIter s = .done t ∧ t.Assigned ∧ SameHeader s t := by
  obtain ⟨syms, hsyms, hlt⟩ := h.symbols
  obtain ⟨rows, hlen, hrows, -⟩ := exists_lens_rows h.lens
  have hcount : (natsOf syms).length = s.nMTF.toNat := (List.length_map _).trans (Store.length_of_readRange hsyms)
  have hfits := h.fits
  have hcap := h.cap
  have hn : (s.assigned (rows.map natsOf) (natsOf syms)).nSelectors.toNat = (s.nMTF.toNat + 49) / 50 := by
    rw [State.assigned, BitVec.toNat_ofNat, symbolGroups_eq, List.length_map, List.length_range, hcount]
    omega
  have hrowsLen : (rows.map natsOf).length = s.nGroups.toNat := (List.length_map _).trans hlen
  refine ⟨_, hufIter_of h.fits h.cap h.oneGroup h.groups h.alphaMax hsyms hlt hlen hrows,
    { h with
      nSelectors := hn
      selectors := ⟨_, by rw [hn, ← hcount]; exact assigned_selector, fun n hmem => ?selector⟩
      freqs := fun n hn => assigned_rfreq_row h.alphaMax (by omega) hn }, ⟨rfl, rfl, rfl, rfl, rfl, rfl⟩⟩
  case selector =>
    obtain ⟨k, hk, rfl⟩ := List.mem_map.1 hmem
    have hk := selectTables_lt (by rw [hrowsLen]; exact h.oneGroup) k hk
    exact (Nat.mod_le _ _).trans_lt (hk.trans_eq hrowsLen)

/-- R226: the lengths of table `n` are made, and those of the tables below stay. -/
theorem hufMklen_refines {s : State} (h : s.Assigned) {n : Nat} (hn : n < s.nGroups.toNat)
    (hlegal : ∀ m, m < n → s.LensRow InLengthRange m) :
    ∃ t, hufMklen n s = .done t ∧ t.Assigned ∧ SameHeader s t ∧ t.nGroups = s.nGroups ∧
      ∀ m, m < n + 1 → t.LensRow InLengthRange m := by
  obtain ⟨freq, hfreq, hsum⟩ := h.freqs n hn
  have hgroups := h.groups
  have halpha := h.alphaMax
  have hcount : (natsOf freq).length = s.alphaSize.toNat := (List.length_map _).trans (Store.length_of_readRange hfreq)
  obtain ⟨hlen, hrange, -⟩ := codeLengthsLegal (natsOf freq) (hcount ▸ h.alphaMin) (hcount ▸ halpha) hsum
  obtain ⟨t, hdone, hframe, hlens⟩ := hufMklen_of (hn.trans_le hgroups) halpha hfreq
  have hsize : t.alphaSize = s.alphaSize := by rw [hframe]
  refine ⟨t, hdone, ?assigned, ?header, by rw [hframe], fun m hm => ?row⟩
  case assigned => rw [hframe]; exact { h with }
  case header => rw [hframe]; exact ⟨rfl, rfl, rfl, rfl, rfl, rfl⟩
  case row =>
    rw [State.LensRow, hlens, hsize]
    rcases Nat.lt_succ_iff_lt_or_eq.1 hm with hm | rfl
    · rw [Store.writeRow, tableIndex, Config.alphaMax, Store.readRange_writeRange_of_le (by omega)]
      exact hlegal m hm
    · have hread := Store.readRange_writeRange_same s.lens (258 * m)
        ((makeLengths 20 (natsOf freq)).1.map (BitVec.ofNat 5))
      rw [List.length_map, hlen, hcount] at hread
      refine ⟨_, hread, fun l hl => ?_⟩
      obtain ⟨k, hk, rfl⟩ := List.mem_map.1 hl
      have hk := hrange k hk
      rw [InLengthRange, BitVec.toNat_ofNat, Nat.mod_eq_of_lt (by omega)]
      exact hk

/-- R226: `k` tables from table `n` on, which are the last ones. -/
theorem makeTables_refines (k : Nat) {s : State} (h : s.Assigned) {n : Nat} (hn : n + k = s.nGroups.toNat)
    (hlegal : ∀ m, m < n → s.LensRow InLengthRange m) :
    ∃ t, makeTables k n s = .done t ∧ t.Refined ∧ SameHeader s t := by
  induction k generalizing s n with
  | zero => exact ⟨s, rfl, ⟨h, fun m hm => hlegal m (by omega)⟩, ⟨rfl, rfl, rfl, rfl, rfl, rfl⟩⟩
  | succ k ih =>
    obtain ⟨t, hdone, ht, hheader, hgroups, hrows⟩ := hufMklen_refines h (by omega) hlegal
    obtain ⟨u, hrest, hu, hheader'⟩ := ih ht (by rw [hgroups]; omega) hrows
    exact ⟨u, by rw [makeTables, hdone, Res.andThen_done, hrest], hu, hheader.trans hheader'⟩

/-- R223: a pass completes. -/
theorem phaseHufIter_refines {s : State} (h : s.HasLengths) :
    ∃ t, phaseHufIter s = .done t ∧ t.Refined ∧ SameHeader s t := by
  obtain ⟨t, hdone, ht, hheader⟩ := hufIter_assigns h
  obtain ⟨u, hrest, hu, hheader'⟩ := makeTables_refines t.nGroups.toNat ht (Nat.zero_add _) nofun
  refine ⟨u.nextPass, by rw [phaseHufIter, hdone, Res.andThen_done, hrest, Res.andThen_done], ?_⟩
  rw [State.nextPass_eq]
  have hheader := hheader.trans hheader'
  split <;> exact ⟨{ hu with }, { hheader with }⟩

/-! ## `HUF_ASSIGN` -/

/-- R230: the table `n` of the codes is written for every symbol, and the codes of the tables below stay. -/
theorem hufAssign_codes {s : State} (h : s.Refined) {n : Nat} (hn : n < s.nGroups.toNat)
    (hcodes : ∀ m, m < n → ∀ v, v < s.alphaSize.toNat → ∃ c, s.code.read (258 * m + v) = some c) :
    ∃ code, hufAssign n s = .done { s with code := code } ∧
      ∀ m, m < n + 1 → ∀ v, v < s.alphaSize.toNat → ∃ c, code.read (258 * m + v) = some c := by
  obtain ⟨row, hrow, -⟩ := h.legal n hn
  have hcount : (natsOf row).length = s.alphaSize.toNat := (List.length_map _).trans (Store.length_of_readRange hrow)
  have halpha := h.alphaMax
  refine ⟨_, hufAssign_of (hn.trans_le h.groups) halpha hrow, fun m hm v hv => ?_⟩
  rw [Store.read_writeRow, length_canonicalCodes, hcount]
  split
  case isTrue => exact ⟨_, rfl⟩
  case isFalse => exact hcodes m (by omega) v hv

theorem assignTables_codes (k : Nat) {s : State} (h : s.Refined) {n : Nat} (hn : n + k = s.nGroups.toNat)
    (hcodes : ∀ m, m < n → ∀ v, v < s.alphaSize.toNat → ∃ c, s.code.read (258 * m + v) = some c) :
    ∃ code, assignTables k n s = .done { s with code := code } ∧
      ∀ m, m < s.nGroups.toNat → ∀ v, v < s.alphaSize.toNat → ∃ c, code.read (258 * m + v) = some c := by
  induction k generalizing s n with
  | zero => exact ⟨s.code, rfl, fun m hm => hcodes m (by omega)⟩
  | succ k ih =>
    obtain ⟨code, hdone, hcode⟩ := hufAssign_codes h (by omega) hcodes
    obtain ⟨code', hrest, hcode'⟩ :=
      ih (s := { s with code := code }) { h with } (n := n + 1) (by dsimp only; omega) hcode
    exact ⟨code', by rw [assignTables, hdone, Res.andThen_done, hrest], hcode'⟩

theorem hufRangechk_of_refined {s : State} (h : s.Refined) : hufRangechk s = .done s := by
  obtain ⟨rows, hlen, hrows, hlegal⟩ := exists_lens_rows h.legal
  exact (withRows_of h.groups h.alphaMax (readRows_eq_some.2 ⟨hlen, hrows⟩)).trans
    (if_pos (all_lengthLegal_iff.2 hlegal))

/-- R229 to R231: the phase completes on lengths that `HUF_ITER` has made. -/
theorem phaseHufAssign_completes {s : State} (h : s.Refined) :
    ∃ t, phaseHufAssign s = .done t ∧ t.Emittable ∧ SameHeader s t := by
  obtain ⟨code, htables, hcodes⟩ := assignTables_codes s.nGroups.toNat h (Nat.zero_add _) nofun
  obtain ⟨sels, hsels, hlt⟩ := h.selectors
  have hcap := h.cap
  have hfits := h.fits
  have hn : s.nSelectors.toNat ≤ 18002 := by rw [h.nSelectors]; omega
  have hlen : (selectorWalk (List.range s.nGroups.toNat) (natsOf sels)).1.length = s.nSelectors.toNat := by
    rw [length_selectorWalk, natsOf, List.length_map, Store.length_of_readRange hsels]
  have hread := Store.readRange_ofList
    ((selectorWalk (List.range s.nGroups.toNat) (natsOf sels)).1.map (BitVec.ofNat 3))
  rw [List.length_map, hlen] at hread
  have hdone : phaseHufAssign s = hufSelmtf { s with code := code } := by
    rw [phaseHufAssign, hufRangechk_of_refined h, Res.andThen_done, htables, Res.andThen_done]
  exact ⟨_, hdone.trans (hufSelmtf_of (s := { s with code := code }) h.groups hn hsels hlt),
    { h with codes := hcodes, positions := ⟨_, hread⟩ }, ⟨rfl, rfl, rfl, rfl, rfl, rfl⟩⟩

/-! ## `EMIT` -/

theorem State.emit_emit (s : State) (ops ops' : List BitOp) : (s.emit ops).emit ops' = s.emit (ops ++ ops') := by
  rw [State.emit, State.emit, State.emit, List.append_assoc]

theorem State.Emittable.emit {s : State} (h : s.Emittable) (ops : List BitOp) : (s.emit ops).Emittable := { h with }

/-- The operation completes in `s` and records legal operations, and that is all it does. -/
def RecordsOnly (op : State → Res) (s : State) : Prop :=
  ∃ ops, op s = .done (s.emit ops) ∧ ∀ o ∈ ops, o.legal = true

theorem emitInuse_records {s : State} (h : s.Emittable) : RecordsOnly emitInuse s :=
  have ⟨_, hbits⟩ := h.inUse
  ⟨_, emitInuse_of hbits, fun _ => legal_inUseOps⟩

theorem emitCounts_records (s : State) : RecordsOnly emitCounts s :=
  ⟨_, rfl, fun o ho => by fin_cases ho <;> rfl⟩

theorem emitSelectors_records {s : State} (h : s.Emittable) : RecordsOnly emitSelectors s := by
  obtain ⟨js, hjs⟩ := h.positions
  have hcap := h.cap
  have hfits := h.fits
  refine ⟨_, emitSelectors_of (by rw [h.nSelectors]; omega) hjs, fun o ho => ?_⟩
  obtain ⟨j, -, rfl⟩ := List.mem_map.1 ho
  exact legal_unary_position j

theorem emitLengths_records {s : State} (h : s.Emittable) : RecordsOnly emitLengths s := by
  obtain ⟨rows, hlen, hrows, -⟩ := exists_lens_rows h.legal
  have halpha := h.alphaMin
  have hne : [] ∉ rows := fun hmem => by
    obtain ⟨n, hn, hnil⟩ := List.mem_iff_getElem.1 hmem
    have hcount := Store.length_of_readRange (hrows n (by omega))
    rw [List.getD_eq_getElem _ _ hn, hnil, List.length_nil] at hcount
    omega
  refine ⟨_, emitLengths_of h.groups h.alphaMax (readRows_eq_some.2 ⟨hlen, hrows⟩) hne, fun o ho => ?_⟩
  obtain ⟨ops, hops, ho⟩ := List.mem_flatten.1 ho
  obtain ⟨row, -, rfl⟩ := List.mem_map.1 hops
  exact legal_lengthsOps ho

theorem exists_readAll {α β : Type} {f : α → Option β} {as : List α} (h : ∀ a ∈ as, ∃ b, f a = some b) :
    ∃ bs, readAll f as = some bs := by
  induction as with
  | nil => exact ⟨[], rfl⟩
  | cons a as ih =>
    obtain ⟨⟨b, hb⟩, has⟩ := List.forall_mem_cons.1 h
    obtain ⟨bs, hbs⟩ := ih has
    exact ⟨b :: bs, by rw [readAll, hb, hbs]⟩

/-- R254: every symbol has an operation under the table that the selector of its group names. -/
theorem emitSymbols_completes {s : State} (h : s.Emittable) :
    ∃ ops, emitSymbols s = .done { s.emit ops with phase := .compressed } ∧ ∀ o ∈ ops, o.legal = true := by
  obtain ⟨syms, hsyms, hsymlt⟩ := h.symbols
  obtain ⟨sels, hsels, hsellt⟩ := h.selectors
  rw [h.nSelectors] at hsels
  have hlen := Store.length_of_readRange hsyms
  have hnsels := Store.length_of_readRange hsels
  have hgroups := h.groups
  have halpha := h.alphaMax
  obtain ⟨ops, hops⟩ : ∃ ops, symbolOps s (natsOf sels) (natsOf syms) = some ops := by
    refine exists_readAll fun x hx => ?_
    obtain ⟨hk, hget⟩ := List.getElem?_eq_some_iff.1 (List.mem_zipIdx_iff_getElem?.1 hx)
    rw [natsOf, List.length_map] at hk
    have hgroup : x.2 / 50 < sels.length := by omega
    have hsel := hsellt sels[x.2 / 50] (List.getElem_mem _)
    have hsym := hsymlt syms[x.2] (List.getElem_mem _)
    have hv : x.1 = syms[x.2].toNat := by simpa [natsOf] using hget.symm
    have hn : (natsOf sels).getD (x.2 / Config.gSize) 0 = sels[x.2 / 50].toNat := by
      rw [getD_natsOf, Config.gSize, List.getD_eq_getElem _ _ hgroup]
    obtain ⟨row, hrow, -⟩ := h.legal _ hsel
    have hlens := Store.read_of_readRange hrow (Nat.le_add_right _ _) (Nat.add_lt_add_left hsym _)
    rw [Nat.add_sub_cancel_left, List.getElem?_eq_getElem (by rwa [Store.length_of_readRange hrow])] at hlens
    obtain ⟨c, hc⟩ := h.codes _ hsel _ hsym
    exact ⟨_, by rw [hv, hn]; exact symbolOp_of (by omega) (by omega) hlens hc⟩
  exact ⟨ops, emitSymbols_of h.fits h.cap hsyms hsels hops, fun o => legal_symbolOps hops⟩

/-- What the coding phases leave of a sorted Block: a legal recording that begins with the block header (R232, R270). -/
structure Recorded (s t : State) : Prop where
  b : t.b = s.b
  zptr : t.zptr = s.zptr
  origPtr : t.origPtr = s.origPtr
  randomised : t.randomised = s.randomised
  phase : t.phase = .compressed
  bopq : ∃ ops, t.bopq = s.bopq ++ (headerOps s ++ ops) ∧ ∀ o ∈ ops, o.legal = true

theorem Recorded.of_sameHeader {s t u : State} (h : SameHeader s t) (h' : Recorded t u) : Recorded s u where
  b := h'.b.trans h.b
  zptr := h'.zptr.trans h.zptr
  origPtr := h'.origPtr.trans h.origPtr
  randomised := h'.randomised.trans h.randomised
  phase := h'.phase
  bopq := by
    obtain ⟨ops, hops, hlegal⟩ := h'.bopq
    exact ⟨ops, by rw [hops, h.bopq, h.headerOps_eq], hlegal⟩

/-- R255, R271: the phase completes, and records the header and legal operations after it. -/
theorem phaseEmit_records {s : State} (h : s.Emittable) : ∃ t, phaseEmit s = .done t ∧ Recorded s t := by
  obtain ⟨o₁, h₁, hl₁⟩ := emitInuse_records (h.emit (headerOps s))
  obtain ⟨o₂, h₂, hl₂⟩ := emitCounts_records (s.emit (headerOps s ++ o₁))
  obtain ⟨o₃, h₃, hl₃⟩ := emitSelectors_records (h.emit (headerOps s ++ o₁ ++ o₂))
  obtain ⟨o₄, h₄, hl₄⟩ := emitLengths_records (h.emit (headerOps s ++ o₁ ++ o₂ ++ o₃))
  obtain ⟨o₅, h₅, hl₅⟩ := emitSymbols_completes (h.emit (headerOps s ++ o₁ ++ o₂ ++ o₃ ++ o₄))
  rw [State.emit_emit] at h₁ h₂ h₃ h₄ h₅
  have hparts : phaseEmit s = emitSymbols (s.emit (headerOps s ++ o₁ ++ o₂ ++ o₃ ++ o₄)) := by
    rw [phaseEmit, frmBlockhdr, Res.andThen_done, h₁, Res.andThen_done, h₂, Res.andThen_done, h₃, Res.andThen_done, h₄,
      Res.andThen_done]
  refine ⟨_, hparts.trans h₅, rfl, rfl, rfl, rfl, rfl, o₁ ++ o₂ ++ o₃ ++ o₄ ++ o₅, ?_, ?_⟩
  · simp only [List.append_assoc]
    rfl
  · simp only [List.forall_mem_append]
    exact ⟨⟨⟨⟨hl₁, hl₂⟩, hl₃⟩, hl₄⟩, hl₅⟩

/-! ## The passes and the emission -/

/-- R223: the passes still to come, then the codes and the emission. -/
theorem passesAndEmit_records (n : Nat) {s : State} (h : s.Refined) :
    ∃ t, passesAndEmit n s = .done t ∧ Recorded s t := by
  induction n generalizing s with
  | zero =>
    obtain ⟨t, hassign, ht, hheader⟩ := phaseHufAssign_completes h
    obtain ⟨u, hemit, hu⟩ := phaseEmit_records ht
    exact ⟨u, by rw [passesAndEmit, hassign, Res.andThen_done, hemit], .of_sameHeader hheader hu⟩
  | succ n ih =>
    obtain ⟨t, hpass, ht, hheader⟩ := phaseHufIter_refines h.hasLengths
    obtain ⟨u, hrest, hu⟩ := ih ht
    exact ⟨u, by rw [passesAndEmit, hpass, Res.andThen_done, hrest], .of_sameHeader hheader hu⟩

/-- R223: the passes on the tables of `HUF_INIT`, which need not have legal lengths. -/
theorem passesAndEmit_succ_records (n : Nat) {s : State} (h : s.HasLengths) :
    ∃ t, passesAndEmit (n + 1) s = .done t ∧ Recorded s t := by
  obtain ⟨t, hpass, ht, hheader⟩ := phaseHufIter_refines h
  obtain ⟨u, hrest, hu⟩ := passesAndEmit_records n ht
  exact ⟨u, by rw [passesAndEmit, hpass, Res.andThen_done, hrest], .of_sameHeader hheader hu⟩

end Sys2Proof.Machine
end

section
/-! PROOF. O54: `COMPRESS` on a queued Block (R294). It takes one of the two faults R312 and R315 leave open, or it
completes: the sort leaves an origin, `MTF.GEN` a codable symbol stream, and the coding phases record it. -/

namespace Sys2Proof.Machine

/-- R155, R156: a closed Block with the bytes `bs`, in a machine that has taken no fatal fault. -/
structure State.HoldsBlock (s : State) (bs : List Byte) : Prop where
  fatal : s.fatal = false
  nonempty : 1 ≤ s.len.toNat
  fits : s.len.toNat ≤ s.cap.toNat
  cap : s.cap.toNat ≤ 900000
  buffer : s.b.readRange 0 s.len.toNat = some bs

theorem State.HoldsBlock.length {s : State} {bs : List Byte} (h : s.HoldsBlock bs) : bs.length = s.len.toNat :=
  Store.length_of_readRange h.buffer

theorem State.HoldsBlock.ne_nil {s : State} {bs : List Byte} (h : s.HoldsBlock bs) : bs ≠ [] := by
  have hlen := h.length
  have hpos := h.nonempty
  exact List.length_pos_iff.1 (by omega)

theorem State.HoldsBlock.len_ne_zero {s : State} {bs : List Byte} (h : s.HoldsBlock bs) : s.len ≠ 0 := fun h0 => by
  have hpos := h.nonempty
  rw [h0] at hpos
  exact absurd hpos (by decide)

theorem sortOverflows_eq_true {p : Params} {bs : List Byte} :
    sortOverflows p bs = true ↔
      stackExceeded p bs = true ∨ (workExceeded p bs = true ∧ stackExceeded p (randomiseBytes 0 0 bs) = true) := by
  rw [sortOverflows, Bool.or_eq_true, Bool.and_eq_true]

/-! ## The sort -/

/-- R171, R175: the bytes that are sorted in the end. -/
def sortedBytes (p : Params) (bs : List Byte) : List Byte :=
  if workExceeded p bs then randomiseBytes 0 0 bs else bs

/-- R172 to R177: what the sort leaves of the Block `bs` of `s`, when it completes. -/
structure Sorted (p : Params) (bs : List Byte) (s t : State) : Prop where
  block : t.HoldsBlock (sortedBytes p bs)
  origin : t.HasOrigin
  len : t.len = s.len
  randomised : t.randomised = workExceeded p bs
  blockCrc : t.blockCrc = s.blockCrc
  bopq : t.bopq = s.bopq

/-- R312: the sort is halted, and nothing has been recorded. -/
structure SortHalted (s t : State) : Prop where
  faultCode : t.faultCode = 0x02#8
  bopq : t.bopq = s.bopq

section
variable {s : State} {bs : List Byte} (h : s.HoldsBlock bs) (p : Params)
include h

/-- R175: the Block after the randomisation, and what the retry reads. -/
theorem bwtRandomise_holdsBlock : ∃ t, bwtRandomise s = .done t ∧ t.HoldsBlock (randomiseBytes 0 0 bs) ∧
    t = { s with
      b := t.b, randomised := true, firstAttempt := false, workDone := 0, workLimit := none, phase := .sort2 } := by
  have hread := Store.readRange_writeRange_same s.b 0 (randomiseBytes 0 0 bs)
  rw [length_randomiseBytes, h.length] at hread
  exact ⟨_, withBuffer_of h.fits h.buffer, ⟨h.fatal, h.nonempty, h.fits, h.cap, hread⟩, rfl⟩

/-- R174, R177: the randomised retry, where the stack does not overflow in it. -/
theorem retry_sorted (hw : workExceeded p bs = true) (hst : stackExceeded p (randomiseBytes 0 0 bs) = false) :
    ∃ t, (bwtRandomise s).andThen (bwtSortRetry p) = .done t ∧ Sorted p bs s t := by
  obtain ⟨u, hrand, hu, hframe⟩ := bwtRandomise_holdsBlock h
  rw [hrand, Res.andThen_done, bwtSortRetry_of_sorted hu.fits hu.buffer p hst]
  have hbytes : sortedBytes p bs = randomiseBytes 0 0 bs := if_pos hw
  refine ⟨_, rfl, by rw [hbytes]; exact { hu with }, hasOrigin_of_sorted p hu.fits hu.length hu.len_ne_zero rfl,
    ?_, ?_, ?_, ?_⟩
  · rw [hframe]
  · rw [hw, hframe]
  · rw [hframe]
  · rw [hframe]

theorem retry_halted (hst : stackExceeded p (randomiseBytes 0 0 bs) = true) :
    ∃ t, (bwtRandomise s).andThen (bwtSortRetry p) = .raised t ∧ SortHalted s t := by
  obtain ⟨u, hrand, hu, hframe⟩ := bwtRandomise_holdsBlock h
  rw [hrand, Res.andThen_done, bwtSortRetry_of_stackExceeded hu.fits hu.buffer p hu.fatal hst]
  refine ⟨_, rfl, rfl, ?_⟩
  rw [State.haltedWith, hframe]

theorem sortBlock_sorted (ho : sortOverflows p bs = false) : ∃ t, sortBlock p s = .done t ∧ Sorted p bs s t := by
  have ho := mt sortOverflows_eq_true.2 (Bool.eq_false_iff.1 ho)
  have hst : stackExceeded p bs = false := Bool.eq_false_iff.2 fun hst => ho (.inl hst)
  cases hw : workExceeded p bs with
  | false =>
    have hbytes : sortedBytes p bs = bs := if_neg (Bool.eq_false_iff.1 hw)
    rw [sortBlock, bwtSort_of_sorted h.fits h.buffer p hst hw, Res.andThen_done, if_neg nofun]
    exact ⟨_, rfl, by rw [hbytes]; exact { h with }, hasOrigin_of_sorted p h.fits h.length h.len_ne_zero rfl, rfl,
      hw.symm, rfl, rfl⟩
  | true =>
    have hretry : stackExceeded p (randomiseBytes 0 0 bs) = false := Bool.eq_false_iff.2 fun hst => ho (.inr ⟨hw, hst⟩)
    rw [sortBlock, bwtSort_of_workExceeded h.fits h.buffer p (List.isEmpty_eq_false_iff.2 h.ne_nil) hst hw,
      Res.andThen_done, if_pos rfl]
    have hblock : ({ s.firstAttempted p bs with zptr := [], phase := .randomise } : State).HoldsBlock bs := { h with }
    obtain ⟨t, hdone, ht⟩ := retry_sorted hblock p hw hretry
    exact ⟨t, hdone, { ht with }⟩

theorem sortBlock_halted (ho : sortOverflows p bs = true) : ∃ t, sortBlock p s = .raised t ∧ SortHalted s t := by
  cases hst : stackExceeded p bs with
  | true =>
    rw [sortBlock, bwtSort_of_stackExceeded h.fits h.buffer p h.fatal hst]
    exact ⟨_, rfl, rfl, rfl⟩
  | false =>
    obtain ⟨hw, hretry⟩ := (sortOverflows_eq_true.1 ho).resolve_left (Bool.eq_false_iff.1 hst)
    rw [sortBlock, bwtSort_of_workExceeded h.fits h.buffer p (List.isEmpty_eq_false_iff.2 h.ne_nil) hst hw,
      Res.andThen_done, if_pos rfl]
    have hblock : ({ s.firstAttempted p bs with zptr := [], phase := .randomise } : State).HoldsBlock bs := { h with }
    obtain ⟨t, hraised, ht⟩ := retry_halted hblock p hretry
    exact ⟨t, hraised, { ht with }⟩

end

/-! ## The origin and the symbols -/

/-- R178: the origin is where offset 0 stands. -/
theorem bwtOrigin_completes {s : State} (h : s.HasOrigin) :
    ∃ o, bwtOrigin s = .done { s with origPtr := o, phase := .mtf } ∧ s.zptr.read o.toNat = some 0#20 := by
  obtain ⟨hcap, zs, hz, hmem⟩ := h
  obtain ⟨i, hidx⟩ := Option.isSome_iff_exists.1 (List.isSome_idxOf?.2 hmem)
  obtain ⟨hi, hzero, -⟩ := List.idxOf?_eq_some_iff.1 hidx
  have hlen := Store.length_of_readRange hz
  have hlt : i < 2 ^ 24 := by
    have := s.len.isLt
    omega
  refine ⟨_, bwtOrigin_of_found hcap hz hidx, ?_⟩
  rw [BitVec.toNat_ofNat, Nat.mod_eq_of_lt hlt, Store.read_of_readRange hz (Nat.zero_le _) (by omega), Nat.sub_zero,
    List.getElem?_eq_getElem hi, hzero]

/-- R208, R221, R222: the tables of `MTF.GEN` on at most 900000 bytes are what the coding phases read. -/
theorem phaseHufInit_hasLengths (p : Params) {t : State} {bs : List Byte} {zs : List Nat} (ht : GeneratedTables bs zs t)
    (hbs : bs ≠ []) (hz : zs.length ≤ t.cap.toNat) (hcap : t.cap.toNat ≤ 900000) :
    ∃ u, phaseHufInit p t = .done u ∧ u.HasLengths ∧ SameHeader t u := by
  have hcount := ht.nMTF_toNat (by omega)
  have hsyms := length_symbolsOf_le bs zs
  have halpha := ht.alphaSize_toNat
  have hused := length_usedBytes_le bs
  have hpos := length_usedBytes_pos hbs
  have hgroups := groupsFor_range p.ngroupThresh t.nMTF.toNat
  have hnGroups := toNat_ofNat_groupsFor p.ngroupThresh t.nMTF.toNat
  have hfreq := Store.readRange_ofList ((tally ((usedBytes bs).length + 2) (symbolsOf bs zs).1).map (BitVec.ofNat 20))
  rw [List.length_map, length_tally, ← Store.ofNats, ← ht.mtfFreq, ← halpha] at hfreq
  have hlen : (natsOf ((tally t.alphaSize.toNat (symbolsOf bs zs).1).map (BitVec.ofNat 20))).length =
      t.alphaSize.toNat := by
    rw [natsOf, List.length_map, List.length_map, length_tally]
  have hszptr := ht.readRange_szptr
  rw [← hcount] at hszptr
  have hinUse := Store.readRange_ofList ((List.range 256).map fun v => BitVec.ofBool (bs.contains (BitVec.ofNat 8 v)))
  rw [List.length_map, List.length_range, ← ht.inUse] at hinUse
  refine ⟨_, phaseHufInit_of p (by omega) hfreq,
    { fits := by dsimp only; omega
      cap := hcap
      oneGroup := by rw [hnGroups]; omega
      groups := by rw [hnGroups]; omega
      alphaMin := by dsimp only; omega
      alphaMax := by dsimp only; omega
      symbols := ⟨_, hszptr, fun v hv => ?symbol⟩
      inUse := ⟨_, hinUse⟩
      lens := fun n hn => ?row }, ⟨rfl, rfl, rfl, rfl, rfl, rfl⟩⟩
  case symbol =>
    obtain ⟨k, hk, rfl⟩ := List.mem_map.1 hv
    have hle := symbolsOf_le hbs zs k hk
    have hmod : (BitVec.ofNat 9 k).toNat ≤ k := Nat.mod_le _ _
    dsimp only
    omega
  case row =>
    rw [hnGroups] at hn
    obtain ⟨row, hrow⟩ := readRange_initLens (freq := natsOf _) (by rw [hlen]; omega) hn t.nMTF.toNat
    rw [hlen] at hrow
    exact ⟨row, hrow, fun _ _ => trivial⟩

/-- R178 to R255: what `COMPRESS` leaves of a sorted Block. -/
structure Compressed (s t : State) : Prop where
  b : t.b = s.b
  randomised : t.randomised = s.randomised
  phase : t.phase = .compressed
  origin : t.zptr.read t.origPtr.toNat = some 0#20
  bopq : ∃ ops, t.bopq = s.bopq ++ ops ∧ (∀ op ∈ ops, op.legal = true) ∧
    ops.take 6 =
      [.bits 24#8 0x314159#32, .bits 24#8 0x265359#32, .bits 16#8 ((s.blockCrc.extractLsb' 16 16).setWidth 32),
        .bits 16#8 ((s.blockCrc.extractLsb' 0 16).setWidth 32), .bool t.randomised, .bits 24#8 (t.origPtr.setWidth 32)]

theorem fromOrigin_completes (p : Params) {s : State} {bs : List Byte} (h : s.HoldsBlock bs) (ho : s.HasOrigin) :
    ∃ t, fromOrigin p s = .done t ∧ Compressed s t := by
  obtain ⟨o, horigin, hzero⟩ := bwtOrigin_completes ho
  obtain ⟨-, zs, hz, -⟩ := ho
  have hzl : (natsOf zs).length = s.len.toNat := (List.length_map _).trans (Store.length_of_readRange hz)
  obtain ⟨u, hmtf, hu, hframe⟩ :=
    mtfGen_completes (s := { s with origPtr := o, phase := .mtf }) h.fits h.buffer hz
  have hcap : u.cap = s.cap := by rw [hframe]
  obtain ⟨v, hinit, hv, hheader⟩ := phaseHufInit_hasLengths p hu h.ne_nil (by rw [hzl, hcap]; exact h.fits)
    (by rw [hcap]; exact h.cap)
  obtain ⟨t, hrest, ht⟩ := passesAndEmit_succ_records 3 hv
  have hheader : SameHeader { s with origPtr := o, phase := .mtf } v :=
    SameHeader.trans (by rw [hframe]; exact ⟨rfl, rfl, rfl, rfl, rfl, rfl⟩) hheader
  obtain ⟨hb, hzptr, hptr, hrandomised, hphase, ops, hbopq, hlegal⟩ := ht.of_sameHeader hheader
  refine ⟨t, ?_, hb, hrandomised, hphase, by rw [hzptr, hptr]; exact hzero, _, hbopq, ?_, ?_⟩
  · rw [fromOrigin, horigin, Res.andThen_done, hmtf, Res.andThen_done, hinit, Res.andThen_done]
    exact hrest
  · exact List.forall_mem_append.2 ⟨fun _ => legal_headerOps, hlegal⟩
  · rw [headerOps_eq, hrandomised, hptr]
    rfl

/-! ## `COMPRESS` -/

theorem phaseQueued_of_laneFails {s : State} (hf : s.fatal = false) (hl : s.laneFails.contains s.blkId = true) :
    phaseQueued s = .raised (s.haltedWith 0x20#8) := by
  rw [phaseQueued, if_pos hl]
  exact raise_of_not_fatal hf .workerFail

theorem compress_of_laneFails (p : Params) {s : State} (hf : s.fatal = false)
    (hl : s.laneFails.contains s.blkId = true) : compress p s = .raised (s.haltedWith 0x20#8) := by
  rw [compress_eq, phaseQueued_of_laneFails hf hl, Res.andThen_raised]

theorem compress_eq_sort (p : Params) {s : State} (hl : s.laneFails.contains s.blkId = false) :
    compress p s = (sortBlock p { s with phase := .sort1 }).andThen (fromOrigin p) := by
  rw [compress_eq, phaseQueued, if_neg (Bool.eq_false_iff.1 hl), Res.andThen_done]

section
variable {s : State} {bs : List Byte} (h : s.HoldsBlock bs) (hl : s.laneFails.contains s.blkId = false) (p : Params)
include h hl

/-- R312: the stack of a sort overflows. -/
theorem compress_halted (ho : sortOverflows p bs = true) : ∃ t, compress p s = .raised t ∧ SortHalted s t := by
  obtain ⟨t, hraised, ht⟩ := sortBlock_halted (s := { s with phase := .sort1 }) { h with } p ho
  exact ⟨t, by rw [compress_eq_sort p hl, hraised, Res.andThen_raised], { ht with }⟩

/-- R294, R232: the Block is compressed. -/
theorem compress_completes (ho : sortOverflows p bs = false) :
    ∃ u t, compress p s = .done t ∧ Sorted p bs s u ∧ Compressed u t := by
  obtain ⟨u, hsort, hu⟩ := sortBlock_sorted (s := { s with phase := .sort1 }) { h with } p ho
  obtain ⟨t, hrest, ht⟩ := fromOrigin_completes p hu.block hu.origin
  exact ⟨u, t, by rw [compress_eq_sort p hl, hsort, Res.andThen_done, hrest], { hu with }, ht⟩

end

/-- Settles O54: the two faults, and the completed Block. -/
theorem compressOperation : Obligations.CompressOperation := by
  intro s bs hf hlen hfits hcap hb
  have h : s.HoldsBlock bs := ⟨hf, hlen, hfits, hcap, hb⟩
  refine ⟨fun hl => unlessFatal_of_raised hf (compress_of_laneFails _ hf hl), fun hl => ?_⟩
  have hlane := compress_lane Config.params s hf
  cases ho : sortOverflows Config.params bs with
  | true =>
    obtain ⟨t, hraised, ht⟩ := compress_halted h hl _ ho
    obtain ⟨hsame, hfatal, hphase, -, -⟩ := hlane.of_raised hraised
    refine ⟨t, unlessFatal_of_raised hf hraised, hsame.sink, hsame.rsp, hsame.inbox, hsame.blockCrc, hsame.crc,
      hsame.rawCount, hsame.len, hsame.closed, hsame.streamCrc, hsame.blocksEmitted, hsame.nextId, hsame.blkId, ?_⟩
    rw [if_pos (sortOverflows_eq_true.1 ho)]
    exact ⟨hphase, hfatal, ht.faultCode, ht.bopq⟩
  | false =>
    obtain ⟨u, t, hdone, hu, ht⟩ := compress_completes h hl _ ho
    obtain ⟨hsame, hfatal, -, -⟩ := hlane.of_done hdone
    refine ⟨t, unlessFatal_of_done hf hdone, hsame.sink, hsame.rsp, hsame.inbox, hsame.blockCrc, hsame.crc,
      hsame.rawCount, hsame.len, hsame.closed, hsame.streamCrc, hsame.blocksEmitted, hsame.nextId, hsame.blkId, ?_⟩
    rw [if_neg (mt sortOverflows_eq_true.2 (Bool.eq_false_iff.1 ho))]
    obtain ⟨ops, hbopq, hlegal, hheader⟩ := ht.bopq
    rw [hu.bopq] at hbopq
    rw [hu.blockCrc] at hheader
    have hbuffer := hu.block.buffer
    rw [← ht.b, hu.len] at hbuffer
    exact ⟨ht.phase, hfatal.trans hf, ht.randomised.trans hu.randomised, ⟨ops, hbopq, hlegal, hheader⟩, hbuffer,
      ht.origin⟩

end Sys2Proof.Machine
end

section
/-! PROOF. O10, O11 and O2: in `FATAL` nothing executes (R322), and only the reset input (R350) leaves it. -/

namespace Sys2Proof.Machine

/-! ## `FATAL` -/

theorem unlessFatal_of_fatal {s : State} (h : s.fatal = true) (op : State → Res) : unlessFatal op s = .next s :=
  if_pos h

theorem hostCommand_of_fatal {s : State} (h : s.fatal = true) (ok : Bool) (op : State → Res) :
    hostCommand ok op s = .next s.respondFatal := if_pos h

/-- R297: a command of the stream is answered with the latched fault. -/
theorem exec_streamCommand_of_fatal {i : Instr} {s : State} (h : s.fatal = true) (hi : isStreamCommand i = true) :
    exec i s = .next s.respondFatal := by
  cases i with
  | openStream | wrb | closeblk | finish => exact hostCommand_of_fatal h _ _
  | _ => cases hi

/-- R322: an instruction that is no host command does nothing. -/
theorem exec_harness_of_fatal {i : Instr} {s : State} (h : s.fatal = true) (hi : isHostCommand i = false) :
    exec i s = .next s := by
  cases i with
  | openStream | wrb | closeblk | finish | seek | read | setlen | hcReserved0 | hcReserved8F => cases hi
  | _ => exact unlessFatal_of_fatal h _

/-- R296, R110: the other host commands are answered as in any state. -/
theorem exec_localCommand {i : Instr} (hi : isHostCommand i = true) (hs : isStreamCommand i = false) (s : State) :
    ∃ f, exec i s = .next (s.respondLocal f) := by
  cases i with
  | seek | read | setlen => exact ⟨.unsupported, rfl⟩
  | hcReserved0 | hcReserved8F => exact ⟨.reservedOp, rfl⟩
  | openStream | wrb | closeblk | finish => cases hs
  | _ => cases hi

/-- R322: in `FATAL` an instruction adds responses at most, and one that is no host command adds none. -/
theorem exec_of_fatal (i : Instr) {s : State} (h : s.fatal = true) :
    ∃ rs, exec i s = .next { s with rsp := s.rsp ++ rs } ∧ (isHostCommand i = false → rs = []) := by
  cases hi : isHostCommand i with
  | false => exact ⟨[], by rw [exec_harness_of_fatal h hi, List.append_nil], fun _ => rfl⟩
  | true =>
    cases hs : isStreamCommand i with
    | true => exact ⟨_, exec_streamCommand_of_fatal h hs, nofun⟩
    | false =>
      obtain ⟨f, hf⟩ := exec_localCommand hi hs s
      exact ⟨_, hf, nofun⟩

/-- Settles O10, by the kind of the instruction. -/
theorem nothingExecutesInFatal : Obligations.NothingExecutesInFatal :=
  fun i _ h => ⟨exec_streamCommand_of_fatal h, exec_of_fatal i h⟩

/-- Settles O11: a message runs as an instruction in `FATAL`, a platform input changes its own record only, and the
sequencer by itself does nothing. -/
theorem onlyResetLeavesFatal : Obligations.OnlyResetLeavesFatal := by
  intro s t hf hp hreset hduring e
  cases hin : s.inbox with
  | nil =>
    rw [step, hin] at e
    obtain rfl := Host.Outcome.next.inj ((unlessFatal_of_fatal hf _).symm.trans e)
    exact ⟨hf, hp, rfl, rfl, rfl⟩
  | cons input rest =>
    cases input with
    | message w =>
      rw [step_message hin, execMessage] at e
      split at e
      · obtain ⟨rs, hexec, -⟩ := exec_of_fatal _ (s := { s with inbox := rest }) hf
        obtain rfl := Host.Outcome.next.inj (hexec.symm.trans e)
        exact ⟨hf, hp, rfl, rfl, rfl⟩
      · cases e
    | sinkWritable b =>
      obtain rfl := Host.Outcome.next.inj ((step_sinkWritable hin).symm.trans e)
      exact ⟨hf, hp, rfl, rfl, rfl⟩
    | laneFail k =>
      obtain rfl := Host.Outcome.next.inj ((step_laneFail hin).symm.trans e)
      exact ⟨hf, hp, rfl, rfl, rfl⟩
    | reset => exact absurd (by rw [hin]; rfl) hreset
    | resetDuring w => exact absurd (by rw [hin]; rfl) (hduring w)

/-! ## The reset input -/

theorem step_reset {s : State} {rest : List Input} (h : s.inbox = .reset :: rest) :
    step s = .next ({ s with inbox := rest } : State).hardReset := by
  simp only [step, h]

/-- 93 U15: reset while a command is in flight that would have completed. -/
theorem step_resetDuring {s u : State} {w : CmdWord} {i : Instr} {rest : List Input}
    (h : s.inbox = .resetDuring w :: rest) (hw : decode w = .ok i) (e : exec i { s with inbox := rest } = .next u) :
    step s = .next (({ s with inbox := rest } : State).cutByReset u) := by
  simp only [step, h, execMessage_of_decode hw, e, resetDuring]

/-- Settles O2: the registers by evaluation; of what a cut command would have pushed, the beginning is out. -/
theorem resetInput : Obligations.ResetInput := by
  refine fun s rest => ⟨fun h => ⟨_, step_reset h, ?_, rfl⟩, fun w i u h hw e => ?during⟩
  · exact ⟨rfl, rfl, rfl, rfl, rfl, rfl, rfl, rfl, rfl, rfl, rfl, rfl, rfl, rfl, rfl, rfl, rfl, rfl⟩
  case during =>
    obtain ⟨added, hadded⟩ : Pushed { s with inbox := rest } u := exec_pushed e
    refine ⟨_, added.take (Config.resetCut u.freeCtr), added.drop (Config.resetCut u.freeCtr), step_resetDuring h hw e,
      ?_, ?_, ?_⟩
    · exact ⟨rfl, rfl, rfl, rfl, rfl, rfl, rfl, rfl, rfl, rfl, rfl, rfl, rfl, rfl, rfl, rfl, rfl, rfl⟩
    · rw [List.take_append_drop]
      exact hadded.symm
    · change s.sink.bytes ++ (u.sink.bytes.drop s.sink.bytes.length).take _ = _
      rw [← hadded, List.drop_left]

end Sys2Proof.Machine
end

section
/-! PROOF. O12 and O25: the operations give no response of their own; a host command adds the one for its
outcome (R295). -/

namespace Sys2Proof.Machine

/-- The operation gives no response; completed it leaves the flag `fatal`, and a fault sets it (R316). -/
abbrev Silent (s : State) (r : Res) : Prop :=
  r.Post (fun t => t.rsp = s.rsp ∧ t.fatal = s.fatal) fun t => t.rsp = s.rsp ∧ t.fatal = true

theorem Silent.after {s t : State} {r : Res} (hrsp : t.rsp = s.rsp) (hf : t.fatal = s.fatal) (h : Silent t r) :
    Silent s r :=
  Res.Post.mono h (fun _ h => ⟨h.1.trans hrsp, h.2.trans hf⟩) fun _ h => ⟨h.1.trans hrsp, h.2⟩

theorem Silent.andThen {s : State} {r : Res} {k : State → Res} (h : Silent s r)
    (hk : ∀ t, t.fatal = s.fatal → Silent t (k t)) : Silent s (r.andThen k) :=
  Res.Post.andThen h fun t ht => Silent.after ht.1 ht.2 (hk t ht.2)

theorem Lane.silent {cs : List (BitVec 8)} {s : State} {r : Res} (h : Lane cs s r) : Silent s r :=
  Res.Post.mono h (fun _ h => ⟨h.same.rsp, h.fatal⟩) fun _ h => ⟨h.same.rsp, h.fatal⟩

/-! ## The BitSink -/

theorem sinkWrite_silent (legal : Bool) (bs : List Bool) (s : State) : Silent s (sinkWrite legal bs s) := by
  rcases sinkWrite_cases legal bs s with ⟨-, e⟩ | ⟨-, -, e⟩ | ⟨-, -, e⟩ <;> rw [e] <;> exact ⟨rfl, rfl⟩

theorem opFlush_silent (count : BitVec 8) (value : Word32) (s : State) : Silent s (opFlush count value s) :=
  (sinkWrite_silent _ _ s).andThen fun _ _ => ⟨rfl, rfl⟩

theorem applyOps_silent (ops : List BitOp) (s : State) : Silent s (applyOps ops s) := by
  induction ops generalizing s with
  | nil => exact ⟨rfl, rfl⟩
  | cons op ops ih =>
    rw [applyOps, BitOp.apply_eq]
    exact (sinkWrite_silent _ _ s).andThen fun t _ => ih t

/-! ## The input stage -/

theorem blkInit_silent (s : State) : Silent s (blkInit s) := by
  unfold blkInit
  split
  · trivial
  · exact ⟨rfl, rfl⟩

theorem flushRun_silent (s : State) : Silent s (flushRun s) := by
  refine (flushRun_post s).mono ?_ fun _ h => h.elim
  rintro t (⟨-, rfl⟩ | ⟨-, -, rfl⟩) <;> exact ⟨rfl, rfl⟩

theorem blkWrite_silent (v : Byte) (s : State) : Silent s (blkWrite v s) := by
  unfold blkWrite
  split
  · exact ⟨rfl, rfl⟩
  split
  · exact (flushRun_silent s).andThen fun _ _ => ⟨rfl, rfl⟩
  split
  · trivial
  split
  · exact ⟨rfl, rfl⟩
  split
  · split
    · exact flushRun_silent { s.countRaw v with runLen := s.runLen + 1 }
    · exact ⟨rfl, rfl⟩
  · exact Silent.andThen (s := s) (flushRun_silent (s.countRaw v)) fun _ _ => ⟨rfl, rfl⟩

theorem blkClose_silent (s : State) : Silent s (blkClose s) := by
  unfold blkClose
  split
  · exact ⟨rfl, rfl⟩
  · exact Silent.andThen (s := s) (flushRun_silent { s with closed := true }) fun _ _ => ⟨rfl, rfl⟩

/-! ## The parts of the commands -/

theorem replay_silent (s : State) : Silent s (replay s) := by
  unfold replay
  split
  · trivial
  · exact (applyOps_silent _ s).andThen fun _ _ => ⟨rfl, rfl⟩

theorem emitBlock_silent (p : Params) {s : State} (hf : s.fatal = false) : Silent s (emitBlock p s) :=
  (blkClose_silent s).andThen fun t ht => (compress_lane p t (ht.trans hf)).silent.andThen fun u _ => replay_silent u

theorem footer_silent (s : State) : Silent s (footer s) :=
  (applyOps_silent _ s).andThen fun t _ => (sinkWrite_silent _ _ t).andThen fun u _ => opFlush_silent _ _ u

/-! ## The commands -/

/-- A command's operation adds one response, a word of `ws`, when it completes, and none when it takes a fault. -/
abbrev Responds (ws : List (BitVec 16)) (s : State) (r : Res) : Prop :=
  r.Post (fun t => ∃ w ∈ ws, t.rsp = s.rsp ++ [w]) fun t => t.rsp = s.rsp ∧ t.fatal = true

theorem Silent.thenResponds {ws : List (BitVec 16)} {s : State} {r : Res} {k : State → Res} (h : Silent s r)
    (hk : ∀ t, t.fatal = s.fatal → Responds ws t (k t)) : Responds ws s (r.andThen k) :=
  Res.Post.andThen h fun t ht => by simpa only [Responds, ht.1] using hk t ht.2

theorem responds_done {w : BitVec 16} {ws : List (BitVec 16)} {s t : State} (hw : w ∈ ws) (h : t.rsp = s.rsp ++ [w]) :
    Responds ws s (.done t) := ⟨w, hw, h⟩

theorem openOp_responds (owns : Bool) (level : BitVec 8) (s : State) :
    Responds [0x0000#16] s (openOp owns level s) := by
  unfold openOp
  split
  · have hrsp := s.openRegisters_rsp owns level
    have hf := s.openRegisters_fatal owns level
    generalize s.openRegisters owns level = t at hrsp hf ⊢
    exact Silent.thenResponds (.after hrsp hf (applyOps_silent _ t)) fun u _ =>
      (blkInit_silent u).thenResponds fun v _ => responds_done (List.mem_singleton_self _) rfl
  · exact ⟨rfl, rfl⟩

theorem wrbOp_responds (v : Byte) (s : State) : Responds [0x0000#16, 0x0100#16] s (wrbOp v s) :=
  (blkWrite_silent v s).thenResponds fun t _ => by
    split
    · exact ⟨0x0000#16, by simp, rfl⟩
    · exact ⟨0x0100#16, by simp, rfl⟩

theorem closeblkOp_responds (p : Params) {s : State} (hf : s.fatal = false) :
    Responds [0x0000#16] s (closeblkOp p s) := by
  unfold closeblkOp
  split
  · exact responds_done (List.mem_singleton_self _) rfl
  · exact (emitBlock_silent p hf).thenResponds fun t _ => (blkInit_silent t).thenResponds fun u _ =>
      responds_done (List.mem_singleton_self _) rfl

theorem finishOp_responds (p : Params) {s : State} (hf : s.fatal = false) : Responds [0x0000#16] s (finishOp p s) := by
  refine Silent.thenResponds ?_ fun t _ => (footer_silent t).thenResponds fun u _ =>
    responds_done (List.mem_singleton_self _) rfl
  split
  · exact ⟨rfl, rfl⟩
  · exact emitBlock_silent p hf

/-! ## The answer of an instruction -/

/-- R295, R108: the response `r` of the instruction `i`, which leads from `s` to `t`. -/
def IsResponse (i : Instr) (s t : State) (r : BitVec 16) : Prop :=
  r = 0x0000#16 ∨ (r = 0x0100#16 ∧ ∃ v, i = .wrb v) ∨ (r.extractLsb' 8 8 = 0x02#8 ∧ t = { s with rsp := t.rsp }) ∨
    (r = 0x03#8 ++ t.faultCode ∧ t.fatal = true)

/-- R317: a local answer. -/
theorem respondLocal_isResponse (i : Instr) (s : State) (f : HwFault) :
    ∃ r, (s.respondLocal f).rsp = s.rsp ++ [r] ∧ IsResponse i s (s.respondLocal f) r :=
  ⟨_, rfl, .inr (.inr (.inl ⟨by cases f <;> decide, rfl⟩))⟩

/-- R297, R316: a fatal answer, after what has left the responses as they were. -/
theorem respondFatal_isResponse (i : Instr) {s u : State} (hrsp : u.rsp = s.rsp) (hf : u.fatal = true) :
    ∃ r, u.respondFatal.rsp = s.rsp ++ [r] ∧ IsResponse i s u.respondFatal r :=
  ⟨_, congrArg (· ++ _) hrsp, .inr (.inr (.inr ⟨rfl, hf⟩))⟩

theorem hostCommand_answers {i : Instr} {ws : List (BitVec 16)} {ok : Bool} {op : State → Res} {s t : State}
    (hws : ∀ w ∈ ws, w = 0x0000#16 ∨ (w = 0x0100#16 ∧ ∃ v, i = .wrb v)) (hop : s.fatal = false → Responds ws s (op s))
    (e : hostCommand ok op s = .next t) : ∃ r, t.rsp = s.rsp ++ [r] ∧ IsResponse i s t r := by
  rcases hostCommand_eq_next.1 e with ⟨hf, rfl⟩ | ⟨-, -, rfl⟩ | ⟨hf, -, hd | ⟨u, hr, rfl⟩⟩
  · exact respondFatal_isResponse i rfl hf
  · exact respondLocal_isResponse i s _
  · obtain ⟨w, hw, hrsp⟩ := Res.Post.of_done (hop hf) hd
    exact ⟨w, hrsp, (hws w hw).imp_right .inl⟩
  · obtain ⟨hrsp, huf⟩ := Res.Post.of_raised (hop hf) hr
    exact respondFatal_isResponse i hrsp huf

theorem exec_hostCommand_answers {i : Instr} {s t : State} (hi : isHostCommand i = true) (e : exec i s = .next t) :
    ∃ r, t.rsp = s.rsp ++ [r] ∧ IsResponse i s t r := by
  cases i with
  | openStream owns level => exact hostCommand_answers (by simp) (fun _ => openOp_responds owns level s) e
  | wrb v => exact hostCommand_answers (by simp) (fun _ => wrbOp_responds v s) e
  | closeblk => exact hostCommand_answers (by simp) (closeblkOp_responds _) e
  | finish => exact hostCommand_answers (by simp) (finishOp_responds _) e
  | seek | read | setlen | hcReserved0 | hcReserved8F =>
    obtain rfl := Host.Outcome.next.inj e
    exact respondLocal_isResponse _ s _
  | _ => cases hi

theorem unlessFatal_silent {op : State → Res} {s t : State} (h : Silent s (op s)) (e : unlessFatal op s = .next t) :
    t.rsp = s.rsp :=
  unlessFatal_post (P := fun t => t.rsp = s.rsp) rfl (Res.Post.mono h (fun _ h => h.1) fun _ h => h.1) e

theorem exec_harness_silent {i : Instr} {s t : State} (hi : isHostCommand i = false) (e : exec i s = .next t) :
    t.rsp = s.rsp := by
  cases i with
  | openStream | wrb | closeblk | finish | seek | read | setlen | hcReserved0 | hcReserved8F => cases hi
  | bits | boolean | unary | int32 | boReserved00 | boReserved0607 | boReserved080F | boReserved101F | boReserved203F
  | boReserved407F | boReserved80FF => exact unlessFatal_silent (sinkWrite_silent _ _ s) e
  | flush c v => exact unlessFatal_silent (opFlush_silent c v s) e
  | blkInit => exact unlessFatal_silent (blkInit_silent s) e
  | blkWrite v => exact unlessFatal_silent (blkWrite_silent v s) e
  | rle1Flushrun => exact unlessFatal_silent (flushRun_silent s) e
  | blkClose => exact unlessFatal_silent (blkClose_silent s) e
  | replay => exact unlessFatal_silent (replay_silent s) e
  | _ => exact (exec_sameOutsideLane rfl e).rsp

/-- Settles O12, by the kind of the instruction. -/
theorem oneResponsePerCommand : Obligations.OneResponsePerCommand :=
  fun _ _ _ e => ⟨fun hi => exec_harness_silent hi e, fun hi => exec_hostCommand_answers hi e⟩

/-! ## WRB -/

/-- R151: a write completes, while the pending run fits and the raw count does not wrap. -/
theorem blkWrite_completes {s : State} (hfits : s.len.toNat + runCost s.runLen.toNat ≤ s.cap.toNat)
    (hrun : s.runLen.toNat ≤ 254) (hr : s.rawCount ≠ 0xFFFFFFFF#32) (v : Byte) : ∃ t, blkWrite v s = .done t := by
  cases ha : accepts s v with
  | false =>
    obtain ⟨t, ht, -⟩ := flushRun_completes hfits
    rw [blkWrite_of_not_accepts ha, ht]
    split <;> exact ⟨_, rfl⟩
  | true =>
    have hneed := (accepts_eq_true.1 ha).2
    by_cases h0 : s.runLen = 0
    · exact ⟨_, blkWrite_of_first ha hr h0⟩
    by_cases hv : v = s.runByte
    · rw [writeNeed_of_same h0 hv] at hneed
      have hlen : (s.runLen + 1).toNat = s.runLen.toNat + 1 := by bv_omega
      obtain ⟨t, ht, -⟩ := flushRun_completes (s := { s.countRaw v with runLen := s.runLen + 1 })
        (by rw [← hlen] at hneed; exact hneed)
      rw [blkWrite_of_same ha hr h0 hv, ht]
      split <;> exact ⟨_, rfl⟩
    · obtain ⟨t, ht, -⟩ := flushRun_completes (s := s.countRaw v) hfits
      exact ⟨_, by rw [blkWrite_of_other ha hr h0 hv, ht, Res.andThen_done]⟩

/-- R287: the response to a write that completes. -/
theorem exec_wrb_of_blkWrite {s t : State} {v : Byte} (hf : s.fatal = false) (ho : s.streamOpen = true)
    (ht : blkWrite v s = .done t) :
    exec (.wrb v) s = .next { t with rsp := s.rsp ++ [if accepts s v then 0x0000#16 else 0x0100#16] } := by
  obtain ⟨hrsp, -⟩ := (blkWrite_silent v s).of_done ht
  refine hostCommand_of_done hf ho ?_
  rw [wrbOp, ht, Res.andThen_done, ← hrsp]
  split <;> rfl

/-- Settles O25: the write completes, and its result is the response. -/
theorem wrbResponse : Obligations.WrbResponse := by
  intro v s hf ho hin hr
  obtain ⟨t, ht⟩ := blkWrite_completes hin.fits hin.run hr v
  refine ⟨t, unlessFatal_of_done hf ht, ((blkWrite_silent v s).of_done ht).1, ?_⟩
  rw [exec_wrb_of_blkWrite hf ho ht]
  simp only [accepts_eq_true]
  rfl

end Sys2Proof.Machine
end

section
/-! PROOF. O51, O52 and O53: REPLAY (R291), OPEN (R286), and the commands on an empty Block (R288, R289): what they
write is one write to the open sink. -/

namespace Sys2Proof.Machine

/-! ## Bits of the stream -/

theorem bitsOf_setWidth {w n m : Nat} (h : n ≤ m) (v : BitVec w) : bitsOf n (v.setWidth m) = bitsOf n v := by
  refine List.map_congr_left fun k hk => ?_
  have hk := List.mem_range.1 hk
  rw [BitVec.getLsbD_setWidth, decide_eq_true (by omega), Bool.true_and]

theorem bitsOf_injective {w : Nat} {a b : BitVec w} (h : bitsOf w a = bitsOf w b) : a = b := by
  refine BitVec.eq_of_getLsbD_eq fun i hi => ?_
  have hbit := congrArg (·.getD (w - 1 - i) false) h
  simp only [getD_bitsOf (show w - 1 - i < w by omega)] at hbit
  rwa [show w - 1 - (w - 1 - i) = i by omega] at hbit

/-- R105, R117: the bits of a 48-bit magic, high half first. -/
theorem streamOf_magicOps (m : BitVec 48) : streamOf (magicOps m) = bitsOf 48 m := by
  rw [← bitsOf_extractLsb'_append 24 24 m, magicOps, streamOf_cons, streamOf_cons, streamOf_nil, List.append_nil]
  exact congrArg₂ (· ++ ·) (bitsOf_setWidth (by decide) _) (bitsOf_setWidth (by decide) _)

/-- R107, R62: the bits of a recorded `INT32`. -/
theorem streamOf_int32Ops (v : Word32) : streamOf (int32Ops v) = bitsOf 32 v := by
  rw [← bitsOf_extractLsb'_append 16 16 v, int32Ops, streamOf_cons, streamOf_cons, streamOf_nil, List.append_nil]
  exact congrArg₂ (· ++ ·) (bitsOf_setWidth (by decide) _) (bitsOf_setWidth (by decide) _)

theorem BitSink.eq_of_fields {k l : BitSink} (hacc : k.acc = l.acc) (hnacc : k.nacc = l.nacc)
    (hclosed : k.closed = l.closed) (hbytes : k.bytes = l.bytes) : k = l := by
  cases k
  cases l
  cases hacc
  cases hnacc
  cases hclosed
  cases hbytes
  rfl

/-- R60: a byte written to an empty, byte-aligned accumulator is pushed. -/
theorem BitSink.putBits_byte {k : BitSink} (hn : k.nacc = 0#3) (ha : k.acc = 0#8) (b : Byte) :
    k.putBits (bitsOf 8 b) = { k with bytes := k.bytes ++ [.byte b] } := by
  have happ := k.appends_putBits (bitsOf 8 b)
  have hnacc : (k.putBits (bitsOf 8 b)).nacc = 0#3 := BitVec.eq_of_toNat_eq (by
    rw [BitSink.putBits_nacc, hn, length_bitsOf]
    rfl)
  have hacc : (k.putBits (bitsOf 8 b)).acc = 0#8 := BitVec.eq_of_toNat_eq (by
    have hlt := BitSink.putBits_acc (k := k) (by rw [hn, ha]; decide) (bitsOf 8 b)
    rw [hnacc] at hlt
    exact Nat.lt_one_iff.1 hlt)
  obtain ⟨pushed, hbytes, hbits⟩ := happ.bits_eq hn
  rw [hnacc, show bitsOf (0#3).toNat _ = [] from rfl, List.append_nil] at hbits
  have hlen := congrArg List.length hbits
  rw [length_bitsOf, length_bitsOfBytes] at hlen
  obtain ⟨c, rfl⟩ := List.length_eq_one_iff.1 (show pushed.length = 1 by omega)
  obtain rfl := bitsOf_injective (hbits.trans (List.append_nil _))
  exact BitSink.eq_of_fields (hacc.trans ha.symm) (hnacc.trans hn.symm) happ.closed hbytes

theorem BitSink.putBits_bitsOfBytes {k : BitSink} (hn : k.nacc = 0#3) (ha : k.acc = 0#8) (bytes : List Byte) :
    k.putBits (bitsOfBytes bytes) = { k with bytes := k.bytes ++ bytes.map .byte } := by
  induction bytes generalizing k with
  | nil => simp [bitsOfBytes, BitSink.putBits_nil]
  | cons b bytes ih =>
    rw [bitsOfBytes_cons, BitSink.putBits_append, BitSink.putBits_byte hn ha]
    exact (ih (k := { k with bytes := k.bytes ++ [.byte b] }) hn ha).trans (by simp)

/-! ## REPLAY -/

theorem rotl1_eq (v : Word32) : rotl1 v = v.rotateLeft 1 := rfl

/-- R291: the recorded operations reach the open sink, and the CRC is folded. -/
theorem replay_of {s : State} (hb : s.blocksEmitted ≠ 0xFFFFFFFF#32) (hc : s.sink.closed = false)
    (hl : ∀ op ∈ s.bopq, op.legal = true) :
    replay s = .done ({ s with sink := s.sink.putBits (streamOf s.bopq) } : State).foldBlock := by
  rw [replay, if_neg hb, applyOps_eq_done hc hl, Res.andThen_done]

/-- Settles O51: a wrapping count is refused first; otherwise the recorded bits are one write. -/
theorem replayOperation : Obligations.ReplayOperation := by
  refine fun s hf => ⟨fun hb => unlessFatal_of_refuse hf (if_pos hb), fun hb hc hl => ?_⟩
  exact ⟨_, s.sink.appends_putBits _, unlessFatal_of_done hf (replay_of hb hc hl)⟩

/-! ## OPEN -/

theorem toNat_clampLevel (level : BitVec 8) : (clampLevel level).toNat = min 9 (max 1 level.toNat) := by
  rw [clampLevel, BitVec.toNat_ofNat, Nat.mod_eq_of_lt (by rw [Config.levelMax]; omega)]
  rfl

/-- R91: the stream header is four bytes. -/
theorem streamOf_headerBytes (level : BitVec 4) :
    streamOf (headerBytes level) = bitsOfBytes [0x42#8, 0x5A#8, 0x68#8, BitVec.ofNat 8 (0x30 + level.toNat)] := by
  revert level
  decide

/-- R286: the state OPEN leaves on a writable sink. -/
theorem openOp_of_writable {s : State} (hw : s.sinkWritable = true) (owns : Bool) (level : BitVec 8) :
    openOp owns level s =
      .done ({ s.openRegisters owns level with
        sink := { acc := 0, nacc := 0, closed := false, bytes := s.sink.bytes ++
          [.byte 0x42#8, .byte 0x5A#8, .byte 0x68#8, .byte (BitVec.ofNat 8 (0x30 + (clampLevel level).toNat))] } } :
        State).newBlock.respondOk := by
  have hheader : applyOps (headerBytes (s.openRegisters owns level).cfgLevel) (s.openRegisters owns level) = _ :=
    applyOps_eq_done rfl (headerBytes_legal _)
  rw [streamOf_headerBytes, BitSink.putBits_bitsOfBytes rfl rfl] at hheader
  rw [openOp, if_pos hw]
  refine (congrArg (Res.andThen · _) hheader).trans ?_
  rw [Res.andThen_done]
  refine (congrArg (Res.andThen · _) (blkInit_of_not_wrap (show (0#32) ≠ 0xFFFFFFFF#32 by decide))).trans ?_
  rfl

/-- Settles O52: the check of the sink, then the registers, the header and the new Block. -/
theorem openCommand : Obligations.OpenCommand := by
  intro owns level s hf ho
  have hok : (!s.streamOpen) = true := by rw [ho]; rfl
  refine ⟨fun hw => ?unwritable, fun hw => ⟨_, hostCommand_of_done hf hok (openOp_of_writable hw owns level), ?_⟩⟩
  case unwritable =>
    have hraised : openOp owns level s = .raised (s.haltedWith 0x10#8) := by
      rw [openOp, if_neg (by rw [hw]; nofun)]
      exact raise_of_not_fatal hf .config
    have hcode : (s.haltedWith 0x10#8).faultCode = 0x10#8 := rfl
    refine (hostCommand_of_raised hf hok hraised).trans ?_
    rw [State.respondFatal, hcode]
    rfl
  have hlevel := toNat_clampLevel level
  rw [← hlevel]
  exact ⟨rfl, rfl, rfl, rfl, rfl, rfl, rfl, rfl, capacity_toNat (clampLevel_le level), rfl, rfl, rfl, rfl, rfl, rfl,
    rfl, rfl, hf, rfl, rfl, rfl, rfl, rfl, rfl, rfl⟩

/-! ## The end of the stream -/

/-- R98, R65: the bits of the footer of a stream with this CRC, up to the byte boundary. -/
def footerBits (crc : Word32) (nacc : BitVec 3) : List Bool :=
  bitsOf 48 Config.eosMagic ++ bitsOf 32 crc ++ padBits nacc

/-- R289: the state FINISH leaves of a stream whose last Block is done. -/
def State.finished (s : State) : State :=
  { s with
    sink := { s.sink.putBits (footerBits s.streamCrc s.sink.nacc) with
      closed := true
      bytes := (s.sink.putBits (footerBits s.streamCrc s.sink.nacc)).bytes ++ if s.cfgOwnsSink then [.close] else [] }
    streamOpen := false
    phase := .idle
    rsp := s.rsp ++ [0x0000#16] }

/-- R65: whole bytes leave the padding as it is. -/
theorem padBits_putBits {k : BitSink} {bs : List Bool} (h : bs.length % 8 = 0) :
    padBits (k.putBits bs).nacc = padBits k.nacc := by
  have hlt := k.nacc.isLt
  have hsame : (k.nacc.toNat + bs.length) % 8 = k.nacc.toNat := by omega
  rw [padBits, padBits, BitSink.putBits_nacc, hsame]

theorem opFlush_of {s : State} (hc : s.sink.closed = false) :
    opFlush 0#8 0#32 s = .done { s with sink := { s.sink.putBits (padBits s.sink.nacc) with closed := true } } := by
  rw [opFlush, sinkWrite_legal (legal := flushLegal 0#8 0#32) hc rfl, Res.andThen_done]

theorem footer_of {s : State} (hc : s.sink.closed = false) :
    footer s =
      .done { s with sink := { s.sink.putBits (footerBits s.streamCrc s.sink.nacc) with closed := true } } := by
  have hmagic := applyOps_eq_done (ops := magicOps Config.eosMagic) hc (by decide)
  rw [streamOf_magicOps] at hmagic
  have hcrc : opInt32 32#8 s.streamCrc { s with sink := s.sink.putBits (bitsOf 48 Config.eosMagic) } = _ :=
    sinkWrite_legal (by rw [BitSink.putBits_closed]; exact hc) rfl
  dsimp only at hcrc
  rw [int32Bits_eq_bitsOf, ← BitSink.putBits_append] at hcrc
  have hflush := opFlush_of
    (s := { s with sink := s.sink.putBits (bitsOf 48 Config.eosMagic ++ bitsOf 32 s.streamCrc) })
    (by rw [BitSink.putBits_closed]; exact hc)
  dsimp only at hflush
  rw [padBits_putBits (by simp), ← BitSink.putBits_append] at hflush
  rw [footer, hmagic, Res.andThen_done, hcrc, Res.andThen_done, hflush, footerBits]

theorem footer_closeStream {s : State} (hc : s.sink.closed = false) :
    ((footer s).andThen fun t => .done t.closeStream.respondOk) = .done s.finished := by
  rw [footer_of hc]
  rfl

/-- R98: the stream ends at a byte boundary. -/
theorem BitSink.putBits_footerBits_nacc (k : BitSink) (crc : Word32) :
    (k.putBits (footerBits crc k.nacc)).nacc = 0#3 := by
  have hsame := padBits_putBits (k := k) (bs := bitsOf 48 Config.eosMagic ++ bitsOf 32 crc) (by simp)
  rw [footerBits, BitSink.putBits_append, ← hsame]
  exact BitSink.putBits_padBits_nacc _

/-- Settles O53: CLOSEBLK returns at once, and FINISH goes on to the footer. -/
theorem emptyBlockCommands : Obligations.EmptyBlockCommands := by
  intro s hf ho hr
  refine ⟨hostCommand_of_done hf ho (if_pos hr), fun hc =>
    ⟨_, s.sink.appends_putBits _, s.sink.putBits_footerBits_nacc _, hostCommand_of_done hf ho ?_⟩⟩
  rw [finishOp, if_pos (show s.rawCount = 0 from hr), Res.andThen_done, footer_closeStream hc]
  rfl

end Sys2Proof.Machine
end

section
/-! PROOF. O56 and O60: CLOSEBLK and FINISH on a Block with raw bytes (R288, R289). Both run BLK.CLOSE, COMPRESS and
REPLAY; after that one begins the next Block and the other ends the stream. -/

namespace Sys2Proof.Machine

/-- R155, R293: between commands, a Block with raw bytes in an open stream; no counter is at its end. -/
structure State.EndsBlock (s : State) : Prop where
  between : s.BetweenCommands
  fatal : s.fatal = false
  stream : s.streamOpen = true
  raw : s.rawCount ≠ 0
  emitted : s.blocksEmitted ≠ 0xFFFFFFFF#32
  nextId : s.nextId ≠ 0xFFFFFFFF#32

/-- R156: BLK.CLOSE has flushed the pending run of `s` and left everything else but its own registers. -/
def Closed (s c : State) : Prop :=
  c = { s with b := c.b, len := c.len, runLen := 0, closed := true, blockCrc := ~~~ s.crc, phase := .queued }

/-- R156: BLK.CLOSE leaves the bytes of the Block. -/
theorem blkClose_holdsBlock {s : State} (h : s.EndsBlock) :
    ∃ c bs, blkClose s = .done c ∧ c.HoldsBlock bs ∧ Closed s c := by
  have hlive := h.between.inv.live h.fatal
  have hawaiting := h.between.awaiting h.fatal
  obtain ⟨-, hopen, -⟩ := hawaiting.open_ h.stream
  obtain ⟨t, hflush, hframe⟩ := flushRun_completes (s := { s with closed := true }) hlive.fits
  have hdone : blkClose s = .done { t with blockCrc := ~~~ t.crc, phase := .queued } := by
    rw [blkClose, if_neg (by simp [hopen]), hflush, Res.andThen_done]
  have hclosed := (blkClose_keepsInv hlive).of_done hdone
  obtain ⟨-, hne, -⟩ := (blkClose_nonempty hlive (hawaiting.streaming h.stream) hopen h.raw).of_done hdone
  obtain ⟨bs, hbs⟩ := Option.isSome_iff_exists.1 hclosed.filled
  have hpos : t.len.toNat ≠ 0 := fun h0 => hne (BitVec.eq_of_toNat_eq h0)
  have hfits := hclosed.fits
  have hcap := hclosed.cap
  have hlevel := hclosed.level
  refine ⟨_, bs, hdone, ⟨hclosed.fatal, by dsimp only; omega, by omega, by omega, hbs⟩, ?_⟩
  rw [Closed, hframe]

/-! ## A fault -/

/-- R316, R297: the machine is halted, and the command that `s` has begun is answered with the fault `code`. -/
def Halts (s : State) (code : BitVec 8) (v : State) : Prop :=
  v.fatal = true ∧ v.phase = .fatal ∧ v.faultCode = code ∧ v.faultBlk = s.blkId ∧ v.sink = s.sink ∧
    v.rsp = s.rsp ++ [0x03#8 ++ code]

section
variable {s c u : State} (h : s.EndsBlock) (hclose : blkClose s = .done c)

theorem Closed.halts (hc : Closed s c) {cs : List (BitVec 8)} (hu : LaneRaised cs c u) :
    Halts s u.faultCode u.respondFatal := by
  refine ⟨hu.fatal, hu.phase, rfl, hu.faultBlk.trans ?_, hu.same.sink.trans ?_,
    congrArg (· ++ _) (hu.same.rsp.trans ?_)⟩
  · rw [hc]
  · rw [hc]
  · rw [hc]

include h hclose

/-- R316: a fault of the lane ends both commands. -/
theorem exec_blockCommands_of_raised (hraised : compress Config.params c = .raised u) :
    exec .closeblk s = .next u.respondFatal ∧ exec .finish s = .next u.respondFatal := by
  have hemit : emitBlock Config.params s = .raised u := by
    rw [emitBlock, hclose, Res.andThen_done, hraised, Res.andThen_raised]
  refine ⟨hostCommand_of_raised h.fatal h.stream ?_, hostCommand_of_raised h.fatal h.stream ?_⟩
  · rw [closeblkOp, if_neg h.raw, hemit, Res.andThen_raised]
  · rw [finishOp, if_neg h.raw, hemit, Res.andThen_raised]

end

/-! ## The Block is emitted -/

/-- R291: the Block of `s` has gone to the sink as `bits`, and its CRC into that of the stream. -/
structure BlockEmitted (s : State) (bits : List Bool) (v : State) : Prop where
  fatal : v.fatal = false
  sink : v.sink = s.sink.putBits bits
  streamCrc : v.streamCrc = s.streamCrc.rotateLeft 1 ^^^ ~~~ s.crc
  blocksEmitted : v.blocksEmitted = s.blocksEmitted + 1
  nextId : v.nextId = s.nextId
  streamOpen : v.streamOpen = true
  rsp : v.rsp = s.rsp
  cfgLevel : v.cfgLevel = s.cfgLevel
  cfgOwnsSink : v.cfgOwnsSink = s.cfgOwnsSink

/-- R98: the first 80 bits of a recording that begins with a magic and a CRC. -/
theorem take_streamOf_header {ops rest : List BitOp} {m : BitVec 48} {crc : Word32}
    (h : ops.take 6 = magicOps m ++ (int32Ops crc ++ rest)) :
    (streamOf ops).take 80 = bitsOf 48 m ++ bitsOf 32 crc := by
  rw [← List.take_append_drop 6 ops, h, streamOf_append, streamOf_append, streamOf_append, streamOf_magicOps,
    streamOf_int32Ops, ← List.append_assoc, List.append_assoc]
  exact List.take_left' (by simp)

section
variable {s c q v : State} (h : s.EndsBlock)
include h

/-- R156, R294, R291: what BLK.CLOSE and COMPRESS leave is replayed. -/
theorem emitBlock_emits {p : Params} (hclose : blkClose s = .done c) (hc : Closed s c) (hq : compress p c = .done q) :
    ∃ v, emitBlock p s = .done v ∧ BlockEmitted s (streamOf q.bopq) v := by
  have hawaiting := h.between.awaiting h.fatal
  obtain ⟨hsink, -, hempty⟩ := hawaiting.open_ h.stream
  have hcf : c.fatal = false := by rw [hc]; exact h.fatal
  have hcl : c.RecordsLegal := by rw [hc]; simp [State.RecordsLegal, hempty]
  obtain ⟨hsame, hqf, -, -⟩ := (compress_lane p c hcf).of_done hq
  have hlegal := (compress_keepsLegal hcl p).of_done hq
  have hqs : q.sink = s.sink := hsame.sink.trans (by rw [hc])
  have hqb : q.blocksEmitted = s.blocksEmitted := hsame.blocksEmitted.trans (by rw [hc])
  have hreplay := replay_of (s := q) (by rw [hqb]; exact h.emitted) (by rw [hqs]; exact hsink) hlegal
  have hemit : emitBlock p s = .done ({ q with sink := q.sink.putBits (streamOf q.bopq) } : State).foldBlock := by
    rw [emitBlock, hclose, Res.andThen_done, hq, Res.andThen_done, hreplay]
  refine ⟨_, hemit, hqf.trans hcf, congrArg (BitSink.putBits · (streamOf q.bopq)) hqs, ?_,
    congrArg (· + 1) hqb, hsame.nextId.trans ?_, hsame.streamOpen.trans ?_,
    hsame.rsp.trans ?_, hsame.cfgLevel.trans ?_, hsame.cfgOwnsSink.trans ?_⟩
  · change rotl1 q.streamCrc ^^^ q.blockCrc = _
    rw [rotl1_eq, hsame.streamCrc, hsame.blockCrc, hc]
  · rw [hc]
  · rw [hc]
    exact h.stream
  · rw [hc]
  · rw [hc]
  · rw [hc]

variable {bits : List Bool} (hv : BlockEmitted s bits v)
include hv

theorem State.EndsBlock.sink_open : v.sink.closed = false := by
  rw [hv.sink, BitSink.putBits_closed]
  exact ((h.between.awaiting h.fatal).open_ h.stream).1

variable (hemit : emitBlock Config.params s = .done v)
include hemit

/-- R288: CLOSEBLK begins the next Block. -/
theorem exec_closeblk_of_emitted : exec .closeblk s = .next v.newBlock.respondOk := by
  refine hostCommand_of_done h.fatal h.stream ?_
  have hid : v.nextId ≠ 0xFFFFFFFF#32 := by rw [hv.nextId]; exact h.nextId
  rw [closeblkOp, if_neg h.raw, hemit, Res.andThen_done, blkInit_of_not_wrap hid, Res.andThen_done]

/-- R289: FINISH ends the stream. -/
theorem exec_finish_of_emitted : exec .finish s = .next v.finished := by
  refine hostCommand_of_done h.fatal h.stream ?_
  rw [finishOp, if_neg h.raw, hemit, Res.andThen_done, footer_closeStream (h.sink_open hv)]

end

/-- R98, R137: the footer ends the stream; a close carries no bits. -/
theorem State.finished_stream (s : State) :
    s.finished.sink.stream = s.sink.stream ++ footerBits s.streamCrc s.sink.nacc := by
  rw [← (s.sink.appends_putBits _).stream, State.finished]
  cases s.cfgOwnsSink <;> simp [BitSink.stream, SinkMsg.bits]

theorem State.finished_nacc (s : State) : s.finished.sink.nacc = 0#3 := by
  rw [State.finished]
  exact s.sink.putBits_footerBits_nacc s.streamCrc

theorem State.finished_bytes (s : State) :
    ∃ added : List Byte, s.finished.sink.bytes =
      s.sink.bytes ++ added.map SinkMsg.byte ++ if s.cfgOwnsSink then [.close] else [] := by
  obtain ⟨added, hadded⟩ := (s.sink.appends_putBits (footerBits s.streamCrc s.sink.nacc)).pushed
  exact ⟨added, congrArg (· ++ _) hadded⟩

/-- Settles O56: BLK.CLOSE leaves a Block, and COMPRESS halts or leaves a recording that is replayed. -/
theorem blockCommandsComplete : Obligations.BlockCommandsComplete := by
  intro s hbetween hf ho hr hb hid
  have h : s.EndsBlock := ⟨hbetween, hf, ho, hr, hb, hid⟩
  obtain ⟨c, bs, hclose, hblock, hc⟩ := blkClose_holdsBlock h
  have hexec : exec .blkClose s = .next c := unlessFatal_of_done hf hclose
  have hlen : 1 ≤ bs.length := hblock.length ▸ hblock.nonempty
  have hlane := compress_lane Config.params c hblock.fatal
  have hfails : c.laneFails.contains c.blkId = s.laneFails.contains s.blkId := by rw [hc]
  cases hl : s.laneFails.contains s.blkId with
  | true =>
    have hraised := compress_of_laneFails Config.params hblock.fatal (hfails.trans hl)
    have hhalts := hc.halts (hlane.of_raised hraised)
    obtain ⟨hcloseblk, hfinish⟩ := exec_blockCommands_of_raised h hclose hraised
    exact ⟨c, _, _, bs, hexec, hblock.buffer, hlen, hcloseblk, hfinish, by rw [if_pos rfl]; exact ⟨hhalts, hhalts⟩⟩
  | false =>
    cases hov : sortOverflows Config.params bs with
    | true =>
      obtain ⟨u, hraised, hu⟩ := compress_halted hblock (hfails.trans hl) _ hov
      have hhalts := hc.halts (hlane.of_raised hraised)
      rw [hu.faultCode] at hhalts
      obtain ⟨hcloseblk, hfinish⟩ := exec_blockCommands_of_raised h hclose hraised
      exact ⟨c, _, _, bs, hexec, hblock.buffer, hlen, hcloseblk, hfinish, by
        rw [if_neg nofun, if_pos hov]
        exact ⟨hhalts, hhalts⟩⟩
    | false =>
      obtain ⟨u, q, hq, hu, hcompressed⟩ := compress_completes hblock (hfails.trans hl) _ hov
      obtain ⟨v, hemit, hv⟩ := emitBlock_emits h hclose hc hq
      obtain ⟨added, hadded⟩ := v.finished_bytes
      obtain ⟨-, hqf, -, -⟩ := hlane.of_done hq
      refine ⟨c, _, _, bs, hexec, hblock.buffer, hlen, exec_closeblk_of_emitted h hv hemit,
        exec_finish_of_emitted h hv hemit, ?_⟩
      rw [if_neg nofun, if_neg (by rw [hov]; nofun)]
      have happ := s.sink.appends_putBits (streamOf q.bopq)
      rw [← hv.sink] at happ
      have hrsp := congrArg (· ++ [0x0000#16]) hv.rsp
      refine ⟨q, unlessFatal_of_done hblock.fatal hq, hqf.trans hblock.fatal, ?header, happ, hv.fatal, rfl, hv.nextId,
        congrArg (· + 1) hv.nextId, rfl, rfl, rfl, hv.streamCrc, hv.blocksEmitted, hv.streamOpen, hrsp, hv.fatal, rfl,
        rfl, rfl, v.finished_nacc, hv.streamCrc, hv.blocksEmitted, hrsp,
        ⟨added, by rw [← hv.cfgOwnsSink]; exact hadded⟩, ?stream⟩
      case header =>
        obtain ⟨ops, hbopq, -, htake⟩ := hcompressed.bopq
        have hbefore : u.bopq = [] := hu.bopq.trans (by rw [hc]; exact ((hbetween.awaiting hf).open_ ho).2.2)
        have hcrc : u.blockCrc = ~~~ s.crc := hu.blockCrc.trans (by rw [hc])
        rw [hbopq, hbefore, List.nil_append]
        rw [hcrc] at htake
        exact take_streamOf_header (m := Config.blockMagic) htake
      case stream =>
        rw [v.finished_stream, happ.stream]
        rfl

end Sys2Proof.Machine
end

section
/-! PROOF. O60: the byte a full Block rejects is the first of the next Block (R293), whose capacity is at least one
level. -/

namespace Sys2Proof.Machine

/-- R151, R287: a full Block rejects a byte and stays as it is. -/
theorem exec_wrb_of_full {s : State} (hf : s.fatal = false) (ho : s.streamOpen = true) (hfull : s.full = true)
    (v : Byte) : exec (.wrb v) s = .next s.respondReject := by
  have hreject : accepts s v = false := Bool.eq_false_iff.2 fun ha => by simp [(accepts_eq_true.1 ha).1] at hfull
  rw [exec_wrb_of_blkWrite hf ho (if_pos hfull), hreject]
  rfl

/-- R150, R151, R287: a new Block accepts any byte. -/
theorem exec_wrb_of_newBlock {s : State} (hf : s.fatal = false) (ho : s.streamOpen = true) (hmin : 1 ≤ s.cfgLevel.toNat)
    (hmax : s.cfgLevel.toNat ≤ 9) (v : Byte) :
    exec (.wrb v) s.newBlock.respondOk =
      .next { s.newBlock.countRaw v with runByte := v, runLen := 1, rsp := s.rsp ++ [0x0000#16] ++ [0x0000#16] } := by
  have hcap : 1 ≤ s.newBlock.respondOk.cap.toNat := by
    have hlevel : s.newBlock.respondOk.cap.toNat = 100000 * s.cfgLevel.toNat := capacity_toNat hmax
    omega
  have ha : accepts s.newBlock.respondOk v = true := accepts_eq_true.2 ⟨rfl, (writeNeed_of_first rfl v).trans_le hcap⟩
  have hwrite := blkWrite_of_first ha (show (0#32) ≠ 0xFFFFFFFF#32 by decide) rfl
  rw [exec_wrb_of_blkWrite (s := s.newBlock.respondOk) hf ho hwrite, if_pos ha]
  rfl

/-- Settles O60: after the REJECT, CLOSEBLK ends the Block as O56 says, and the new Block has room. -/
theorem rejectedByteIsAcceptedNext : Obligations.RejectedByteIsAcceptedNext := by
  intro s v hbetween hf ho hfull hr hl hb hid
  refine ⟨exec_wrb_of_full hf ho hfull v, ?_⟩
  have h : s.respondReject.EndsBlock := ⟨hbetween.respond _ _, hf, ho, hr, hb, hid⟩
  obtain ⟨c, bs, hclose, hblock, hc⟩ := blkClose_holdsBlock h
  have hexec : exec .blkClose s.respondReject = .next c := unlessFatal_of_done hf hclose
  have hfails : c.laneFails.contains c.blkId = false := by rw [hc]; exact hl
  cases hov : sortOverflows Config.params bs with
  | true =>
    obtain ⟨u, hraised, hu⟩ := compress_halted hblock hfails _ hov
    obtain ⟨hcloseblk, -⟩ := exec_blockCommands_of_raised h hclose hraised
    obtain ⟨hfatal, -⟩ := hc.halts ((compress_lane Config.params c hblock.fatal).of_raised hraised)
    exact ⟨c, _, bs, hexec, hblock.buffer, hcloseblk, by rw [if_pos hov]; exact ⟨hfatal, hu.faultCode⟩⟩
  | false =>
    obtain ⟨_, q, hq, -, -⟩ := compress_completes hblock hfails _ hov
    obtain ⟨t, hemit, ht⟩ := emitBlock_emits h hclose hc hq
    have hwrb := exec_wrb_of_newBlock ht.fatal ht.streamOpen (by rw [ht.cfgLevel]; exact hbetween.level ho)
      (by rw [ht.cfgLevel]; exact hbetween.inv.input.level) v
    refine ⟨c, _, bs, hexec, hblock.buffer, exec_closeblk_of_emitted h ht hemit, ?_⟩
    rw [if_neg (by rw [hov]; nofun)]
    refine ⟨_, hwrb, ?rsp, rfl, rfl, rfl, rfl, ht.nextId⟩
    case rsp =>
      rw [ht.rsp, List.append_assoc]
      exact List.append_assoc s.rsp [0x0100#16] [0x0000#16, 0x0000#16]

end Sys2Proof.Machine
end
